-- ==== Sys2Proof/Word.lean ====
section
/-! DEFINITION. The word types of the Relleas C960 (R1): bytes, halves, words and doublewords. -/

namespace Sys2Proof

/-- A byte is 8 bits (R1). -/
abbrev Byte := BitVec 8
/-- A word is 32 bits (R1). -/
abbrev Word := BitVec 32
/-- A doubleword is 64 bits (R1). -/
abbrev DWord := BitVec 64
/-- A program counter holds bits [51:0] of a virtual address (R99, R180). -/
abbrev Pc := BitVec 52

end Sys2Proof
end

