-- ==== Sys2Proof/Syntax.lean ====
section
/-! DEFINITION. The instruction words of the C960 as structured operands (R61 to R65 and the encoding
table of each chapter), and the machine's steps that have no word (spec/95). `Instr` has one constructor
for each row of the opcode table. Literal words whose bits are checked only at issue stay raw words. -/

namespace Sys2Proof

/-- The predicate field PN, PI of R62. -/
structure Pred where
  neg : Bool
  idx : BitVec 3
  deriving DecidableEq, Repr

/-- A claimed extension word (R65); its reserved bits are 0 once decoded. -/
structure Ext where
  ty : BitVec 4
  c  : BitVec 7
  bu : Bool
  rm : BitVec 3
  deriving DecidableEq, Repr

/-- Shape VV (R61) with its extension word, if claimed (R64). -/
structure VV where
  p : Pred
  d : BitVec 7
  a : BitVec 7
  b : BitVec 7
  ext : Option Ext
  deriving DecidableEq, Repr

/-- Shape VU (R61) with FN fixed by the form. -/
structure VU where
  p : Pred
  d : BitVec 7
  a : BitVec 7
  ext : Option Ext
  deriving DecidableEq, Repr

/-- Shape VP (R61), conditions 0 to 7 (R107, R144). -/
structure VP where
  p : Pred
  cnd : BitVec 3
  pd : BitVec 3
  a : BitVec 7
  b : BitVec 7
  ext : Option Ext
  deriving DecidableEq, Repr

/-- A predicate form of R121; `claimed`: an extension word of short-form defaults follows. -/
structure PP where
  p : Pred
  pd : BitVec 3
  pa : BitVec 3
  pb : BitVec 3
  claimed : Bool
  deriving DecidableEq, Repr

/-- Shape SS (R111): TYPE, IB and the three register fields. -/
structure SS where
  ty : BitVec 2
  ib : Bool
  d : BitVec 6
  a : BitVec 6
  b : BitVec 6
  deriving DecidableEq, Repr

/-- A vector memory form of R162: `r` is D (destination or store data), `a` the base. -/
structure VMem where
  p : Pred
  r : BitVec 7
  a : BitVec 7
  sz : BitVec 3
  ub : Bool
  sx : Bool
  l2 : Bool
  off : Option Word
  deriving DecidableEq, Repr

/-- A uniform memory form of R163: `r` is D of a load or B of a store. -/
structure UMem where
  r : BitVec 6
  a : BitVec 6
  sz : BitVec 2
  sx : Bool
  l2 : Bool
  off : Option Word
  deriving DecidableEq, Repr

/-- ATOMS and ATOMG (R174): the literal word is checked at issue. -/
structure Atomic where
  p : Pred
  d : BitVec 7
  a : BitVec 7
  op : BitVec 3
  ty : BitVec 2
  lit : Word
  deriving DecidableEq, Repr

/-- Tensor copies (R215): record register, scratchpad register, first coordinate register. -/
structure Cpt where
  sr : BitVec 6
  sd : BitVec 6
  sc : BitVec 6
  cl : Bool
  deriving DecidableEq, Repr

/-- MMA, MMA.T and MMAS (R238). -/
structure Mma where
  h : BitVec 4
  sa : BitVec 6
  sb : BitVec 6
  slot : BitVec 3
  z : Bool
  r : Bool
  lit : Word
  deriving DecidableEq, Repr

/-- ACLD and ACST (R238). -/
structure AcIo where
  h : BitVec 4
  sa : BitVec 6
  slot : BitVec 3
  raw : Bool
  deriving DecidableEq, Repr

/-- LMMA (R261). -/
structure Lmma where
  h : BitVec 4
  tb : BitVec 4
  sa : BitVec 6
  sb : BitVec 6
  planes : BitVec 2
  z : Bool
  r : Bool
  lit : Word
  deriving DecidableEq, Repr

/-- Barrier instructions (R226): SCOPE, IDX and the one register of the form. -/
structure Bar where
  sc : BitVec 3
  idx : BitVec 4
  r : BitVec 6
  deriving DecidableEq, Repr

/-- A mailbox command block's arguments (R345, R346) after the block is read from host memory. -/
structure Command where
  counter : Nat
  /-- the 256 bytes both signatures cover, and the signatures -/
  body : List Byte
  sig : List Byte
  part : Nat
  cores : List Nat
  units : List Nat
  asids : List Nat
  pools : List Nat
  queues : List Nat
  /-- cluster-barrier allotment per cluster: (cluster, count) -/
  cbars : List (Nat × Nat)
  /-- SETRATE: meter (0 to 7 stack, 8 to 23 Cheuk port), ASID, rate in GB/s, burst in KiB -/
  meter : Nat
  asid : Nat
  rate : Nat
  burst : Nat
  /-- THAWHOST: the function -/
  fn : Nat
  deriving DecidableEq, Repr

/-- What a flit carries (R349): a read of n bytes, a write, an atomic operation, an element of a reducing copy (its copy
id, index, operation, type and value) and the end of such a copy, the answers to them (a reply, poisoned data, a refusal),
or the request that flits be sent again from the number in the address field. -/
inductive FlitKind where
  | read (n : Nat)
  | write
  | atomic (op ty b c : Nat)
  | element (id i op ty v : Nat)
  | done (id : Nat)
  | reply
  | poisoned
  | refused
  | resend
  deriving DecidableEq, Repr

/-- A flit on a Cheuk port (R349): its sequence number, whether its CRC is good, and what it carries, with a device physical
address and bytes. -/
structure Flit where
  seq : Nat
  crcOk : Bool
  kind : FlitKind
  addr : Nat
  bytes : List Byte
  deriving DecidableEq, Repr

/-- The configuration record the boot ROM reads (R350): what the three verifications find, and the
initial partitions as CREATE arguments. -/
structure BootImage where
  firmware : List Byte
  fwSig : List Byte
  helperOk : Bool
  config : List Byte
  cfgSig : List Byte
  /-- the owner key that the record carries -/
  ownerKey : List Byte
  fwVersion : Nat
  cfgVersion : Nat
  parts : List Command
  deriving DecidableEq, Repr

/-- One constructor per row of spec/opcode_table.json: the instruction words first, then the steps. -/
inductive Instr where
  -- vector integer and predicate (R116 to R121)
  | vadd (o : VV) | vsub (o : VV) | vadds (o : VV) | vsubs (o : VV)
  | vmul (o : VV) | vmulh (o : VV) | vmad (o : VV) | vmadw (o : VV)
  | vmin (o : VV) | vmax (o : VV) | vand (o : VV) | vor (o : VV) | vxor (o : VV)
  | vshl (o : VV) | vshr (o : VV) | vsra (o : VV) | vrot (o : VV)
  | vbfe (o : VV) | vbfi (o : VV) | vsel (o : VV)
  | vcmp (o : VP) | vdot4 (o : VV) | vlea (o : VV)
  | vmov (o : VU) | vbcst (o : VU) | vlane (o : VU) | vabs (o : VU) | vneg (o : VU)
  | vnot (o : VU) | vclz (o : VU) | vpopc (o : VU) | vmovSpecial (o : VU)
  | pand (o : PP) | por (o : PP) | pxor (o : PP) | pnot (o : PP) | pmov (o : PP)
  -- float, conversion, bands (R141 to R154)
  | vfadd (o : VV) | vfsub (o : VV) | vfmul (o : VV) | vfma (o : VV)
  | vfmin (o : VV) | vfmax (o : VV) | vfcmp (o : VP) | vfscale (o : VV)
  | vfabs (o : VU) | vfneg (o : VU) | vfclass (o : VU) | vfrint (o : VU) | vffrac (o : VU)
  | vfclassFlags (sd : BitVec 6) (claimed : Bool)
  | vfrcp (o : VU) | vfrsq (o : VU) | vfsqrt (o : VU) | vfexp2 (o : VU)
  | vflog2 (o : VU) | vfsin (o : VU) | vfcos (o : VU)
  | vfcvt (o : VU) (src : BitVec 2) (h : Bool)
  | vicvt (o : VU) (dir : Bool) (uns : Bool) (h : Bool)
  | vqnt (o : VU) (k : BitVec 2) (slot : BitVec 3)
  | vdqnt (o : VU) (k : BitVec 2) (slot : BitVec 3)
  | vbandr (o : VU) | vbandw (o : VU)
  -- cross-lane (R155 to R159)
  | vred (o : VU) (op : BitVec 3) | vscan (o : VU) (excl : Bool) (op : BitVec 3)
  | vshfl (o : VU) (mode : BitVec 2) (cnt : BitVec 5)
  | vvote (o : VU) (mode : BitVec 2) | vmatch (o : VU)
  -- uniform integer (R110 to R115)
  | smov (o : SS) | sli (d : BitVec 6) (imm : BitVec 18) | sliHi (d : BitVec 6) (imm : BitVec 16)
  | sadd (o : SS) | ssub (o : SS) | smul (o : SS) | smulh (o : SS)
  | smad (o : SS) (xl : Option Word)
  | sand (o : SS) | sor (o : SS) | sxor (o : SS) | sshl (o : SS) | sshr (o : SS) | ssra (o : SS)
  | smin (o : SS) | smax (o : SS) | scmp (o : SS) (cc : BitVec 3)
  | ssel (o : SS) (xl : Option Word)
  | sclz (o : SS) | spopc (o : SS) | sbfe (o : SS) | sbfi (o : SS)
  | slea (o : SS) (k : BitVec 3) | srdsp (d : BitVec 6) (idx : BitVec 7)
  -- memory and atomics (R161 to R179)
  | lds (m : VMem) | sts (m : VMem) | slds (m : UMem) | ssts (m : UMem)
  | ldg (m : VMem) | stg (m : VMem) | sldg (m : UMem) | sstg (m : UMem)
  | ldd (m : VMem) | std (m : VMem) | ldc (m : VMem)
  | prfg (p : Pred) (a : BitVec 7) (ub : Bool) (f1 : Bool) (off : Option Word)
  | atoms (o : Atomic) | atomg (o : Atomic)
  | atomo (p : Pred) (a : BitVec 7) (lit : Word) | aflush (sa : BitVec 6)
  -- asynchronous copy and timelines (R202 to R221)
  | cpl (p : Pred) (d : BitVec 7) (a : BitVec 7) (dir : BitVec 2) (sz : BitVec 2) (cl : Bool)
  | cptLd (o : Cpt) | cptSt (o : Cpt)
  | cpr (sa : BitVec 6) (sb : BitVec 6) (lit : Word)
  | cpm (o : Cpt) (lit : Word)
  | tclose (sd : BitVec 6) (tl : BitVec 2) | twait (tl : BitVec 2) (sa : BitVec 6)
  | tstat (sd : BitVec 6) (tl : BitVec 2) (sel : BitVec 3)
  -- matrix (R237 to R248)
  | acalloc (h : BitVec 4) (sa : BitVec 6) (sd : BitVec 6) (int : Bool)
  | acfree (h : BitVec 4) | acz (h : BitVec 4) | acadd (h : BitVec 4) (hs : BitVec 4)
  | acld (o : AcIo) | acst (o : AcIo)
  | mma (o : Mma) | mmaT (o : Mma) | mmas (o : Mma)
  | omap (sa : BitVec 6) (sb : BitVec 6) (lit : Word)
  -- lookup (R259 to R279)
  | tballoc (h : BitVec 4) (sa : BitVec 6) (sd : BitVec 6) (slot : BitVec 3) (lit : Word)
  | tbfree (h : BitVec 4)
  | tbuildBp (h : BitVec 4) (sa : BitVec 6) (sd : BitVec 6)
  | tbuildCb (h : BitVec 4) (sa : BitVec 6) (sd : BitVec 6) (lit : Word)
  | lmma (o : Lmma)
  | tbstat (h : BitVec 4) (sd : BitVec 6)
  | tbspill (h : BitVec 4) (sa : BitVec 6) (sd : BitVec 6)
  | tbfill (h : BitVec 4) (sa : BitVec 6) (sd : BitVec 6)
  -- pools and launch (R292 to R303)
  | plcfg (b : BitVec 3) (sa : BitVec 6) | plstat (b : BitVec 3) (sd : BitVec 6) (sel : BitVec 2)
  | plpush (b : BitVec 3) (sa : BitVec 6) (sb : BitVec 6) (w : Bool) (lit : Word)
  | plpop (b : BitVec 3) (sd : BitVec 6) (w : Bool) | pldrain (b : BitVec 3)
  | lnch (sa : BitVec 6) (sb : BitVec 6)
  -- scratchpad allocation (R194 to R199)
  | salloc (rank : BitVec 3) (sa : BitVec 6) (sd : BitVec 6) (lit : Word)
  | sfree (sa : BitVec 6)
  | srestore (sa : BitVec 6) (sd : BitVec 6) | srestoreDone (sa : BitVec 6) (sd : BitVec 6)
  | srank (rank : BitVec 3) (sa : BitVec 6) (sd : BitVec 6)
  | squery (sa : BitVec 6) (sd : BitVec 6) | squeryCnt (sd : BitVec 6) | lhret
  -- control (R90 to R104)
  | bkpt (code : BitVec 16) | trapu (code : BitVec 16)
  | bra (off : BitVec 18) | call (off : BitVec 18)
  | brcAny (p : Pred) (off : BitVec 18) | brcAll (p : Pred) (off : BitVec 18)
  | brx (sa : BitVec 6)
  | ifI (p : Pred) (off : BitVec 18) (join : Word)
  | loop (off : BitVec 18) | brk (p : Pred) | next | ret | exit | regang (id : BitVec 8)
  | spawn (off : BitVec 18) (w1 : Word) (w2 : Word) (w3 : Word)
  | mcall (m : BitVec 6) (w1 : Word) (w2 : Word)
  -- synchronisation (R223 to R235)
  | bara (o : Bar) | barw (o : Bar) | baraw (o : Bar) | barq (o : Bar) | barcfg (o : Bar)
  | fence (sc : BitVec 3) (ord : BitVec 2)
  | acq (sc : BitVec 3) (sa : BitVec 6) | rel (sc : BitVec 3) (sa : BitVec 6) | ifence
  -- system (R315 to R337)
  | cwrd (sa : BitVec 6) (sd : BitVec 6) (lit : Word) | cwwr (sa : BitVec 6) (sb : BitVec 6) (lit : Word)
  | winrd (sa : BitVec 6) (sd : BitVec 6) | winwr (sa : BitVec 6) (sb : BitVec 6)
  | gpark (sa : BitVec 6) (sd : BitVec 6) | gresume (sa : BitVec 6) (sd : BitVec 6)
  | tret | tretHold | tretEnd
  | thaw (sa : BitVec 6) (sd : BitVec 6) | thawEnd (sa : BitVec 6) (sd : BitVec 6)
  | tlbinv (sc : BitVec 3) (mode : BitVec 2) (sa : BitVec 6) (sb : BitVec 6)
  | ctxsv (sa : BitVec 6) (sb : BitVec 6) | ctxld (sa : BitVec 6) (sb : BitVec 6)
  | ctxldDiscard (sa : BitVec 6) (sb : BitVec 6)
  | mcswr (sa : BitVec 6) (sb : BitVec 6) | sysc (code : BitVec 16)
  -- steps without a word (spec/95); `g` a group handle, `r` a request, `k` an operation
  | clauseDecode (g : Nat) | waitSatisfied (g : Nat) | longLatencyReturn (g : Nat) (r : Nat)
  | commitPoint (g : Nat) | clauseRetire (g : Nat) | strikeReport (core : Nat)
  | activeSetSwap (core : Nat) | urgentPromotion (core : Nat)
  | deferredFaultDelivery (g : Nat) | lostLoadSignal (g : Nat)
  | litTargetChange (core : Nat) (t : Nat) | bankDarken (core : Nat) | bankRelight (core : Nat)
  | scratchpadArrival (r : Nat) | pageWalkComplete (r : Nat)
  | faultRecordForward (cluster : Nat) (seq : Nat)
  | globalAccessPerform (r : Nat) | directPathReply (r : Nat)
  | atomoArrival (r : Nat) | atomoEvict (slice : Nat) | aflushArrival (r : Nat)
  | cprElementArrival (r : Nat) | copyTransfer (k : Nat) | copyOpComplete (k : Nat)
  | teleaselStepBoundary (cluster : Nat)
  | matrixEngineStep (core : Nat) | matrixOpComplete (core : Nat)
  | lookupEngineStep (core : Nat) | lookupOpComplete (core : Nat)
  | barrierArrival (r : Nat) | barcfgArrival (r : Nat) | barrierReleaseDelivery (n : Nat)
  | relArrival (r : Nat) | acqAnswer (r : Nat)
  | pushArrival (r : Nat) | popArrival (r : Nat) | plcfgArrival (r : Nat)
  | plstatArrival (r : Nat) | pldrainArrival (r : Nat) | poolWithdrawal (g : Nat)
  | queuePoll (q : Nat) | slotConsume (q : Nat) | launchGrant (q : Nat)
  | trapHandlerEntry (cluster : Nat) (ctx : Nat) | ctxsvComplete (g : Nat)
  | resizeComplete (part : Nat) | memoryScrubComplete (memUnit : Nat)
  | meterRelease (r : Nat) | cheukPortDown (port : Nat)
  | thermalAlarm (cluster : Nat) (temp : BitVec 8)
  | powerBudgetAdjust (cluster : Nat) (tighten : Bool)
  | sprintEnd (cluster : Nat) | coolDownEnd (cluster : Nat)
  -- steps of the outside world, which the model only receives
  | faultAnswer (cluster : Nat) (seq : Nat) (unres : Bool)
  | qtailWrite (fn : Nat) (q : Nat) (v : DWord) | queueStatusClear (fn : Nat) (q : Nat) (bits : Word)
  | qpreempt (fn : Nat) (q : Nat) (v : DWord) | registerWrite (fn : Nat) (off : Nat) (v : DWord)
  | create (c : Command) | resize (c : Command) | destroy (c : Command)
  | setrate (c : Command) | thawhost (c : Command)
  | hostMemoryAccess (fn : Nat) (write : Bool) (addr : Nat) (bytes : List Byte)
  | hostIsolationViolation (fn : Nat) | cheukFlit (port : Nat) (f : Flit)
  | powerUp (b : BootImage) | attestationReport (nonce : List Byte)
  -- three without operands
  | throttleRelease | nop | yield
  deriving DecidableEq, Repr

end Sys2Proof
end

