-- ==== Sys2Proof/WellFormed.lean ====
section
/-! DEFINITION. The decode-time rules on an instruction's fields that do not depend on the group that
issues it: accepted types and codes, even pairs, fixed fields (R62, R65, R71 and each chapter). The checks
against the group's allocation and privilege are those of clause decode. Every constructor has its case. -/

namespace Sys2Proof

/-- Even, as the first register of a pair must be (R74). -/
def even {n : Nat} (r : BitVec n) : Bool := r.toNat % 2 == 0

/-- Type codes of R65. -/
abbrev tyI32 : Nat := 0
abbrev tyU32 : Nat := 1
abbrev tyI16 : Nat := 2
abbrev tyU16 : Nat := 3
abbrev tyI8 : Nat := 4
abbrev tyU8 : Nat := 5
abbrev tyF32 : Nat := 8
abbrev tyF16 : Nat := 9
abbrev tyBF16 : Nat := 10

/-- "All six" integer types (R117). -/
def allSix : List Nat := [0, 1, 2, 3, 4, 5]
/-- The two whole-word integer types. -/
def words2 : List Nat := [0, 1]
/-- The three float lane types (R143). -/
def floats3 : List Nat := [8, 9, 10]

/-- What an extensible form accepts of its extension word (R65, R116, R141, R155). -/
structure ExtRule where
  /-- accepted type codes -/
  tys : List Nat
  /-- the type of the short form -/
  dflt : Nat
  /-- a third source is read -/
  three : Bool := false
  /-- rounding is accepted -/
  rm : Bool := false
  /-- a uniform B operand is accepted -/
  bu : Bool := false

/-- The type of a form with extension word `e` (R64, R65). -/
def extTy (r : ExtRule) (e : Option Ext) : Nat :=
  match e with
  | none => r.dflt
  | some e => e.ty.toNat

/-- The extension word's fields are ones the form accepts. -/
def ExtRule.ok (r : ExtRule) (e : Option Ext) : Bool :=
  r.tys.contains (extTy r e) &&
  (match e with
   | none => true
   | some e => (r.three || e.c == 0) && (r.bu || !e.bu) && e.rm.toNat < (if r.rm then 4 else 1))

/-- A VV form: with BU = 1, B[6] is 0 (R65). -/
def ExtRule.vv (r : ExtRule) (o : VV) : Bool :=
  r.ok o.ext && !((o.ext.map Ext.bu).getD false && 64 ≤ o.b.toNat)
/-- A VP form. -/
def ExtRule.vp (r : ExtRule) (o : VP) : Bool :=
  r.ok o.ext && !((o.ext.map Ext.bu).getD false && 64 ≤ o.b.toNat)
/-- A VU form. -/
def ExtRule.vu (r : ExtRule) (o : VU) : Bool := r.ok o.ext

/-- The third source: C, or D in the short form (R65). -/
def srcC (d : BitVec 7) (e : Option Ext) : BitVec 7 := (e.map Ext.c).getD d

def int6 : ExtRule := ⟨allSix, 0, false, false, true⟩
def int6c : ExtRule := ⟨allSix, 0, true, false, true⟩
def int2 : ExtRule := ⟨words2, 0, false, false, true⟩
def int2c : ExtRule := ⟨words2, 0, true, false, true⟩
def dot4 : ExtRule := ⟨[4, 5], 0, true, false, true⟩
def uni6 : ExtRule := ⟨allSix, 0, false, false, false⟩
def uniSgn : ExtRule := ⟨[0, 2, 4], 0, false, false, false⟩
def uni1 : ExtRule := ⟨[0], 0, false, false, false⟩
def uni2 : ExtRule := ⟨words2, 0, false, false, false⟩
def shflIdx : ExtRule := ⟨words2, 0, true, false, false⟩
def fltRm : ExtRule := ⟨floats3, 8, false, true, true⟩
def fltFma : ExtRule := ⟨floats3, 8, true, true, true⟩
def fltMin : ExtRule := ⟨floats3, 8, false, false, true⟩
def fltCmp : ExtRule := ⟨[8], 8, false, false, false⟩
def fltUn : ExtRule := ⟨floats3, 8, false, false, false⟩
def fltUnRm : ExtRule := ⟨floats3, 8, false, true, false⟩
def flt1 : ExtRule := ⟨[8], 8, false, false, false⟩
def flt1Rm : ExtRule := ⟨[8], 8, false, true, false⟩

/-- VRED and VSCAN types by operation (R155). -/
def redRule (op : BitVec 3) : ExtRule :=
  ⟨if op.toNat < 3 then [0, 1, 8] else words2, 0, false, false, false⟩

/-- A uniform SS form: accepted types, which operands are pairs at 64 bits, whether IB is allowed and
which fields the form does not use (R112). -/
structure SSRule where
  t64 : Bool := true
  pd : Bool := true
  pa : Bool := true
  pb : Bool := true
  ib : Bool := true
  useA : Bool := true

def SSRule.ok (r : SSRule) (o : SS) : Bool :=
  (r.t64 || o.ty.toNat < 2) && (r.ib || !o.ib) && (r.useA || o.a == 0) &&
  (o.ty.toNat < 2 ||
    ((!r.pd || even o.d) && (!r.pa || even o.a) && (!r.pb || o.ib || even o.b)))

def ss3 : SSRule := {}
def ssShift : SSRule := { pb := false }
def ssCmp : SSRule := { pd := false }
def ssMov : SSRule := { pa := false, useA := false }
def ssCount : SSRule := { pd := false, pa := false, useA := false }
def ss32 : SSRule := { t64 := false }
def ssField : SSRule := { t64 := false, ib := false }

/-- The vector memory forms of R162: global bases are pairs, `image` admits SZ 5, which takes a uniform base (R165). -/
def wfVMem (m : VMem) (glob load image cache : Bool) : Bool :=
  m.sz.toNat ≤ (if image then 5 else 4) && (m.sz.toNat != 5 || m.ub) && (cache || !m.l2) &&
  (!m.sx || (load && m.sz.toNat < 2)) &&
  (!m.ub || m.a.toNat < 64) && (!glob || even m.a) &&
  (m.sz.toNat != 3 || even m.r) && (m.sz.toNat != 4 || m.r.toNat % 4 == 0)

/-- The uniform memory forms of R163. -/
def wfUMem (m : UMem) (glob load : Bool) : Bool :=
  (!m.sx || (load && m.sz.toNat < 2)) && (!m.l2 || (glob && load)) &&
  (!glob || even m.a) && (m.sz.toNat != 3 || even m.r)

/-- The types an atomic operation accepts (R175). -/
def atomTy (op : BitVec 3) (ty : BitVec 2) : Bool :=
  match op.toNat with
  | 0 => true
  | 1 | 2 => ty.toNat < 3
  | 3 | 4 | 5 => ty.toNat < 2
  | _ => ty.toNat != 2

def wfAtomic (o : Atomic) : Bool := atomTy o.op o.ty && (o.ty.toNat != 3 || even o.d)

/-- Barrier scopes of R226. -/
def wfBar (o : Bar) (cfg : Bool) : Bool :=
  (if cfg then [2, 4] else [1, 2, 4]).contains o.sc.toNat && (o.sc.toNat == 1 || o.idx.toNat < 8)

/-- The field rules of each form. A step without a word has none. -/
def Instr.wf : Instr → Bool
  | .vadd o | .vsub o | .vadds o | .vsubs o | .vmul o | .vmulh o | .vmin o | .vmax o
  | .vand o | .vor o | .vxor o | .vshl o | .vshr o | .vsra o | .vrot o => int6.vv o
  | .vmad o | .vsel o => int6c.vv o
  | .vmadw o => int2c.vv o && even o.d && even (srcC o.d o.ext)
  | .vbfe o => int2.vv o
  | .vbfi o | .vlea o => int2c.vv o
  | .vdot4 o => dot4.vv o
  | .vcmp o => int2.vp o
  | .vmov o | .vlane o | .vnot o | .vclz o | .vpopc o => uni6.vu o
  | .vbcst o => uni6.vu o && o.a.toNat < 64
  | .vabs o | .vneg o => uniSgn.vu o
  | .vmovSpecial o => uni1.vu o && o.a.toNat < 2
  | .pand _ | .por _ | .pxor _ => true
  | .pnot o | .pmov o => o.pb == 0
  | .vfadd o | .vfsub o | .vfmul o | .vfscale o => fltRm.vv o
  | .vfma o => fltFma.vv o
  | .vfmin o | .vfmax o => fltMin.vv o
  | .vfcmp o => fltCmp.vp o
  | .vfabs o | .vfneg o | .vfclass o | .vffrac o => fltUn.vu o
  | .vfrint o => fltUnRm.vu o
  | .vfclassFlags _ _ => true
  | .vfrcp o | .vfrsq o | .vfsqrt o | .vfexp2 o | .vflog2 o | .vfsin o | .vfcos o => fltUnRm.vu o
  | .vfcvt o src h =>
    fltUnRm.vu o && src.toNat < 3 && src.toNat + 8 != extTy fltUnRm o.ext &&
    (!h || src.toNat == 0 || extTy fltUnRm o.ext == tyF32)
  | .vicvt o _ _ h => fltUnRm.vu o && (!h || extTy fltUnRm o.ext != tyF32)
  | .vqnt o _ _ => flt1.vu o
  | .vdqnt o _ _ => flt1Rm.vu o
  | .vbandr o | .vbandw o => flt1.vu o
  | .vred o op | .vscan o _ op => op.toNat < 6 && (redRule op).vu o
  | .vshfl o mode cnt =>
    if mode.toNat == 0 then shflIdx.vu o && cnt == 0 else uni2.vu o
  | .vvote o mode =>
    uni1.vu o && o.a.toNat < 8 && (mode.toNat == 3 || o.d.toNat < 8)
  | .vmatch o => uni2.vu o
  | .smov o => ssMov.ok o
  | .sli _ _ | .sliHi _ _ => true
  | .sadd o | .ssub o | .smul o | .smulh o | .sand o | .sor o | .sxor o
  | .smin o | .smax o => ss3.ok o
  | .smad o _ => ss3.ok o
  | .sshl o | .sshr o | .ssra o => ssShift.ok o
  | .scmp o _ => ssCmp.ok o
  | .ssel o _ => ss32.ok o
  | .sclz o | .spopc o => ssCount.ok o
  | .sbfe o | .sbfi o => ssField.ok o
  | .slea o _ => ss32.ok o && even o.d && even o.a
  | .srdsp _ idx => 2 ≤ idx.toNat && idx.toNat ≤ 0x15
  | .lds m => wfVMem m false true true false
  | .sts m => wfVMem m false false true false
  | .slds m => wfUMem m false true
  | .ssts m => wfUMem m false false
  | .ldg m => wfVMem m true true true true
  | .stg m => wfVMem m true false true false
  | .sldg m => wfUMem m true true
  | .sstg m => wfUMem m true false
  | .ldd m | .ldc m => wfVMem m true true false false
  | .std m => wfVMem m true false false false
  | .prfg _ a ub _ _ => (!ub || a.toNat < 64) && even a
  | .atoms o | .atomg o => wfAtomic o
  | .atomo _ a _ => even a
  | .aflush sa => even sa
  | .cpl _ d a dir sz _ =>
    sz.toNat < 3 && (!(dir.toNat == 0 || dir.toNat == 3) || even a) &&
    (!(dir.toNat == 1 || dir.toNat == 3) || even d)
  | .cptLd o | .cptSt o => o.sc.toNat ≤ 59
  | .cpr sa _ _ => even sa
  | .cpm o _ => o.sc.toNat ≤ 59 && !o.cl
  | .tclose _ tl => tl.toNat < 3
  | .twait tl _ => tl.toNat < 3
  | .tstat _ tl sel => tl.toNat < 3 && sel.toNat < 5
  | .acalloc _ _ _ _ | .acfree _ | .acz _ | .acadd _ _ => true
  | .acld o | .acst o => even o.sa && (!o.raw || o.slot == 0)
  -- Z and R both set trap at decode (R238; DESIGN CHOICE, log 102), those of LMMA at issue (R269)
  | .mma o | .mmaT o | .mmas o => even o.sa && even o.sb && !(o.z && o.r)
  | .omap _ _ _ => true
  | .tballoc _ _ _ _ _ | .tbfree _ => true
  | .tbuildBp _ sa _ | .tbuildCb _ sa _ _ => even sa
  | .lmma o => even o.sa
  | .tbstat _ _ | .tbspill _ _ _ | .tbfill _ _ _ => true
  | .plcfg _ sa => even sa
  | .plstat _ _ _ => true
  | .plpush _ sa sb _ _ => even sa && sb.toNat ≤ 56
  | .plpop _ sd _ => even sd && sd.toNat ≤ 48
  | .pldrain _ => true
  | .lnch sa _ => even sa
  | .salloc _ _ _ _ | .sfree _ | .srestore _ _ | .srestoreDone _ _ | .srank _ _ _
  | .squery _ _ | .squeryCnt _ | .lhret => true
  | .nop | .yield | .bkpt _ | .trapu _ | .bra _ | .call _ | .brcAny _ _ | .brcAll _ _ => true
  | .brx sa => even sa
  | .ifI _ _ _ | .loop _ | .brk _ | .next | .ret | .exit | .regang _ => true
  | .spawn _ _ _ _ | .mcall _ _ _ => true
  | .bara o => wfBar o false && o.r == 0
  | .barw o | .baraw o | .barq o => wfBar o false
  | .barcfg o => wfBar o true
  | .fence sc ord => sc.toNat < 6 && ord != 0
  | .acq sc _ | .rel sc _ => sc.toNat == 4 || sc.toNat == 5
  | .ifence => true
  | .cwrd _ _ _ | .cwwr _ _ _ => true
  | .winrd sa _ | .winwr sa _ => even sa
  | .gpark _ _ | .gresume _ _ | .tret | .tretHold | .tretEnd | .thaw _ _ | .thawEnd _ _ => true
  | .tlbinv sc mode sa sb =>
    (sc.toNat == 2 || sc.toNat == 4) &&
    (match mode.toNat with
     | 0 => sa == 0 && sb == 0
     | 1 => sa == 0
     | 2 => even sa
     | _ => false)
  | .ctxsv sa _ | .ctxld sa _ | .ctxldDiscard sa _ => even sa
  | .mcswr _ _ | .sysc _ => true
  | .clauseDecode _ | .waitSatisfied _ | .longLatencyReturn _ _ | .commitPoint _ | .clauseRetire _
  | .strikeReport _ | .activeSetSwap _ | .urgentPromotion _ | .deferredFaultDelivery _
  | .lostLoadSignal _ | .litTargetChange _ _ | .bankDarken _ | .bankRelight _ | .scratchpadArrival _
  | .pageWalkComplete _ | .faultRecordForward _ _ | .faultAnswer _ _ _ | .globalAccessPerform _
  | .directPathReply _ | .atomoArrival _ | .atomoEvict _ | .aflushArrival _ | .cprElementArrival _
  | .copyTransfer _ | .copyOpComplete _ | .teleaselStepBoundary _ | .matrixEngineStep _
  | .matrixOpComplete _ | .lookupEngineStep _ | .lookupOpComplete _ | .barrierArrival _
  | .barcfgArrival _ | .barrierReleaseDelivery _ | .relArrival _ | .acqAnswer _ | .pushArrival _
  | .popArrival _ | .plcfgArrival _ | .plstatArrival _ | .pldrainArrival _ | .poolWithdrawal _
  | .qtailWrite _ _ _ | .queueStatusClear _ _ _ | .qpreempt _ _ _ | .queuePoll _ | .slotConsume _
  | .launchGrant _ | .trapHandlerEntry _ _ | .ctxsvComplete _ | .registerWrite _ _ _ | .create _
  | .resize _ | .destroy _ | .setrate _ | .thawhost _ | .resizeComplete _ | .memoryScrubComplete _
  | .hostMemoryAccess _ _ _ _ | .hostIsolationViolation _ | .meterRelease _ | .cheukFlit _ _
  | .cheukPortDown _ | .powerUp _ | .attestationReport _ | .thermalAlarm _ _ | .throttleRelease
  | .powerBudgetAdjust _ _ | .sprintEnd _ | .coolDownEnd _ => true

/-- The instruction has a word (R61); the other constructors are steps of spec/95. -/
def Instr.isWord : Instr → Bool
  | .clauseDecode _ | .waitSatisfied _ | .longLatencyReturn _ _ | .commitPoint _ | .clauseRetire _
  | .strikeReport _ | .activeSetSwap _ | .urgentPromotion _ | .deferredFaultDelivery _
  | .lostLoadSignal _ | .litTargetChange _ _ | .bankDarken _ | .bankRelight _ | .scratchpadArrival _
  | .pageWalkComplete _ | .faultRecordForward _ _ | .faultAnswer _ _ _ | .globalAccessPerform _
  | .directPathReply _ | .atomoArrival _ | .atomoEvict _ | .aflushArrival _ | .cprElementArrival _
  | .copyTransfer _ | .copyOpComplete _ | .teleaselStepBoundary _ | .matrixEngineStep _
  | .matrixOpComplete _ | .lookupEngineStep _ | .lookupOpComplete _ | .barrierArrival _
  | .barcfgArrival _ | .barrierReleaseDelivery _ | .relArrival _ | .acqAnswer _ | .pushArrival _
  | .popArrival _ | .plcfgArrival _ | .plstatArrival _ | .pldrainArrival _ | .poolWithdrawal _
  | .qtailWrite _ _ _ | .queueStatusClear _ _ _ | .qpreempt _ _ _ | .queuePoll _ | .slotConsume _
  | .launchGrant _ | .trapHandlerEntry _ _ | .ctxsvComplete _ | .registerWrite _ _ _ | .create _
  | .resize _ | .destroy _ | .setrate _ | .thawhost _ | .resizeComplete _ | .memoryScrubComplete _
  | .hostMemoryAccess _ _ _ _ | .hostIsolationViolation _ | .meterRelease _ | .cheukFlit _ _
  | .cheukPortDown _ | .powerUp _ | .attestationReport _ | .thermalAlarm _ _ | .throttleRelease
  | .powerBudgetAdjust _ _ | .sprintEnd _ | .coolDownEnd _ => false
  | _ => true

/-- A well-formed instruction word. -/
def Instr.WellFormed (i : Instr) : Prop := i.isWord = true ∧ i.wf = true

end Sys2Proof
end

