-- ==== Sys2Proof/Decode.lean ====
section
/-! DEFINITION. Decoding of one instruction word and the literal words it claims (R61 to R71 and the
encoding tables of the chapters), total on any words, and after it the encoder, written from the same
tables. A word is a natural number below 2^32; `fld w lo n` is its field [lo+n-1:lo]. -/

namespace Sys2Proof

/-- Why a word is no instruction. All but the last are the checks of R71; `literals` is check 7 of R47. -/
inductive Reject where
  /-- an unassigned primary opcode (R71, check 1) -/
  | unassigned
  /-- an unlisted selector or a nonzero reserved field of the word (R71, checks 2 and 3) -/
  | unlisted
  /-- a field with a value its form does not accept (R71, checks 2 to 4) -/
  | field
  /-- the literal words do not fit the word's needs (R47, check 7) -/
  | literals
  deriving DecidableEq, Repr

/-- The field [lo+n-1:lo] of a word. -/
def fld (w lo n : Nat) : Nat := w / 2 ^ lo % 2 ^ n

/-- A field as a bit vector. -/
def bfld (n w lo : Nat) : BitVec n := BitVec.ofNat n (fld w lo n)

/-- A one-bit field. -/
def tst (w lo : Nat) : Bool := fld w lo 1 == 1

/-- `x` when `b` holds, otherwise nothing. -/
def req {α : Type} (b : Bool) (x : Option α) : Option α := if b then x else none

/-- The primary opcode (R61). -/
def opOf (w : Nat) : Nat := fld w 25 7

/-- The primaries R69 leaves unassigned. -/
def unassignedOp (op : Nat) : Bool :=
  (0x28 ≤ op && op ≤ 0x2F) || (0x35 ≤ op && op ≤ 0x37) || op == 0x4F

/-- The clause class of a primary: 0 ALU, 1 MEM, 2 ENG, 3 SYNC/CTL, 4 SYS (R21, R69). -/
def classOf (op : Nat) : Nat :=
  if op < 0x50 then 0 else if op < 0x5C then 1 else if op < 0x74 then 2 else if op < 0x7C then 3 else 4

/-- The control transfers of R48, by primary and SEC. -/
def isTransfer (w : Nat) : Bool :=
  let s := fld w 18 3
  match opOf w with
  | 0x75 => s < 2
  | 0x76 => s < 3
  | 0x77 => s == 0 || s == 2 || s == 3
  | 0x78 => s < 3
  | 0x79 => s == 1
  | _ => false

/-- An extensible primary (R64). -/
def extensible (op : Nat) : Bool := op < 0x38

/-- How many literal words a word calls for, extension words apart (each chapter's encoding table). -/
def litCount (w : Nat) : Nat :=
  match opOf w with
  | 0x3E | 0x48 => fld w 21 1
  | 0x50 | 0x51 | 0x54 | 0x55 => fld w 6 1
  | 0x52 | 0x53 | 0x56 | 0x57 => fld w 24 1
  | 0x58 | 0x59 => fld w 0 1
  | 0x5A => 1
  | 0x5B => if fld w 6 1 == 0 then 1 else 0
  | 0x5F | 0x60 => 1
  | 0x67 => if fld w 21 4 < 2 then 1 else 0
  | 0x68 | 0x69 | 0x6C | 0x6F => 1
  | 0x6A => if fld w 21 4 == 0 then 1 else 0
  | 0x6B => if fld w 21 4 == 1 then 1 else 0
  | 0x72 => if fld w 21 4 == 0 then 1 else 0
  | 0x77 => if fld w 18 3 == 0 then 1 else 0
  | 0x79 => if fld w 18 3 == 0 then 3 else if fld w 18 3 == 1 then 2 else 0
  | 0x7C => if fld w 21 4 < 2 then 1 else 0
  | _ => 0

/-- The predicate field (R62). -/
def predOf (w : Nat) : Pred := ⟨tst w 24, bfld 3 w 21⟩
/-- The predicate field holds 0b0111 (R62). -/
def noPred (w : Nat) : Bool := fld w 21 4 == 7

/-- The extension word's fields, its reserved bits being 0 (R65). -/
def extOf (x : Nat) : Option Ext :=
  req (fld x 0 16 == 0 && fld x 19 1 == 0) (some ⟨bfld 4 x 28, bfld 7 x 21, tst x 20, bfld 3 x 16⟩)

/-- The claimed extension word, if any. -/
def extWord (l : List Nat) : Option (Option Ext) :=
  match l with
  | [] => some none
  | [x] => (extOf x).map some
  | _ => none

/-- Literal words of a form that takes none, one, or an optional one. -/
def lit0 {α : Type} (l : List Nat) (x : Option α) : Option α :=
  match l with | [] => x | _ => none
def lit1 {α : Type} (l : List Nat) (f : Word → α) : Option α :=
  match l with | [x] => some (f (BitVec.ofNat 32 x)) | _ => none
def litOpt (l : List Nat) : Option Word :=
  match l with | [] => none | x :: _ => some (BitVec.ofNat 32 x)

def mkVV (f : VV → Instr) (w : Nat) (l : List Nat) : Option Instr :=
  (extWord l).map fun e => f ⟨predOf w, bfld 7 w 14, bfld 7 w 7, bfld 7 w 0, e⟩
def mkVU (f : VU → Instr) (w : Nat) (l : List Nat) : Option Instr :=
  (extWord l).map fun e => f ⟨predOf w, bfld 7 w 14, bfld 7 w 7, e⟩
def mkVP (f : VP → Instr) (w : Nat) (l : List Nat) : Option Instr :=
  req (fld w 20 1 == 0)
    ((extWord l).map fun e => f ⟨predOf w, bfld 3 w 17, bfld 3 w 14, bfld 7 w 7, bfld 7 w 0, e⟩)
def claimed (l : List Nat) (dflt : Nat) : Option Bool :=
  match l with
  | [] => some false
  | [x] => req (x == dflt) (some true)
  | _ => none
def mkPP (f : PP → Instr) (w : Nat) (l : List Nat) : Option Instr :=
  req (fld w 17 4 == 0 && fld w 13 1 == 0)
    ((claimed l 0).map fun c => f ⟨predOf w, bfld 3 w 14, bfld 3 w 7, bfld 3 w 10, c⟩)

/-- Primaries 0x00 to 0x16 (R69). -/
def rawVecInt (op w : Nat) (l : List Nat) : Option Instr :=
  match op with
  | 0x00 => mkVV .vadd w l | 0x01 => mkVV .vsub w l | 0x02 => mkVV .vadds w l
  | 0x03 => mkVV .vsubs w l | 0x04 => mkVV .vmul w l | 0x05 => mkVV .vmulh w l
  | 0x06 => mkVV .vmad w l | 0x07 => mkVV .vmadw w l | 0x08 => mkVV .vmin w l
  | 0x09 => mkVV .vmax w l | 0x0A => mkVV .vand w l | 0x0B => mkVV .vor w l
  | 0x0C => mkVV .vxor w l | 0x0D => mkVV .vshl w l | 0x0E => mkVV .vshr w l
  | 0x0F => mkVV .vsra w l | 0x10 => mkVV .vrot w l | 0x11 => mkVV .vbfe w l
  | 0x12 => mkVV .vbfi w l | 0x13 => mkVV .vsel w l | 0x14 => mkVP .vcmp w l
  | 0x15 => mkVV .vdot4 w l | 0x16 => mkVV .vlea w l
  | _ => none

/-- Primary 0x17 by FN (R70, R120, R121). -/
def rawVecUnary (w : Nat) (l : List Nat) : Option Instr :=
  match fld w 0 7 with
  | 0x00 => mkVU .vmov w l | 0x01 => mkVU .vbcst w l | 0x02 => mkVU .vlane w l
  | 0x03 => mkVU .vabs w l | 0x04 => mkVU .vneg w l | 0x05 => mkVU .vnot w l
  | 0x06 => mkVU .vclz w l | 0x07 => mkVU .vpopc w l | 0x08 => mkVU .vmovSpecial w l
  | 0x10 => mkPP .pand w l | 0x11 => mkPP .por w l | 0x12 => mkPP .pxor w l
  | 0x13 => mkPP .pnot w l | 0x14 => mkPP .pmov w l
  | _ => none

/-- Primary 0x20 by FN (R145, R147). -/
def rawFltUnary (w : Nat) (l : List Nat) : Option Instr :=
  match fld w 0 7 with
  | 0x00 => mkVU .vfabs w l | 0x01 => mkVU .vfneg w l | 0x02 => mkVU .vfclass w l
  | 0x03 => mkVU .vfrint w l | 0x04 => mkVU .vffrac w l
  | 0x05 => req (noPred w && fld w 20 1 == 0 && fld w 7 7 == 0)
      ((claimed l 0x80000000).map fun c => .vfclassFlags (bfld 6 w 14) c)
  | _ => none

/-- Primary 0x21 by FN (R148). -/
def rawSpecial (w : Nat) (l : List Nat) : Option Instr :=
  match fld w 0 7 with
  | 0x00 => mkVU .vfrcp w l | 0x01 => mkVU .vfrsq w l | 0x02 => mkVU .vfsqrt w l
  | 0x03 => mkVU .vfexp2 w l | 0x04 => mkVU .vflog2 w l | 0x05 => mkVU .vfsin w l
  | 0x06 => mkVU .vfcos w l
  | _ => none

/-- Primaries 0x18 to 0x34 (R143 to R159). -/
def rawFloat (op w : Nat) (l : List Nat) : Option Instr :=
  match op with
  | 0x18 => mkVV .vfadd w l | 0x19 => mkVV .vfsub w l | 0x1A => mkVV .vfmul w l
  | 0x1B => mkVV .vfma w l | 0x1C => mkVV .vfmin w l | 0x1D => mkVV .vfmax w l
  | 0x1E => mkVP .vfcmp w l | 0x1F => mkVV .vfscale w l
  | 0x20 => rawFltUnary w l
  | 0x21 => rawSpecial w l
  | 0x22 => req (fld w 0 4 == 0) (mkVU (.vfcvt · (bfld 2 w 5) (tst w 4)) w l)
  | 0x23 => req (fld w 0 3 == 0 && fld w 5 1 == 0)
      (mkVU (.vicvt · (tst w 6) (tst w 4) (tst w 3)) w l)
  | 0x24 => req (fld w 5 2 == 0) (mkVU (.vqnt · (bfld 2 w 3) (bfld 3 w 0)) w l)
  | 0x25 => req (fld w 5 2 == 0) (mkVU (.vdqnt · (bfld 2 w 3) (bfld 3 w 0)) w l)
  | 0x26 => req (fld w 0 7 == 0) (mkVU .vbandr w l)
  | 0x27 => req (fld w 0 7 == 0) (mkVU .vbandw w l)
  | 0x30 => req (fld w 3 4 == 0) (mkVU (.vred · (bfld 3 w 0)) w l)
  | 0x31 => req (fld w 4 3 == 0) (mkVU (.vscan · (tst w 3) (bfld 3 w 0)) w l)
  | 0x32 => mkVU (.vshfl · (bfld 2 w 5) (bfld 5 w 0)) w l
  | 0x33 => req (fld w 2 5 == 0) (mkVU (.vvote · (bfld 2 w 0)) w l)
  | 0x34 => req (fld w 0 7 == 0) (mkVU .vmatch w l)
  | _ => none

def ssOf (w : Nat) : SS := ⟨bfld 2 w 18, tst w 20, bfld 6 w 12, bfld 6 w 6, bfld 6 w 0⟩

/-- A form that uses no CX bits (R111). -/
def mkSS (f : SS → Instr) (w : Nat) (l : List Nat) : Option Instr :=
  req (fld w 21 4 == 0) (lit0 l (some (f (ssOf w))))

/-- A form with an optional literal naming c (R113). -/
def mkSSX (f : SS → Option Word → Instr) (w : Nat) (l : List Nat) : Option Instr :=
  req (fld w 22 3 == 0) (some (f (ssOf w) (litOpt l)))

/-- Primaries 0x38 to 0x4E (R112 to R115, R82). -/
def rawUniform (op w : Nat) (l : List Nat) : Option Instr :=
  match op with
  | 0x38 => mkSS .smov w l
  | 0x39 =>
    if tst w 18 then req (fld w 16 2 == 0) (lit0 l (some (.sliHi (bfld 6 w 19) (bfld 16 w 0))))
    else lit0 l (some (.sli (bfld 6 w 19) (bfld 18 w 0)))
  | 0x3A => mkSS .sadd w l | 0x3B => mkSS .ssub w l | 0x3C => mkSS .smul w l
  | 0x3D => mkSS .smulh w l | 0x3E => mkSSX .smad w l | 0x3F => mkSS .sand w l
  | 0x40 => mkSS .sor w l | 0x41 => mkSS .sxor w l | 0x42 => mkSS .sshl w l
  | 0x43 => mkSS .sshr w l | 0x44 => mkSS .ssra w l | 0x45 => mkSS .smin w l
  | 0x46 => mkSS .smax w l
  | 0x47 => req (fld w 24 1 == 0) (lit0 l (some (.scmp (ssOf w) (bfld 3 w 21))))
  | 0x48 => mkSSX .ssel w l | 0x49 => mkSS .sclz w l | 0x4A => mkSS .spopc w l
  | 0x4B => mkSS .sbfe w l | 0x4C => mkSS .sbfi w l
  | 0x4D => req (fld w 24 1 == 0) (lit0 l (some (.slea (ssOf w) (bfld 3 w 21))))
  | 0x4E => req (fld w 0 12 == 0) (lit0 l (some (.srdsp (bfld 6 w 12) (bfld 7 w 18))))
  | _ => none

def vmemOf (w : Nat) (l2 : Bool) (l : List Nat) : VMem :=
  ⟨predOf w, bfld 7 w 14, bfld 7 w 7, bfld 3 w 3, tst w 2, tst w 1, l2, litOpt l⟩

/-- Uniform memory forms: loads name D and hold B = 0, stores name B and hold D = 0 (R163). -/
def mkUMem (f : UMem → Instr) (load : Bool) (w : Nat) (l : List Nat) : Option Instr :=
  req (fld w 23 1 == 0 && fld w 20 1 == 0 && (if load then fld w 0 6 == 0 else fld w 12 6 == 0))
    (some (f ⟨if load then bfld 6 w 12 else bfld 6 w 0, bfld 6 w 6, bfld 2 w 21, tst w 19, tst w 18,
      litOpt l⟩))

def mkAtomic (f : Atomic → Instr) (w : Nat) (l : List Nat) : Option Instr :=
  req (fld w 5 1 == 0)
    (lit1 l fun x => f ⟨predOf w, bfld 7 w 14, bfld 7 w 7, bfld 3 w 2, bfld 2 w 0, x⟩)

/-- Primaries 0x50 to 0x5B (R161 to R179). -/
def rawMem (op w : Nat) (l : List Nat) : Option Instr :=
  match op with
  | 0x50 => some (.lds (vmemOf w (tst w 0) l))
  | 0x51 => some (.sts (vmemOf w (tst w 0) l))
  | 0x52 => mkUMem .slds true w l
  | 0x53 => mkUMem .ssts false w l
  | 0x54 => some (.ldg (vmemOf w (tst w 0) l))
  | 0x55 => some (.stg (vmemOf w (tst w 0) l))
  | 0x56 => mkUMem .sldg true w l
  | 0x57 => mkUMem .sstg false w l
  | 0x58 => some (if tst w 6 then .std (vmemOf w false l) else .ldd (vmemOf w false l))
  | 0x59 =>
    if tst w 6 then
      req (fld w 14 7 == 0 && fld w 3 3 == 0)
        (some (.prfg (predOf w) (bfld 7 w 7) (tst w 2) (tst w 1) (litOpt l)))
    else some (.ldc (vmemOf w false l))
  | 0x5A => mkAtomic (if tst w 6 then .atomg else .atoms) w l
  | 0x5B =>
    if tst w 6 then
      req (noPred w && fld w 0 6 == 0 && fld w 14 7 == 0 && fld w 13 1 == 0)
        (lit0 l (some (.aflush (bfld 6 w 7))))
    else req (fld w 0 6 == 0 && fld w 14 7 == 0) (lit1 l fun x => .atomo (predOf w) (bfld 7 w 7) x)
  | _ => none

/-- EN fields. -/
def enSA (w : Nat) : BitVec 6 := bfld 6 w 8
def enSB (w : Nat) : BitVec 6 := bfld 6 w 2
def enH (w : Nat) : BitVec 4 := bfld 4 w 14
def enSlot (w : Nat) : BitVec 3 := bfld 3 w 18
/-- The named EN fields are 0: SEC, SLOT, H, SA, SB, FL in that order. -/
def zSEC (w : Nat) : Bool := fld w 21 4 == 0
def zSLOT (w : Nat) : Bool := fld w 18 3 == 0
def zH (w : Nat) : Bool := fld w 14 4 == 0
def zSA (w : Nat) : Bool := fld w 8 6 == 0
def zSB (w : Nat) : Bool := fld w 2 6 == 0
def zFL (w : Nat) : Bool := fld w 0 2 == 0

def cptOf (w : Nat) (cl : Bool) : Cpt := ⟨enSA w, enSB w, bfld 6 w 14, cl⟩

/-- Copies and timelines, 0x5C to 0x63 (R208, R211, R215, R218). -/
def rawCopy (op w : Nat) (l : List Nat) : Option Instr :=
  match op with
  | 0x5C => req (fld w 0 2 == 0) (lit0 l (some
      (.cpl (predOf w) (bfld 7 w 14) (bfld 7 w 7) (bfld 2 w 5) (bfld 2 w 3) (tst w 2))))
  | 0x5D => req (zSEC w && fld w 20 1 == 0 && fld w 1 1 == 0) (lit0 l (some (.cptLd (cptOf w (tst w 0)))))
  | 0x5E => req (zSEC w && fld w 20 1 == 0 && fld w 1 1 == 0) (lit0 l (some (.cptSt (cptOf w (tst w 0)))))
  | 0x5F => req (zSEC w && zSLOT w && zH w && zFL w) (lit1 l fun x => .cpr (enSA w) (enSB w) x)
  | 0x60 => req (zSEC w && fld w 20 1 == 0 && zFL w) (lit1 l fun x => .cpm (cptOf w false) x)
  | 0x61 => req (zSEC w && zSLOT w && zH w && zSA w) (lit0 l (some (.tclose (enSB w) (bfld 2 w 0))))
  | 0x62 => req (zSEC w && zSLOT w && zH w && zSB w) (lit0 l (some (.twait (bfld 2 w 0) (enSA w))))
  | 0x63 => req (zSEC w && zH w && zSA w) (lit0 l (some (.tstat (enSB w) (bfld 2 w 0) (enSlot w))))
  | _ => none

def acIoOf (w : Nat) : AcIo := ⟨enH w, enSA w, enSlot w, tst w 0⟩
def mmaOf (w : Nat) (x : Word) : Mma := ⟨enH w, enSA w, enSB w, enSlot w, tst w 0, tst w 1, x⟩

/-- Matrix forms, 0x64 to 0x69 (R238). -/
def rawMatrix (op w : Nat) (l : List Nat) : Option Instr :=
  match op, fld w 21 4 with
  | 0x64, 0 => req (zSLOT w && fld w 1 1 == 0)
      (lit0 l (some (.acalloc (enH w) (enSA w) (enSB w) (tst w 0))))
  | 0x64, 1 => req (zSLOT w && zSA w && zSB w && zFL w) (lit0 l (some (.acfree (enH w))))
  | 0x65, 0 => req (zSLOT w && zSA w && zSB w && zFL w) (lit0 l (some (.acz (enH w))))
  | 0x65, 1 => req (zSLOT w && zSA w && fld w 6 2 == 0 && zFL w)
      (lit0 l (some (.acadd (enH w) (bfld 4 w 2))))
  | 0x66, 0 => req (zSB w && fld w 1 1 == 0) (lit0 l (some (.acld (acIoOf w))))
  | 0x66, 1 => req (zSB w && fld w 1 1 == 0) (lit0 l (some (.acst (acIoOf w))))
  | 0x67, 0 => lit1 l fun x => .mma (mmaOf w x)
  | 0x67, 1 => lit1 l fun x => .mmaT (mmaOf w x)
  | 0x68, 0 => lit1 l fun x => .mmas (mmaOf w x)
  | 0x69, 0 => req (zSLOT w && zH w && zFL w) (lit1 l fun x => .omap (enSA w) (enSB w) x)
  | _, _ => none

/-- Lookup forms, 0x6A to 0x6D (R261). -/
def rawLookup (op w : Nat) (l : List Nat) : Option Instr :=
  match op, fld w 21 4 with
  | 0x6A, 0 => req (zFL w) (lit1 l fun x => .tballoc (enH w) (enSA w) (enSB w) (enSlot w) x)
  | 0x6A, 1 => req (zSLOT w && zSA w && zSB w && zFL w) (lit0 l (some (.tbfree (enH w))))
  | 0x6B, 0 => req (zSLOT w && zFL w) (lit0 l (some (.tbuildBp (enH w) (enSA w) (enSB w))))
  | 0x6B, 1 => req (zSLOT w && zFL w) (lit1 l fun x => .tbuildCb (enH w) (enSA w) (enSB w) x)
  | 0x6C, _ => req (fld w 20 1 == 0) (lit1 l fun x =>
      .lmma ⟨enH w, bfld 4 w 21, enSA w, enSB w, bfld 2 w 18, tst w 0, tst w 1, x⟩)
  | 0x6D, 0 => req (zSLOT w && zSA w && zFL w) (lit0 l (some (.tbstat (enH w) (enSB w))))
  | 0x6D, 1 => req (zSLOT w && zFL w) (lit0 l (some (.tbspill (enH w) (enSA w) (enSB w))))
  | 0x6D, 2 => req (zSLOT w && zFL w) (lit0 l (some (.tbfill (enH w) (enSA w) (enSB w))))
  | _, _ => none

/-- Pools, launch and scratchpad allocation, 0x6E to 0x73 (R296, R292, R194). -/
def rawPool (op w : Nat) (l : List Nat) : Option Instr :=
  match op, fld w 21 4 with
  | 0x6E, 0 => req (zH w && zSB w && zFL w) (lit0 l (some (.plcfg (enSlot w) (enSA w))))
  | 0x6E, 1 => req (zH w && zSA w) (lit0 l (some (.plstat (enSlot w) (enSB w) (bfld 2 w 0))))
  | 0x6F, 0 => req (zH w && fld w 1 1 == 0) (lit1 l fun x =>
      .plpush (enSlot w) (enSA w) (enSB w) (tst w 0) x)
  | 0x70, 0 => req (zH w && zSA w && fld w 1 1 == 0) (lit0 l (some (.plpop (enSlot w) (enSB w) (tst w 0))))
  | 0x70, 1 => req (zH w && zSA w && zSB w && zFL w) (lit0 l (some (.pldrain (enSlot w))))
  | 0x71, 0 => req (zSLOT w && zH w && zFL w) (lit0 l (some (.lnch (enSA w) (enSB w))))
  | 0x72, 0 => req (zH w && zFL w) (lit1 l fun x => .salloc (enSlot w) (enSA w) (enSB w) x)
  | 0x72, 1 => req (zSLOT w && zH w && zSB w && zFL w) (lit0 l (some (.sfree (enSA w))))
  | 0x72, 2 => req (zSLOT w && zH w && fld w 1 1 == 0) (lit0 l (some
      (if tst w 0 then .srestoreDone (enSA w) (enSB w) else .srestore (enSA w) (enSB w))))
  | 0x73, 0 => req (zH w && zFL w) (lit0 l (some (.srank (enSlot w) (enSA w) (enSB w))))
  | 0x73, 1 => req (zSLOT w && zH w && fld w 1 1 == 0)
      (if tst w 0 then req (zSA w) (lit0 l (some (.squeryCnt (enSB w))))
       else lit0 l (some (.squery (enSA w) (enSB w))))
  | 0x73, 2 => req (zSLOT w && zH w && zSA w && zSB w && zFL w) (lit0 l (some .lhret))
  | _, _ => none

/-- Control forms, 0x74 to 0x79 (R90). -/
def rawControl (op w : Nat) (l : List Nat) : Option Instr :=
  let off : BitVec 18 := bfld 18 w 0
  match op, fld w 18 3 with
  | 0x74, 0 => req (noPred w && fld w 0 18 == 0) (lit0 l (some .nop))
  | 0x74, 1 => req (noPred w && fld w 0 18 == 0) (lit0 l (some .yield))
  | 0x74, 2 => req (noPred w && fld w 16 2 == 0) (lit0 l (some (.bkpt (bfld 16 w 0))))
  | 0x74, 3 => req (noPred w && fld w 16 2 == 0) (lit0 l (some (.trapu (bfld 16 w 0))))
  | 0x75, 0 => req (noPred w) (lit0 l (some (.bra off)))
  | 0x75, 1 => req (noPred w) (lit0 l (some (.call off)))
  | 0x76, 0 => lit0 l (some (.brcAny (predOf w) off))
  | 0x76, 1 => lit0 l (some (.brcAll (predOf w) off))
  | 0x76, 2 => req (noPred w && fld w 6 12 == 0) (lit0 l (some (.brx (bfld 6 w 0))))
  | 0x77, 0 => lit1 l fun x => .ifI (predOf w) off x
  | 0x77, 1 => req (noPred w) (lit0 l (some (.loop off)))
  | 0x77, 2 => req (fld w 0 18 == 0) (lit0 l (some (.brk (predOf w))))
  | 0x77, 3 => req (noPred w && fld w 0 18 == 0) (lit0 l (some .next))
  | 0x78, 0 => req (noPred w && fld w 0 18 == 0) (lit0 l (some .ret))
  | 0x78, 1 => req (noPred w && fld w 0 18 == 0) (lit0 l (some .exit))
  | 0x78, 2 => req (noPred w && fld w 8 10 == 0) (lit0 l (some (.regang (bfld 8 w 0))))
  | 0x79, 0 => req (noPred w)
      (match l with
       | [a, b, c] => some (.spawn off (BitVec.ofNat 32 a) (BitVec.ofNat 32 b) (BitVec.ofNat 32 c))
       | _ => none)
  | 0x79, 1 => req (noPred w && fld w 6 12 == 0)
      (match l with
       | [a, b] => some (.mcall (bfld 6 w 0) (BitVec.ofNat 32 a) (BitVec.ofNat 32 b))
       | _ => none)
  | _, _ => none

/-- SY fields. -/
def sySA (w : Nat) : BitVec 6 := bfld 6 w 6
def sySB (w : Nat) : BitVec 6 := bfld 6 w 0
def sySC (w : Nat) : BitVec 3 := bfld 3 w 18
def zSC (w : Nat) : Bool := fld w 18 3 == 0
def zORD (w : Nat) : Bool := fld w 16 2 == 0
def zIDX (w : Nat) : Bool := fld w 12 4 == 0
def zYA (w : Nat) : Bool := fld w 6 6 == 0
def zYB (w : Nat) : Bool := fld w 0 6 == 0
def barOf (w : Nat) (r : BitVec 6) : Bar := ⟨sySC w, bfld 4 w 12, r⟩

/-- Synchronisation, 0x7A and 0x7B (R226, R232 to R234). -/
def rawSync (op w : Nat) (l : List Nat) : Option Instr :=
  match op, fld w 21 4 with
  | 0x7A, 0 => req (zORD w && zYA w) (lit0 l (some (.bara (barOf w (sySB w)))))
  | 0x7A, 1 => req (zORD w && zYA w) (lit0 l (some (.barw (barOf w (sySB w)))))
  | 0x7A, 2 => req (zORD w && zYA w) (lit0 l (some (.baraw (barOf w (sySB w)))))
  | 0x7A, 3 => req (zORD w && zYA w) (lit0 l (some (.barq (barOf w (sySB w)))))
  | 0x7A, 4 => req (zORD w && zYB w) (lit0 l (some (.barcfg (barOf w (sySA w)))))
  | 0x7B, 0 => req (zIDX w && zYA w && zYB w) (lit0 l (some (.fence (sySC w) (bfld 2 w 16))))
  | 0x7B, 1 => req (zORD w && zIDX w && zYB w) (lit0 l (some (.acq (sySC w) (sySA w))))
  | 0x7B, 2 => req (zORD w && zIDX w && zYB w) (lit0 l (some (.rel (sySC w) (sySA w))))
  | 0x7B, 3 => req (zSC w && zORD w && zIDX w && zYA w && zYB w) (lit0 l (some .ifence))
  | _, _ => none

/-- System forms, 0x7C to 0x7F (R320). -/
def rawSystem (op w : Nat) (l : List Nat) : Option Instr :=
  match op, fld w 21 4 with
  | 0x7C, 0 => req (zSC w && zORD w && zIDX w) (lit1 l fun x => .cwrd (sySA w) (sySB w) x)
  | 0x7C, 1 => req (zSC w && zORD w && zIDX w) (lit1 l fun x => .cwwr (sySA w) (sySB w) x)
  | 0x7C, 2 => req (zSC w && zORD w && zIDX w) (lit0 l (some (.winrd (sySA w) (sySB w))))
  | 0x7C, 3 => req (zSC w && zORD w && zIDX w) (lit0 l (some (.winwr (sySA w) (sySB w))))
  | 0x7D, 0 => req (zSC w && zORD w && zIDX w) (lit0 l (some (.gpark (sySA w) (sySB w))))
  | 0x7D, 1 => req (zSC w && zORD w && zIDX w) (lit0 l (some (.gresume (sySA w) (sySB w))))
  | 0x7D, 2 => req (zSC w && zORD w && zYA w && zYB w) (lit0 l
      (match fld w 12 4 with
       | 0 => some .tret | 1 => some .tretHold | 2 => some .tretEnd | _ => none))
  | 0x7D, 3 => req (zSC w && zORD w && fld w 13 3 == 0) (lit0 l (some
      (if tst w 12 then .thawEnd (sySA w) (sySB w) else .thaw (sySA w) (sySB w))))
  | 0x7E, 0 => req (zORD w && fld w 14 2 == 0) (lit0 l (some
      (.tlbinv (sySC w) (bfld 2 w 12) (sySA w) (sySB w))))
  | 0x7E, 1 => req (zSC w && zORD w && zIDX w) (lit0 l (some (.ctxsv (sySA w) (sySB w))))
  | 0x7E, 2 => req (zSC w && zORD w && fld w 13 3 == 0) (lit0 l (some
      (if tst w 12 then .ctxldDiscard (sySA w) (sySB w) else .ctxld (sySA w) (sySB w))))
  | 0x7E, 3 => req (zSC w && zORD w && zIDX w) (lit0 l (some (.mcswr (sySA w) (sySB w))))
  | 0x7F, 0 => req (zSC w && zORD w) (lit0 l (some (.sysc (bfld 16 w 0))))
  | _, _ => none

/-- The instruction of word `w` with claimed words `l`, before the field rules of `Instr.wf`. -/
def decodeRaw (w : Nat) (l : List Nat) : Option Instr :=
  let op := opOf w
  if op < 0x17 then rawVecInt op w l
  else if op == 0x17 then rawVecUnary w l
  else if op < 0x38 then rawFloat op w l
  else if op < 0x50 then rawUniform op w l
  else if op < 0x5C then rawMem op w l
  else if op < 0x64 then rawCopy op w l
  else if op < 0x6A then rawMatrix op w l
  else if op < 0x6E then rawLookup op w l
  else if op < 0x74 then rawPool op w l
  else if op < 0x7A then rawControl op w l
  else if op < 0x7C then rawSync op w l
  else rawSystem op w l

/-- How many words must follow `w` as its own: the extension word is there or not (R64). -/
def litsFit (w : Nat) (l : List Nat) : Bool :=
  if extensible (opOf w) then l.length < 2 else l.length == litCount w

/-- Decoding of one instruction word and the words it claims (R47 check 7, R71 checks 1 to 4). -/
def decode (w : Nat) (l : List Nat) : Except Reject Instr :=
  if unassignedOp (opOf w) then .error .unassigned
  else if !litsFit w l then .error .literals
  else match decodeRaw w l with
    | none => .error .unlisted
    | some i => if i.wf then .ok i else .error .field

/-- A word from its four bytes, the least significant first (R1). -/
def wordOfBytes (bs : List Byte) : Nat :=
  bs.foldr (fun b acc => b.toNat + 256 * acc) 0

/-- The four bytes of a word, the least significant first (R1). -/
def bytesOfWord (w : Nat) : List Byte :=
  [BitVec.ofNat 8 w, BitVec.ofNat 8 (w / 256), BitVec.ofNat 8 (w / 65536), BitVec.ofNat 8 (w / 16777216)]

/-- The words of a byte sequence, in ascending address order; a partial word at the end is dropped. -/
def wordsOfBytes : List Byte → List Nat
  | b0 :: b1 :: b2 :: b3 :: r => wordOfBytes [b0, b1, b2, b3] :: wordsOfBytes r
  | _ => []

/-- Decoding from bytes in memory order: the instruction word, then the literal words it calls for and,
when `ext` says that the next word carries its LIT bit, an extension word. The rest is returned. -/
def decodeBytes (ext : Bool) (bs : List Byte) : Except Reject (Instr × List Byte) :=
  match wordsOfBytes bs with
  | [] => .error .literals
  | w :: r =>
    let k := if extensible (opOf w) then (if ext then 1 else 0) else litCount w
    match decode w (r.take k) with
    | .ok i => .ok (i, bs.drop (4 * (k + 1)))
    | .error e => .error e

/-- The bytes of the table's bits: `nbits` of `w`, the first word lowest, then four zero words. -/
def tableBytes (nbits w : Nat) : List Byte :=
  bytesOfWord (w % 2 ^ nbits % 2 ^ 32) ++
  bytesOfWord (w % 2 ^ nbits / 2 ^ 32 % 2 ^ 32) ++ bytesOfWord (w % 2 ^ nbits / 2 ^ 64 % 2 ^ 32) ++
  bytesOfWord (w % 2 ^ nbits / 2 ^ 96 % 2 ^ 32)

/-- The instruction the decoder reads from the table's bits; an extensible word is in its short form. -/
def decodeTableWord (nbits w : Nat) : Option Instr :=
  if nbits == 0 then none
  else match decodeBytes false (tableBytes nbits w) with
    | .ok (i, _) => some i
    | .error _ => none

/-! The encoder, from the encoding tables. `cat hi k lo` puts the k bits of `lo` below `hi`. -/

def cat (hi k lo : Nat) : Nat := hi * 2 ^ k + lo % 2 ^ k

def encPred (op : Nat) (p : Pred) : Nat := cat (cat op 1 p.neg.toNat) 3 p.idx.toNat
def encExt (e : Ext) : Nat :=
  cat (cat (cat (cat (cat e.ty.toNat 7 e.c.toNat) 1 e.bu.toNat) 1 0) 3 e.rm.toNat) 16 0
def encExtOpt (e : Option Ext) : List Nat := match e with | none => [] | some e => [encExt e]
def encOff (o : Option Word) : List Nat := match o with | none => [] | some x => [x.toNat]

def encVV (op : Nat) (o : VV) : List Nat :=
  cat (cat (cat (encPred op o.p) 7 o.d.toNat) 7 o.a.toNat) 7 o.b.toNat :: encExtOpt o.ext
def encVUw (op : Nat) (p : Pred) (d a : BitVec 7) (fn : Nat) : Nat :=
  cat (cat (cat (encPred op p) 7 d.toNat) 7 a.toNat) 7 fn
def encVU (op fn : Nat) (o : VU) : List Nat := encVUw op o.p o.d o.a fn :: encExtOpt o.ext
def encVP (op : Nat) (o : VP) : List Nat :=
  cat (cat (cat (cat (cat (encPred op o.p) 1 0) 3 o.cnd.toNat) 3 o.pd.toNat) 7 o.a.toNat) 7 o.b.toNat ::
    encExtOpt o.ext
def encPP (fn : Nat) (o : PP) : List Nat :=
  cat (cat (cat (cat (cat (cat (encPred 0x17 o.p) 4 0) 3 o.pd.toNat) 1 0) 3 o.pb.toNat) 3 o.pa.toNat) 7 fn ::
    (if o.claimed then [0] else [])
def encSS (op cx : Nat) (o : SS) : Nat :=
  cat (cat (cat (cat (cat (cat op 4 cx) 1 o.ib.toNat) 2 o.ty.toNat) 6 o.d.toNat) 6 o.a.toNat) 6 o.b.toNat
def encVMem (op : Nat) (m : VMem) : List Nat :=
  encVUw op m.p m.r m.a (cat (cat (cat (cat (cat (encOff m.off).length 3 m.sz.toNat) 1 m.ub.toNat) 1
    m.sx.toNat) 1 m.l2.toNat) 0 0) :: encOff m.off
/-- LDD, STD and LDC: the selector in FN[6] and LIT in FN[0]. -/
def encDMem (op sel : Nat) (m : VMem) : List Nat :=
  encVUw op m.p m.r m.a (cat (cat (cat (cat sel 3 m.sz.toNat) 1 m.ub.toNat) 1 m.sx.toNat) 1
    (encOff m.off).length) :: encOff m.off
def encUMem (op : Nat) (load : Bool) (m : UMem) : List Nat :=
  cat (cat (cat (cat (cat (cat (cat (cat (cat op 1 (encOff m.off).length) 1 0) 2 m.sz.toNat) 1 0) 1
    m.sx.toNat) 1 m.l2.toNat) 6 (if load then m.r.toNat else 0)) 6 m.a.toNat) 6
    (if load then 0 else m.r.toNat) :: encOff m.off
def encAtomic (sel : Nat) (o : Atomic) : List Nat :=
  [encVUw 0x5A o.p o.d o.a (cat (cat (cat sel 1 0) 3 o.op.toNat) 2 o.ty.toNat), o.lit.toNat]
/-- Shape EN from SEC, SLOT, H, SA, SB and FL. -/
def encEN (op sec slot h sa sb fl : Nat) : Nat :=
  cat (cat (cat (cat (cat (cat op 4 sec) 3 slot) 4 h) 6 sa) 6 sb) 2 fl
/-- Shape EN with [20] = 0 and [19:14] one field (R215). -/
def encCpt (op : Nat) (o : Cpt) : Nat :=
  cat (cat (cat (cat (cat (cat (cat op 4 0) 1 0) 6 o.sc.toNat) 6 o.sr.toNat) 6 o.sd.toNat) 1 0) 1 o.cl.toNat
def encAcIo (sec : Nat) (o : AcIo) : List Nat :=
  [encEN 0x66 sec o.slot.toNat o.h.toNat o.sa.toNat 0 o.raw.toNat]
def encMma (op sec : Nat) (o : Mma) : List Nat :=
  [encEN op sec o.slot.toNat o.h.toNat o.sa.toNat o.sb.toNat (cat o.r.toNat 1 o.z.toNat), o.lit.toNat]
/-- Shape CT. -/
def encCT (op : Nat) (p : Pred) (sec off : Nat) : Nat := cat (cat (encPred op p) 3 sec) 18 off
/-- The predicate field 0b0111 (R62). -/
def noP : Pred := ⟨false, 7⟩
/-- Shape SY from SEC, SCOPE, ORD, IDX, SA and SB. -/
def encSY (op sec sc ord idx sa sb : Nat) : Nat :=
  cat (cat (cat (cat (cat (cat op 4 sec) 3 sc) 2 ord) 4 idx) 6 sa) 6 sb
def encBar (sec : Nat) (o : Bar) : List Nat :=
  [encSY 0x7A sec o.sc.toNat 0 o.idx.toNat 0 o.r.toNat]

/-- The words of an instruction; a step without a word has none. -/
def encode : Instr → List Nat
  | .vadd o => encVV 0x00 o | .vsub o => encVV 0x01 o | .vadds o => encVV 0x02 o
  | .vsubs o => encVV 0x03 o | .vmul o => encVV 0x04 o | .vmulh o => encVV 0x05 o
  | .vmad o => encVV 0x06 o | .vmadw o => encVV 0x07 o | .vmin o => encVV 0x08 o
  | .vmax o => encVV 0x09 o | .vand o => encVV 0x0A o | .vor o => encVV 0x0B o
  | .vxor o => encVV 0x0C o | .vshl o => encVV 0x0D o | .vshr o => encVV 0x0E o
  | .vsra o => encVV 0x0F o | .vrot o => encVV 0x10 o | .vbfe o => encVV 0x11 o
  | .vbfi o => encVV 0x12 o | .vsel o => encVV 0x13 o | .vcmp o => encVP 0x14 o
  | .vdot4 o => encVV 0x15 o | .vlea o => encVV 0x16 o
  | .vmov o => encVU 0x17 0x00 o | .vbcst o => encVU 0x17 0x01 o | .vlane o => encVU 0x17 0x02 o
  | .vabs o => encVU 0x17 0x03 o | .vneg o => encVU 0x17 0x04 o | .vnot o => encVU 0x17 0x05 o
  | .vclz o => encVU 0x17 0x06 o | .vpopc o => encVU 0x17 0x07 o
  | .vmovSpecial o => encVU 0x17 0x08 o
  | .pand o => encPP 0x10 o | .por o => encPP 0x11 o | .pxor o => encPP 0x12 o
  | .pnot o => encPP 0x13 o | .pmov o => encPP 0x14 o
  | .vfadd o => encVV 0x18 o | .vfsub o => encVV 0x19 o | .vfmul o => encVV 0x1A o
  | .vfma o => encVV 0x1B o | .vfmin o => encVV 0x1C o | .vfmax o => encVV 0x1D o
  | .vfcmp o => encVP 0x1E o | .vfscale o => encVV 0x1F o
  | .vfabs o => encVU 0x20 0x00 o | .vfneg o => encVU 0x20 0x01 o | .vfclass o => encVU 0x20 0x02 o
  | .vfrint o => encVU 0x20 0x03 o | .vffrac o => encVU 0x20 0x04 o
  | .vfclassFlags sd c =>
    cat (cat (cat (cat (encPred 0x20 noP) 1 0) 6 sd.toNat) 7 0) 7 5 :: (if c then [0x80000000] else [])
  | .vfrcp o => encVU 0x21 0x00 o | .vfrsq o => encVU 0x21 0x01 o | .vfsqrt o => encVU 0x21 0x02 o
  | .vfexp2 o => encVU 0x21 0x03 o | .vflog2 o => encVU 0x21 0x04 o | .vfsin o => encVU 0x21 0x05 o
  | .vfcos o => encVU 0x21 0x06 o
  | .vfcvt o src h => encVU 0x22 (cat (cat src.toNat 1 h.toNat) 4 0) o
  | .vicvt o dir uns h =>
    encVU 0x23 (cat (cat (cat (cat dir.toNat 1 0) 1 uns.toNat) 1 h.toNat) 3 0) o
  | .vqnt o k slot => encVU 0x24 (cat k.toNat 3 slot.toNat) o
  | .vdqnt o k slot => encVU 0x25 (cat k.toNat 3 slot.toNat) o
  | .vbandr o => encVU 0x26 0 o | .vbandw o => encVU 0x27 0 o
  | .vred o op => encVU 0x30 op.toNat o
  | .vscan o x op => encVU 0x31 (cat x.toNat 3 op.toNat) o
  | .vshfl o mode cnt => encVU 0x32 (cat mode.toNat 5 cnt.toNat) o
  | .vvote o mode => encVU 0x33 mode.toNat o
  | .vmatch o => encVU 0x34 0 o
  | .smov o => [encSS 0x38 0 o]
  | .sli d imm => [cat (cat (cat 0x39 6 d.toNat) 1 0) 18 imm.toNat]
  | .sliHi d imm => [cat (cat (cat (cat 0x39 6 d.toNat) 1 1) 2 0) 16 imm.toNat]
  | .sadd o => [encSS 0x3A 0 o] | .ssub o => [encSS 0x3B 0 o] | .smul o => [encSS 0x3C 0 o]
  | .smulh o => [encSS 0x3D 0 o]
  | .smad o xl => encSS 0x3E (encOff xl).length o :: encOff xl
  | .sand o => [encSS 0x3F 0 o] | .sor o => [encSS 0x40 0 o] | .sxor o => [encSS 0x41 0 o]
  | .sshl o => [encSS 0x42 0 o] | .sshr o => [encSS 0x43 0 o] | .ssra o => [encSS 0x44 0 o]
  | .smin o => [encSS 0x45 0 o] | .smax o => [encSS 0x46 0 o]
  | .scmp o cc => [encSS 0x47 cc.toNat o]
  | .ssel o xl => encSS 0x48 (encOff xl).length o :: encOff xl
  | .sclz o => [encSS 0x49 0 o] | .spopc o => [encSS 0x4A 0 o]
  | .sbfe o => [encSS 0x4B 0 o] | .sbfi o => [encSS 0x4C 0 o]
  | .slea o k => [encSS 0x4D k.toNat o]
  | .srdsp d idx => [cat (cat (cat 0x4E 7 idx.toNat) 6 d.toNat) 12 0]
  | .lds m => encVMem 0x50 m | .sts m => encVMem 0x51 m
  | .slds m => encUMem 0x52 true m | .ssts m => encUMem 0x53 false m
  | .ldg m => encVMem 0x54 m | .stg m => encVMem 0x55 m
  | .sldg m => encUMem 0x56 true m | .sstg m => encUMem 0x57 false m
  | .ldd m => encDMem 0x58 0 m | .std m => encDMem 0x58 1 m | .ldc m => encDMem 0x59 0 m
  | .prfg p a ub f1 off =>
    encVUw 0x59 p 0 a (cat (cat (cat (cat 1 3 0) 1 ub.toNat) 1 f1.toNat) 1 (encOff off).length) ::
      encOff off
  | .atoms o => encAtomic 0 o | .atomg o => encAtomic 1 o
  | .atomo p a lit => [encVUw 0x5B p 0 a 0, lit.toNat]
  | .aflush sa => [cat (cat (cat (cat (encPred 0x5B noP) 7 0) 1 0) 6 sa.toNat) 7 0x40]
  | .cpl p d a dir sz cl => [encVUw 0x5C p d a (cat (cat (cat dir.toNat 2 sz.toNat) 1 cl.toNat) 2 0)]
  | .cptLd o => [encCpt 0x5D o] | .cptSt o => [encCpt 0x5E o]
  | .cpr sa sb lit => [encEN 0x5F 0 0 0 sa.toNat sb.toNat 0, lit.toNat]
  | .cpm o lit => [encCpt 0x60 o, lit.toNat]
  | .tclose sd tl => [encEN 0x61 0 0 0 0 sd.toNat tl.toNat]
  | .twait tl sa => [encEN 0x62 0 0 0 sa.toNat 0 tl.toNat]
  | .tstat sd tl sel => [encEN 0x63 0 sel.toNat 0 0 sd.toNat tl.toNat]
  | .acalloc h sa sd int => [encEN 0x64 0 0 h.toNat sa.toNat sd.toNat int.toNat]
  | .acfree h => [encEN 0x64 1 0 h.toNat 0 0 0]
  | .acz h => [encEN 0x65 0 0 h.toNat 0 0 0]
  | .acadd h hs => [encEN 0x65 1 0 h.toNat 0 hs.toNat 0]
  | .acld o => encAcIo 0 o | .acst o => encAcIo 1 o
  | .mma o => encMma 0x67 0 o | .mmaT o => encMma 0x67 1 o | .mmas o => encMma 0x68 0 o
  | .omap sa sb lit => [encEN 0x69 0 0 0 sa.toNat sb.toNat 0, lit.toNat]
  | .tballoc h sa sd slot lit => [encEN 0x6A 0 slot.toNat h.toNat sa.toNat sd.toNat 0, lit.toNat]
  | .tbfree h => [encEN 0x6A 1 0 h.toNat 0 0 0]
  | .tbuildBp h sa sd => [encEN 0x6B 0 0 h.toNat sa.toNat sd.toNat 0]
  | .tbuildCb h sa sd lit => [encEN 0x6B 1 0 h.toNat sa.toNat sd.toNat 0, lit.toNat]
  | .lmma o =>
    [encEN 0x6C o.tb.toNat o.planes.toNat o.h.toNat o.sa.toNat o.sb.toNat (cat o.r.toNat 1 o.z.toNat),
      o.lit.toNat]
  | .tbstat h sd => [encEN 0x6D 0 0 h.toNat 0 sd.toNat 0]
  | .tbspill h sa sd => [encEN 0x6D 1 0 h.toNat sa.toNat sd.toNat 0]
  | .tbfill h sa sd => [encEN 0x6D 2 0 h.toNat sa.toNat sd.toNat 0]
  | .plcfg b sa => [encEN 0x6E 0 b.toNat 0 sa.toNat 0 0]
  | .plstat b sd sel => [encEN 0x6E 1 b.toNat 0 0 sd.toNat sel.toNat]
  | .plpush b sa sb w lit => [encEN 0x6F 0 b.toNat 0 sa.toNat sb.toNat w.toNat, lit.toNat]
  | .plpop b sd w => [encEN 0x70 0 b.toNat 0 0 sd.toNat w.toNat]
  | .pldrain b => [encEN 0x70 1 b.toNat 0 0 0 0]
  | .lnch sa sb => [encEN 0x71 0 0 0 sa.toNat sb.toNat 0]
  | .salloc rank sa sd lit => [encEN 0x72 0 rank.toNat 0 sa.toNat sd.toNat 0, lit.toNat]
  | .sfree sa => [encEN 0x72 1 0 0 sa.toNat 0 0]
  | .srestore sa sd => [encEN 0x72 2 0 0 sa.toNat sd.toNat 0]
  | .srestoreDone sa sd => [encEN 0x72 2 0 0 sa.toNat sd.toNat 1]
  | .srank rank sa sd => [encEN 0x73 0 rank.toNat 0 sa.toNat sd.toNat 0]
  | .squery sa sd => [encEN 0x73 1 0 0 sa.toNat sd.toNat 0]
  | .squeryCnt sd => [encEN 0x73 1 0 0 0 sd.toNat 1]
  | .lhret => [encEN 0x73 2 0 0 0 0 0]
  | .nop => [encCT 0x74 noP 0 0] | .yield => [encCT 0x74 noP 1 0]
  | .bkpt c => [encCT 0x74 noP 2 c.toNat] | .trapu c => [encCT 0x74 noP 3 c.toNat]
  | .bra off => [encCT 0x75 noP 0 off.toNat] | .call off => [encCT 0x75 noP 1 off.toNat]
  | .brcAny p off => [encCT 0x76 p 0 off.toNat] | .brcAll p off => [encCT 0x76 p 1 off.toNat]
  | .brx sa => [encCT 0x76 noP 2 sa.toNat]
  | .ifI p off j => [encCT 0x77 p 0 off.toNat, j.toNat]
  | .loop off => [encCT 0x77 noP 1 off.toNat]
  | .brk p => [encCT 0x77 p 2 0] | .next => [encCT 0x77 noP 3 0]
  | .ret => [encCT 0x78 noP 0 0] | .exit => [encCT 0x78 noP 1 0]
  | .regang id => [encCT 0x78 noP 2 id.toNat]
  | .spawn off a b c => [encCT 0x79 noP 0 off.toNat, a.toNat, b.toNat, c.toNat]
  | .mcall m a b => [encCT 0x79 noP 1 m.toNat, a.toNat, b.toNat]
  | .bara o => encBar 0 o | .barw o => encBar 1 o | .baraw o => encBar 2 o | .barq o => encBar 3 o
  | .barcfg o => [encSY 0x7A 4 o.sc.toNat 0 o.idx.toNat o.r.toNat 0]
  | .fence sc ord => [encSY 0x7B 0 sc.toNat ord.toNat 0 0 0]
  | .acq sc sa => [encSY 0x7B 1 sc.toNat 0 0 sa.toNat 0]
  | .rel sc sa => [encSY 0x7B 2 sc.toNat 0 0 sa.toNat 0]
  | .ifence => [encSY 0x7B 3 0 0 0 0 0]
  | .cwrd sa sd lit => [encSY 0x7C 0 0 0 0 sa.toNat sd.toNat, lit.toNat]
  | .cwwr sa sb lit => [encSY 0x7C 1 0 0 0 sa.toNat sb.toNat, lit.toNat]
  | .winrd sa sd => [encSY 0x7C 2 0 0 0 sa.toNat sd.toNat]
  | .winwr sa sb => [encSY 0x7C 3 0 0 0 sa.toNat sb.toNat]
  | .gpark sa sd => [encSY 0x7D 0 0 0 0 sa.toNat sd.toNat]
  | .gresume sa sd => [encSY 0x7D 1 0 0 0 sa.toNat sd.toNat]
  | .tret => [encSY 0x7D 2 0 0 0 0 0] | .tretHold => [encSY 0x7D 2 0 0 1 0 0]
  | .tretEnd => [encSY 0x7D 2 0 0 2 0 0]
  | .thaw sa sd => [encSY 0x7D 3 0 0 0 sa.toNat sd.toNat]
  | .thawEnd sa sd => [encSY 0x7D 3 0 0 1 sa.toNat sd.toNat]
  | .tlbinv sc mode sa sb => [encSY 0x7E 0 sc.toNat 0 mode.toNat sa.toNat sb.toNat]
  | .ctxsv sa sb => [encSY 0x7E 1 0 0 0 sa.toNat sb.toNat]
  | .ctxld sa sb => [encSY 0x7E 2 0 0 0 sa.toNat sb.toNat]
  | .ctxldDiscard sa sb => [encSY 0x7E 2 0 0 1 sa.toNat sb.toNat]
  | .mcswr sa sb => [encSY 0x7E 3 0 0 0 sa.toNat sb.toNat]
  | .sysc c => [cat (cat (cat (cat 0x7F 4 0) 3 0) 2 0) 16 c.toNat]
  | .clauseDecode _ | .waitSatisfied _ | .longLatencyReturn _ _ | .commitPoint _ | .clauseRetire _
  | .strikeReport _ | .activeSetSwap _ | .urgentPromotion _ | .deferredFaultDelivery _
  | .lostLoadSignal _ | .litTargetChange _ _ | .bankDarken _ | .bankRelight _ | .scratchpadArrival _
  | .pageWalkComplete _ | .faultRecordForward _ _ | .faultAnswer _ _ _ | .globalAccessPerform _
  | .directPathReply _ | .atomoArrival _ | .atomoEvict _ | .aflushArrival _ | .cprElementArrival _
  | .copyTransfer _ | .copyOpComplete _ | .teleaselStepBoundary _ | .matrixEngineStep _
  | .matrixOpComplete _ | .lookupEngineStep _ | .lookupOpComplete _ | .barrierArrival _
  | .barcfgArrival _ | .barrierReleaseDelivery _ | .relArrival _ | .acqAnswer _ | .pushArrival _
  | .popArrival _ | .plcfgArrival _ | .plstatArrival _ | .pldrainArrival _ | .poolWithdrawal _
  | .qtailWrite _ _ _ | .queueStatusClear _ _ _ | .qpreempt _ _ _ | .queuePoll _ | .slotConsume _
  | .launchGrant _ | .trapHandlerEntry _ _ | .ctxsvComplete _ | .registerWrite _ _ _ | .create _
  | .resize _ | .destroy _ | .setrate _ | .thawhost _ | .resizeComplete _ | .memoryScrubComplete _
  | .hostMemoryAccess _ _ _ _ | .hostIsolationViolation _ | .meterRelease _ | .cheukFlit _ _
  | .cheukPortDown _ | .powerUp _ | .attestationReport _ | .thermalAlarm _ _ | .throttleRelease
  | .powerBudgetAdjust _ _ | .sprintEnd _ | .coolDownEnd _ => []

/-! Macro-window substitution (R77, R102). -/

/-- The eight parameter bytes of an MCALL (R102). -/
abbrev Params := List Nat

/-- A vector field after substitution; `none` for an unused parameter. -/
def substV (ps : Params) (f : Nat) : Option Nat :=
  if 120 ≤ f && f < 128 then
    let b := ps.getD (f - 120) 0x80
    if 128 ≤ b then none else some (b % 128)
  else some f

/-- A uniform field after substitution. -/
def substS (ps : Params) (f : Nat) : Option Nat :=
  if 56 ≤ f && f < 60 then
    let b := ps.getD (f - 56) 0x80
    if 64 ≤ b then none else some (b % 64)
  else some f

/-- The word with the n-bit field at `lo` replaced. -/
def setFld (w lo n v : Nat) : Nat := w / 2 ^ (lo + n) * 2 ^ (lo + n) + v % 2 ^ n * 2 ^ lo + w % 2 ^ lo

def substFieldV (ps : Params) (lo : Nat) (w : Nat) : Option Nat :=
  (substV ps (fld w lo 7)).map (setFld w lo 7)
def substFieldS (ps : Params) (lo : Nat) (w : Nat) : Option Nat :=
  (substS ps (fld w lo 6)).map (setFld w lo 6)

/-- The word and its extension word after substitution, `none` where R102 traps. SYSC's code and an
immediate B field are no register fields (DEDUCED, log 10). -/
def substWord (ps : Params) (w : Nat) (ext : Option Nat) : Option (Nat × Option Nat) :=
  let op := opOf w
  let bu := match ext with | none => false | some x => tst x 20
  let vv := op < 0x17 && op != 0x14 || (0x18 ≤ op && op < 0x20 && op != 0x1E)
  let vp := op == 0x14 || op == 0x1E
  let vu := op == 0x17 || (0x20 ≤ op && op < 0x38) || op == 0x50 || op == 0x51 || op == 0x54 ||
    op == 0x55 || (0x58 ≤ op && op < 0x5D)
  let ss := op == 0x38 || (0x3A ≤ op && op < 0x4F) || op == 0x52 || op == 0x53 || op == 0x56 || op == 0x57
  let ext' : Option (Option Nat) := match ext with
    | none => some none
    | some x => (substFieldV ps 21 x).map some
  let w' : Option Nat :=
    if vv then
      ((substFieldV ps 14 w).bind (substFieldV ps 7)).bind
        (if bu then (if 64 ≤ fld w 0 7 then some else substFieldS ps 0) else substFieldV ps 0)
    else if vp then (substFieldV ps 7 w).bind (if bu then some else substFieldV ps 0)
    else if vu then (substFieldV ps 14 w).bind (substFieldV ps 7)
    else if ss then
      ((substFieldS ps 12 w).bind (substFieldS ps 6)).bind
        (if op != 0x4E && op < 0x4F && tst w 20 then some else substFieldS ps 0)
    else if op == 0x39 then substFieldS ps 19 w
    else if 0x5D ≤ op && op < 0x74 then (substFieldS ps 8 w).bind (substFieldS ps 2)
    else if 0x7A ≤ op && op < 0x7F then (substFieldS ps 6 w).bind (substFieldS ps 0)
    else some w
  match w', ext' with
  | some a, some b => some (a, b)
  | _, _ => none

end Sys2Proof
end

