-- ==== Sys2Proof/Machine/Num.lean ====
section
/-! DEFINITION. Exact integer helpers of R84, the shifts of R108 and the bit fields of R109. Words are
read as exact integers, computed on, and narrowed at the end. -/

namespace Sys2Proof.Machine

/-- The low n bits of x as two's complement (R84). -/
def sext (x n : Nat) : Int :=
  let u := x % 2 ^ n
  if n == 0 then 0 else if 2 ^ (n - 1) ≤ u then (u : Int) - (2 ^ n : Nat) else u

/-- x mod 2^n (R84). -/
def wrap (x : Int) (n : Nat) : Nat := (x % ((2 ^ n : Nat) : Int)).toNat

/-- Signed saturation (R84). -/
def satS (x : Int) (n : Nat) : Int :=
  min (max x (-((2 ^ (n - 1) : Nat) : Int))) (((2 ^ (n - 1) : Nat) : Int) - 1)

/-- Unsigned saturation (R84). -/
def satU (x : Int) (n : Nat) : Int := min (max x 0) (((2 ^ n : Nat) : Int) - 1)

/-- A value of n bits, signed or not. -/
def intOf (signed : Bool) (x n : Nat) : Int := if signed then sext x n else ((x % 2 ^ n : Nat) : Int)

/-- Shl, Shr, Sra and Rot of R108. -/
def shl (x c w : Nat) : Nat := if w ≤ c then 0 else x * 2 ^ c % 2 ^ w
def shr (x c w : Nat) : Nat := if w ≤ c then 0 else x % 2 ^ w / 2 ^ c
def sra (x c w : Nat) : Nat :=
  if w ≤ c then (if sext x w < 0 then 2 ^ w - 1 else 0)
  else wrap (sext x w / ((2 ^ c : Nat) : Int)) w
def rot (x c w : Nat) : Nat :=
  let u := x % 2 ^ w
  (u * 2 ^ (c % w) + u / 2 ^ (w - c % w)) % 2 ^ w

/-- FieldW, Bfe and Bfi of R109. -/
def fieldW (k : Nat) : Nat := if 32 ≤ k % 256 then 0 else min (k / 256 % 256) (32 - k % 256)
def bfe (x k : Nat) (signed : Bool) : Nat :=
  let w := fieldW k
  let f := x % 2 ^ 32 / 2 ^ (k % 256) % 2 ^ w
  if w == 0 then 0 else if signed then wrap (sext f w) 32 else f
def bfi (x k c : Nat) : Nat :=
  let w := fieldW k
  let o := k % 256
  if w == 0 then c else c / 2 ^ (o + w) * 2 ^ (o + w) + x % 2 ^ w * 2 ^ o + c % 2 ^ o

/-- Leading zeros of x in n bits, and its 1 bits. -/
def clz (x n : Nat) : Nat :=
  match n with
  | 0 => 0
  | m + 1 => if x % 2 ^ (m + 1) / 2 ^ m == 1 then 0 else 1 + clz x m
def popc (x n : Nat) : Nat :=
  match n with
  | 0 => 0
  | m + 1 => x / 2 ^ m % 2 + popc x m

/-- Width of an element of a lane type (R65). -/
def tyWidth (ty : Nat) : Nat :=
  match ty with
  | 2 | 3 | 9 | 10 => 16
  | 4 | 5 => 8
  | _ => 32
/-- The signed integer types. -/
def tySigned (ty : Nat) : Bool := ty == 0 || ty == 2 || ty == 4

/-- The bits of element i of a word, w bits wide (R84). -/
def elemBits (x w i : Nat) : Nat := x / 2 ^ (w * i) % 2 ^ w

/-- The word whose elements, w bits wide, are given from element 0 (R84). -/
def packBits (w : Nat) (es : List Nat) : Nat := es.foldr (fun e acc => e % 2 ^ w + 2 ^ w * acc) 0

/-- Element-wise work on up to three words (R117). -/
def mapElems (w : Nat) (f : Nat → Nat → Nat → Nat) (a b c : Word) : Word :=
  BitVec.ofNat 32 (packBits w ((List.range (32 / w)).map fun i =>
    f (elemBits a.toNat w i) (elemBits b.toNat w i) (elemBits c.toNat w i)))

end Sys2Proof.Machine
end

