-- ==== Sys2Proof/Config.lean ====
section
/-! DEFINITION. What one part fixes (R10, R13) and the free values: constants without a body, of which
nothing can be proved, applied to a counter of the state or to operands. -/

namespace Sys2Proof.Config

/-- Cores, clusters and cores of a cluster (R10, R11). -/
abbrev cores : Nat := 192
abbrev clusters : Nat := 32
abbrev coresPerCluster : Nat := 6
/-- Resident contexts and vector registers of a core, and the size of the active set (R13). -/
abbrev contexts : Nat := 32
abbrev vregs : Nat := 2048
abbrev activeMax : Nat := 8
/-- Device DRAM bytes (R19). -/
abbrev dramBytes : Nat := 549755813888
/-- The macro window (R101). -/
abbrev macroBase : Nat := 0xFFFFFFFFFE000
/-- Clause retirement after completion, and urgency, in cycles (R57, R55). -/
abbrev retireCycles : Nat := 96
abbrev urgentCycles : Nat := 224

/-- Free: which enabled agent moves next (DESIGN CHOICE, log 4). -/
opaque pick : Nat → Nat
/-- Free: device cycles that pass at a step (DESIGN CHOICE, log 5). -/
opaque elapsed : Nat → Nat
/-- Free: the scratchpad hash key drawn at placement and at CTXLD (R166; DESIGN CHOICE, log 6). -/
opaque hashKey : Nat → BitVec 6
/-- Free: any number a step leaves open, by the draw counter. -/
opaque anyNat : Nat → Nat
/-- Free: the result of a scaled .i32 k-step whose exact sum is no integer or is NaN (R244; DESIGN CHOICE, log 7). -/
opaque fracStep : Int → Nat → Word
/-- Free: whether both signatures in `sig` verify over a body under a key, the key of the boot ROM, and the length of
the two signatures (R345, R350; DESIGN CHOICE, log 8). -/
opaque verifies (key body sig : List Byte) : Bool
opaque romKey : List Byte
opaque sigBytes : Nat
/-- Free: how the 244 bytes of a command's arguments are read: a number, a list of numbers and a list of pairs by index
(R345; DESIGN CHOICE, log 26). -/
opaque argNat : List Byte → Nat → Nat
opaque argList : List Byte → Nat → List Nat
opaque argPairs : List Byte → List (Nat × Nat)
/-- Free: the signature part and the digest of an attestation report (R351; DESIGN CHOICE, log 8). -/
opaque signature : List Byte → List Byte
opaque digest : List Byte → List Byte
/-- Free: what a special value without a meaning for a handler context reads, by index and context. -/
opaque contextSpecial : Nat → Nat → Word
/-- Free: the Cheuk port on the way to a peer device, and whether the peer admits an access (R349). -/
opaque peerPort : Nat → Nat
opaque peerAdmits : Nat → Bool
/-- Free: whether the residue check of an engine step mismatches (R251; DESIGN CHOICE, log 9). -/
opaque residue : Nat → Bool

/-- Free: whether a group is still busy with the word it issued last, a memory word of several cycles or a gap
that its result imposes, by draw counter and handle (R55, R105, R160; DESIGN CHOICE, log 5). -/
opaque busy : Nat → Nat → Bool

/-- Free: the cluster whose Sorrel runs the partition manager firmware (R337; DESIGN CHOICE, log 21). -/
opaque managerCluster : Nat

end Sys2Proof.Config
end

