-- ==== Sys2Proof/Machine/Store.lean ====
section
/-! DEFINITION. Finite maps and sets as sorted lists in one canonical form, and memory over them. A
`Store` lists (key, value) pairs with strictly rising keys and no value equal to the default; equal maps
are equal lists. -/

namespace Sys2Proof.Machine

/-- A map from keys to values, sorted by key. -/
abbrev Store (α : Type) := List (Nat × α)

/-- The value at a key, `d` where none is listed. -/
def Store.get {α : Type} (m : Store α) (k : Nat) (d : α) : α :=
  match m with
  | [] => d
  | (k', v) :: r => if k' == k then v else Store.get r k d

/-- The value at a key, if listed. -/
def Store.find {α : Type} (m : Store α) (k : Nat) : Option α :=
  match m with
  | [] => none
  | (k', v) :: r => if k' == k then some v else Store.find r k

/-- The map with the entry at `k` removed. -/
def Store.del {α : Type} (m : Store α) (k : Nat) : Store α :=
  match m with
  | [] => []
  | (k', v) :: r => if k' == k then Store.del r k else (k', v) :: Store.del r k

/-- The map with `v` at `k`, listed even where `v` is a default. -/
def Store.put {α : Type} (m : Store α) (k : Nat) (v : α) : Store α :=
  match m with
  | [] => [(k, v)]
  | (k', v') :: r =>
    if k < k' then (k, v) :: (k', v') :: r
    else if k' == k then (k, v) :: r
    else (k', v') :: Store.put r k v

/-- The map with `v` at `k`; writing the default removes the entry. -/
def Store.set {α : Type} [DecidableEq α] (m : Store α) (k : Nat) (v d : α) : Store α :=
  if v = d then m.del k else m.put k v

/-- The canonical form: keys rise strictly and no value is the default. -/
def Store.wfFrom {α : Type} [DecidableEq α] (d : α) (lo : Nat) (m : Store α) : Bool :=
  match m with
  | [] => true
  | (k, v) :: r => lo ≤ k && !decide (v = d) && Store.wfFrom d (k + 1) r
def Store.wf {α : Type} [DecidableEq α] (d : α) (m : Store α) : Bool := Store.wfFrom d 0 m

/-- A set of numbers as a rising list. -/
abbrev NSet := List Nat
def NSet.insert (m : NSet) (k : Nat) : NSet :=
  match m with
  | [] => [k]
  | k' :: r => if k < k' then k :: k' :: r else if k' == k then k' :: r else k' :: NSet.insert r k
def NSet.erase (m : NSet) (k : Nat) : NSet := m.filter (· != k)
def NSet.put (m : NSet) (k : Nat) (b : Bool) : NSet := if b then NSet.insert m k else NSet.erase m k

/-- Bytes by address; a byte no entry lists reads 0 (DESIGN CHOICE, log 2). -/
abbrev Memory := List Host.Cell
/-- What an unlisted byte reads as. -/
def Memory.unlisted : Byte := 0
/-- The canonical form of a memory. -/
def Memory.wf (m : Memory) : Bool := Store.wf Memory.unlisted m
def Memory.read (m : Memory) (a : Nat) : Byte := Store.get m a Memory.unlisted
def Memory.write (m : Memory) (a : Nat) (b : Byte) : Memory := Store.set m a b Memory.unlisted
/-- Bytes `a` to `a + n - 1`, ascending. -/
def Memory.readN (m : Memory) (a n : Nat) : List Byte := (List.range n).map fun i => m.read (a + i)
/-- The bytes written from `a` upward. -/
def Memory.writeN (m : Memory) (a : Nat) (bs : List Byte) : Memory :=
  match bs with
  | [] => m
  | b :: r => (m.write a b).writeN (a + 1) r

/-- Little-endian number of bytes (R1). -/
def leNat (bs : List Byte) : Nat := bs.foldr (fun b acc => b.toNat + 256 * acc) 0
/-- The low `n` bytes of a number, the least significant first (R1). -/
def leBytes (n w : Nat) : List Byte :=
  match n with
  | 0 => []
  | n + 1 => BitVec.ofNat 8 w :: leBytes n (w / 256)

/-- Two byte ranges overlap. -/
def overlap (a n b m : Nat) : Bool := a < b + m && b < a + n

end Sys2Proof.Machine
end

