-- ==== Sys2Proof/Machine/State.lean ====
section
/-! DEFINITION. The state of the machine as plain data, the reasons a step can stop, and the state right
after reset. Groups are keyed by handle (core + 256 * context, R321); Sorrel handler contexts by
65536 + 4 * cluster + context (R315). Blocks are keyed by launch * 256 + core. -/

namespace Sys2Proof.Machine

/-- A stop of the machine. -/
inductive Fault where
  /-- Raised by `exec` of an instruction word when `who` names no group that issues a clause. `step` never
  does that, so a claim about a run never meets it: safe. -/
  | noIssuer
  deriving DecidableEq, Repr

/-- An instruction without a meaning. -/
inductive Refusal where
  /-- Raised by an arm of `exec` for an instruction that has no meaning yet: safe, nothing can be proved
  of a run through it. -/
  | notModelled (mnemonic : String)
  deriving DecidableEq, Repr

/-- Token kinds (R87). -/
inductive TokKind where | els | join | brk | call
  deriving DecidableEq, Repr

/-- A token (R87). -/
structure Token where
  kind : TokKind
  target : Pc
  mask : BitVec 4
  deriving DecidableEq, Repr

/-- A slice (R14, R85, R87, R97). -/
structure Slice where
  pc : Pc
  am : BitVec 4
  em : BitVec 4
  /-- top first -/
  toks : List Token
  /-- the lowest slice number of its sub-gang -/
  gang : Nat
  /-- REGANG arrival id -/
  arr : Option (BitVec 8)
  deriving DecidableEq, Repr

/-- An entry of a timeline: an operation, or a close when `op` is none (R205). -/
structure Entry where
  op : Option Nat
  /-- the operation has completed, or the close has left the core -/
  done : Bool
  bytes : Nat
  flags : Word
  deriving DecidableEq, Repr

/-- A timeline (R202). -/
structure Timeline where
  c : DWord
  l : DWord
  bytes : DWord
  status : Word
  /-- flags of completed batches, on their way to %fpflags (R137) -/
  report : Word
  entries : List Entry
  deriving DecidableEq, Repr

/-- A register class of a long-latency destination (R80). -/
inductive Dest where | vec | uni | prd
  deriving DecidableEq, Repr

/-- An uncommitted long-latency instruction (R49, R80). A piece (l, i) is lane `l` of register
`reg + i`; lane 32 + k stands for band byte k of a register image (R165). -/
structure Pend where
  id : Nat
  dest : Dest
  reg : Nat
  image : Bool
  pieces : List (Nat × Nat)
  deriving DecidableEq, Repr

/-- A returned piece: `val` none when its lane was cancelled; `flags` floating-point reports; `ue`
uncorrectable data. -/
structure Ret where
  id : Nat
  lane : Nat
  off : Nat
  val : Option Word
  flags : Word
  ue : Bool
  deriving DecidableEq, Repr

/-- The registers and control state of a group that a rollback restores (R57, R72). -/
structure Arch where
  /-- lane word of register n, lane l at 32 n + l, default 0 -/
  v : Store Word
  /-- band byte k of register n at 4 n + k, default 0x7F -/
  b : Store Byte
  s : Store Word
  /-- lane masks of p0 to p6, default 0 -/
  p : Store Word
  vpoison : NSet
  bpoison : NSet
  spoison : NSet
  slices : List Slice
  /-- lowest slice of the sub-gang that issued last (R86) -/
  last : Option Nat
  pend : List Pend
  fpflags : Word
  /-- recorded return headers, innermost first (R198) -/
  lhret : List Pc
  lossid : Word
  lossaddr : Word
  tbcause : Word
  tls : List Timeline
  /-- barrier records: PEND + 2 ARR + 4 STAT, block 0 to 15, cluster 16 to 23, wide 24 to 31 (R225) -/
  bars : Store Nat
  /-- the macro control store as the group fetches it: as it stood at placement or at the group's last
  IFENCE (R101, R335) -/
  macros : Store Word
  deriving DecidableEq, Repr

/-- Paths of a memory access (R161). -/
inductive Path where | scr | cached | l2 | konst | direct | phys
  deriving DecidableEq, Repr

/-- Where a global access goes after translation (R181). -/
structure Place where
  /-- 0 device, 1 host, 2 peer -/
  tgt : Nat
  pa : Nat
  bind : Nat
  deriving DecidableEq, Repr

/-- The child that SPAWN reserves (R100). -/
structure Child where
  ctx : Nat
  slices : Nat
  vregs : Nat
  entry : Pc
  params : List Word
  deriving DecidableEq, Repr

/-- A lane's transfer of CPL, or the pieces of other copies. -/
inductive OpKind where
  /-- destination, source per lane; DIR; bytes -/
  | cpl (lanes : List (Nat × Nat)) (dir : Nat) (w : Nat)
  /-- record offset, scratchpad offset, sampled coordinates and poison; `st` store; mask of team cores -/
  | cpt (rec dst : Nat) (coords : List Word) (bad : List Bool) (st : Bool) (mask : Nat)
  | cpr (src : Nat) (dst : Nat) (n : Nat) (op ty : Nat)
  | lnch (addr : Nat) (queue : Nat)
  /-- accumulator operations on storage `st`: 0 zero, 1 add `st2`, 2 load, 3 store -/
  | acc (what st st2 : Nat) (map : DWord) (slot : Nat) (raw : Bool)
  /-- MMA, and MMAS with its metadata offset -/
  | mma (st : Nat) (ma mb : DWord) (k : Nat) (sparse : Option Nat) (slot : Nat) (z r : Bool)
  /-- MMA.T: handle, storage, type and shape on the issuing core; its quadrants are operations of their own -/
  | mmaT (h st : Nat) (int : Bool) (m n : Nat) (ma mb : DWord) (k slot : Nat) (z r : Bool)
  | quad (parent q st : Nat) (ma mb : DWord) (k slot : Nat) (z r : Bool)
  /-- accumulator storage, table state, codes map, scale offset, groups word, planes, codebook rows -/
  | lmma (st tb : Nat) (map : DWord) (sc sk planes n : Nat) (z r : Bool)
  /-- table state, activation map, codebook offset -/
  | tbuild (tb : Nat) (map : DWord) (cent : Nat)
  | tbspill (tb off : Nat)
  /-- `own`: the storage was reserved for it -/
  | tbfill (tb off : Nat) (own : Bool)
  | tbfree (tb : Nat)
  /-- an operation without effect (R239), with the code of its instruction -/
  | none (code : Nat)
  deriving DecidableEq, Repr

/-- A byte of an engine's present step (R307). -/
inductive ByteAt where
  | todo
  /-- read, with its poison; `none` where the source failed, and then it is not to be written -/
  | read (v : Option (Byte × Bool))
  /-- written; the blocks that took it without poison, a page of memory as 0 -/
  | wrote (ks : List Nat)
  deriving DecidableEq, Repr

/-- A submitted operation of an engine or of the dispatcher's queue (R209, R249, R271, R292). -/
structure Op where
  id : Nat
  grp : Nat
  core : Nat
  tl : Nat
  kind : OpKind
  /-- slices of the submitting sub-gang, and the clause header and word index of the submission -/
  gang : List Nat
  hdr : Pc
  started : Bool
  step : Nat
  /-- byte count of R203 -/
  bytes : Nat
  oob : Bool
  lost : Bool
  fault : Bool
  /-- the detail code of the first FAULT -/
  detail : Nat
  cancelled : Bool
  flags : Word
  /-- waits on a page-fault record (cluster, sequence number) -/
  wait : Option (Nat × Nat)
  /-- stopped for a save -/
  stopped : Bool
  finished : Bool
  /-- data of the operation read when it started -/
  scratch : List Nat
  /-- the bytes of the present step, shorter when the last ones are still to be read; and how many of them are
  written (R307) -/
  buf : List ByteAt
  pos : Nat
  /-- it ends at its next step or transfer boundary (R210, R256, R327) -/
  ending : Bool
  /-- arrival number at an engine (R249); whether it has come to the head of the queue, the work its levels allowed
  there in eighths of a full-rate cycle, and the cycles this took (R252, R253) -/
  seq : Nat
  headed : Bool
  work : Nat
  cyc : Nat
  deriving DecidableEq, Repr

/-- The partition number of a handler context's requests: no check applies to them (R315). -/
def noPart : Nat := 64

/-- What a request does where it arrives (R53). -/
inductive Act where
  /-- a result computed at issue (R49) -/
  | local
  | load (path : Path) (w : Nat) (sx : Bool)
  | store (path : Path) (w : Nat) (data : Nat)
  | atomic (scr : Bool) (op ty : Nat) (b c : Nat)
  | atomo (bf : Bool) (key : Nat) (v : Word) (n : Nat)
  | aflush
  | prefetch (l1 : Bool)
  | submit (op : Op)
  /-- element i of a reducing copy (R219), on its way to its home; `Req.pid` is the copy id -/
  | cprElem (op ty v i : Nat)
  | fence (sc : Nat) (ord : Nat)
  | arrive (sc idx : Nat)
  | barcfg (sc idx : Nat) (cfg : Word)
  | rel (sc id : Nat)
  | acq (sc id : Nat)
  | plcfg (pool : Nat) (cfg : DWord)
  | plstat (pool sel : Nat)
  | plpush (pool : Nat) (key : DWord) (payload : List Word) (w : Bool)
  | plpop (pool : Nat) (w : Bool)
  | pldrain (pool : Nat)
  | spawn (c : Child)
  | tclose (tl : Nat)
  /-- allocations by identity -/
  | sfree (aid : Nat)
  | srank (aid rank : Nat)
  /-- SRESTORE's zeros over `n` bytes, which a table's watch sees (R266) -/
  | szero (n : Nat)
  /-- a system instruction's effect at retirement, with its operands (R320) -/
  | sys (code : Nat) (args : List Nat)
  deriving DecidableEq, Repr

/-- A request: one lane access, or one instruction's message (R53). -/
structure Req where
  id : Nat
  grp : Nat
  core : Nat
  /-- the partition of its master, `noPart` for a handler context (R315, R347) -/
  part : Nat
  act : Act
  lane : Nat
  /-- virtual address, or scratchpad offset; `ea` the lane's own, of which a word of 16 bytes is a part (R165) -/
  va : Nat
  ea : Nat
  /-- translated place; none while untranslated -/
  place : Option Place
  /-- the long-latency instruction it returns pieces to -/
  pid : Option Nat
  /-- register offset of a load's piece; of a store, 1 when with the earlier accesses of its instruction
  it writes its 32-byte granule whole (R173) -/
  off : Nat
  gang : List Nat
  hdr : Pc
  word : Nat
  /-- the first request number of its clause -/
  clause : Nat
  /-- waits on a page-fault record (cluster, sequence number) -/
  walk : Option (Nat × Nat)
  /-- a scratchpad load that met no live allocation: class (6 or 4), allocation id and handler -/
  lost : Option (Nat × Nat × Pc)
  /-- the widest scope at which a release has ordered a write to a bound page before what follows, 0 for none
  (axiom Bind) -/
  released : Nat
  /-- what will be returned, once performed -/
  reply : Option (List Ret)
  deriving DecidableEq, Repr

/-- Storage placed for a new state of a table. -/
inductive TblPlace where
  /-- reservation `res` of granules of the storage, with its spill allocation -/
  | hold (st res : Nat) (spill : Option Nat)
  /-- rows mapped for a LOST spill allocation, by the number of the mapping -/
  | rows (id : Nat)
  /-- a spill allocation, by identity -/
  | alloc (aid : Nat)
  deriving DecidableEq, Repr

/-- What a rollback or an undone clause must take back besides the registers (R58, R100, R195). -/
inductive Undo where
  /-- an allocation, by identity -/
  | alloc (block aid : Nat)
  /-- rows mapped for a LOST allocation, by the number of the mapping -/
  | restore (block id : Nat)
  /-- an allocation is the group's to rebuild again -/
  | done (block aid uid : Nat)
  | child (ctx : Nat)
  /-- the handle, bound to storage or state `id`, is unbound -/
  | acBind (block h id : Nat)
  | acFree (block h id : Nat)
  | tbBind (block h id : Nat)
  /-- the handle is bound to state `id` again -/
  | tbFree (block h id : Nat)
  /-- the handle, which state `new` took over from state `id`, is bound to `id` again, and the storage placed for
  `new` is given back -/
  | tbNew (block h id new : Nat) (placed : List TblPlace)
  /-- reservation `res` of table-store granules, with its spill allocation, is given back -/
  | tbHold (block st res : Nat) (spill : Option Nat)
  /-- a reservation given back is held again -/
  | tbKeep (block st res : Nat)
  /-- WINWR: words of a held group's window hold what they held, `none` for a control word that had not been written; `x`
  is what was written -/
  | window (h uid : Nat) (ws : List (Nat × Option Word)) (x : Word)
  deriving DecidableEq, Repr

/-- The clause being issued. -/
structure Cur where
  hdr : Pc
  n : Nat
  sw : Bool
  yld : Bool
  /-- instructions still to issue, each with its word's index -/
  rest : List (Nat × Instr)
  /-- index of the word being issued -/
  idx : Nat
  /-- slices of the issuing sub-gang -/
  gang : List Nat
  /-- pass count of the clause (R255) -/
  pass : Nat
  /-- the next request number when the clause started -/
  first : Nat
  snap : Arch
  held : List Req
  /-- newest first, each with the number of its issue -/
  undo : List (Nat × Undo)
  /-- a commit point as though SW (R174, R199, R232) -/
  commit : Bool
  /-- LHRET: return after the commit point (R199) -/
  lhret : Bool
  /-- class 10 detail, code and word index, raised after the clause (R104) -/
  trap : Option (Nat × Nat × Nat)
  /-- BARW: scope, index, destination (R225) -/
  barw : Option (Nat × Nat × Nat)
  ifence : Bool
  /-- TRET action (R323) -/
  tret : Option Nat
  /-- the context parks until its request is answered (R323, R328) -/
  parks : Bool
  deriving DecidableEq, Repr

/-- A completed clause not yet retired (R57). -/
structure Retained where
  hdr : Pc
  first : Nat
  done : Nat
  snap : Arch
  held : List Req
  undo : List (Nat × Undo)
  gang : List Nat
  /-- the next request number at completion -/
  upto : Nat
  deriving DecidableEq, Repr

/-- What a group does after its last clause, before it can issue again. -/
structure After where
  commit : Bool
  lhret : Bool
  gang : List Nat
  trap : Option (Nat × Nat × Nat)
  barw : Option (Nat × Nat × Nat)
  /-- IFENCE: what was fetched is dropped before the next clause (R234) -/
  ifence : Bool
  tret : Option Nat
  parks : Bool
  /-- YLD: the group gives up its place after the commit point (R56) -/
  yld : Bool
  /-- a commit point that R52 forces before a clause, not one of the clause that ended -/
  forced : Bool
  deriving DecidableEq, Repr

/-- A trap bound for Sorrel (R319). -/
structure Trap where
  cls : Nat
  detail : Nat
  word : Nat
  lane : Word
  addr : Nat
  pc : Pc
  /-- not of a clause that a rollback would issue again -/
  stands : Bool
  deriving DecidableEq, Repr

/-- A group's relation to Sorrel (R316, R325, R327). -/
inductive Hold where
  | free
  /-- a trap waits for the group's clauses to retire before it is queued -/
  | trapping (t : Trap)
  /-- held by a trap: queued, or its handler runs -/
  | owned
  /-- GPARK asked for; the group stops at its next clause boundary -/
  | parking
  | held
  deriving DecidableEq, Repr

/-- A fault delivered at a clause boundary (R59, R193, R273). -/
structure Deferred where
  /-- the clause it belongs to, by its first request number, and the word in it -/
  clause : Nat
  word : Nat
  cls : Nat
  detail : Nat
  /-- allocation base, or table handle -/
  obj : Nat
  addr : Nat
  lane : Nat
  /-- the loss handler of class 6 or 7 -/
  handler : Pc
  /-- slices of the issuing sub-gang -/
  gang : List Nat
  /-- not before this instruction has committed (ATOMS, R193) -/
  pid : Option Nat
  /-- an engine's recorded restart header (R273) -/
  restart : Option Pc
  deriving DecidableEq, Repr

/-- A resident group or a running handler context. -/
structure Group where
  /-- an identity that outlives a save (the model's own) -/
  uid : Nat
  core : Nat
  ctx : Nat
  /-- `some cluster` for a handler context (R315) -/
  sorrel : Option Nat
  role : Nat
  index : Nat
  team : Nat
  part : Nat
  asid : Nat
  launch : Nat
  block : Nat
  vregs : Nat
  age : Nat
  spkey : BitVec 6
  strikes : Word
  slewcy : Word
  arch : Arch
  cur : Option Cur
  after : Option After
  unret : List Retained
  outq : List Req
  rets : List Ret
  hold : Hold
  /-- GPARK has asked for the group, whatever a trap makes of its hold meanwhile (R316, R323) -/
  gpark : Bool
  frozen : Bool
  halted : Bool
  copyFrozen : Bool
  /-- page-fault park at the header: record (cluster, sequence number) and the address to fetch (R183) -/
  parked : Option (Nat × Nat)
  parkVa : Nat
  parkLane : Word
  deferred : List Deferred
  ended : Bool
  /-- control words written through the window, applied at the resume (R321, R322) -/
  win : Store Word
  /-- stopped at a header whose timeline watermarks are not reached (R54) -/
  waits : Bool
  readySince : Nat
  /-- a handler context: the held group it serves, and whether it is a trap's (R319) -/
  serves : Option Nat
  /-- tokens of a slice that Sorrel holds in its spill store, bottom first (R96) -/
  spills : Store (List Token)
  deriving DecidableEq, Repr

/-- State of an allocation (R188). -/
inductive AllocState where
  | live | lost
  | rebuilding (owner : Nat)
  deriving DecidableEq, Repr

/-- A scratchpad allocation (R187 to R190). -/
structure Alloc where
  /-- an identity of its own, so that a later allocation at its base is not taken for it -/
  aid : Nat
  base : Nat
  granules : Nat
  rank : Nat
  state : AllocState
  handler : Pc
  /-- rows as (bank, row), one for each granule -/
  rows : List (Nat × Nat)
  /-- SRESTORE.DONE accepted and waiting: its request id (R196) -/
  donePend : Option Nat
  /-- the present rows were mapped and zeroed by a group (identity, 0 for a table's spill) at a number in its program
  order, by SALLOC or SRESTORE: its earlier writes come before the zeros (R308) -/
  zeroed : Option (Nat × Nat)
  /-- the spill allocation of a table, by storage number (R259) -/
  spill : Option Nat
  deriving DecidableEq, Repr

/-- An accumulator (R237). -/
structure Acc where
  int : Bool
  m : Nat
  n : Nat
  /-- element (i, j) at i * n + j, default 0 -/
  el : Store Word
  rs : Option Nat
  poison : NSet
  deriving DecidableEq, Repr

/-- The state of a bound table handle (R259, R260). -/
structure Tbl where
  h : Nat
  cb : Bool
  rank : Nat
  y : Nat
  g : Nat
  /-- resident groups -/
  gs : Nat
  slot : Nat
  handler : Pc
  /-- the storage number of its entries, its reservation there, and the base of its spill allocation -/
  st : Nat
  res : Nat
  spill : Option Nat
  built : Bool
  valid : Bool
  lost : Bool
  spilled : Bool
  lo : Nat
  hi : Nat
  armed : Bool
  /-- the group and request number of the last TBUILD: earlier held writes of it are exempt (R265) -/
  armUid : Nat
  armId : Nat
  cause : Nat
  n : Nat
  deriving DecidableEq, Repr

/-- The entries of a table (R259). -/
structure TblData where
  /-- reservations of table-store granules: number, granules, and whether it is held -/
  res : List (Nat × Nat × Bool)
  /-- the bases of spill allocations of the storage that are gone: groups spilled there are (R259) -/
  dark : NSet
  /-- every group is gone, under a save floor (R279) -/
  gone : Bool
  /-- entry c of row i of group g at (g * Y + i) * E + c, default 0 -/
  el : Store Word
  /-- poisoned 32-byte granules of the entries -/
  poison : NSet
  deriving DecidableEq, Repr

/-- What a core's copy of a cluster or wide barrier may still show: the state that ended at a cycle (R227). -/
structure BarPast where
  upto : Nat
  phase : Word
  count : Nat
  e : Nat
  deriving DecidableEq, Repr

/-- A barrier (R224, R228). -/
structure Barrier where
  phase : Word
  count : Nat
  e : Nat
  p : Nat
  delta : Nat
  abandon : Bool
  cfg : Option Word
  /-- deferred changes of E: lowered and raised counts, and abandon-pending -/
  down : Nat
  up : Nat
  downAb : Bool
  /-- identities and cores of the current phase's arrivers -/
  arrivers : List (Nat × Nat)
  /-- states left within the last 64 cycles, latest first -/
  past : List BarPast
  deriving DecidableEq, Repr

/-- A launch's share of one core (R14, R288). -/
structure Block where
  core : Nat
  launch : Nat
  part : Nat
  asid : Nat
  team : Nat
  allocs : List Alloc
  scr : Memory
  /-- poisoned 32-byte granules of the scratchpad -/
  scrPoison : NSet
  lostCount : Word
  /-- accumulators and table entries by storage number, table states, and what a handle is bound to -/
  acs : Store Acc
  tbs : Store Tbl
  tbe : Store TblData
  ach : Store Nat
  tbn : Store Nat
  bars : Store Barrier
  slots : List DWord
  accBudget : Nat
  tblBudget : Nat
  tbh : Nat
  bbar : Nat
  cbar : Nat
  wbar : Nat
  pools : List Nat
  poolAdm : Bool
  macro0 : Nat
  deriving DecidableEq, Repr

/-- A line of the L1 read cache (R168), or a constant line (R170). -/
structure Line where
  konst : Bool
  tgt : Nat
  /-- physical address / 128 -/
  addr : Nat
  bind : Nat
  data : List Byte
  /-- poisoned 32-byte granules of the line -/
  bad : List Nat
  deriving DecidableEq, Repr

/-- A cached translation (R182). -/
structure Xlat where
  asid : Nat
  /-- virtual base address and log2 of the page size -/
  base : Nat
  size : Nat
  pa : Nat
  part : Nat
  tgt : Nat
  bind : Nat
  w : Bool
  x : Bool
  deriving DecidableEq, Repr

/-- A fetched 64-byte unit: its ASID, unit address and words (R48). -/
structure FetchUnit where
  asid : Nat
  unit : Nat
  words : List Nat
  deriving DecidableEq, Repr

/-- A core (R13). -/
structure Core where
  lit : List Nat
  hold : Bool
  target : Nat
  /-- macro control store words, default 0 (R101) -/
  macros : Store Word
  /-- the macro table pointer held, 0 for none -/
  table : Nat
  lines : List Line
  tlb : List Xlat
  fetch : List FetchUnit
  active : List Nat
  /-- contexts and vector registers reserved for children (R100) -/
  resv : List (Nat × Nat)
  /-- operations of the engines in order of arrival (R249, R271), and their activity levels (R252) -/
  matrixQ : List Nat
  lookupQ : List Nat
  matrixLevel : Nat
  lookupLevel : Nat
  deriving DecidableEq, Repr

/-- A trap or event waiting for a handler context (R319). -/
structure Event where
  isTrap : Bool
  handle : Nat
  trap : Trap
  /-- event code and the register values it carries (s2 to s5) -/
  code : Nat
  regs : List Word
  /-- the launch that a PREEMPT event names (R329) -/
  of : Nat
  deriving DecidableEq, Repr

/-- An ordered set of a home slice (R177). -/
structure OSet where
  addr : Nat
  /-- partition of the contributing masters (R347) -/
  part : Nat
  bf : Bool
  count : Nat
  items : List (Nat × Word)
  /-- its entries stand in the spill region (R178) -/
  spilled : Bool
  deriving DecidableEq, Repr

/-- A CPR applied window (R220): the copy id, 0 for a copy of this device or 1 more than the port its elements come by. -/
structure Window where
  id : Nat
  src : Nat
  base : Nat
  bits : NSet
  deriving DecidableEq, Repr

/-- An open page-fault record (R183, R184). -/
structure FaultRec where
  seq : Nat
  asid : Nat
  /-- virtual page number, bits [51:16] -/
  vpn : Nat
  kind : Nat
  part : Nat
  /-- forwarded to the host queue -/
  sent : Bool
  waiters : List (Nat × Nat)
  deriving DecidableEq, Repr

/-- A cluster (R10). -/
structure Cluster where
  cap : Nat
  pfloor : Nat
  inc : Nat
  svec : Word
  ue : BitVec 8
  res : BitVec 8
  corr : BitVec 16
  freq : Nat
  det : Bool
  sprint : Bool
  cool : Bool
  throt : Bool
  passreq : Nat
  /-- turns taken by the third lever (R352) -/
  lever : Nat
  temp : BitVec 8
  thresh : BitVec 8
  hot : Bool
  /-- the last sensor sample was at THRESH - 2 or lower (R353, R355) -/
  under : Bool
  /-- cycle at which the present sprint or cool-down began (R352), and the present throttle state, if one has
  been entered (R353) -/
  since : Nat
  thrSince : Option Nat
  /-- lag of the cluster's clock behind `now`, in 1/256 cycles (R83, R354) -/
  lag : Nat
  preemptQ : List Event
  trapQ : List Event
  /-- events whose queue was full, in order of arrival (R319) -/
  waiting : List Event
  nextSeq : Word
  recs : List FaultRec
  tlb : List Xlat
  bars : Store Barrier
  osets : List OSet
  windows : List Window
  deriving DecidableEq, Repr

/-- A record of a pool (R298 to R301). -/
structure PoolRec where
  key : DWord
  w : List Word
  folds : Word
  ovf : Bool
  stamp : Nat
  /-- it holds uncorrectable data (R305) -/
  ue : Bool
  deriving DecidableEq, Repr

/-- A parked push or pop: the request (R299, R300). -/
structure PoolPark where
  req : Req
  stamp : Nat
  deriving DecidableEq, Repr

/-- A pool (R293 to R303). `state`: 0 UNCONFIGURED, 1 OPEN, 2 DRAINING, 3 DRAINED. -/
structure Pool where
  state : Nat
  cfg : DWord
  rej : Nat
  recs : List PoolRec
  arrival : Nat
  pushes : List PoolPark
  pops : List PoolPark
  deriving DecidableEq, Repr

/-- A launch queue (R283). -/
structure Queue where
  qbase : DWord
  qasid : BitVec 16
  part : Nat
  admin : Bool
  en : Bool
  prio : BitVec 2
  log2size : BitVec 5
  qwidx : DWord
  qtail : DWord
  qhead : DWord
  ridx : Word
  preerr : Bool
  parterr : Bool
  xlate : Bool
  badrec : Bool
  qdone : DWord
  /-- the head record consumed but not placed: its bytes and slot index (R290) -/
  pending : Option (List Byte × Nat)
  /-- its published-slot read is due (R286) -/
  polled : Bool
  deriving DecidableEq, Repr

/-- A distributed launch (R290, R291). -/
structure Launch where
  queue : Nat
  slot : Nat
  prio : Nat
  part : Nat
  asid : Nat
  recd : List Byte
  cores : List Nat
  resident : Bool
  deriving DecidableEq, Repr

/-- The host fault queue of a partition (R341). -/
structure HostQueue where
  base : DWord
  en : Bool
  log2size : BitVec 5
  head : DWord
  tail : DWord
  deriving DecidableEq, Repr

/-- A partition (R344, R223). -/
structure Part where
  cores : List Nat
  units : List Nat
  asids : List Nat
  pools : List Nat
  queues : List Nat
  /-- cluster-barrier allotment by cluster -/
  cbars : List (Nat × Nat)
  wbars : Store Barrier
  deriving DecidableEq, Repr

/-- A rate meter (R348). -/
structure Meter where
  asid : Nat
  rate : Nat
  burst : Nat
  tokens : Nat
  deriving DecidableEq, Repr

/-- A Cheuk port (R349). -/
structure Port where
  up : Bool
  txSeq : Nat
  rxSeq : Nat
  replay : List Flit
  /-- flits on their way to the peer -/
  out : List Flit
  retrains : Nat
  deriving DecidableEq, Repr

/-- The mailbox of the partition manager (R345). -/
structure Mailbox where
  busy : Bool
  status : Nat
  ctr : Nat
  /-- the running command, with its opcode (R346) -/
  cmd : Option (Nat × Command)
  deriving DecidableEq, Repr

/-- A barrier release under way: barrier name, phase index, status and the handles to release (R229). -/
structure Release where
  id : Nat
  scope : Nat
  home : Nat
  idx : Nat
  stat : Bool
  /-- identities and cores -/
  who : List (Nat × Nat)
  deriving DecidableEq, Repr

/-- A saved group: its barrier releases go to Sorrel (R230). Beside the save area the device keeps what the
layout has no place for, `g` with its requests and operations (DESIGN CHOICE, log 12): identity, core at the save, save area,
team position, and index in the group table. -/
structure SavedGroup where
  uid : Nat
  core : Nat
  area : Nat
  pos : Nat
  idx : Nat
  g : Group
  reqs : List Req
  ops : List Op
  deriving DecidableEq, Repr

/-- What the device keeps of a saved block (DESIGN CHOICE, log 12), and the macro words of its core. -/
structure SavedBlock where
  area : Nat
  pos : Nat
  b : Block
  macros : Store Word
  deriving DecidableEq, Repr

/-- A save in progress (R328): the issuing context, the launch, area and floor, and the groups that were not
held before. -/
structure Save where
  issuer : Nat
  launch : Nat
  area : Nat
  floor : Nat
  mine : List Nat
  deriving DecidableEq, Repr

/-- Whose step is next: the model's own field (DESIGN CHOICE, log 4). -/
inductive Turn where
  | idle
  /-- the next word of a group's clause -/
  | word (h : Nat)
  /-- a step without a word -/
  | event (i : Instr)
  /-- the front of a group's queue leaves the core -/
  | leave (h : Nat)
  /-- the caches of a core lose an entry: 0 TLB, 1 line, 2 fetch unit -/
  | evict (core which n : Nat)
  /-- data of the device becomes uncorrectable (R76, R173, R324) -/
  | decay (what a b : Nat)
  /-- the host (1) or a peer (2) writes a byte of its own memory (R19, R181) -/
  | outside (m a : Nat) (x : Byte)
  /-- host function fn reads the doubleword at an offset of its window (R340) -/
  | hostRead (fn off : Nat)
  /-- the peer behind a port takes a flit (R349) -/
  | wire (port : Nat)
  /-- Sorrel serves the front of its queue as the manual says, with free choices j and n (R96, R230, R342) -/
  | service (cl j n : Nat)
  deriving DecidableEq, Repr

/-- The machine. -/
structure State where
  turn : Turn
  who : Nat
  draws : Nat
  now : Nat
  nextId : Nat
  inputs : List Instr
  groups : Store Group
  blocks : Store Block
  cores : Store Core
  clusters : Store Cluster
  launches : Store Launch
  parts : Store Part
  queues : Store Queue
  pools : Store Pool
  reqs : List Req
  ops : List Op
  releases : List Release
  saves : List Save
  saved : List SavedGroup
  savedBlocks : List SavedBlock
  mem : Memory
  host : Memory
  peer : Memory
  poison : NSet
  units : Store Nat
  scrubbing : NSet
  asidtab : Word
  /-- the entries of the ASID table that are in effect: its doublewords by ASID (R333) -/
  asids : Store (Nat × Nat)
  mailbox : Mailbox
  frozenFns : NSet
  meters : Store Meter
  ports : Store Port
  /-- the host fault queues (R341) -/
  fqs : Store HostQueue
  /-- what the host's last read returned; a byte without valid ECC is none (R339, R340) -/
  answered : List (Option Byte)
  bootfail : Bool
  ready : Bool
  cfgVersion : Nat
  fwVersion : Nat
  /-- the owner key of the configuration record -/
  ownerKey : List Byte
  /-- digests of the firmware image and the configuration record, and the last attestation report -/
  fwDigest : List Byte
  cfgDigest : List Byte
  report : List Byte
  deriving DecidableEq, Repr

/-! State after reset. Values the spec does not give are those of DESIGN CHOICE, log 1 and log 3. -/

/-- A core after reset: every bank lit, T = 48 (R191, R201), nothing cached, no group. -/
def Core.reset : Core :=
  { lit := List.range 48, hold := false, target := 48, macros := [], table := 0, lines := [], tlb := [],
    fetch := [], active := [], resv := [], matrixQ := [], lookupQ := [], matrixLevel := 0,
    lookupLevel := 0 }

/-- A cluster after reset (R254, R337, R355). -/
def Cluster.reset : Cluster :=
  { cap := 1, pfloor := 0, inc := 0, svec := 0, ue := 0, res := 0, corr := 0, freq := 64,
    det := true, sprint := false, cool := false, throt := false, passreq := 0, lever := 0, temp := 0, thresh := 95,
    hot := false, under := true, since := 0, thrSince := none, lag := 0, preemptQ := [], trapQ := [],
    waiting := [], nextSeq := 0, recs := [], tlb := [], bars := [], osets := [], windows := [] }

/-- A pool after reset: UNCONFIGURED (R295). -/
def Pool.reset : Pool :=
  { state := 0, cfg := 0, rej := 0, recs := [], arrival := 0, pushes := [], pops := [] }

/-- A launch queue after reset (R283). -/
def Queue.reset : Queue :=
  { qbase := 0, qasid := 0, part := 0, admin := false, en := false, prio := 0, log2size := 0, qwidx := 0,
    qtail := 0, qhead := 0, ridx := 0, preerr := false, parterr := false, xlate := false, badrec := false,
    qdone := 0, pending := none, polled := false }

/-- A host fault queue after reset (R341). -/
def HostQueue.reset : HostQueue :=
  { base := 0, en := false, log2size := 0, head := 0, tail := 0 }

/-- A barrier when its owner is created (R224). -/
def Barrier.reset : Barrier :=
  { phase := 0, count := 0, e := 0, p := 0, delta := 0, abandon := false, cfg := none, down := 0, up := 0,
    downAb := false, arrivers := [], past := [] }

/-- A rate meter after reset: no limit (R348). -/
def Meter.reset : Meter := ⟨0, 0, 0, 0⟩
/-- A Cheuk port after reset (R349). -/
def Port.reset : Port := ⟨true, 0, 0, [], [], 0⟩

/-- The machine right after reset: nothing resident, no partition before POWER_UP (R350). -/
def State.reset : State :=
  { turn := .idle, who := 0, draws := 0, now := 0, nextId := 1, inputs := [], groups := [], blocks := [],
    cores := [], clusters := [], launches := [], parts := [], queues := [], pools := [], reqs := [],
    ops := [], releases := [], saves := [], saved := [], savedBlocks := [], mem := [], host := [], peer := [], poison := [],
    units := [], scrubbing := [], asidtab := 0, asids := [], mailbox := ⟨false, 0, 0, none⟩, frozenFns := [], meters := [],
    ports := [], fqs := [], answered := [], bootfail := false, ready := false, cfgVersion := 0, fwVersion := 0,
    ownerKey := [], fwDigest := [], cfgDigest := [], report := [] }

end Sys2Proof.Machine
end

