-- ==== Sys2Proof/Machine/Operands.lean ====
section
/-! DEFINITION. Registers and operand forms: reads, writes, poison, executing lanes (R62, R63, R73 to R76,
R84). Every read and write of a register of a group goes through these. -/

namespace Sys2Proof.Machine

/-- V[n][lane] (R84). -/
def Arch.readV (a : Arch) (n lane : Nat) : Word := Store.get a.v (32 * n + lane) 0
/-- S[n]; s63 reads 0 (R75). -/
def Arch.readS (a : Arch) (n : Nat) : Word := if n == 63 then 0 else Store.get a.s n 0
/-- The 64-bit value of a uniform pair (R112). -/
def Arch.readS64 (a : Arch) (n : Nat) : Nat := (a.readS n).toNat + 2 ^ 32 * (a.readS (n + 1)).toNat
/-- The 64-bit value of a vector pair in a lane. -/
def Arch.readV64 (a : Arch) (n lane : Nat) : Nat :=
  (a.readV n lane).toNat + 2 ^ 32 * (a.readV (n + 1) lane).toNat
/-- P[n][lane]; p7 reads true (R75). -/
def Arch.readP (a : Arch) (n lane : Nat) : Bool :=
  if n == 7 then true else (Store.get a.p n 0).getLsbD lane
/-- Band byte k of register n (R73). -/
def Arch.readB (a : Arch) (n k : Nat) : Byte := Store.get a.b (4 * n + k) 0x7F

/-- Poison of a lane word, of a band byte and of a uniform register (R76). -/
def Arch.badV (a : Arch) (n lane : Nat) : Bool := a.vpoison.contains (32 * n + lane)
def Arch.badB (a : Arch) (n k : Nat) : Bool := a.bpoison.contains (4 * n + k)
def Arch.badS (a : Arch) (n : Nat) : Bool := n != 63 && a.spoison.contains n

/-- A lane word written; its poison is cleared (R76). -/
def Arch.writeLane (a : Arch) (n lane : Nat) (x : Word) : Arch :=
  { a with v := Store.set a.v (32 * n + lane) x 0, vpoison := a.vpoison.erase (32 * n + lane) }
/-- A band byte written; its poison is cleared. -/
def Arch.writeBand (a : Arch) (n k : Nat) (x : Byte) : Arch :=
  { a with b := Store.set a.b (4 * n + k) x 0x7F, bpoison := a.bpoison.erase (4 * n + k) }
/-- S[n] written; s63 ignores it (R75). -/
def Arch.writeS (a : Arch) (n : Nat) (x : Word) : Arch :=
  if n == 63 then a else { a with s := Store.set a.s n x 0, spoison := a.spoison.erase n }
/-- A uniform pair written (R112). -/
def Arch.writeS64 (a : Arch) (n : Nat) (x : Nat) : Arch :=
  (a.writeS n (BitVec.ofNat 32 x)).writeS (n + 1) (BitVec.ofNat 32 (x / 2 ^ 32))
/-- P[n][lane] written; p7 ignores it (R75). -/
def Arch.writeP (a : Arch) (n lane : Nat) (b : Bool) : Arch :=
  if n == 7 then a else
    let m := Store.get a.p n 0
    let bit : Word := 1#32 <<< lane
    { a with p := Store.set a.p n (if b then m ||| bit else m &&& ~~~bit) 0 }

/-- Lane words of one register written, lane by lane. -/
def Arch.writeLanes (a : Arch) (n : Nat) (vals : List (Nat × Word)) : Arch :=
  vals.foldl (fun a (l, x) => a.writeLane n l x) a

/-- The granules in which some lane is written. -/
def granulesOf (lanes : List Nat) : List Nat := [0, 1, 2, 3].filter fun k => lanes.any fun l => l / 8 == k

/-- Band bytes of the granules of the written lanes set to 0x7F (R73). -/
def Arch.bandRule (a : Arch) (n : Nat) (lanes : List Nat) : Arch :=
  (granulesOf lanes).foldl (fun a k => a.writeBand n k 0x7F) a

/-- A vector register written in a non-MX format: lane words, then the band rule (R73). -/
def Arch.writeV (a : Arch) (n : Nat) (vals : List (Nat × Word)) : Arch :=
  (a.writeLanes n vals).bandRule n (vals.map Prod.fst)

/-- Predicate bits written. -/
def Arch.writePs (a : Arch) (n : Nat) (vals : List (Nat × Bool)) : Arch :=
  vals.foldl (fun a (l, x) => a.writeP n l x) a

/-- The lane exists, belongs to a slice of `gang` and is active (R63, R85). -/
def Arch.activeLane (a : Arch) (gang : List Nat) (lane : Nat) : Bool :=
  gang.contains (lane / 4) &&
  (match a.slices[lane / 4]? with
   | some sl => sl.am.getLsbD (lane % 4)
   | none => false)

/-- Exec(g, lane) of R84 for the issuing sub-gang. -/
def Arch.exec (a : Arch) (gang : List Nat) (p : Pred) (lane : Nat) : Bool :=
  a.activeLane gang lane && (a.readP p.idx.toNat lane != p.neg)

/-- The executing lanes, ascending. -/
def Arch.lanes (a : Arch) (gang : List Nat) (p : Pred) : List Nat :=
  (List.range 32).filter (a.exec gang p)

/-- The lowest of `lanes` with poison in one of the registers. -/
def Arch.badLane (a : Arch) (regs lanes : List Nat) : Option Nat :=
  lanes.find? fun l => regs.any fun n => a.badV n l

/-- Source B of a VV or VP form in a lane: the lane word, or the uniform register (R65, R84). -/
def Arch.opB (a : Arch) (ext : Option Ext) (b : BitVec 7) (lane : Nat) : Word :=
  if (ext.map Ext.bu).getD false then a.readS b.toNat else a.readV b.toNat lane

/-- Source B is the uniform register. -/
def isBU (ext : Option Ext) : Bool := (ext.map Ext.bu).getD false

/-- The RM field; 0 in the short form. -/
def rmOf (ext : Option Ext) : Nat := match ext with | none => 0 | some e => e.rm.toNat

/-- Operand b of a uniform form: a register, a pair, or the unsigned 6-bit value (R111). -/
def Arch.ssB (a : Arch) (o : SS) (pair : Bool) : Nat :=
  if o.ib then o.b.toNat else if pair then a.readS64 o.b.toNat else (a.readS o.b.toNat).toNat

/-- A uniform operand, one register or a pair. -/
def Arch.readU (a : Arch) (n : Nat) (pair : Bool) : Nat :=
  if pair then a.readS64 n else (a.readS n).toNat
def Arch.writeU (a : Arch) (n : Nat) (pair : Bool) (x : Nat) : Arch :=
  if pair then a.writeS64 n x else a.writeS n (BitVec.ofNat 32 x)

/-- Some of the uniform registers is poisoned. -/
def Arch.badUs (a : Arch) (rs : List Nat) : Bool := rs.any a.badS

/-- The registers of a uniform operand. -/
def uRegs (n : Nat) (pair : Bool) : List Nat := if pair then [n, n + 1] else [n]

/-- A live slice (R89). -/
def Slice.live (s : Slice) : Bool := s.em != 15

/-- The live slices' numbers. -/
def Arch.liveSlices (a : Arch) : List Nat :=
  (List.range a.slices.length).filter fun j =>
    match a.slices[j]? with | some s => s.live | none => false

/-- The sub-gangs as lists of live slices, in ascending order of lowest slice (R85). -/
def Arch.gangs (a : Arch) : List (List Nat) :=
  (a.liveSlices.filter fun j => match a.slices[j]? with | some s => s.gang == j | none => false).map
    fun j => a.liveSlices.filter fun i => match a.slices[i]? with | some s => s.gang == j | none => false

/-- The sub-gang that issues next (R86): the one that follows, by lowest slice and with wrap-around, the one
that issued last; sub-gangs waiting at REGANG are passed over while another can issue. -/
def Arch.nextGang (a : Arch) : Option (List Nat) :=
  let waiting := fun (g : List Nat) =>
    g.all fun j => match a.slices[j]? with | some s => s.arr.isSome | none => false
  let all := a.gangs
  let ready := all.filter fun g => !waiting g
  let gs := if ready.isEmpty then all else ready
  match gs.find? fun g => match a.last with | some l => l < g.headD 0 | none => true with
  | some g => some g
  | none => gs.head?

end Sys2Proof.Machine
end

