-- ==== Sys2Proof/Machine/Barrier.lean ====
section
/-! DEFINITION. Barriers at their homes (R223, R224, R228, R229). A barrier is named by its scope (1 block,
2 cluster, 4 wide), its home (block key; cluster * 64 + partition; partition) and its index. -/

namespace Sys2Proof.Machine

def State.core (s : State) (c : Nat) : Core := Store.get s.cores c Core.reset
def State.setCore (s : State) (c : Nat) (x : Core) : State :=
  { s with cores := Store.set s.cores c x Core.reset }
def State.cluster (s : State) (c : Nat) : Cluster := Store.get s.clusters c Cluster.reset
def State.setCluster (s : State) (c : Nat) (x : Cluster) : State :=
  { s with clusters := Store.set s.clusters c x Cluster.reset }
def State.setBlock (s : State) (b : Nat) (x : Block) : State := { s with blocks := Store.put s.blocks b x }
def State.setPart (s : State) (p : Nat) (x : Part) : State := { s with parts := Store.put s.parts p x }
/-- The host fault queue of a partition (R341). -/
def State.hq (s : State) (p : Nat) : HostQueue := Store.get s.fqs p HostQueue.reset
def State.setHq (s : State) (p : Nat) (x : HostQueue) : State := { s with fqs := Store.set s.fqs p x HostQueue.reset }
/-- A Cheuk port (R349). -/
def State.port (s : State) (p : Nat) : Port := Store.get s.ports p Port.reset
def State.setPort (s : State) (p : Nat) (x : Port) : State := { s with ports := Store.set s.ports p x Port.reset }
def State.pool (s : State) (p : Nat) : Pool := Store.get s.pools p Pool.reset
def State.setPool (s : State) (p : Nat) (x : Pool) : State :=
  { s with pools := Store.set s.pools p x Pool.reset }
def State.queue (s : State) (q : Nat) : Queue := Store.get s.queues q Queue.reset
def State.setQueue (s : State) (q : Nat) (x : Queue) : State :=
  { s with queues := Store.set s.queues q x Queue.reset }

/-- The cluster of a core (R11). -/
def clusterOf (core : Nat) : Nat := core / Config.coresPerCluster

/-- The barrier of a name. -/
def State.barrier (s : State) (sc home idx : Nat) : Barrier :=
  match sc with
  | 1 => match Store.find s.blocks home with
    | some b => Store.get b.bars idx Barrier.reset
    | none => Barrier.reset
  | 2 => Store.get (s.cluster (home / 64)).bars (home % 64 * 8 + idx) Barrier.reset
  | _ => match Store.find s.parts home with
    | some p => Store.get p.wbars idx Barrier.reset
    | none => Barrier.reset

/-- The states a core's copy may still show after a change at cycle `now` (R227). -/
def Barrier.remember (old x : Barrier) (now : Nat) : Barrier :=
  let kept := old.past.filter fun p => now ≤ p.upto + 64
  if old.phase == x.phase && old.count == x.count && old.e == x.e then { x with past := kept }
  else { x with past := ⟨now, old.phase, old.count, old.e⟩ :: kept }

def State.setBarrier (s : State) (sc home idx : Nat) (x0 : Barrier) : State :=
  let x := if sc == 1 then x0 else (s.barrier sc home idx).remember x0 s.now
  match sc with
  | 1 => match Store.find s.blocks home with
    | some b => s.setBlock home { b with bars := Store.set b.bars idx x Barrier.reset }
    | none => s
  | 2 =>
    let c := s.cluster (home / 64)
    s.setCluster (home / 64) { c with bars := Store.set c.bars (home % 64 * 8 + idx) x Barrier.reset }
  | _ => match Store.find s.parts home with
    | some p => s.setPart home { p with wbars := Store.set p.wbars idx x Barrier.reset }
    | none => s

/-- The nibble index of a barrier in a group's records (R331). -/
def barNibble (sc idx : Nat) : Nat := if sc == 1 then idx else if sc == 2 then 16 + idx else 24 + idx

/-- E, P and DELTA of a BARCFG word (R228). -/
def barCfgE (w : Nat) : Nat := w / 2 ^ 17 % 2 ^ 13
def barCfgP (w : Nat) : Nat := w / 2 ^ 9 % 2 ^ 8
def barCfgD (w : Nat) : Nat := w % 2 ^ 9

def Barrier.configure (b : Barrier) (w : Word) : Barrier :=
  { b with e := barCfgE w.toNat, p := barCfgP w.toNat, delta := barCfgD w.toNat, cfg := none }

/-- Steps 1 to 4 of a phase change (R224). -/
def Barrier.nextPhase (b : Barrier) : Barrier :=
  let b1 := { b with abandon := false }
  let b2 := match b1.cfg with | some w => b1.configure w | none => b1
  { b2 with e := b2.e - b2.down + b2.up, abandon := b2.downAb, down := 0, up := 0, downAb := false,
            phase := b2.phase + 1, count := 0, arrivers := [] }

/-- Sorted distinct cores of a phase's arrivers (R229, item 1). -/
def releaseCores (who : List (Nat × Nat)) : List Nat := who.foldl (fun acc x => NSet.insert acc x.2) []

/-- The cores of each release phase (R229, item 2). -/
def chunk (p : Nat) (cs : List Nat) : List (List Nat) :=
  if p == 0 then (if cs.isEmpty then [] else [cs])
  else (List.range ((cs.length + p - 1) / p)).map fun k => (cs.drop (k * p)).take p

/-- The phase change: the next phase begins and the releases of the ending one are sent (R224, R229). -/
def State.phaseChange (s : State) (sc home idx : Nat) : State :=
  let b := s.barrier sc home idx
  let groups := chunk b.p (releaseCores b.arrivers)
  let rels := (List.range groups.length).map fun k =>
    { id := s.nextId + k, scope := sc, home := home, idx := idx, stat := b.abandon,
      who := b.arrivers.filter fun x => (groups.getD k []).contains x.2 : Release }
  { (s.setBarrier sc home idx b.nextPhase) with
    releases := s.releases ++ rels, nextId := s.nextId + groups.length }

/-- The phase changes when at least one arrival is counted and the count is at or above E. -/
def State.phaseCheck (s : State) (sc home idx : Nat) : State :=
  let b := s.barrier sc home idx
  if 0 < b.count && b.e ≤ b.count then s.phaseChange sc home idx else s

/-- An arrival reaches the home (R224). With E = 0 it is counted and completes nothing (R228). -/
def State.barArrive (s : State) (sc home idx uid core : Nat) : State :=
  let b := s.barrier sc home idx
  let s1 := s.setBarrier sc home idx
    { b with count := b.count + 1, arrivers := b.arrivers ++ [(uid, core)] }
  if b.e == 0 then s1 else s1.phaseCheck sc home idx

/-- A BARCFG reaches the home (R228). -/
def State.barConfigure (s : State) (sc home idx : Nat) (w : Word) : State :=
  let b := s.barrier sc home idx
  if b.count == 0 || b.e == 0 then
    (s.setBarrier sc home idx (b.configure w)).phaseCheck sc home idx
  else s.setBarrier sc home idx { b with cfg := some w }

/-- A participant ends or is halted (R224). -/
def State.barLeave (s : State) (sc home idx : Nat) (outstanding halt : Bool) : State :=
  let b := s.barrier sc home idx
  if outstanding then
    s.setBarrier sc home idx { b with down := b.down + 1, downAb := b.downAb || halt }
  else
    let s1 := s.setBarrier sc home idx { b with e := b.e - 1, abandon := b.abandon || halt }
    if b.e == 0 then s1 else s1.phaseCheck sc home idx

/-- A spawned group joins every block barrier from the next phase (R224). -/
def State.barJoin (s : State) (home : Nat) : State :=
  (List.range 16).foldl (fun s i =>
    let b := s.barrier 1 home i
    s.setBarrier 1 home i { b with up := b.up + 1 }) s

end Sys2Proof.Machine
end

