-- ==== Sys2Proof/Machine/Flags.lean ====
section
/-! DEFINITION. Conditions (R107, R144) and the floating-point flag word (R137). -/

namespace Sys2Proof.Machine

/-- The compare conditions of R107 on n-bit operands. -/
def cond (cc : Nat) (signed : Bool) (n x y : Nat) : Bool :=
  let a := intOf signed x n
  let b := intOf signed y n
  match cc with
  | 0 => a == b
  | 1 => a != b
  | 2 => a < b
  | 3 => a ≤ b
  | 4 => b < a
  | 5 => b ≤ a
  | 6 => (x % 2 ^ n) &&& (y % 2 ^ n) != 0
  | _ => (x % 2 ^ n) &&& (y % 2 ^ n) == 0

end Sys2Proof.Machine
end

