-- ==== Sys2Proof/Machine/Window.lean ====
section
/-! DEFINITION. The group save area (R78 to R80, R99): the word at each offset of a group's state, and the
control state read back from such words. WINRD, WINWR, GRESUME, CTXSV and CTXLD use it. -/

namespace Sys2Proof.Machine

def TokKind.code : TokKind → Nat
  | .els => 0 | .join => 1 | .brk => 2 | .call => 3
def TokKind.ofCode (n : Nat) : TokKind :=
  match n with | 0 => .els | 1 => .join | 2 => .brk | _ => .call

/-- A token entry (R80). -/
def Token.bits (t : Token) : Nat := t.kind.code * 2 ^ 62 + t.mask.toNat * 2 ^ 58 + t.target.toNat / 4
def Token.ofBits (x : Nat) : Token :=
  ⟨TokKind.ofCode (x / 2 ^ 62 % 4), BitVec.ofNat 52 (x % 2 ^ 50 * 4), BitVec.ofNat 4 (x / 2 ^ 58)⟩

/-- Word 0 or 1 of a doubleword. -/
def half (x i : Nat) : Nat := x / 2 ^ (32 * i) % 2 ^ 32

/-- The entry e of a stack counted from the bottom. -/
def tokenAt (toks : List Token) (e : Nat) : Nat :=
  match toks.reverse[e]? with | some t => t.bits | none => 0

/-- One uncommitted-result record: its program-order index, instruction and register offset (R80). -/
def pendRecs (ps : List Pend) : List (Nat × Pend × Nat) :=
  ((List.range ps.length).map fun i =>
    match ps[i]? with
    | some p =>
      (((p.pieces.map Prod.snd).foldl (fun acc x => NSet.insert acc x) ([] : NSet)).map fun off => (i, p, off))
    | none => []).flatten

def Dest.code : Dest → Nat
  | .vec => 0 | .uni => 1 | .prd => 2

/-- Word k of a record. -/
def pendWord (rets : List Ret) (x : Nat × Pend × Nat) (k : Nat) : Nat :=
  let (i, p, off) := x
  let mine := rets.filter fun r => r.id == p.id && r.off == off
  let lanes := (p.pieces.filter fun c => c.2 == off && c.1 < 32).map Prod.fst
  let val := fun (l : Nat) => match mine.find? (·.lane == l) with
    | some r => (r.val.getD 0).toNat
    | none => 0
  if k == 0 then
    p.dest.code + (p.reg + off) * 4 + i * 2 ^ 9 +
      (if p.pieces.all (fun c => c.2 != off || mine.any (·.lane == c.1)) then 2 ^ 14 else 0) +
      (if p.dest == .vec then 2 ^ 15 else 0)
  else if k == 1 then lanes.foldl (fun acc l => acc + 2 ^ l) 0
  else if k == 2 then
    if p.dest == .vec then
      if p.image then val 32 + val 33 * 2 ^ 8 + val 34 * 2 ^ 16 + val 35 * 2 ^ 24 else 0x7F7F7F7F
    else 0
  else if k == 3 then 0
  else val (k - 4)

/-- The word at a byte offset of the group's save area, a multiple of 4 (R78). -/
def Group.areaWord (g : Group) (off : Nat) : Nat :=
  let a := g.arch
  let n := a.slices.length
  let sl := fun (j : Nat) => a.slices.getD j ⟨0, 0, 0, [], 0, none⟩
  let dep := fun (j : Nat) => (sl j).toks.length
  match Store.find g.win off with
  | some w => w.toNat
  | none =>
  if off == 0 then 1
  else if off == 4 then n + g.vregs / 8 * 2 ^ 8 + g.role * 2 ^ 16
  else if off == 8 then g.strikes.toNat
  else if off == 0xC then a.fpflags.toNat
  else if off == 0x10 then g.spkey.toNat
  else if off == 0x14 then (List.range 6).foldl (fun acc j => acc + dep j * 2 ^ (5 * j)) 0
  else if off == 0x18 then dep 6 + dep 7 * 2 ^ 5
  else if off == 0x1C then (List.range 8).foldl (fun acc j => acc + (sl j).am.toNat * 2 ^ (4 * j)) 0
  else if off == 0x20 then (List.range 8).foldl (fun acc j => acc + (sl j).em.toNat * 2 ^ (4 * j)) 0
  else if 0x28 ≤ off && off < 0x68 then
    let j := (off - 0x28) / 8
    half ((sl j).pc.toNat + (sl j).gang * 2 ^ 52) ((off - 0x28) / 4 % 2)
  else if 0x68 ≤ off && off < 0x80 then
    half ((a.tls.getD ((off - 0x68) / 8) ⟨0, 0, 0, 0, 0, []⟩).c.toNat) ((off - 0x68) / 4 % 2)
  else if 0x80 ≤ off && off < 0x8C then (a.tls.getD ((off - 0x80) / 4) ⟨0, 0, 0, 0, 0, []⟩).status.toNat
  else if off == 0x8C then min 32 (pendRecs a.pend).length
  else if off == 0x90 then a.lhret.length
  else if 0x98 ≤ off && off < 0xB8 then
    half ((a.lhret.reverse.getD ((off - 0x98) / 8) 0).toNat) ((off - 0x98) / 4 % 2)
  else if off == 0xB8 then a.lossid.toNat
  else if off == 0xBC then a.lossaddr.toNat
  else if 0x100 ≤ off && off < 0x500 then
    half (tokenAt (sl ((off - 0x100) / 128)).toks ((off - 0x100) % 128 / 8)) ((off - 0x100) / 4 % 2)
  else if 0x500 ≤ off && off < 0x600 then (a.readS ((off - 0x500) / 4)).toNat
  else if off == 0x600 || off == 0x604 then
    (List.range 32).foldl (fun acc i => acc + (if a.badS (i + 32 * ((off - 0x600) / 4)) then 2 ^ i else 0)) 0
  else if 0x620 ≤ off && off < 0x640 then
    if off == 0x63C then 0xFFFFFFFF else (Store.get a.p ((off - 0x620) / 4) 0).toNat
  else if 0x640 ≤ off && off < 0x1840 then
    match (pendRecs a.pend)[(off - 0x640) / 144]? with
    | some x => pendWord g.rets x ((off - 0x640) % 144 / 4)
    | none => 0
  else if 0x1840 ≤ off && off < 0x1C40 then
    let r := (off - 0x1840) / 8
    if (off - 0x1840) / 4 % 2 == 0 then
      (List.range 32).foldl (fun acc l => acc + (if a.badV r l then 2 ^ l else 0)) 0
    else (List.range 4).foldl (fun acc k => acc + (if a.badB r k then 2 ^ k else 0)) 0
  else if 0x2000 ≤ off && off < 0x2000 + 132 * g.vregs then
    let m := (off - 0x2000) / 1056
    let o := (off - 0x2000) % 1056
    if o < 1024 then (a.readV (8 * m + o / 128) (o % 128 / 4)).toNat
    else
      let r := 8 * m + (o - 1024) / 4
      (a.readB r 0).toNat + (a.readB r 1).toNat * 2 ^ 8 + (a.readB r 2).toNat * 2 ^ 16 +
        (a.readB r 3).toNat * 2 ^ 24
  else 0

/-- The doubleword at an offset read through `rd`. -/
def rd64 (rd : Nat → Nat) (off : Nat) : Nat := rd off % 2 ^ 32 + 2 ^ 32 * (rd (off + 4) % 2 ^ 32)

/-- Token depth of slice j in the words (R79). -/
def rdDepth (rd : Nat → Nat) (j : Nat) : Nat :=
  if j < 6 then rd 0x14 / 2 ^ (5 * j) % 32 else rd 0x18 / 2 ^ (5 * (j - 6)) % 32

/-- Slice j as the words give it (R79, R80, R99). -/
def rdSlice (rd : Nat → Nat) (j : Nat) : Slice :=
  let pcw := rd64 rd (0x28 + 8 * j)
  { pc := BitVec.ofNat 52 pcw, am := BitVec.ofNat 4 (rd 0x1C / 2 ^ (4 * j)),
    em := BitVec.ofNat 4 (rd 0x20 / 2 ^ (4 * j)),
    toks := ((List.range (min 16 (rdDepth rd j))).map fun e =>
      Token.ofBits (rd64 rd (0x100 + 128 * j + 8 * e))).reverse,
    gang := pcw / 2 ^ 52 % 8, arr := none }

/-- The recorded return headers, innermost first. -/
def rdLhret (rd : Nat → Nat) : List Pc :=
  ((List.range (min 4 (rd 0x90 % 8))).map fun d => BitVec.ofNat 52 (rd64 rd (0x98 + 8 * d))).reverse

/-- The checks of R322 on the words of a group of n slices: depths and PCs in all 8 fields. -/
def controlOk (rd : Nat → Nat) (n : Nat) : Bool :=
  let sl := rdSlice rd
  (rd 0x1C % 2 ^ 32) / 2 ^ (4 * n) == 0 && (rd 0x20 % 2 ^ 32) / 2 ^ (4 * n) == 0 && rd 0x90 % 8 ≤ 4 &&
  ((List.range 8).all fun j =>
    let pcw := rd64 rd (0x28 + 8 * j)
    rdDepth rd j ≤ 16 && pcw % 4 == 0 && pcw / 2 ^ 55 == 0) &&
  (List.range n).all fun j =>
    let live := (sl j).live
    (!live || (sl j).am != 0) &&
    (!live || ((sl j).gang ≤ j && (sl (sl j).gang).live && (sl (sl j).gang).gang == (sl j).gang))

/-- The group with its control state taken from its window words; REGANG arrivals persist (R98), but for a slice that WINWR
has moved to another PC (DESIGN CHOICE, log 96). -/
def Group.applyWindow (g : Group) : Group :=
  if g.win.isEmpty then g else
    let rd := g.areaWord
    { g with
      arch := { g.arch with
        slices := (List.range g.arch.slices.length).map fun j =>
          let old := g.arch.slices.getD j ⟨0, 0, 0, [], 0, none⟩
          let new := rdSlice rd j
          { new with arr := if new.pc == old.pc then old.arr else none },
        lhret := rdLhret rd },
      win := [] }

/-- The control words of the window, which the group takes when it resumes (R321). -/
def windowControl (off : Nat) : Bool :=
  (0x14 ≤ off && off < 0x24) || (0x28 ≤ off && off < 0x68) || off == 0x90 || (0x98 ≤ off && off < 0xB8) ||
  (0x100 ≤ off && off < 0x500)
/-- The bits of a control word that are not reserved (R6, R79, R80). -/
def windowMask (off : Nat) : Word :=
  if off == 0x14 then 0x3FFFFFFF else if off == 0x18 then 0x3FF else if off == 0x90 then 7
  else if 0x100 ≤ off && off < 0x500 && off / 4 % 2 == 1 then 0xFC03FFFF else 0xFFFFFFFF

/-- WINWR's write of a held group's word (R321): control words stay as written until the group resumes. -/
def Group.windowWrite (g : Group) (off : Nat) (x : Word) : Group :=
  let a := g.arch
  if off == 0xC then { g with arch := { a with fpflags := x &&& 31 } }
  else if windowControl off then { g with win := Store.put g.win off (x &&& windowMask off) }
  else if 0x500 ≤ off && off < 0x600 then
    let n := (off - 0x500) / 4
    { g with arch := a.writeS n x }
  else if off == 0x600 || off == 0x604 then
    { g with arch := { a with spoison := (List.range 32).foldl (fun m i =>
        m.put (i + 32 * ((off - 0x600) / 4)) (x.getLsbD i)) a.spoison } }
  else if 0x620 ≤ off && off < 0x63C then
    { g with arch := { a with p := Store.set a.p ((off - 0x620) / 4) x 0 } }
  else if 0x1840 ≤ off && off < 0x1C40 then
    let r := (off - 0x1840) / 8
    if (off - 0x1840) / 4 % 2 == 0 then
      { g with arch := { a with vpoison := (List.range 32).foldl (fun m l =>
          m.put (32 * r + l) (x.getLsbD l)) a.vpoison } }
    else
      { g with arch := { a with bpoison := (List.range 4).foldl (fun m k =>
          m.put (4 * r + k) (x.getLsbD k)) a.bpoison } }
  else if 0x2000 ≤ off && off < 0x2000 + 132 * g.vregs then
    let m := (off - 0x2000) / 1056
    let o := (off - 0x2000) % 1056
    if o < 1024 then
      { g with arch := a.writeLane (8 * m + o / 128) (o % 128 / 4) x }
    else
      let r := 8 * m + (o - 1024) / 4
      { g with arch := (List.range 4).foldl (fun a k =>
          a.writeBand r k (BitVec.ofNat 8 (x.toNat / 2 ^ (8 * k)))) a }
  else g

end Sys2Proof.Machine
end

