-- ==== Sys2Proof/Machine/Ops.lean ====
section
/-! DEFINITION. The shared operations of the machine: groups and their requests, timelines, page-fault
records, the trap queues, undoing clauses, taking an exception (`State.raise`) and the return from one
(`State.resumeGroup`), and the frame in which one instruction word issues (`issue`). -/

namespace Sys2Proof.Machine

/-- The answer of a meaning. -/
abbrev Out := Host.Outcome State Fault Refusal

/-- What the issue of a word finds wrong (R185, R317). Lanes are the lowest faulting lane. -/
inductive Fate where
  /-- to Sorrel, held at the clause header: class, detail, lane, address -/
  | trap (cls detail : Nat) (lane : Word) (addr : Nat)
  /-- class 1: a poisoned register (detail REG) or data (DATA) -/
  | halt (detail : Nat) (lane : Word)
  /-- class 2: the master is frozen at the clause header -/
  | freeze (detail : Nat) (lane : Word) (addr : Nat)
  /-- class 4 REPLAY: a page-fault park at the header; kind bits of R184 -/
  | page (va kind : Nat) (lane : Word)
  /-- class 6 or 7: the handler at a PC runs in the group; allocation id and offset for class 6 -/
  | inGroup (cls : Nat) (handler : Pc) (id off : Nat) (cause : Nat)
  deriving DecidableEq, Repr

/-- No lane. -/
def noLane : Word := 0xFFFFFFFF

def Fate.cls : Fate → Nat
  | .trap c _ _ _ => c
  | .halt _ _ => 1
  | .freeze _ _ _ => 2
  | .page _ _ _ => 4
  | .inGroup c _ _ _ _ => c
def Fate.lane : Fate → Nat
  | .trap _ _ l _ => l.toNat
  | .halt _ l => l.toNat
  | .freeze _ l _ => l.toNat
  | .page _ _ l => l.toNat
  | .inGroup _ _ _ _ _ => 0xFFFFFFFF

/-- The fault delivered among several of one instruction: the lowest class, then the lowest lane (R185). -/
def pickFate (fs : List Fate) : Option Fate :=
  fs.foldl (fun acc f =>
    match acc with
    | none => some f
    | some a => if f.cls < a.cls || (f.cls == a.cls && f.lane < a.lane) then some f else some a) none

/-- An illegal-instruction trap at issue (class 3 INST). -/
def illegal : Fate := .trap 3 2 noLane 0
/-- A misalignment fault (class 5 ALIGN). -/
def misaligned (lane : Word) (addr : Nat) : Fate := .trap 5 1 lane addr
/-- A poisoned register (class 1 REG). -/
def poisoned (lane : Word) : Fate := .halt 1 lane

/-! Groups. -/

def State.group (s : State) (h : Nat) : Option Group := Store.find s.groups h
def State.putGroup (s : State) (h : Nat) (g : Group) : State := { s with groups := Store.put s.groups h g }
def State.modGroup (s : State) (h : Nat) (f : Group → Group) : State :=
  match s.group h with
  | some g => s.putGroup h (f g)
  | none => s
/-- The handle of the group with an identity, while it is resident. -/
def State.handleOf (s : State) (uid : Nat) : Option Nat :=
  (s.groups.find? fun x => x.2.uid == uid).map Prod.fst
def State.modUid (s : State) (uid : Nat) (f : Group → Group) : State :=
  match s.handleOf uid with
  | some h => s.modGroup h f
  | none => s
def State.blockOf (s : State) (g : Group) : Option Block := Store.find s.blocks g.block

/-- The handle of a resident context (R321). -/
def handle (core ctx : Nat) : Nat := core + 256 * ctx
/-- The key of a handler context. -/
def sorrelKey (cluster ctx : Nat) : Nat := 65536 + 4 * cluster + ctx
/-- The cluster a group or handler context belongs to. -/
def Group.cluster (g : Group) : Nat := match g.sorrel with | some c => c | none => clusterOf g.core

/-- A change from outside the group's own clauses: it reaches the registers and everything a rollback
would restore, so that no rollback takes it back (R147, R203, R225). -/
def Group.async (g : Group) (f : Arch → Arch) : Group :=
  { g with arch := f g.arch,
           cur := g.cur.map fun c => { c with snap := f c.snap },
           unret := g.unret.map fun r => { r with snap := f r.snap } }

/-- Records of returned pieces are kept while some retained state still awaits them. -/
def Group.awaits (g : Group) (id : Nat) : Bool :=
  g.arch.pend.any (·.id == id) ||
  (match g.cur with | some c => c.snap.pend.any (·.id == id) | none => false) ||
  g.unret.any fun r => r.snap.pend.any (·.id == id)
def Group.pruneRets (g : Group) : Group := { g with rets := g.rets.filter fun r => g.awaits r.id }

/-- A piece of a long-latency result has returned. -/
def Group.returned (g : Group) (id : Nat) (pc : Nat × Nat) : Bool :=
  g.rets.any fun r => r.id == id && r.lane == pc.1 && r.off == pc.2
/-- Every outstanding result has returned (R51). -/
def Group.allReturned (g : Group) : Bool :=
  g.arch.pend.all fun p => p.pieces.all (g.returned p.id)

/-! Timelines (R203, R206). -/

def Timeline.reset : Timeline := ⟨0, 0, 0, 0, 0, []⟩

/-- Closed batches at the front whose operations have all completed are completed, in order; their flags
are reported (R137, R203). -/
def Timeline.settleN (fuel : Nat) (acc : Nat) (fl : Word) (t : Timeline) (es : List Entry) : Timeline :=
  match fuel, es with
  | 0, _ => t
  | _, [] => t
  | f + 1, e :: r =>
    if !e.done then t
    else match e.op with
    | some _ => settleN f (acc + e.bytes) (fl ||| e.flags) t r
    | none =>
      settleN f 0 0
        { t with c := t.c + 1, bytes := t.bytes + BitVec.ofNat 64 acc, report := t.report ||| fl, entries := r } r
def Timeline.settle (t : Timeline) : Timeline :=
  Timeline.settleN (t.entries.length + 1) 0 0 t t.entries

/-- The status bits of a completed operation (R206). -/
def statusOr (st : Word) (oob lost fault cancelled : Bool) (detail : Nat) : Word :=
  let st1 := if fault && !st.getLsbD 2 then st ||| BitVec.ofNat 32 (detail * 2 ^ 24) else st
  st1 ||| BitVec.ofNat 32
    ((if oob then 1 else 0) + (if lost then 2 else 0) + (if fault then 4 else 0) +
      (if cancelled then 8 else 0))

/-- An operation of the timeline completes: status, flags of its entry, then the batches (R203). -/
def Timeline.opDone (t : Timeline) (op : Op) : Timeline :=
  if t.entries.any (fun e => e.op == some op.id) then
    Timeline.settle
      { t with
        status := statusOr t.status op.oob op.lost op.fault op.cancelled op.detail,
        entries := t.entries.map fun e =>
          if e.op == some op.id then { e with done := true, bytes := op.bytes, flags := op.flags } else e }
  else t

def modNth {α : Type} (l : List α) (i : Nat) (f : α → α) : List α :=
  match l, i with
  | [], _ => []
  | x :: r, 0 => f x :: r
  | x :: r, i + 1 => x :: modNth r i f

def Arch.modTl (a : Arch) (i : Nat) (f : Timeline → Timeline) : Arch := { a with tls := modNth a.tls i f }
def Arch.tl (a : Arch) (i : Nat) : Timeline := a.tls.getD i Timeline.reset
/-- A change of a timeline that may complete batches, whose flags go to %fpflags. -/
def Arch.settleTl (a : Arch) (i : Nat) (f : Timeline → Timeline) : Arch :=
  let a1 := a.modTl i f
  { (a1.modTl i fun t => { t with report := 0 }) with fpflags := a1.fpflags ||| (a1.tl i).report }

/-- The operation is over: it reports to its timeline and leaves the engine (R203). -/
def State.finishOp (s : State) (op : Op) : State :=
  let s1 := { s with ops := s.ops.filter (·.id != op.id) }
  s1.modUid op.grp fun g => g.async fun a => a.settleTl op.tl (·.opDone op)

def State.op (s : State) (k : Nat) : Option Op := s.ops.find? (·.id == k)
def State.putOp (s : State) (op : Op) : State :=
  { s with ops := s.ops.map fun o => if o.id == op.id then op else o }

/-! Requests. -/

def State.req (s : State) (r : Nat) : Option Req := s.reqs.find? (·.id == r)
def State.putReq (s : State) (q : Req) : State :=
  { s with reqs := s.reqs.map fun o => if o.id == q.id then q else o }

/-- A waiter of a page-fault record: (0, request), (1, handle of a group parked at its header),
(2, operation). Waiters that are gone leave their record (R185). -/
def State.stillWaits (s : State) (w : Nat × Nat) : Bool :=
  match w.1 with
  | 0 => s.reqs.any (·.id == w.2)
  | 1 => match s.group w.2 with | some g => g.parked.isSome | none => false
  | _ => s.ops.any (·.id == w.2)
def State.pruneWaiters (s : State) (cl : Nat) : State :=
  let c := s.cluster cl
  s.setCluster cl { c with recs := c.recs.map fun r => { r with waiters := r.waiters.filter s.stillWaits } }

/-- A fault on an (ASID, 64 KiB page): the open record is joined or a new one opened (R183, R184). -/
def State.openRecord (s : State) (cl asid va kind part : Nat) (w : Nat × Nat) : State × Nat :=
  let c := s.cluster cl
  let vpn := va / 65536
  match c.recs.find? (fun r => r.kind != 0 && r.asid == asid && r.vpn == vpn) with
  | some r0 =>
    let r1 := { r0 with kind := r0.kind ||| kind, waiters := r0.waiters ++ [w] }
    (s.setCluster cl { c with recs := c.recs.map fun r => if r.seq == r0.seq then r1 else r }, r0.seq)
  | none =>
    let seq := c.nextSeq.toNat
    (s.setCluster cl { c with nextSeq := c.nextSeq + 1, recs := c.recs ++
      [{ seq := seq, asid := asid, vpn := vpn, kind := kind, part := part, sent := false,
         waiters := [w] }] }, seq)

/-! Sorrel's queues (R319). -/

/-- A save that had asked the group to park does not have it go on at CTXLD: it is held for another reason (R331). -/
def State.notBySave (s : State) (uid : Nat) : State :=
  { s with saves := s.saves.map fun (v : Save) => { v with mine := v.mine.filter (· != uid) } }

/-- A trap enters the queue of the group's cluster; a full queue leaves the group waiting. -/
def State.queueTrap (s : State) (h : Nat) (g : Group) (t : Trap) : State :=
  let c := s.cluster g.cluster
  if c.trapQ.length < 512 then
    ((s.notBySave g.uid).setCluster g.cluster { c with trapQ := c.trapQ ++
      [{ isTrap := true, handle := h, trap := t, code := 0, regs := [], of := 0 }] }).putGroup h
      { g with hold := .owned, gpark := false }
  else s.putGroup h g

/-- An event enters its queue, context 3's of 64 entries for PREEMPT and else that of 512, or waits while it is
full (R319). -/
def Cluster.offer (c : Cluster) (e : Event) : Cluster :=
  if e.code == 3 && c.preemptQ.length < 64 then { c with preemptQ := c.preemptQ ++ [e] }
  else if e.code != 3 && c.trapQ.length < 512 then { c with trapQ := c.trapQ ++ [e] }
  else { c with waiting := c.waiting ++ [e] }
/-- Events that waited enter while there is room; which of several waiting sources is first the spec leaves open
(DESIGN CHOICE, log 67: in order of arrival). -/
def Cluster.takeWaiting (c : Cluster) : Cluster := c.waiting.foldl Cluster.offer { c with waiting := [] }

/-- An event for Sorrel: 1 RESOLVE, 2 BARREL, 3 PREEMPT, this one with its launch. -/
def State.queueEvent (s : State) (cl code : Nat) (h : Nat) (regs : List Word) (of : Nat := 0) : State :=
  s.setCluster cl ((s.cluster cl).offer
    { isTrap := false, handle := h, trap := ⟨0, 0, 0, 0, 0, 0, true⟩, code := code, regs := regs, of := of })

/-- The pool a request goes to. -/
def Act.pool (a : Act) : Option Nat :=
  match a with
  | .plcfg p _ | .plstat p _ | .plpush p _ _ _ | .plpop p _ | .pldrain p => some p
  | _ => none

/-- The pushes and pops of a group that are parked at their pools (R299, R300). -/
def State.parkedAt (s : State) (uid : Nat) : List Req :=
  (s.pools.map fun (x : Nat × Pool) => ((x.2.pushes ++ x.2.pops).map (·.req)).filter (·.grp == uid)).flatten

/-- One of the group's uncommitted results waits on an open page-fault record, or on a pool that has not answered: the
group is parked at its commit point, which is a clause boundary (R59, R60, R305). -/
def State.stalled (s : State) (g : Group) : Bool :=
  (s.reqs ++ s.parkedAt g.uid).any fun q => q.grp == g.uid &&
    (q.walk.isSome || (q.act.pool.isSome && q.reply.isNone)) && (match q.pid with | some p => g.awaits p | none => false)

/-- The group's last clause is over: it has retired, and its commit point is behind it, or stalls (R60). -/
def State.quiet (s : State) (g : Group) : Bool :=
  g.unret.isEmpty && g.cur.isNone &&
  (match g.after with | some af => !af.commit || af.forced || s.stalled g | none => true)

/-- The header of the clause under way, or of the sub-gang that issues next. -/
def Group.restartPc (g : Group) : Pc :=
  match g.cur with
  | some c => c.hdr
  | none =>
    match g.arch.slices[(match g.arch.nextGang with | some gs => gs.headD 0 | none => 0)]? with
    | some sl => sl.pc
    | none => 0

/-- A trap whose group's clauses have all retired is queued, one that an UNRES answer set at the header where the group
has stopped (R342), and a group asked to park at its boundary is held;
a forced commit point (R52) is asked for again by the clause it comes before (R316, R319, R323). -/
def State.settleTrap (s : State) (h : Nat) : State :=
  match s.group h with
  | some g =>
    match g.hold with
    | .trapping t =>
      if g.unret.isEmpty && g.cur.isNone then
        s.queueTrap h g (if t.stands && t.cls == 4 then { t with pc := g.restartPc } else t)
      else s
    | .parking =>
      if s.quiet g then
        s.putGroup h { g with
          hold := .held, gpark := false,
          after := match g.after with | some af => if af.forced then none else some af | none => none }
      else s
    | _ => s
  | none => s

/-! Undoing clauses (R57, R58). -/

/-- An allocation's rows are gone and it is LOST; its bytes are lost with them (R188). -/
def Block.loseAlloc (b : Block) (base : Nat) : Block :=
  match b.allocs.find? (·.base == base) with
  | some a =>
    { b with
      allocs := b.allocs.map fun x =>
        if x.base == base then { x with state := .lost, rows := [], donePend := none, zeroed := none } else x,
      scr := b.scr.filter fun c => !(base ≤ c.1 && c.1 < base + 1024 * a.granules),
      scrPoison := b.scrPoison.filter fun k => !(base ≤ 32 * k && 32 * k < base + 1024 * a.granules) }
  | none => b

/-- An allocation ceases to exist. -/
def Block.freeAlloc (b : Block) (base : Nat) : Block :=
  let b1 := b.loseAlloc base
  { b1 with allocs := b1.allocs.filter (·.base != base) }

/-- The allocation of an identity ceases to exist. -/
def Block.freeAid (b : Block) (aid : Nat) : Block :=
  match b.allocs.find? (·.aid == aid) with | some a => b.freeAlloc a.base | none => b
/-- The rows that mapping `id` gave an allocation are gone again. -/
def Block.loseMapping (b : Block) (id : Nat) : Block :=
  match b.allocs.find? fun a => a.zeroed.any (·.2 == id) with | some a => b.loseAlloc a.base | none => b

/-- A change of a table's data. -/
def Block.modTbe (b : Block) (st : Nat) (f : TblData → TblData) : Block :=
  { b with tbe := b.tbe.map fun (x : Nat × TblData) => if x.1 == st then (x.1, f x.2) else x }
/-- Reservation `r` is held, or given back. -/
def TblData.hold (d : TblData) (r : Nat) (on : Bool) : TblData :=
  { d with res := d.res.map fun x => if x.1 == r then (x.1, x.2.1, on) else x }
/-- The granules of reservation `r`, and of all that are held. -/
def TblData.granules (d : TblData) (r : Nat) : Nat :=
  match d.res.find? (·.1 == r) with | some x => x.2.1 | none => 0
def TblData.used (d : TblData) : Nat := (d.res.filter fun x => x.2.2).foldl (fun n x => n + x.2.1) 0

/-- Reservation `r` of a table's storage is given back, with its spill allocation (R262, R275). -/
def Block.release (b : Block) (st r : Nat) (spill : Option Nat) : Block :=
  let b1 := b.modTbe st (·.hold r false)
  match spill with
  | some base => if b1.allocs.any fun a => a.base == base && a.spill == some st then b1.freeAlloc base else b1
  | none => b1

/-- A change of every state of a table. -/
def Block.modStates (b : Block) (st : Nat) (f : Tbl → Tbl) : Block :=
  { b with tbs := b.tbs.map fun (x : Nat × Tbl) => if x.2.st == st then (x.1, f x.2) else x }

/-- The spill allocation of a table state is gone. -/
def Block.spillGone (b : Block) (t : Tbl) : Bool :=
  match t.spill with
  | none => false
  | some base => !(b.allocs.any fun a => a.base == base && a.spill == some t.st && a.state == .live)

/-- What the end of a table operation does to the table (R263, R275). -/
def Block.endTableOp (b : Block) (op : Op) : Block :=
  match op.kind with
  | .tbfree tb =>
    match Store.find b.tbs tb with
    | none => b
    | some t =>
      let b1 := (b.allocs.filter fun a => a.spill == some t.st).foldl (fun b a => b.freeAlloc a.base) b
      b1.modTbe t.st fun d => { d with res := [] }
  | .tbspill tb _ =>
    match Store.find b.tbs tb with
    | none => b
    | some t =>
      let b1 := b.release t.st t.res t.spill
      if t.spill.isSome then b1.modStates t.st fun x => if x.spill == t.spill then { x with spill := none } else x
      else b1
  | .tbfill tb _ own =>
    match Store.find b.tbs tb with
    | none => b
    | some t =>
      let ok := !op.cancelled && t.g < op.step
      if ok then b.modStates t.st fun x => { x with spilled := false, lost := b.spillGone t }
      else if own then
        let b1 := b.release t.st t.res t.spill
        if t.spill.isSome then b1.modStates t.st fun x => if x.spill == t.spill then { x with spill := none } else x
        else b1
      else b
  | _ => b

def State.modBlock (s : State) (k : Nat) (f : Block → Block) : State :=
  match Store.find s.blocks k with
  | some b => s.setBlock k (f b)
  | none => s

/-- Storage placed for a table state that is undone is given back. -/
def Block.giveBack (b : Block) (p : TblPlace) : Block :=
  match p with
  | .hold st r spill => b.release st r spill
  | .rows id => b.loseMapping id
  | .alloc aid => b.freeAid aid

/-- State `new` of a table is undone, and another group's clause that stands took over from it or freed it (R280): that
clause follows `id` now, with what was placed for `new`; what was placed is not held again. -/
def Undo.splice (u : Undo) (bk h id new : Nat) (placed : List TblPlace) : Option Undo :=
  match u with
  | .tbNew k x old n mine => some (if k == bk && x == h && old == new then .tbNew k x id n (mine ++ placed) else u)
  | .tbFree k x i => some (if k == bk && x == h && i == new then .tbFree k x id else u)
  | .tbKeep k st r =>
    if k == bk && placed.any fun p => match p with | .hold t q _ => t == st && q == r | _ => false then none else some u
  | _ => some u
/-- The allocation of a table is undone, and another group's clause that stands freed the handle: that clause would bind
it to nothing again. -/
def Undo.dropTable (u : Undo) (b : Block) (bk h st : Nat) : Option Undo :=
  match u with
  | .tbFree k x i => if k == bk && x == h && (Store.find b.tbs i).any (·.st == st) then none else some u
  | .tbKeep k t _ => if k == bk && t == st then none else some u
  | _ => some u
/-- The binding of an accumulator is undone, likewise. -/
def Undo.dropAcc (u : Undo) (bk h id : Nat) : Option Undo :=
  match u with
  | .acFree k x i => if k == bk && x == h && i == id then none else some u
  | _ => some u

/-- A change of what the clauses that are not retired would take back. -/
def State.mapUndo (s : State) (f : Undo → Option Undo) : State :=
  let change := fun (l : List (Nat × Undo)) => l.filterMap fun x => (f x.2).map fun u => (x.1, u)
  { s with groups := s.groups.map fun (x : Nat × Group) =>
      (x.1, { x.2 with cur := x.2.cur.map fun c => { c with undo := change c.undo },
                       unret := x.2.unret.map fun r => { r with undo := change r.undo } }) }
/-- Some clause that is not retired would take this back. -/
def State.anyUndo (s : State) (f : Undo → Bool) : Bool :=
  s.groups.any fun x => (match x.2.cur with | some c => c.undo.any fun y => f y.2 | none => false) ||
    x.2.unret.any fun r => r.undo.any fun y => f y.2

/-- A held group's window words as they were before a WINWR of `x`; flags reported meanwhile stay (R59, R137). -/
def Group.windowBack (g : Group) (ws : List (Nat × Option Word)) (x : Word) : Group :=
  let back := ws.foldl (fun (g : Group) w => match w.2 with
    | some old => g.windowWrite w.1 old
    | none => { g with win := g.win.del w.1 }) g
  if ws.any (·.1 == 0xC) then { back with arch := { back.arch with fpflags := back.arch.fpflags ||| (g.arch.fpflags &&& ~~~x) } }
  else back

/-- What an instruction did at its issue is taken back. A group's rollback finds what other groups' clauses, which
stand, have done since: what they built on it follows. A handle that the clause freed is bound again, also where another
group has bound it or taken its granules meanwhile (DESIGN CHOICE, log 99). -/
def State.applyUndo (s : State) (core : Nat) (u : Undo) : State :=
  match u with
  | .alloc bk aid => s.modBlock bk (·.freeAid aid)
  | .restore bk id => s.modBlock bk (·.loseMapping id)
  | .done bk aid uid => s.modBlock bk fun b => { b with allocs := b.allocs.map fun a =>
      -- unless its rows have been lost since, and mapped by another group
      if a.aid != aid || !(a.zeroed.all (·.1 == uid)) then a
      else if a.donePend.isSome && a.state == .rebuilding uid then { a with donePend := none }
      else if a.state == .live then { a with state := .rebuilding uid }
      else a }
  | .child ctx =>
    let c := s.core core
    s.setCore core { c with resv := c.resv.filter (·.1 != ctx) }
  | .acBind bk h id =>
    if (Store.find s.blocks bk).any fun b => Store.find b.ach h == some id then
      s.modBlock bk fun b => { b with ach := b.ach.del h }
    else s.mapUndo (·.dropAcc bk h id)
  | .acFree bk h id => s.modBlock bk fun b => { b with ach := Store.put b.ach h id }
  | .tbBind bk h st =>
    match Store.find s.blocks bk with
    | none => s
    | some b =>
      if ((Store.find b.tbn h).bind (Store.find b.tbs)).any (·.st == st) then s.setBlock bk { b with tbn := b.tbn.del h }
      else s.mapUndo (·.dropTable b bk h st)
  | .tbFree bk h id => s.modBlock bk fun b => { b with tbn := Store.put b.tbn h id }
  | .tbNew bk h id new placed =>
    if (Store.find s.blocks bk).any fun b => Store.find b.tbn h == some new then
      s.modBlock bk fun b => placed.foldl (·.giveBack ·) { b with tbn := Store.put b.tbn h id }
    else
      -- storage of a state that was freed goes back at once; else it is that of the state that took over
      let freed := s.anyUndo fun u => match u with | .tbFree k x i => k == bk && x == h && i == new | _ => false
      let s1 := if freed then s.modBlock bk fun b => placed.foldl (·.giveBack ·) b else s
      s1.mapUndo (·.splice bk h id new placed)
  | .tbHold bk st r base => s.modBlock bk (·.release st r base)
  | .tbKeep bk st r => s.modBlock bk (·.modTbe st (·.hold r true))
  | .window h uid ws x => s.modGroup h fun g =>
    if g.uid == uid && !g.halted && (g.hold == .owned || g.hold == .held) then g.windowBack ws x else g

/-- Requests that leave the core at issue and end with their group: nothing of them lies outside it. -/
def Act.own (a : Act) : Bool :=
  match a with
  | .local | .load .. | .fence .. | .acq .. | .prefetch _ => true
  | _ => false

/-- A trap or freeze of a clause that is undone is met again when the clause issues again, or not at all
(R104, R338). -/
def Group.cancelTrap (g : Group) : Group :=
  match g.hold with
  | .trapping t => if t.stands then g else { g with hold := if g.gpark then .parking else .free, frozen := false }
  | _ => g
/-- A trap that stands is that of the group's new boundary. -/
def Group.moveTrap (g : Group) (pc : Pc) : Group :=
  match g.hold with | .trapping t => { g with hold := .trapping { t with pc := pc } } | _ => g

/-- Requests of undone instructions, numbered from `first`, are discarded with their replies (R58). -/
def State.dropReplies (s : State) (g : Group) (first : Nat) : State :=
  ({ s with reqs := s.reqs.filter fun r => r.grp != g.uid || r.id < first || !r.act.own }).pruneWaiters g.cluster

/-- Faults that wait for a boundary and come from undone clauses go with them (R58, R59). -/
def Group.dropDeferred (g : Group) (first : Nat) : Group :=
  { g with deferred := g.deferred.filter fun d => d.clause < first }

/-- The clause being issued is undone: registers, held requests, reservations (R59). -/
def State.undoCur (s : State) (h : Nat) (g : Group) : State :=
  match g.cur with
  | none => s.putGroup h g
  | some c =>
    let s1 := c.undo.foldl (fun s u => s.applyUndo g.core u.2) s
    let g1 := (({ g with arch := c.snap, cur := none } : Group).dropDeferred c.first).pruneRets
    (s1.putGroup h g1).dropReplies g1 c.first

/-- Every clause not yet retired is undone, newest first (R58, R325). -/
def State.undoAll (s : State) (h : Nat) (g : Group) : State :=
  let s0 := s.undoCur h g
  match s0.group h with
  | none => s0
  | some g0 =>
    match g0.unret with
    | [] => s0
    | r :: _ =>
      let us := (g0.unret.reverse.map (·.undo)).flatten
      let s1 := us.foldl (fun s u => s.applyUndo g.core u.2) s0
      let g1 := (({ g0 with arch := r.snap, unret := [], after := none, parked := none } : Group).dropDeferred r.first).pruneRets
      (s1.putGroup h g1).dropReplies g1 r.first

/-- The clause that issued request number `id` and every later one are undone (R58, R59). -/
def State.undoFrom (s : State) (h : Nat) (g : Group) (id : Nat) : State :=
  let s0 := s.undoCur h g
  match s0.group h with
  | none => s0
  | some g0 =>
    match g0.unret.filter fun r => id < r.upto with
    | [] => s0
    | r :: rs =>
      let us := ((r :: rs).reverse.map (·.undo)).flatten
      let s1 := us.foldl (fun s u => s.applyUndo g.core u.2) s0
      let g1 := (({ g0 with arch := r.snap, unret := g0.unret.filter (fun x => x.upto ≤ id), after := none, parked := none } : Group).dropDeferred
        r.first).pruneRets
      (s1.putGroup h g1).dropReplies g1 r.first

/-! The end and the halt of a group (R89, R210, R224, R325, R326). -/

/-- The group's arrival at a barrier belongs to the phase under way there: it is pending, and no release of it is on
its way, which would be that of a phase that has ended (R224, R230). -/
def State.arrivedIn (s : State) (uid : Nat) (bars : Store Nat) (sc home idx : Nat) : Bool :=
  Store.get bars (barNibble sc idx) 0 % 2 == 1 &&
  !s.releases.any fun r => r.scope == sc && r.home == home && r.idx == idx && r.who.any (·.1 == uid)

/-- A participant with these records ends or is halted: block barriers 0 to 15, and the others it has arrived at
(R224). -/
def State.leaveAll (s : State) (uid block cluster part : Nat) (bars : Store Nat) (halt : Bool) : State :=
  let at_ := fun (s : State) (sc home idx : Nat) => s.barLeave sc home idx (s.arrivedIn uid bars sc home idx) halt
  let arr := fun (n : Nat) => (Store.get bars n 0) / 2 % 2 == 1
  let s1 := (List.range 16).foldl (fun s i => at_ s 1 block i) s
  let s2 := (List.range 8).foldl (fun s i => if arr (16 + i) then at_ s 2 (64 * cluster + part) i else s) s1
  (List.range 8).foldl (fun s i => if arr (24 + i) then at_ s 4 part i else s) s2
def State.leaveBarriers (s : State) (g : Group) (halt : Bool) : State :=
  s.leaveAll g.uid g.block (clusterOf g.core) g.part g.arch.bars halt

/-- The submission that a request carries. -/
def Req.submission (q : Req) : Option Op := match q.act with | .submit op => some op | _ => none

/-- The operation ends with CANCELLED at its next step or transfer boundary, unless it is over (R210, R256). -/
def Op.cancel (op : Op) : Op := if op.finished then op else { op with cancelled := true, ending := true }

/-- The operations of a group end with CANCELLED; so do those whose submission has yet to leave the core (R210). -/
def State.cancelOps (s : State) (g : Group) : State :=
  ({ s with ops := s.ops.map fun (o : Op) => if o.grp == g.uid then o.cancel else o } : State).modUid g.uid fun x =>
    { x with outq := x.outq.map fun (q : Req) => match q.act with | .submit op => { q with act := .submit op.cancel } | _ => q }

/-- Parked pool requests of a group are withdrawn (R305). -/
def State.withdrawPools (s : State) (uid : Nat) : State :=
  { s with pools := s.pools.map fun (k, p) =>
      (k, { p with pushes := p.pushes.filter (·.req.grp != uid), pops := p.pops.filter (·.req.grp != uid) }) }

/-- The group's REBUILDING allocations return to LOST (R188). -/
def State.loseRebuilding (s : State) (g : Group) : State :=
  s.modBlock g.block fun b =>
    (b.allocs.filter fun a => a.state == .rebuilding g.uid).foldl (fun b a =>
      { b.loseAlloc a.base with lostCount := b.lostCount + 1 }) b

/-- The group's own requests end. -/
def State.dropOwn (s : State) (g : Group) : State :=
  ({ s with reqs := s.reqs.filter fun r => r.grp != g.uid || !r.act.own }).pruneWaiters g.cluster

/-- Items 1 to 5 of R325. -/
def State.haltEffects (s : State) (h : Nat) : State :=
  match s.group h with
  | none => s
  | some g0 =>
    let s1 := s.undoAll h { g0 with deferred := [] }
    match s1.group h with
    | none => s1
    | some g =>
      ((((s1.leaveBarriers g true).cancelOps g).loseRebuilding g).withdrawPools g.uid).dropOwn g

/-- No group of a launch is left and nothing of it is saved: the launch ends (R291). Its blocks go, and
the macro table a core holds is released when no other launch there names one (R101). -/
def State.launchEndCheck (s : State) (l : Nat) : State :=
  match Store.find s.launches l with
  | none => s
  | some la =>
    if !la.resident || s.groups.any (fun x => x.2.launch == l && x.2.sorrel.isNone) then s
    else
      let q := s.queue la.queue
      let s1 := s.setQueue la.queue { q with qdone := q.qdone + 1 }
      let s2 := { s1 with launches := s1.launches.del l,
                          blocks := la.cores.foldl (fun b c => b.del (l * 256 + c)) s1.blocks }
      la.cores.foldl (fun s c =>
        if s.blocks.any (fun x => x.2.core == c && x.2.macro0 != 0) then s
        else s.setCore c { s.core c with table := 0 }) s2

/-- A context and its registers return to the core. -/
def State.removeGroup (s : State) (h : Nat) (g : Group) : State :=
  let c := s.core g.core
  let s1 := if g.sorrel.isSome then s else s.setCore g.core { c with active := c.active.erase h }
  (({ s1 with groups := s1.groups.del h }).dropOwn g).launchEndCheck g.launch

/-- Where an ended group stands that has given its context back and has requests yet to leave or to be
performed: no handle and no context is a number this high. -/
def ghostKey (uid : Nat) : Nat := 2 ^ 20 + uid

/-- The context and the registers of an ended group return to the core (R89). -/
def State.freeContext (s : State) (h : Nat) (g : Group) : State :=
  if g.sorrel.isSome || h == ghostKey g.uid then s
  else
    let c := s.core g.core
    let s1 := s.setCore g.core { c with active := c.active.erase h }
    { s1 with groups := Store.put (s1.groups.del h) (ghostKey g.uid) g }

/-- An ended group gives back its context once its last clause has retired and its operations have completed,
and goes once its requests have been performed (R89, R210, R291). -/
def State.reap (s : State) (h : Nat) : State :=
  match s.group h with
  | none => s
  | some g =>
    if g.ended && g.unret.isEmpty && g.cur.isNone && g.after.isNone && !s.ops.any (·.grp == g.uid) &&
        !(g.outq.any fun q => q.submission.isSome) then
      if g.outq.isEmpty && !s.reqs.any (fun r => r.grp == g.uid && !r.act.own) then s.removeGroup h g
      else s.freeContext h g
    else s

/-- A request is over, and with it perhaps an ended group (R89). -/
def State.dropReq (s : State) (r : Nat) : State :=
  let s1 := { s with reqs := s.reqs.filter (·.id != r) }
  match s.req r with
  | some q => (match s1.handleOf q.grp with | some h => s1.reap h | none => s1)
  | none => s1

/-- An open batch that holds an operation is closed (R210). -/
def Timeline.closeOpen (t : Timeline) : Timeline :=
  match t.entries.getLast? with
  | some e =>
    if e.op.isSome then ({ t with l := t.l + 1, entries := t.entries ++ [(⟨none, true, 0, 0⟩ : Entry)] } : Timeline).settle else t
  | none => t
/-- The open batches of an ended group are closed; those complete report their flags (R137, R210). -/
def Arch.closeBatches (a : Arch) : Arch :=
  (List.range a.tls.length).foldl (fun a i => a.settleTl i Timeline.closeOpen) a

/-- The end of a group becomes final (R89, R210, R224): barriers, rebuilt allocations, open batches; then the
context. -/
def State.endGroup (s : State) (h : Nat) : State :=
  match s.group h with
  | none => s
  | some g =>
    (((s.leaveBarriers g false).loseRebuilding g).modGroup h fun x => { x with arch := x.arch.closeBatches }).reap h

/-- A group ends under Sorrel (R326). What its retired clauses have still to send leaves as before (R53). -/
def State.endUnderSorrel (s : State) (h : Nat) : State :=
  match s.group h with
  | none => s
  | some g =>
    let s1 := if g.halted then s else s.haltEffects h
    match s1.group h with
    | none => s1
    | some g1 =>
      (s1.putGroup h { g1 with ended := true, after := none, hold := .free }).reap h

/-! Taking an exception. -/

/-- A handler context's own fault ends it, its faulting clause undone, and is reported as a cluster error; what its
earlier clauses have yet to do is done as always (R59, R315, R341). -/
def State.contextFault (s : State) (h : Nat) (g : Group) (cl : Nat) : State :=
  let c := s.cluster cl
  let s1 := s.setCluster cl { c with nextSeq := c.nextSeq + 1, recs := c.recs ++
    [{ seq := c.nextSeq.toNat, asid := g.asid, vpn := 0, kind := 0, part := 0, sent := false,
       waiters := [] }] }
  let s2 := (s1.undoCur h g).modGroup h fun (x : Group) =>
    { x with ended := true, after := none, serves := none, deferred := [], hold := .free, parked := none }
  -- the group it served stays held, without an owner
  let s3 : State := match g.serves with
    | some t => s2.modGroup t fun x => if x.hold == .owned then { x with hold := .held } else x
    | none => s2
  s3.reap h

/-- Entry of a loss or table handler inside the group (R198): depth rises, the return header is recorded,
the slices of the sub-gang go to the handler. At depth 4 the group goes to Sorrel instead (R17), with the index
of the faulting word, 15 at a later boundary (R319). -/
def State.enterHandler (s : State) (h : Nat) (g : Group) (gang : List Nat) (hr : Pc) (word cls : Nat)
    (handler : Pc) (id off cause : Nat) : State :=
  if 4 ≤ g.arch.lhret.length then
    (s.putGroup h { g with hold := .trapping ⟨cls, 15, word, noLane, 0, hr, false⟩ }).settleTrap h
  else
    let a := g.arch
    let a1 := { a with
      lhret := hr :: a.lhret,
      lossid := BitVec.ofNat 32 id,
      lossaddr := BitVec.ofNat 32 off,
      tbcause := if cls == 7 then BitVec.ofNat 32 cause else a.tbcause,
      slices := (List.range a.slices.length).map fun j =>
        let sl := a.slices.getD j ⟨0, 0, 15, [], 0, none⟩
        if gang.contains j && sl.live then { sl with pc := handler } else sl }
    s.putGroup h { g with arch := a1 }

/-- Taking an exception (R59, R185, R198, R317, R319), with the sub-gang, header and word index of the
fault: a clause under way is undone and the group left at its header, then the class decides. -/
def State.raiseAt (s : State) (h : Nat) (g : Group) (gang : List Nat) (hdr : Pc) (word : Nat)
    (f : Fate) : State :=
  match g.sorrel with
  | some cl => s.contextFault h g cl
  | none =>
    let s1 := s.undoCur h g
    match s1.group h with
    | none => s1
    | some g1 =>
      match f with
      | .trap c d lane addr =>
        (s1.putGroup h { g1 with hold := .trapping ⟨c, d, word, lane, addr, hdr, false⟩ }).settleTrap h
      | .halt d lane =>
        let oldest := match g1.unret with | r :: _ => r.hdr | [] => hdr
        let s2 := s1.haltEffects h
        let c := s2.cluster g.cluster
        let s3 := s2.setCluster g.cluster { c with ue := if c.ue == 255 then 255 else c.ue + 1 }
        let t : Trap := ⟨1, d, word, lane, 0, oldest, true⟩
        (s3.modGroup h (fun x => { x with halted := true, after := none, hold := .trapping t })).settleTrap h
      | .freeze d lane addr =>
        let t : Trap := ⟨2, d, word, lane, addr, hdr, false⟩
        (s1.putGroup h { g1 with frozen := true, hold := .trapping t }).settleTrap h
      | .page va kind lane =>
        let (s2, seq) := s1.openRecord g.cluster g.asid va kind g.part (1, h)
        s2.putGroup h { g1 with parked := some (g.cluster, seq), parkVa := va, parkLane := lane }
      | .inGroup c handler id off cause => s1.enterHandler h g1 gang hdr word c handler id off cause

/-- An exception at the issue of the current word. -/
def State.raise (s : State) (h : Nat) (g : Group) (f : Fate) : State :=
  match g.cur with
  | some c => s.raiseAt h g c.gang c.hdr c.idx f
  | none => s.raiseAt h g [] g.restartPc 15 f

/-- The state a held group must have to resume (R322). -/
def Group.resumable (g : Group) : Bool := controlOk g.areaWord g.arch.slices.length

/-- The return from an exception: the held group becomes ready at its PCs; one that fails the check of
R322, or is frozen, stays held without an owner (R322, R323). -/
def State.resumeGroup (s : State) (h : Nat) : State :=
  s.modGroup h fun g =>
    if g.resumable && !g.frozen then { g.applyWindow with hold := .free, readySince := s.now }
    else { g with hold := .held }

/-! The issue of one word. -/

/-- Runs one word of the clause that `who` issues; a fault is taken. -/
def issue (s : State) (f : State → Group → Cur → Except Fate (State × Group)) : Out :=
  match s.group s.who with
  | none => .fault .noIssuer
  | some g =>
    match g.cur with
    | none => .fault .noIssuer
    | some c =>
      match f s g c with
      | .ok (s', g') => .next (s'.putGroup s.who g')
      | .error e => .next (s.raise s.who g e)

/-- A word that changes only the group's registers and control state. -/
def issueArch (s : State) (f : Group → Cur → Except Fate Arch) : Out :=
  issue s fun s g c =>
    match f g c with
    | .ok a => .ok (s, { g with arch := a })
    | .error e => .error e

/-- The request is held until the clause retires (R53). -/
def Cur.hold (c : Cur) (r : Req) : Cur := { c with held := c.held ++ [r] }
/-- What an undone clause takes back of its issue number `n` (R58, R59). -/
def Cur.takesBack (c : Cur) (n : Nat) (us : List Undo) : Cur := { c with undo := us.map (fun u => (n, u)) ++ c.undo }

/-- The partition as which a group's requests go (R347). -/
def Group.master (g : Group) : Nat := if g.sorrel.isSome then noPart else g.part
/-- A request of the issuing group that concerns no lane. -/
def mkReq (g : Group) (c : Cur) (id : Nat) (act : Act) : Req :=
  { id := id, grp := g.uid, core := g.core, part := g.master, act := act, lane := 0, va := 0, ea := 0, place := none, pid := none,
    off := 0, gang := c.gang, hdr := c.hdr, word := c.idx, clause := c.first, walk := none, lost := none, released := 0, reply := none }

/-- A word that holds one request and changes nothing else. -/
def issueHeld (s : State) (f : Group → Cur → Except Fate Act) : Out :=
  issue s fun s g c =>
    match f g c with
    | .ok act =>
      .ok ({ s with nextId := s.nextId + 1 },
        { g with cur := some (c.hold (mkReq g c s.nextId act)) })
    | .error e => .error e

/-- A long-latency result known at issue: its pieces return later (R49). The instruction counts as
uncommitted even where no lane is selected (R52). -/
def issueLocal (s : State) (f : Group → Cur → Except Fate (Dest × Nat × List (Nat × Word × Nat))) : Out :=
  issue s fun s g c =>
    match f g c with
    | .error e => .error e
    | .ok (dest, reg, vals) =>
      let id := s.nextId
      let p : Pend := ⟨id, dest, reg, false, vals.map fun x => (x.1, 0)⟩
      let r := { mkReq g c id .local with
        pid := some id,
        reply := some (vals.map fun x => ⟨id, x.1, 0, some x.2.1, BitVec.ofNat 32 x.2.2, false⟩) }
      .ok ({ s with nextId := id + 1, reqs := if vals.isEmpty then s.reqs else s.reqs ++ [r] },
        { g with arch := { g.arch with pend := g.arch.pend ++ [p] } })

end Sys2Proof.Machine
end

