-- ==== Sys2Proof/Machine/Uniform.lean ====
section
/-! DEFINITION. Uniform integer instructions (R110 to R115) and special values (R82, R83). -/

namespace Sys2Proof.Machine

/-- A uniform instruction: poisoned sources consume uncorrectable data (R110), else the new registers. -/
def uniform (s : State) (srcs : List Nat) (f : Arch → Arch) : Out :=
  issueArch s fun g _ => if g.arch.badUs srcs then .error (poisoned noLane) else .ok (f g.arch)

/-- TYPE .i64 or .u64. -/
def ssWide (o : SS) : Bool := 2 ≤ o.ty.toNat
/-- TYPE .i32 or .i64. -/
def ssSgn (o : SS) : Bool := o.ty.toNat % 2 == 0
/-- The width n of R112. -/
def ssBits (o : SS) : Nat := if (ssWide o) then 64 else 32

/-- The source registers of a form (R112). -/
def ssSrcs (o : SS) (r : SSRule) : List Nat :=
  (if r.useA then uRegs o.a.toNat ((ssWide o) && r.pa) else []) ++
  (if o.ib then [] else uRegs o.b.toNat ((ssWide o) && r.pb))

/-- A form of two or one operands: `f` gives the result from a and b (R112). -/
def ssForm (o : SS) (r : SSRule) (f : Nat → Nat → Nat) (s : State) : Out :=
  uniform s (ssSrcs o r) fun a =>
    a.writeU o.d.toNat ((ssWide o) && r.pd)
      (f (a.readU o.a.toNat ((ssWide o) && r.pa)) (a.ssB o ((ssWide o) && r.pb)) % 2 ^ 64)

/-- An arithmetic form: operands read by the type's signedness, the result wrapped to n bits. -/
def ssArith (o : SS) (r : SSRule) (f : Int → Int → Int) (s : State) : Out :=
  ssForm o r (fun x y => wrap (f (intOf (ssSgn o) x (ssBits o)) (intOf (ssSgn o) y (ssBits o))) (ssBits o)) s

def execSmov (o : SS) (s : State) : Out := ssForm o ssMov (fun _ b => b) s
def execSadd (o : SS) (s : State) : Out := ssArith o ss3 (· + ·) s
def execSsub (o : SS) (s : State) : Out := ssArith o ss3 (· - ·) s
def execSmul (o : SS) (s : State) : Out := ssArith o ss3 (· * ·) s
def execSmulh (o : SS) (s : State) : Out :=
  ssArith o ss3 (fun a b => (a * b) / ((2 ^ (ssBits o) : Nat) : Int)) s
def execSand (o : SS) (s : State) : Out := ssForm o ss3 (fun a b => a &&& b) s
def execSor (o : SS) (s : State) : Out := ssForm o ss3 (fun a b => a ||| b) s
def execSxor (o : SS) (s : State) : Out := ssForm o ss3 (fun a b => a ^^^ b) s
def execSshl (o : SS) (s : State) : Out := ssForm o ssShift (fun a b => shl a b (ssBits o)) s
def execSshr (o : SS) (s : State) : Out := ssForm o ssShift (fun a b => shr a b (ssBits o)) s
def execSsra (o : SS) (s : State) : Out := ssForm o ssShift (fun a b => sra a b (ssBits o)) s
def execSmin (o : SS) (s : State) : Out := ssArith o ss3 min s
def execSmax (o : SS) (s : State) : Out := ssArith o ss3 max s
def execScmp (o : SS) (cc : BitVec 3) (s : State) : Out :=
  ssForm o ssCmp (fun a b => if cond cc.toNat (ssSgn o) (ssBits o) a b then 1 else 0) s
def execSclz (o : SS) (s : State) : Out := ssForm o ssCount (fun _ b => clz b (ssBits o)) s
def execSpopc (o : SS) (s : State) : Out := ssForm o ssCount (fun _ b => popc b (ssBits o)) s
def execSbfe (o : SS) (s : State) : Out := ssForm o ssField (fun a b => bfe a b (o.ty == 0)) s

/-- SBFI reads d as a source (R112). -/
def execSbfi (o : SS) (s : State) : Out :=
  uniform s (o.d.toNat :: ssSrcs o ssField) fun a =>
    a.writeS o.d.toNat (BitVec.ofNat 32 (bfi (a.readS o.a.toNat).toNat (a.readS o.b.toNat).toNat
      (a.readS o.d.toNat).toNat))

/-- The third source of SMAD and SSEL, and whether its literal is one the form accepts (R113). -/
def thirdU (o : SS) (xl : Option Word) (pair : Bool) : Option Nat :=
  match xl with
  | none => some o.d.toNat
  | some x =>
    if x.toNat / 64 != 0 || (pair && x.toNat % 2 == 1) then none else some (x.toNat % 64)

/-- SMAD (R113). Where the literal is bad there is no register c: its bits [5:0] name none that is read, and the illegal
instruction waits behind the poison of a and b alone (DESIGN CHOICE, log 91). -/
def execSmad (o : SS) (xl : Option Word) (s : State) : Out :=
  issueArch s fun g _ =>
    match thirdU o xl (ssWide o) with
    | none => .error (if g.arch.badUs (ssSrcs o ss3) then poisoned noLane else illegal)
    | some c =>
      let a := g.arch
      if a.badUs (ssSrcs o ss3 ++ uRegs c (ssWide o)) then .error (poisoned noLane)
      else .ok (a.writeU o.d.toNat (ssWide o)
        ((a.readU o.a.toNat (ssWide o) * a.ssB o (ssWide o) + a.readU c (ssWide o)) % 2 ^ (ssBits o)))

/-- SSEL (R113). A bad literal names no register c, as for SMAD (DESIGN CHOICE, log 91). -/
def execSsel (o : SS) (xl : Option Word) (s : State) : Out :=
  issueArch s fun g _ =>
    match thirdU o xl false with
    | none => .error (if g.arch.badUs (ssSrcs o ss32) then poisoned noLane else illegal)
    | some c =>
      let a := g.arch
      if a.badUs (ssSrcs o ss32 ++ [c]) then .error (poisoned noLane)
      else .ok (a.writeS o.d.toNat
        (if a.readS c != 0 then a.readS o.a.toNat else BitVec.ofNat 32 (a.ssB o false)))

def execSli (d : BitVec 6) (imm : BitVec 18) (s : State) : Out :=
  uniform s [] fun a => a.writeS d.toNat (BitVec.ofNat 32 (wrap (sext imm.toNat 18) 32))

/-- SLI.HI reads the old value of d (R114). -/
def execSliHi (d : BitVec 6) (imm : BitVec 16) (s : State) : Out :=
  uniform s [d.toNat] fun a =>
    a.writeS d.toNat (BitVec.ofNat 32 (imm.toNat * 2 ^ 16 + (a.readS d.toNat).toNat % 2 ^ 16))

/-- SLEA (R115). -/
def execSlea (o : SS) (k : BitVec 3) (s : State) : Out :=
  uniform s (uRegs o.a.toNat true ++ (if o.ib then [] else [o.b.toNat])) fun a =>
    let i : Int := if o.ib then (o.b.toNat : Int) else intOf (o.ty == 0) (a.readS o.b.toNat).toNat 32
    a.writeS64 o.d.toNat (wrap ((a.readS64 o.a.toNat : Int) + i * ((2 ^ k.toNat : Nat) : Int)) 64)

/-! Special values. -/

/-- The cycle counter of a cluster's cores: cycles less the lag of a divided clock (R83). -/
def State.cycles (s : State) (cl : Nat) : Nat := (s.now * 256 - (s.cluster cl).lag) / 256

/-- The pass count of a cluster: the greater of PFLOOR and the power controller's request (R254, R255). -/
def passCode (n : Nat) : Nat := if n == 0 then 1 else if n == 1 then 2 else 4
def Cluster.passCount (c : Cluster) : Nat := max (passCode c.pfloor) (passCode c.passreq)

/-- A number's position among the rising numbers of a list. -/
def rankIn (xs : List Nat) (n : Nat) : Nat := (xs.filter (· < n)).eraseDups.length

/-- SRDSP's value by index (R82). A handler context sees physical numbers (R83); what it has no value
for is free. -/
def special (s : State) (g : Group) (c : Cur) (idx : Nat) : Word :=
  let a := g.arch
  let partCores := match Store.find s.parts g.part with | some p => p.cores | none => []
  let own := fun (n : Nat) => BitVec.ofNat 32 n
  match g.sorrel with
  | some cl =>
    match idx with
    | 0x04 => own g.ctx
    | 0x06 => own cl
    | 0x07 => own (cl / 4)
    | 0x0A => g.strikes
    | 0x0B => a.lossid
    | 0x0C => a.lossaddr
    | 0x0D => 0
    | 0x0F => a.fpflags
    | 0x10 => g.slewcy
    | 0x11 => own c.pass
    | 0x12 => own (s.cycles cl)
    | 0x13 => own (s.cycles cl / 2 ^ 32)
    | 0x14 => a.tbcause
    | 0x15 => own a.lhret.length
    | n => Config.contextSpecial n (4 * cl + g.ctx)
  | none =>
    match idx with
    | 0x02 => own g.index
    | 0x03 => own g.role
    | 0x04 => own g.ctx
    | 0x05 => own (rankIn partCores g.core)
    | 0x06 => own (rankIn (partCores.map clusterOf) (clusterOf g.core))
    | 0x07 => own (clusterOf g.core / 4)
    | 0x08 => own g.team
    | 0x09 => own g.asid
    | 0x0A => g.strikes
    | 0x0B => a.lossid
    | 0x0C => a.lossaddr
    | 0x0D => own (s.core g.core).lit.length
    | 0x0E => own g.spkey.toNat
    | 0x0F => a.fpflags
    | 0x10 => g.slewcy
    | 0x11 => own c.pass
    | 0x12 => own (s.cycles (clusterOf g.core))
    | 0x13 => own (s.cycles (clusterOf g.core) / 2 ^ 32)
    | 0x14 => a.tbcause
    | _ => own a.lhret.length

def execSrdsp (d : BitVec 6) (idx : BitVec 7) (s : State) : Out :=
  issueArch s fun g c => .ok (g.arch.writeS d.toNat (special s g c idx.toNat))

end Sys2Proof.Machine
end

