-- ==== Sys2Proof/Machine/Vector.lean ====
section
/-! DEFINITION. Vector integer and predicate instructions (R116 to R121). -/

namespace Sys2Proof.Machine

/-- A VV form: `f` gives the lane word from the words a, b and c. Every executing lane reads before any
lane is written; poison in a source is consumed by the lowest such lane (R76, R116). -/
def vvForm (o : VV) (r : ExtRule) (f : Nat → Word → Word → Word → Word) (s : State) : Out :=
  issueArch s fun g cu =>
    let a := g.arch
    let lanes := a.lanes cu.gang o.p
    let c := (srcC o.d o.ext).toNat
    let vsrc := [o.a.toNat] ++ (if isBU o.ext then [] else [o.b.toNat]) ++ (if r.three then [c] else [])
    let badB := isBU o.ext && !lanes.isEmpty && a.badS o.b.toNat
    match a.badLane vsrc lanes with
    | some l => .error (poisoned (BitVec.ofNat 32 (if badB then lanes.headD 0 else l)))
    | none =>
      if badB then .error (poisoned (BitVec.ofNat 32 (lanes.headD 0)))
      else .ok (a.writeV o.d.toNat (lanes.map fun l =>
        (l, f (extTy r o.ext) (a.readV o.a.toNat l) (a.opB o.ext o.b l)
          (if r.three then a.readV c l else 0))))

/-- Element by element on integers (R117). -/
def vvElem (o : VV) (r : ExtRule) (f : Bool → Nat → Int → Int → Int → Int) (s : State) : Out :=
  vvForm o r (fun ty a b c =>
    let w := tyWidth ty
    let sg := tySigned ty
    mapElems w (fun x y z => wrap (f sg w (intOf sg x w) (intOf sg y w) (intOf sg z w)) w) a b c) s

/-- Element by element on bits (R117). -/
def vvBits (o : VV) (r : ExtRule) (f : Nat → Nat → Nat → Nat → Nat) (s : State) : Out :=
  vvForm o r (fun ty a b c => mapElems (tyWidth ty) (f (tyWidth ty)) a b c) s

def execVadd (o : VV) (s : State) : Out := vvElem o int6 (fun _ _ x y _ => x + y) s
def execVsub (o : VV) (s : State) : Out := vvElem o int6 (fun _ _ x y _ => x - y) s
def execVadds (o : VV) (s : State) : Out :=
  vvElem o int6 (fun sg w x y _ => if sg then satS (x + y) w else satU (x + y) w) s
def execVsubs (o : VV) (s : State) : Out :=
  vvElem o int6 (fun sg w x y _ => if sg then satS (x - y) w else satU (x - y) w) s
def execVmul (o : VV) (s : State) : Out := vvElem o int6 (fun _ _ x y _ => x * y) s
def execVmulh (o : VV) (s : State) : Out :=
  vvElem o int6 (fun _ w x y _ => (x * y) / ((2 ^ w : Nat) : Int)) s
def execVmad (o : VV) (s : State) : Out := vvElem o int6c (fun _ _ x y z => x * y + z) s
def execVmin (o : VV) (s : State) : Out := vvElem o int6 (fun _ _ x y _ => min x y) s
def execVmax (o : VV) (s : State) : Out := vvElem o int6 (fun _ _ x y _ => max x y) s
def execVand (o : VV) (s : State) : Out := vvBits o int6 (fun _ x y _ => x &&& y) s
def execVor (o : VV) (s : State) : Out := vvBits o int6 (fun _ x y _ => x ||| y) s
def execVxor (o : VV) (s : State) : Out := vvBits o int6 (fun _ x y _ => x ^^^ y) s
def execVshl (o : VV) (s : State) : Out := vvBits o int6 (fun w x y _ => shl x y w) s
def execVshr (o : VV) (s : State) : Out := vvBits o int6 (fun w x y _ => shr x y w) s
def execVsra (o : VV) (s : State) : Out := vvBits o int6 (fun w x y _ => sra x y w) s
def execVrot (o : VV) (s : State) : Out := vvBits o int6 (fun w x y _ => rot x y w) s
def execVsel (o : VV) (s : State) : Out := vvBits o int6c (fun _ x y z => if z != 0 then x else y) s

/-! Whole-word forms (R118). -/

def execVbfe (o : VV) (s : State) : Out :=
  vvForm o int2 (fun ty a b _ => BitVec.ofNat 32 (bfe a.toNat b.toNat (ty == tyI32))) s
def execVbfi (o : VV) (s : State) : Out :=
  vvForm o int2c (fun _ a b c => BitVec.ofNat 32 (bfi a.toNat b.toNat c.toNat)) s
def execVdot4 (o : VV) (s : State) : Out :=
  vvForm o dot4 (fun ty a b c =>
    BitVec.ofNat 32 (wrap ((List.range 4).foldl (fun acc i =>
      acc + intOf (tySigned ty) (elemBits a.toNat 8 i) 8 * intOf (tySigned ty) (elemBits b.toNat 8 i) 8)
      (c.toNat : Int)) 32)) s
def execVlea (o : VV) (s : State) : Out :=
  vvForm o int2c (fun _ a b c => BitVec.ofNat 32 (c.toNat + a.toNat * 2 ^ (b.toNat % 32))) s

/-- VMADW: a 64-bit sum in the pair d (R118). -/
def execVmadw (o : VV) (s : State) : Out :=
  issueArch s fun g cu =>
    let a := g.arch
    let lanes := a.lanes cu.gang o.p
    let c := (srcC o.d o.ext).toNat
    let sg := tySigned (extTy int2c o.ext)
    let vsrc := [o.a.toNat, c, c + 1] ++ (if isBU o.ext then [] else [o.b.toNat])
    let badB := isBU o.ext && !lanes.isEmpty && a.badS o.b.toNat
    match a.badLane vsrc lanes with
    | some l => .error (poisoned (BitVec.ofNat 32 (if badB then lanes.headD 0 else l)))
    | none =>
      if badB then .error (poisoned (BitVec.ofNat 32 (lanes.headD 0)))
      else
        let res := fun (l : Nat) =>
          wrap (intOf sg (a.readV o.a.toNat l).toNat 32 * intOf sg (a.opB o.ext o.b l).toNat 32 +
            (a.readV64 c l : Int)) 64
        .ok ((a.writeV o.d.toNat (lanes.map fun l => (l, BitVec.ofNat 32 (res l)))).writeV (o.d.toNat + 1)
          (lanes.map fun l => (l, BitVec.ofNat 32 (res l / 2 ^ 32))))

/-- A VP form writes a predicate and no vector register (R119). -/
def vpForm (o : VP) (f : Word → Word → Bool) (s : State) : Out :=
  issueArch s fun g cu =>
    let a := g.arch
    let lanes := a.lanes cu.gang o.p
    let badB := isBU o.ext && !lanes.isEmpty && a.badS o.b.toNat
    match a.badLane ([o.a.toNat] ++ (if isBU o.ext then [] else [o.b.toNat])) lanes with
    | some l => .error (poisoned (BitVec.ofNat 32 (if badB then lanes.headD 0 else l)))
    | none =>
      if badB then .error (poisoned (BitVec.ofNat 32 (lanes.headD 0)))
      else .ok (a.writePs o.pd.toNat (lanes.map fun l =>
        (l, f (a.readV o.a.toNat l) (a.opB o.ext o.b l))))

def execVcmp (o : VP) (s : State) : Out :=
  vpForm o (fun x y => cond o.cnd.toNat (extTy int2 o.ext == tyI32) 32 x.toNat y.toNat) s

/-- A VU form on the lane words of one register. -/
def vuForm (o : VU) (f : Word → Word) (s : State) : Out :=
  issueArch s fun g cu =>
    let a := g.arch
    let lanes := a.lanes cu.gang o.p
    match a.badLane [o.a.toNat] lanes with
    | some l => .error (poisoned (BitVec.ofNat 32 l))
    | none => .ok (a.writeV o.d.toNat (lanes.map fun l => (l, f (a.readV o.a.toNat l))))

/-- Element by element (R120). -/
def vuElem (o : VU) (r : ExtRule) (f : Nat → Nat → Nat) (s : State) : Out :=
  let w := tyWidth (extTy r o.ext)
  vuForm o (fun x => mapElems w (fun e _ _ => f w e) x 0 0) s

/-- VMOV copies the band bytes of the granules it writes (R120). Of a poisoned band byte the spec names no lane: the
lanes of its granule count as faulting (DESIGN CHOICE, log 81). -/
def execVmov (o : VU) (s : State) : Out :=
  issueArch s fun g cu =>
    let a := g.arch
    let lanes := a.lanes cu.gang o.p
    let gs := granulesOf lanes
    match lanes.find? fun l => a.badV o.a.toNat l || a.badB o.a.toNat (l / 8) with
    | some l => .error (poisoned (BitVec.ofNat 32 l))
    | none =>
      .ok (gs.foldl (fun b k => b.writeBand o.d.toNat k (a.readB o.a.toNat k))
        (a.writeLanes o.d.toNat (lanes.map fun l => (l, a.readV o.a.toNat l))))

def execVbcst (o : VU) (s : State) : Out :=
  issueArch s fun g cu =>
    let a := g.arch
    let lanes := a.lanes cu.gang o.p
    if !lanes.isEmpty && a.badS o.a.toNat then .error (poisoned (BitVec.ofNat 32 (lanes.headD 0)))
    else .ok (a.writeV o.d.toNat (lanes.map fun l => (l, a.readS o.a.toNat)))

/-- VLANE reads va in the lowest executing lane only (R120). -/
def execVlane (o : VU) (s : State) : Out :=
  issueArch s fun g cu =>
    let a := g.arch
    match a.lanes cu.gang o.p with
    | [] => .ok a
    | l0 :: r =>
      if a.badV o.a.toNat l0 then .error (poisoned (BitVec.ofNat 32 l0))
      else .ok (a.writeV o.d.toNat ((l0 :: r).map fun l => (l, a.readV o.a.toNat l0)))

def execVabs (o : VU) (s : State) : Out :=
  vuElem o uniSgn (fun w x => wrap ((sext x w).natAbs : Int) w) s
def execVneg (o : VU) (s : State) : Out := vuElem o uniSgn (fun w x => wrap (-(sext x w)) w) s
def execVnot (o : VU) (s : State) : Out := vuForm o (fun x => ~~~x) s
def execVclz (o : VU) (s : State) : Out := vuElem o uni6 (fun w x => clz x w) s
def execVpopc (o : VU) (s : State) : Out := vuElem o uni6 (fun w x => popc x w) s

/-- The lane-valued specials %laneid and %slice (R82). -/
def execVmovSpecial (o : VU) (s : State) : Out :=
  issueArch s fun g cu =>
    let a := g.arch
    .ok (a.writeV o.d.toNat ((a.lanes cu.gang o.p).map fun l =>
      (l, BitVec.ofNat 32 (if o.a.toNat == 0 then l else l / 4))))

/-- The predicate forms (R121). Predicates carry no poison. -/
def ppForm (o : PP) (f : Bool → Bool → Bool) (s : State) : Out :=
  issueArch s fun g cu =>
    let a := g.arch
    .ok (a.writePs o.pd.toNat ((a.lanes cu.gang o.p).map fun l =>
      (l, f (a.readP o.pa.toNat l) (a.readP o.pb.toNat l))))

def execPand (o : PP) (s : State) : Out := ppForm o (· && ·) s
def execPor (o : PP) (s : State) : Out := ppForm o (· || ·) s
def execPxor (o : PP) (s : State) : Out := ppForm o (· != ·) s
def execPnot (o : PP) (s : State) : Out := ppForm o (fun x _ => !x) s
def execPmov (o : PP) (s : State) : Out := ppForm o (fun x _ => x) s

end Sys2Proof.Machine
end

