-- ==== Sys2Proof/Machine/Control.lean ====
section
/-! DEFINITION. Control flow and divergence (R85 to R104). A clause's slices already stand at
H + 4 (N + 1) when its words issue (`State.startClause`); a transfer moves them elsewhere. -/

namespace Sys2Proof.Machine

/-- H + 4 × a signed word offset of n bits (R67). -/
def target (h : Pc) (off n : Nat) : Pc := h + BitVec.ofInt 52 (4 * sext off n)
/-- The address after the clause's last word (R48). -/
def Cur.nextPc (c : Cur) : Pc := c.hdr + BitVec.ofNat 52 (4 * (c.n + 1))

/-- A class 9 fault (R95). -/
def ctlFault (detail : Nat) : Fate := .trap 9 detail noLane 0

/-- The slice ends (R89). -/
def Slice.finish (s : Slice) : Slice := { s with am := 0, em := 15, toks := [], arr := none }

/-- The pop sequence over the remaining tokens (R88). -/
def popSeq (s : Slice) (toks : List Token) : Except Fate Slice :=
  match toks with
  | [] => if s.em == 15 then .ok s.finish else .error (ctlFault 1)
  | t :: r =>
    let s1 := { s with am := t.mask &&& ~~~s.em, pc := t.target, toks := r }
    if s1.am != 0 then .ok s1 else popSeq s1 r
def Slice.pop (s : Slice) : Except Fate Slice := popSeq s s.toks

/-- The executing lanes of slice j as a mask. -/
def Arch.execMask (a : Arch) (j : Nat) (am : BitVec 4) (p : Pred) : BitVec 4 :=
  (List.range 4).foldl (fun m i =>
    if am.getLsbD i && (a.readP p.idx.toNat (4 * j + i) != p.neg) then m ||| (1#4 <<< i) else m) 0

/-- A change of each live slice of the sub-gang, in ascending order. -/
def Arch.eachSlice (a : Arch) (gang : List Nat) (f : Nat → Slice → Except Fate Slice) : Except Fate Arch :=
  let rec go (j : Nat) (l : List Slice) : Except Fate (List Slice) :=
    match l with
    | [] => .ok []
    | sl :: r =>
      match (if gang.contains j && sl.live then f j sl else .ok sl) with
      | .error e => .error e
      | .ok sl' =>
        match go (j + 1) r with
        | .error e => .error e
        | .ok r' => .ok (sl' :: r')
  match go 0 a.slices with
  | .error e => .error e
  | .ok l => .ok { a with slices := l }

/-- A REGANG meeting, when every live slice has arrived (R97). -/
def Arch.meet (a : Arch) : Except Fate Arch :=
  let live := a.slices.filter Slice.live
  match live with
  | [] => .ok a
  | f :: _ =>
    if live.any (·.arr == none) then .ok a
    else if live.all fun s => s.arr == f.arr && s.pc == f.pc then
      let low := a.liveSlices.headD 0
      .ok { a with slices := a.slices.map fun s =>
        if s.live then { s with pc := s.pc + 8, arr := none, gang := low } else s }
    else .error (ctlFault 5)

/-- A control word: each slice of the sub-gang moves, then a meeting may take place (R97, R98). -/
def control (s : State) (f : Arch → Cur → Nat → Slice → Except Fate Slice) : Out :=
  issueArch s fun g c =>
    match g.arch.eachSlice c.gang (f g.arch c) with
    | .error e => .error e
    | .ok a => a.meet

def execNop (s : State) : Out := issueArch s fun g _ => .ok g.arch

/-- YIELD sets YLD on its clause (R104). -/
def execYield (s : State) : Out :=
  issue s fun s g c => .ok (s, { g with cur := some { c with yld := true } })

/-- A class 10 trap after the clause; the first of a clause stands (R104, R318). -/
def service (detail code : Nat) (s : State) : Out :=
  issue s fun s g c =>
    .ok (s, { g with cur := some { c with trap := c.trap <|> some (detail, code, c.idx) } })
def execBkpt (code : BitVec 16) (s : State) : Out := service 1 code.toNat s
def execTrapu (code : BitVec 16) (s : State) : Out := service 2 code.toNat s

def execBra (off : BitVec 18) (s : State) : Out :=
  control s fun _ c _ sl => .ok { sl with pc := target c.hdr off.toNat 18 }
def execBrcAny (p : Pred) (off : BitVec 18) (s : State) : Out :=
  control s fun a c j sl =>
    .ok (if a.execMask j sl.am p != 0 then { sl with pc := target c.hdr off.toNat 18 } else sl)
def execBrcAll (p : Pred) (off : BitVec 18) (s : State) : Out :=
  control s fun a c j sl =>
    .ok (if a.execMask j sl.am p == sl.am then { sl with pc := target c.hdr off.toNat 18 } else sl)

/-- BRX (R91): misaligned or beyond 2^52 is class 5, the macro window class 3. -/
def execBrx (sa : BitVec 6) (s : State) : Out :=
  issueArch s fun g c =>
    let a := g.arch
    let t := a.readS64 sa.toNat
    if a.badUs (uRegs sa.toNat true) then .error (poisoned noLane)
    else if t % 4 != 0 || 2 ^ 52 ≤ t then .error (.trap 5 2 noLane t)
    else if Config.macroBase ≤ t then .error illegal
    else match a.eachSlice c.gang (fun _ sl => .ok { sl with pc := BitVec.ofNat 52 t }) with
      | .error e => .error e
      | .ok a => a.meet

/-- IF (R92). -/
def execIfI (p : Pred) (off : BitVec 18) (join : Word) (s : State) : Out :=
  control s fun a c j sl =>
    let x := a.execMask j sl.am p
    let e := sl.am &&& ~~~x
    if 16 < sl.toks.length + 1 + (if e != 0 then 1 else 0) then .error (ctlFault 0)
    else
      let t1 := ⟨.join, target c.hdr join.toNat 32, sl.am⟩ :: sl.toks
      let t2 := if e != 0 then ⟨.els, target c.hdr off.toNat 18, e⟩ :: t1 else t1
      let sl1 := { sl with am := x, toks := t2 }
      if x == 0 then sl1.pop else .ok sl1

def execNext (s : State) : Out := control s fun _ _ _ sl => sl.pop

/-- LOOP (R93). -/
def execLoop (off : BitVec 18) (s : State) : Out :=
  control s fun _ c _ sl =>
    if sl.toks.length == 16 then .error (ctlFault 0)
    else .ok { sl with toks := ⟨.brk, target c.hdr off.toNat 18, sl.am⟩ :: sl.toks }

/-- The tokens above the innermost BREAK token lose the broken lanes; none when no BREAK token is
reachable (R93). -/
def breakToks (x : BitVec 4) (toks : List Token) : Option (List Token) :=
  match toks with
  | [] => none
  | t :: r =>
    match t.kind with
    | .brk => some (t :: r)
    | .call => none
    | _ => (breakToks x r).map fun r' => { t with mask := t.mask &&& ~~~x } :: r'

/-- BRK (R93). -/
def execBrk (p : Pred) (s : State) : Out :=
  control s fun a _ j sl =>
    let x := a.execMask j sl.am p
    match breakToks x sl.toks with
    | none => .error (ctlFault 4)
    | some ts =>
      let sl1 := { sl with am := sl.am &&& ~~~x, toks := ts }
      if sl1.am == 0 then sl1.pop else .ok sl1

/-- CALL (R94). -/
def execCall (off : BitVec 18) (s : State) : Out :=
  control s fun _ c _ sl =>
    if sl.toks.length == 16 then .error (ctlFault 0)
    else .ok { sl with toks := ⟨.call, c.nextPc, sl.am⟩ :: sl.toks, pc := target c.hdr off.toNat 18 }

/-- RET (R94). -/
def execRet (s : State) : Out :=
  control s fun _ _ _ sl =>
    let above := sl.toks.takeWhile (·.kind != .call)
    match sl.toks.drop above.length with
    | [] => .error (ctlFault 3)
    | ts =>
      if above.any fun t => t.mask &&& ~~~sl.em != 0 then .error (ctlFault 2)
      else ({ sl with toks := ts } : Slice).pop

/-- EXIT (R94). -/
def execExit (s : State) : Out :=
  control s fun _ _ _ sl => ({ sl with em := sl.em ||| sl.am } : Slice).pop

/-- REGANG (R97): arrive, wait at the header, meet when every live slice has arrived. -/
def execRegang (id : BitVec 8) (s : State) : Out :=
  control s fun _ c _ sl => .ok { sl with pc := c.hdr, arr := some id }

/-- MCALL (R102). The parameter words are read again from the return address when clauses of the
microprogram are decoded. -/
def execMcall (m : BitVec 6) (_w1 _w2 : Word) (s : State) : Out :=
  control s fun _ c _ sl =>
    if sl.toks.length == 16 then .error (ctlFault 0)
    else .ok { sl with toks := ⟨.call, c.nextPc, sl.am⟩ :: sl.toks,
                       pc := BitVec.ofNat 52 (Config.macroBase + 128 * m.toNat) }

/-- Contexts of a core that no group holds and no SPAWN has reserved. -/
def State.freeCtx (s : State) (core : Nat) : List Nat :=
  (List.range Config.contexts).filter fun x =>
    !(s.core core).resv.any (·.1 == x) && (s.group (handle core x)).isNone
/-- Vector registers of a core not in use or reserved. -/
def State.freeVregs (s : State) (core : Nat) : Nat :=
  Config.vregs -
    ((s.groups.foldl (fun n x => if x.2.sorrel.isNone && x.2.core == core && x.1 < ghostKey 0 then n + x.2.vregs else n) 0) +
      ((s.core core).resv.foldl (fun n x => n + x.2) 0))

/-- SPAWN (R100). -/
def execSpawn (off : BitVec 18) (w1 w2 w3 : Word) (s : State) : Out :=
  issue s fun s g c =>
    let a := g.arch
    let x := w1.toNat
    let sd := x % 64
    let n := x / 64 % 8 + 1
    let v := (x / 512 % 16 + 1) * 8
    let regs := ((List.range 4).map fun i => w2.toNat / 64 ^ i % 64) ++
      ((List.range 4).map fun i => w3.toNat / 64 ^ i % 64)
    if x / 2 ^ 13 != 0 || w2.toNat / 2 ^ 24 != 0 || w3.toNat / 2 ^ 24 != 0 then .error illegal
    else
      match s.freeCtx g.core with
      | [] => .ok (s, { g with arch := a.writeS sd 1 })
      | ctx :: _ =>
        if s.freeVregs g.core < v then .ok (s, { g with arch := a.writeS sd 2 })
        else if a.badUs regs then .error (poisoned noLane)
        else
          let ch : Child := ⟨ctx, n, v, target c.hdr off.toNat 18, regs.map a.readS⟩
          let co := s.core g.core
          let s1 := { (s.setCore g.core { co with resv := co.resv ++ [(ctx, v)] }) with nextId := s.nextId + 1 }
          .ok (s1, { g with arch := a.writeS sd 0,
                            cur := some ((c.hold (mkReq g c s.nextId (.spawn ch))).takesBack s.nextId [.child ctx]) })

end Sys2Proof.Machine
end

