-- ==== Sys2Proof/Machine/Format.lean ====
section
/-! DEFINITION. Number formats, format slots, Round, Quantise and Dequantise (R123 to R140). Values are
exact: a sign and a fraction of naturals, so one rounding takes place where the spec puts it. -/

namespace Sys2Proof.Machine

/-- Formats of R123 with a value of their own, and the two that only entries and accumulators have; u32 is
the integer grid of R151. -/
inductive Fmt where
  | fp32 | bf16 | fp16 | e4m3 | e5m2 | e3m2 | e2m3 | e2m1 | int8 | int4 | mk8 | int16 | int32 | uint32
  deriving DecidableEq, Repr

/-- The format of a code below LUT (R123). -/
def Fmt.ofCode (n : Nat) : Option Fmt :=
  match n with
  | 0 => some .fp32 | 1 => some .bf16 | 2 => some .fp16 | 3 => some .e4m3 | 4 => some .e5m2
  | 5 => some .e3m2 | 6 => some .e2m3 | 7 => some .e2m1 | 8 => some .int8 | 9 => some .int4
  | 10 => some .mk8 | _ => none

/-- Width in bits. -/
def Fmt.width (f : Fmt) : Nat :=
  match f with
  | .fp32 | .int32 | .uint32 => 32
  | .bf16 | .fp16 | .int16 => 16
  | .e3m2 | .e2m3 => 6
  | .e2m1 | .int4 => 4
  | _ => 8

/-- Exponent width, fraction width, bias and largest finite code of a binary format (R124). -/
def Fmt.binary (f : Fmt) : Option (Nat × Nat × Nat × Nat) :=
  match f with
  | .fp32 => some (8, 23, 127, 0x7F7FFFFF)
  | .bf16 => some (8, 7, 127, 0x7F7F)
  | .fp16 => some (5, 10, 15, 0x7BFF)
  | .e4m3 => some (4, 3, 7, 0x7E)
  | .e5m2 => some (5, 2, 15, 0x7B)
  | .e3m2 => some (3, 2, 3, 0x1F)
  | .e2m3 => some (2, 3, 1, 0x1F)
  | .e2m1 => some (2, 1, 1, 0x7)
  | _ => none

/-- Smallest and largest member of an integer format (R126, R151). -/
def Fmt.range (f : Fmt) : Option (Int × Int) :=
  match f with
  | .int4 => some (-8, 7)
  | .int8 => some (-128, 127)
  | .int16 => some (-32768, 32767)
  | .int32 => some (-2147483648, 2147483647)
  | .uint32 => some (0, 4294967295)
  | _ => none

/-- The code of +Inf, where the format has one. -/
def Fmt.inf (f : Fmt) : Option Nat :=
  match f with
  | .fp32 => some 0x7F800000 | .bf16 => some 0x7F80 | .fp16 => some 0x7C00 | .e5m2 => some 0x7C
  | _ => none

/-- The canonical NaN, where the format has one; NaR for MK8. -/
def Fmt.nan (f : Fmt) : Option Nat :=
  match f with
  | .fp32 => some 0x7FC00000 | .bf16 => some 0x7FC0 | .fp16 => some 0x7E00 | .e4m3 => some 0x7F
  | .e5m2 => some 0x7E | .mk8 => some 0x80
  | _ => none

/-- An exact value: a number is (-1)^neg · num / den, den > 0; zero has a sign. -/
inductive Val where
  | nan
  | inf (neg : Bool)
  | fin (neg : Bool) (num den : Nat)
  deriving DecidableEq, Repr

def Val.zero : Val := .fin false 0 1
def Val.isNan (v : Val) : Bool := match v with | .nan => true | _ => false
def Val.isInf (v : Val) : Bool := match v with | .inf _ => true | _ => false
def Val.isZero (v : Val) : Bool := match v with | .fin _ n _ => n == 0 | _ => false
def Val.neg (v : Val) : Bool := match v with | .nan => false | .inf s => s | .fin s _ _ => s
/-- The value of an integer. -/
def Val.ofInt (z : Int) : Val := .fin (z < 0) z.natAbs 1
/-- v × 2^k. -/
def Val.scale (v : Val) (k : Int) : Val :=
  match v with
  | .fin s n d => if 0 ≤ k then .fin s (n * 2 ^ k.toNat) d else .fin s n (d * 2 ^ (-k).toNat)
  | v => v

/-- floor(log2(n / d)) for n, d > 0. -/
def flog2 (n d : Nat) : Int :=
  let e : Int := (n.log2 : Int) - (d.log2 : Int)
  let below := if 0 ≤ e then n < d * 2 ^ e.toNat else n * 2 ^ (-e).toNat < d
  if below then e - 1 else e

/-- floor((n / d) / 2^k). -/
def fdiv2 (n d : Nat) (k : Int) : Nat :=
  if 0 ≤ k then n / (d * 2 ^ k.toNat) else n * 2 ^ (-k).toNat / d

/-! MK8 (R127, R128). -/

/-- Positive codes in ascending order of value, after zero. -/
def mkRange (lo n : Nat) : List Nat := (List.range n).map (lo + ·)
def mkOrder : List Nat :=
  [0x00, 0x03] ++ mkRange 0x06 2 ++ mkRange 0x0C 4 ++ mkRange 0x18 8 ++ mkRange 0x30 16 ++
  mkRange 0x60 32 ++ mkRange 0x40 32 ++ mkRange 0x20 16 ++ mkRange 0x10 8 ++ mkRange 0x08 4 ++
  mkRange 0x04 2 ++ [0x02, 0x01]

/-- The magnitude of an MK8 field as a fraction (R127). -/
def mkMag (m : Nat) : Nat × Nat :=
  if m == 0 then (0, 1)
  else
    let z := clz m 7
    if z == 6 then (1000000, 1)
    else
      let f := 5 - z
      let e := m / 2 ^ f % 2
      let num := 2 ^ f + 9 * (m % 2 ^ f)
      if e == 0 then (num * 10 ^ z, 2 ^ f) else (num, 2 ^ f * 10 ^ (z + 1))

/-! Grids: the magnitudes of a format by index, continued beyond the largest (R135). -/

/-- The index of the largest finite magnitude; integers go on for ever. -/
def Fmt.top (f : Fmt) : Nat :=
  match f.binary with
  | some (_, _, _, m) => m
  | none => if f == .mk8 then 127 else 0

/-- The magnitude at an index within the grid. -/
def Fmt.magIn (f : Fmt) (i : Nat) : Nat × Nat :=
  match f.binary with
  | some (_, mw, b, _) =>
    let e := i / 2 ^ mw
    let m := if e == 0 then i % 2 ^ mw else 2 ^ mw + i % 2 ^ mw
    let k : Int := (max e 1 : Nat) - (b : Int) - (mw : Int)
    if 0 ≤ k then (m * 2 ^ k.toNat, 1) else (m, 2 ^ (-k).toNat)
  | none => if f == .mk8 then mkMag (mkOrder.getD i 0) else (i, 1)

/-- The step beyond the largest magnitude; floats' and MK8's are whole fractions. -/
def Fmt.step (f : Fmt) : Nat × Nat :=
  let (a, b) := f.magIn f.top
  let (c, d) := f.magIn (f.top - 1)
  (a * d - c * b, b * d)

/-- The magnitude at an index of Ext. -/
def Fmt.mag (f : Fmt) (i : Nat) : Nat × Nat :=
  if f.range.isSome || i ≤ f.top then f.magIn i
  else
    let (a, b) := f.magIn f.top
    let (q, r) := f.step
    (a * r + (i - f.top) * q * b, b * r)

/-- x ≤ y for fractions. -/
def leFrac (x y : Nat × Nat) : Bool := x.1 * y.2 ≤ y.1 * x.2
def eqFrac (x y : Nat × Nat) : Bool := x.1 * y.2 == y.1 * x.2

/-- The index of the largest member of Ext at or below a magnitude. -/
def Fmt.floorIdx (f : Fmt) (n d : Nat) : Nat :=
  if f.range.isSome then n / d
  else if n == 0 then 0
  else
    let t := f.magIn f.top
    if leFrac t (n, d) then
      let (q, r) := f.step
      f.top + (n * t.2 - t.1 * d) * r / (d * t.2 * q)
    else
      match f.binary with
      | some (_, mw, b, _) =>
        let e := max (flog2 n d) (1 - (b : Int))
        (e - (1 - (b : Int))).toNat * 2 ^ mw + fdiv2 n d (e - mw)
      | none => ((List.range 128).filter fun i => leFrac (f.magIn i) (n, d)).length - 1

/-- Bit 0 of the code at an index of Ext (R135). -/
def Fmt.odd (f : Fmt) (i : Nat) : Bool :=
  if f == .mk8 then
    if i ≤ 127 then mkOrder.getD i 0 % 2 == 1 else (i - 127) % 2 == 0
  else i % 2 == 1

/-- The code of ± the magnitude at an index within the grid. -/
def Fmt.code (f : Fmt) (neg : Bool) (i : Nat) : Nat :=
  if f.range.isSome then wrap (if neg then -(i : Int) else i) f.width
  else if f == .mk8 then (if i == 0 then 0 else mkOrder.getD i 0 + (if neg then 128 else 0))
  else i + (if neg then 2 ^ (f.width - 1) else 0)

/-- The value of a code (R125 to R128). -/
def Fmt.decode (f : Fmt) (c : Nat) : Val :=
  let u := c % 2 ^ f.width
  let neg := 2 ^ (f.width - 1) ≤ u
  match f.range with
  | some (lo, _) => Val.ofInt (if lo == 0 then (u : Int) else sext u f.width)
  | none =>
    let m := u % 2 ^ (f.width - 1)
    if f == .mk8 then
      if m == 0 then (if neg then .nan else Val.zero)
      else .fin neg (mkMag m).1 (mkMag m).2
    else if m ≤ f.top then .fin neg (f.magIn m).1 (f.magIn m).2
    else if f.inf == some m then .inf neg
    else .nan

/-! Rounding (R135). -/

/-- A rounding mode: rnd 0 RNE, 1 RZ, 2 RD, 3 RU, 4 DITHER; IEEE overflow; NaN policy ZERO; dither d. -/
structure Mode where
  rnd : Nat
  ieee : Bool
  zero : Bool
  d : Nat
  deriving DecidableEq, Repr

/-- Flag bits of R137. -/
def flagNX : Nat := 1
def flagUF : Nat := 2
def flagOF : Nat := 4
def flagNV : Nat := 8
def flagDZ : Nat := 16

/-- The index a magnitude n / d > 0 rounds to. -/
def Fmt.roundIdx (f : Fmt) (m : Mode) (neg : Bool) (n d : Nat) : Nat :=
  let lo := f.floorIdx n d
  let a := f.mag lo
  if eqFrac a (n, d) then lo
  else
    let b := f.mag (lo + 1)
    match m.rnd with
    | 0 =>
      -- twice the value against the sum of its neighbours
      let s := (a.1 * b.2 + b.1 * a.2, a.2 * b.2)
      let x := (2 * n, d)
      if eqFrac x s then (if f.odd lo then lo + 1 else lo)
      else if leFrac x s then lo else lo + 1
    | 1 => lo
    | 2 => if neg then lo + 1 else lo
    | 3 => if neg then lo else lo + 1
    | _ =>
      -- n / d + (m.d / 32) (b - a)
      let u := (b.1 * a.2 - a.1 * b.2, a.2 * b.2)
      f.floorIdx (n * 32 * u.2 + m.d * u.1 * d) (d * 32 * u.2)

/-- A finite code past the range, or the infinity it becomes (R135). -/
def Fmt.overflow (f : Fmt) (m : Mode) (neg : Bool) : Nat :=
  let side := m.rnd == 0 || (m.rnd == 3 && !neg) || (m.rnd == 2 && neg)
  let sgn := if neg then 2 ^ (f.width - 1) else 0
  match f.range with
  | some (lo, hi) => wrap (if neg then lo else hi) f.width
  | none =>
    match f.inf with
    | some c => if m.ieee && side then c + sgn else f.code neg f.top
    | none => if m.ieee && f == .e4m3 && side then 0x7F else f.code neg f.top

/-- Round(fmt, x, m): the code and the flags reported. -/
def Fmt.round (f : Fmt) (x : Val) (m : Mode) : Nat × Nat :=
  match x with
  | .nan =>
    match f.nan with
    | some c => if m.zero then (0, flagNV) else (c, 0)
    | none => (0, flagNV)
  | .inf neg =>
    match f.range with
    | some (lo, hi) => (wrap (if neg then lo else hi) f.width, flagNV)
    | none =>
      match f.inf with
      | some c => if m.ieee then (c + (if neg then 2 ^ (f.width - 1) else 0), 0) else (f.code neg f.top, flagOF)
      | none => if m.ieee && f == .e4m3 then (0x7F, flagOF) else (f.code neg f.top, flagOF)
  | .fin neg n d =>
    if n == 0 then (f.code neg 0, 0)
    else
      let i := f.roundIdx m neg n d
      let nx := if eqFrac (f.mag i) (n, d) then 0 else flagNX
      let tiny := match f.binary with
        | some (_, mw, _, _) => !leFrac (f.magIn (2 ^ mw)) (n, d)
        | none => f == .mk8 && !leFrac (f.magIn 1) (n, d)
      let uf := if tiny && nx != 0 then flagUF else 0
      let atEnd := match f.range with
        | some (lo, hi) => decide ((i : Int) > (if neg then -lo else hi))
        | none => decide (f.top < i)
      if atEnd then (f.overflow m neg, nx ||| uf ||| flagOF ||| flagNX)
      else (f.code neg i, nx ||| uf)

/-! Slots (R133, R134). -/

def slotFmt (w : DWord) : Nat := w.toNat % 16
def slotScale (w : DWord) : Nat := w.toNat / 2 ^ 4 % 4
def slotRnd (w : DWord) : Nat := w.toNat / 2 ^ 6 % 8
def slotOvf (w : DWord) : Bool := w.getLsbD 9
def slotStep (w : DWord) : Nat := w.toNat / 2 ^ 10 % 32
def slotNan (w : DWord) : Nat := w.toNat / 2 ^ 15 % 4
def slotEnt (w : DWord) : Nat := w.toNat / 2 ^ 17 % 8
def slotPitch (w : DWord) : Nat := w.toNat / 2 ^ 32

/-- The checks of R134 that hold for every use. -/
def slotOk (w : DWord) : Bool :=
  slotFmt w < 12 && slotScale w != 3 && slotRnd w < 5 && slotNan w < 2 && w.toNat / 2 ^ 20 % 2 ^ 12 == 0 &&
  (slotScale w == 0 || (3 ≤ slotFmt w && slotFmt w ≤ 9))

/-- The mode of a slot's own conversion at dither number d. -/
def slotMode (w : DWord) (d : Nat) : Mode := ⟨slotRnd w, slotOvf w, slotNan w == 1, d⟩

/-- DitherD (R136). -/
def ditherD (i t step : Nat) : Nat :=
  (i % 2 * 16 + i / 2 % 2 * 8 + i / 4 % 2 * 4 + i / 8 % 2 * 2 + i / 16 % 2 + t * step % 32) % 32

/-! MX blocks (R130, R139, R140). -/

/-- emax (R139). -/
def Fmt.emax (f : Fmt) : Int :=
  match f with
  | .e4m3 => 8 | .e5m2 => 15 | .e3m2 => 4 | .e2m3 => 2 | .e2m1 => 2 | .int8 => 6 | _ => 2

/-- Quantise (R139): the codes, the scale byte and the flags. -/
def quantise (f : Fmt) (slot : DWord) (vs : List Val) (t : Nat) : List Nat × Nat × Nat :=
  let z := slotNan slot == 1
  let nv := if z && vs.any Val.isNan then flagNV else 0
  let v := vs.map fun x => if z && x.isNan then Val.zero else x
  if v.any Val.isNan then (v.map fun _ => 0, 0xFF, flagNV)
  else if v.any Val.isInf && !z then (v.map fun _ => 0, 0xFF, flagOF)
  else
    let x := v.foldl (fun (m : Nat × Nat) y =>
      match y with
      | .fin _ n d => if leFrac m (n, d) then (n, d) else m
      | _ => m) (0, 1)
    let s : Int := if x.1 == 0 then 0 else min (max (flog2 x.1 x.2 - f.emax) (-127)) 127
    let cs := (List.range v.length).map fun i =>
      f.round ((v.getD i Val.zero).scale (-s))
        ⟨slotRnd slot, false, z, ditherD i t (slotStep slot)⟩
    (cs.map Prod.fst, (s + 127).toNat, cs.foldl (fun a c => a ||| c.2) nv)

/-- Dequantise (R140). -/
def dequantise (f : Fmt) (c u : Nat) : Val :=
  if u == 0xFF then .nan else (f.decode c).scale ((u : Int) - 127)

/-! The MX view of a granule: a 256-bit string G (R131). -/

/-- Element j of G. -/
def gElem (w g j : Nat) : Nat := g / 2 ^ (w * j) % 2 ^ w
/-- G of 32 codes. -/
def gOf (w : Nat) (cs : List Nat) : Nat := packBits w cs
/-- Lane words of a granule from G. -/
def gLanes (g : Nat) : List Nat := (List.range 8).map fun q => g / 2 ^ (32 * q) % 2 ^ 32
/-- G of lane words. -/
def gOfLanes (ws : List Nat) : Nat := packBits 32 ws
/-- Lanes of a granule that hold element bits. -/
def gUsed (w : Nat) : Nat := w

/-! Exact arithmetic on values (R143). -/

/-- The signed numerator over a denominator. -/
def sgn (neg : Bool) (n : Nat) : Int := if neg then -(n : Int) else n

/-- Sum of two values; `rd` when the rounding is RD. The flags are those of an invalid case. -/
def Val.add (rd : Bool) (x y : Val) : Val × Nat :=
  match x, y with
  | .nan, _ => (.nan, 0)
  | _, .nan => (.nan, 0)
  | .inf s, .inf t => if s == t then (.inf s, 0) else (.nan, flagNV)
  | .inf s, _ => (.inf s, 0)
  | _, .inf t => (.inf t, 0)
  | .fin s n d, .fin t m e =>
    let (z, den) :=
      if d == e then (sgn s n + sgn t m, d)
      else if d % e == 0 then (sgn s n + sgn t (m * (d / e)), d)
      else if e % d == 0 then (sgn s (n * (e / d)) + sgn t m, e)
      else (sgn s (n * e) + sgn t (m * d), d * e)
    if z == 0 then (.fin (if n == 0 && m == 0 && s && t then true else rd) 0 1, 0)
    else (.fin (z < 0) z.natAbs den, 0)

/-- Product of two values. -/
def Val.mul (x y : Val) : Val × Nat :=
  match x, y with
  | .nan, _ => (.nan, 0)
  | _, .nan => (.nan, 0)
  | .inf s, .inf t => (.inf (s != t), 0)
  | .inf s, .fin t m _ => if m == 0 then (.nan, flagNV) else (.inf (s != t), 0)
  | .fin s n _, .inf t => if n == 0 then (.nan, flagNV) else (.inf (s != t), 0)
  | .fin s n d, .fin t m e => (.fin (s != t) (n * m) (d * e), 0)

def Val.negate (v : Val) : Val :=
  match v with | .nan => .nan | .inf s => .inf (!s) | .fin s n d => .fin (!s) n d

/-- a × b + c; 0 × Inf counts whatever c holds (R143). -/
def Val.fma (rd : Bool) (x y z : Val) : Val × Nat :=
  let (p, f) := x.mul y
  if f != 0 then (.nan, f) else p.add rd z

/-- x < y with -0 below +0; neither is NaN. -/
def Val.below (x y : Val) : Bool :=
  match x, y with
  | .nan, _ => false
  | _, .nan => false
  | .inf s, .inf t => s && !t
  | .inf s, _ => s
  | _, .inf t => !t
  | .fin s n d, .fin t m e =>
    if n == 0 && m == 0 then s && !t else sgn s (n * e) < sgn t (m * d)

/-- The smaller and the larger by the rules of R143. -/
def Val.minV (x y : Val) : Val := if x.isNan then y else if y.isNan then x else if y.below x then y else x
def Val.maxV (x y : Val) : Val := if x.isNan then y else if y.isNan then x else if x.below y then y else x

/-- The sum of values as exact numbers: NaN and infinities by the rules of addition. -/
def Val.sum (vs : List Val) : Val × Nat :=
  vs.foldl (fun acc v => let (s, f) := acc.1.add false v; (s, acc.2 ||| f)) (.fin true 0 1, 0)

/-- The format of a float lane type (R141). -/
def laneFmt (ty : Nat) : Fmt := if ty == 9 then .fp16 else if ty == 10 then .bf16 else .fp32
/-- The lane mode (R141). -/
def laneMode (rm : Nat) : Mode := ⟨rm, true, false, 0⟩

end Sys2Proof.Machine
end

