-- ==== Sys2Proof/Machine/Special.lean ====
section
/-! DEFINITION. The special functions of R148 as exact or enclosed values. A result that is no fraction is
given by a fraction so close that Round of it and of the exact value agree (DEDUCED, log 14): its last bit only says
that the value is not exact. -/

namespace Sys2Proof.Machine

/-- Newton steps towards the integer square root of n from above. -/
def isqrtN (fuel n x : Nat) : Nat :=
  match fuel with
  | 0 => x
  | f + 1 =>
    let y := (x + n / x) / 2
    if x ≤ y then x else isqrtN f n y
/-- floor(sqrt n). -/
def isqrt (n : Nat) : Nat := if n == 0 then 0 else isqrtN 64 n (2 ^ (n.log2 / 2 + 1))

/-- sqrt(n / d), exact where it is a fraction. -/
def sqrtVal (n d : Nat) : Val :=
  let r := isqrt (n * d)
  if r * r == n * d then .fin false r d
  else
    let q := isqrt (n * d * 2 ^ 256)
    .fin false (2 * q + 1) (2 * d * 2 ^ 128)

/-- 2^(f / 2^k) × 2^320 for f < 2^k, from the roots of 2; `w` is 2^(1 / 2^j) × 2^320. -/
def exp2Frac (k f w acc : Nat) : Nat :=
  match k with
  | 0 => acc
  | k + 1 =>
    let w1 := isqrt (w * 2 ^ 320)
    exp2Frac k (f % 2 ^ k) w1 (if f / 2 ^ k % 2 == 1 then acc * w1 / 2 ^ 320 else acc)

/-- 2^(± n / d) for a power of two d. The integer part beyond ±600 gives the same roundings in every lane
format as ±600. -/
def exp2Val (neg : Bool) (n d : Nat) : Val :=
  let z := sgn neg n
  let i := z / (d : Int)
  let f := (z % (d : Int)).toNat
  if i < -600 then (Val.fin false 3 2).scale (-600)
  else if i > 600 then (Val.fin false 3 2).scale 600
  else if f == 0 then (Val.fin false 1 1).scale i
  else (Val.fin false (2 * exp2Frac d.log2 f (2 * 2 ^ 320) (2 ^ 320) + 1) (2 * 2 ^ 320)).scale i

/-- Bits of log2(m / 2^320) for a mantissa m / 2^320 in [1, 2). -/
def log2Bits (k m acc : Nat) : Nat :=
  match k with
  | 0 => acc
  | k + 1 =>
    let q := m * m / 2 ^ 320
    if 2 ^ 321 ≤ q then log2Bits k (q / 2) (2 * acc + 1) else log2Bits k q (2 * acc)

/-- log2(n / d) for n > 0 and a power of two d. -/
def log2Val (n d : Nat) : Val :=
  let e := flog2 n d
  let m := fdiv2 n d (e - 320)
  if m == 2 ^ 320 then Val.ofInt e
  else
    let z : Int := e * ((2 ^ 161 : Nat) : Int) + ((2 * log2Bits 160 m 0 + 1 : Nat) : Int)
    .fin (z < 0) z.natAbs (2 ^ 161)

/-- floor(π × 2^448). -/
def piBits : Nat := 0x3243f6a8885a308d313198a2e03707344a4093822299f31d0082efa98ec4e6c89452821e638d01377be5466cf34e90c6cc0ac29b7c97c50dd

/-- sin(x / 2^448) × 2^448 by its series, for 0 ≤ x ≤ π/2. -/
def sinSeries (fuel k : Nat) (x2 t : Nat) (acc : Int) : Int :=
  match fuel with
  | 0 => acc
  | f + 1 =>
    let t1 := t * x2 / 2 ^ 448 / ((2 * k) * (2 * k + 1))
    sinSeries f (k + 1) x2 t1 (if k % 2 == 1 then acc - t1 else acc + t1)

/-- sin(π n / d) for 0 ≤ n / d ≤ 1/2. -/
def sinPi (n d : Nat) : Val :=
  if n == 0 then .fin false 0 1
  else if 2 * n == d then .fin false 1 1
  else
    let x := piBits * n / d
    .fin false (2 * (sinSeries 64 1 (x * x / 2 ^ 448) x x).toNat + 1) (2 * 2 ^ 448)

/-- sin(π · ± n / d), a zero carrying the sign of the argument (R148). -/
def sinVal (neg : Bool) (n d : Nat) : Val :=
  -- the argument modulo 2, in units of 1 / d
  let r := n % (2 * d)
  let h := if r < d then r else r - d
  let v := sinPi (if 2 * h ≤ d then h else d - h) d
  match v with
  | .fin _ 0 _ => .fin neg 0 1
  | .fin _ a b => .fin (neg != (d ≤ r)) a b
  | v => v

/-- cos(π · n / d), a zero positive. -/
def cosVal (n d : Nat) : Val :=
  let r := n % (2 * d)
  -- in [0, 1]: cos(π x) = cos(π (2 - x))
  let h := if r ≤ d then r else 2 * d - r
  let v := if 2 * h ≤ d then sinPi (d - 2 * h) (2 * d) else sinPi (2 * h - d) (2 * d)
  match v with
  | .fin _ 0 _ => .fin false 0 1
  | .fin _ a b => .fin (d < 2 * h) a b
  | v => v

/-- f(a) of FN 0 to 6 with the flags of its special operands (R148). -/
def specialFn (fn : Nat) (a : Val) : Val × Nat :=
  match a with
  | .nan => (.nan, 0)
  | .inf s =>
    match fn with
    | 0 => (.fin s 0 1, 0)
    | 1 => if s then (.nan, flagNV) else (.fin false 0 1, 0)
    | 2 => if s then (.nan, flagNV) else (.inf false, 0)
    | 3 => if s then (.fin false 0 1, 0) else (.inf false, 0)
    | 4 => if s then (.nan, flagNV) else (.inf false, 0)
    | _ => (.nan, flagNV)
  | .fin s n d =>
    if n == 0 then
      match fn with
      | 0 => (.inf s, flagDZ)
      | 1 => (.inf s, flagDZ)
      | 2 => (.fin s 0 1, 0)
      | 3 => (.fin false 1 1, 0)
      | 4 => (.inf true, flagDZ)
      | 5 => (.fin s 0 1, 0)
      | _ => (.fin false 1 1, 0)
    else
      match fn with
      | 0 => (.fin s d n, 0)
      | 1 => if s then (.nan, flagNV) else (sqrtVal d n, 0)
      | 2 => if s then (.nan, flagNV) else (sqrtVal n d, 0)
      | 3 => (exp2Val s n d, 0)
      | 4 => if s then (.nan, flagNV) else (log2Val n d, 0)
      | 5 => (sinVal s n d, 0)
      | _ => (cosVal n d, 0)

end Sys2Proof.Machine
end

