-- ==== Sys2Proof/Machine/Float.lean ====
section
/-! DEFINITION. Floating-point, conversion, quantise and band-byte instructions (R141 to R154). -/

namespace Sys2Proof.Machine

/-- Flags of a list of results, gathered. -/
def orFlags {α : Type} (xs : List (α × Nat)) : Word := BitVec.ofNat 32 (xs.foldl (fun f x => f ||| x.2) 0)
/-- Flags reported at issue (R137). -/
def Arch.report (a : Arch) (f : Word) : Arch := { a with fpflags := a.fpflags ||| f }

/-- The fate of poison in the lowest lane of a list, if any. -/
def poisonIn (l : Option Nat) : List Fate := match l with | some l => [poisoned (BitVec.ofNat 32 l)] | none => []
/-- Nothing is wrong, or the fault delivered (R318). -/
def orFault {α : Type} (fs : List Fate) (x : Unit → α) : Except Fate α :=
  match pickFate fs with | some f => .error f | none => .ok (x ())

/-- The poison a VV or VP form consumes: the lowest executing lane with a poisoned source. -/
def Arch.vvPoison (a : Arch) (lanes : List Nat) (ext : Option Ext) (ra rb : BitVec 7) (more : List Nat) : List Fate :=
  let badB := isBU ext && !lanes.isEmpty && a.badS rb.toNat
  if badB then poisonIn lanes.head?
  else poisonIn (a.badLane ([ra.toNat] ++ (if isBU ext then [] else [rb.toNat]) ++ more) lanes)

/-- Element-wise float work on a lane word: `f` gives a code and flags. -/
def fltElems (ty : Nat) (f : Nat → Nat × Nat) : Word × Nat :=
  let w := tyWidth ty
  let rs := (List.range (32 / w)).map f
  (BitVec.ofNat 32 (packBits w (rs.map Prod.fst)), rs.foldl (fun acc r => acc ||| r.2) 0)

/-- A VV float form on exact values; `f` gives the result before rounding and the flags of its special
cases (R143). -/
def vfForm (o : VV) (r : ExtRule) (f : Nat → Fmt → Nat → Nat → Nat → Nat × Nat) (s : State) : Out :=
  issueArch s fun g cu =>
    let a := g.arch
    let lanes := a.lanes cu.gang o.p
    let c := (srcC o.d o.ext).toNat
    let ty := extTy r o.ext
    let w := tyWidth ty
    orFault (a.vvPoison lanes o.ext o.a o.b (if r.three then [c] else [])) fun _ =>
      let res := lanes.map fun l =>
        ((l, fltElems ty fun i => f (rmOf o.ext) (laneFmt ty) (elemBits (a.readV o.a.toNat l).toNat w i)
          (elemBits (a.opB o.ext o.b l).toNat w i)
          (if r.three then elemBits (a.readV c l).toNat w i else 0)))
      (a.writeV o.d.toNat (res.map fun x => (x.1, x.2.1))).report
        (orFlags (res.map fun x => ((), x.2.2)))

/-- The exact result rounded in the lane mode, with the flags of both (R141). -/
def laneRound (fm : Fmt) (rm : Nat) (v : Val × Nat) : Nat × Nat :=
  let (c, f) := fm.round v.1 (laneMode rm)
  (c, f ||| v.2)

def execVfadd (o : VV) (s : State) : Out :=
  vfForm o fltRm (fun rm fm x y _ => laneRound fm rm ((fm.decode x).add (rm == 2) (fm.decode y))) s
def execVfsub (o : VV) (s : State) : Out :=
  vfForm o fltRm (fun rm fm x y _ => laneRound fm rm ((fm.decode x).add (rm == 2) (fm.decode y).negate)) s
def execVfmul (o : VV) (s : State) : Out :=
  vfForm o fltRm (fun rm fm x y _ => laneRound fm rm ((fm.decode x).mul (fm.decode y))) s
def execVfma (o : VV) (s : State) : Out :=
  vfForm o fltFma (fun rm fm x y z =>
    laneRound fm rm (Val.fma (rm == 2) (fm.decode x) (fm.decode y) (fm.decode z))) s
def execVfmin (o : VV) (s : State) : Out :=
  vfForm o fltMin (fun _ fm x y _ => ((fm.round (Val.minV (fm.decode x) (fm.decode y)) (laneMode 0)).1, 0)) s
def execVfmax (o : VV) (s : State) : Out :=
  vfForm o fltMin (fun _ fm x y _ => ((fm.round (Val.maxV (fm.decode x) (fm.decode y)) (laneMode 0)).1, 0)) s

/-- a × 2^n (R143). Scales beyond ±600 round in every lane format as ±600 does. -/
def execVfscale (o : VV) (s : State) : Out :=
  vfForm o fltRm (fun rm fm x y _ =>
    laneRound fm rm ((fm.decode x).scale (min (max (sext y fm.width) (-600)) 600), 0)) s

/-- The float compare conditions (R144). -/
def fcond (cc : Nat) (x y : Val) : Bool :=
  let un := x.isNan || y.isNan
  let lt := x.below y && !(x.isZero && y.isZero)
  let gt := y.below x && !(x.isZero && y.isZero)
  match cc with
  | 0 => !un && !lt && !gt
  | 1 => un || lt || gt
  | 2 => lt
  | 3 => !un && !gt
  | 4 => gt
  | 5 => !un && !lt
  | 6 => un
  | _ => !un

def execVfcmp (o : VP) (s : State) : Out :=
  vpForm o (fun x y => fcond o.cnd.toNat (Fmt.fp32.decode x.toNat) (Fmt.fp32.decode y.toNat)) s

/-- A VU float form. -/
def vfuForm (o : VU) (r : ExtRule) (f : Fmt → Nat → Nat × Nat) (s : State) : Out :=
  issueArch s fun g cu =>
    let a := g.arch
    let lanes := a.lanes cu.gang o.p
    let ty := extTy r o.ext
    orFault (poisonIn (a.badLane [o.a.toNat] lanes)) fun _ =>
      let res := lanes.map fun l =>
        (l, fltElems ty fun i => f (laneFmt ty) (elemBits (a.readV o.a.toNat l).toNat (tyWidth ty) i))
      (a.writeV o.d.toNat (res.map fun x => (x.1, x.2.1))).report
        (orFlags (res.map fun x => ((), x.2.2)))

/-- The code with its sign bit set by `f`; a NaN gives the canonical NaN (R145). -/
def signForm (fm : Fmt) (x : Nat) (f : Bool → Bool) : Nat :=
  let h := 2 ^ (fm.width - 1)
  match fm.decode x with
  | .nan => fm.nan.getD 0
  | _ => x % h + (if f (h ≤ x % 2 ^ fm.width) then h else 0)

def execVfabs (o : VU) (s : State) : Out :=
  vfuForm o fltUn (fun fm x => (signForm fm x (fun _ => false), 0)) s
def execVfneg (o : VU) (s : State) : Out := vfuForm o fltUn (fun fm x => (signForm fm x (!·), 0)) s

/-- The class mask (R146). -/
def classMask (fm : Fmt) (x : Nat) : Nat :=
  match fm.decode x with
  | .nan => 2 ^ 8
  | .inf neg => if neg then 2 ^ 0 else 2 ^ 7
  | .fin neg n d =>
    if n == 0 then (if neg then 2 ^ 3 else 2 ^ 4)
    else
      let sub := match fm.binary with | some (_, mw, _, _) => !leFrac (fm.magIn (2 ^ mw)) (n, d) | none => false
      if sub then (if neg then 2 ^ 2 else 2 ^ 5) else (if neg then 2 ^ 1 else 2 ^ 6)
def execVfclass (o : VU) (s : State) : Out := vfuForm o fltUn (fun fm x => (classMask fm x, 0)) s

/-- The integer a magnitude rounds to in a direction (R145). -/
def roundInt (rm : Nat) (neg : Bool) (n d : Nat) : Nat :=
  let q := n / d
  let r := n % d
  let up := match rm with
    | 0 => d < 2 * r || (d == 2 * r && q % 2 == 1)
    | 1 => false
    | 2 => neg && r != 0
    | _ => !neg && r != 0
  if up then q + 1 else q
def execVfrint (o : VU) (s : State) : Out :=
  vfuForm o fltUnRm (fun fm x =>
    match fm.decode x with
    | .fin neg n d => ((fm.round (.fin neg (roundInt (rmOf o.ext) neg n d) 1) (laneMode 0)).1, 0)
    | v => ((fm.round v (laneMode 0)).1, 0)) s
def execVffrac (o : VU) (s : State) : Out :=
  vfuForm o fltUn (fun fm x =>
    match fm.decode x with
    | .fin neg n d => ((fm.round (.fin neg (n % d) d) (laneMode 0)).1, 0)
    | .inf _ => (fm.nan.getD 0, flagNV)
    | .nan => (fm.nan.getD 0, 0)) s

/-- VFCLASS.FLAGS reads and clears the flags of the group (R147). -/
def execVfclassFlags (sd : BitVec 6) (_claimed : Bool) (s : State) : Out :=
  issueArch s fun g _ =>
    .ok { (g.arch.writeS sd.toNat g.arch.fpflags) with fpflags := 0 }

/-- A special function: computed from the sources at issue, returned later with its flags (R148). -/
def sfForm (o : VU) (fn : Nat) (s : State) : Out :=
  issueLocal s fun g cu =>
    let a := g.arch
    let lanes := a.lanes cu.gang o.p
    let ty := extTy fltUnRm o.ext
    orFault (poisonIn (a.badLane [o.a.toNat] lanes)) fun _ =>
      (.vec, o.d.toNat, lanes.map fun l => (l, fltElems ty fun i =>
        laneRound (laneFmt ty) (rmOf o.ext)
          (specialFn fn ((laneFmt ty).decode (elemBits (a.readV o.a.toNat l).toNat (tyWidth ty) i)))))

def execVfrcp (o : VU) (s : State) : Out := sfForm o 0 s
def execVfrsq (o : VU) (s : State) : Out := sfForm o 1 s
def execVfsqrt (o : VU) (s : State) : Out := sfForm o 2 s
def execVfexp2 (o : VU) (s : State) : Out := sfForm o 3 s
def execVflog2 (o : VU) (s : State) : Out := sfForm o 4 s
def execVfsin (o : VU) (s : State) : Out := sfForm o 5 s
def execVfcos (o : VU) (s : State) : Out := sfForm o 6 s

/-! Conversions (R150, R151). -/

/-- Element h of a word replaced. -/
def setElem (x : Word) (h v : Nat) : Word :=
  BitVec.ofNat 32 (packBits 16 ((List.range 2).map fun i => if i == h then v else elemBits x.toNat 16 i))

/-- A conversion: `f` gives the new word from a and the old d; `old` says whether old d is a source. -/
def cvtForm (o : VU) (old : Bool) (f : Word → Word → Word × Nat) (s : State) : Out :=
  issueArch s fun g cu =>
    let a := g.arch
    let lanes := a.lanes cu.gang o.p
    orFault (poisonIn (a.badLane (o.a.toNat :: (if old then [o.d.toNat] else [])) lanes)) fun _ =>
      let res := lanes.map fun l => (l, f (a.readV o.a.toNat l) (a.readV o.d.toNat l))
      (a.writeV o.d.toNat (res.map fun x => (x.1, x.2.1))).report
        (orFlags (res.map fun x => ((), x.2.2)))

/-- The float lane type of a FROM field. -/
def fromTy (src : Nat) : Nat := 8 + src

def execVfcvt (o : VU) (src : BitVec 2) (h : Bool) (s : State) : Out :=
  let ty := extTy fltUnRm o.ext
  let fd := laneFmt ty
  let fs := laneFmt (fromTy src.toNat)
  let rm := rmOf o.ext
  let hi := if h then 1 else 0
  cvtForm o (ty != 8 && src == 0) (fun x d =>
    if src == 0 then
      let (c, f) := laneRound fd rm (fs.decode x.toNat, 0)
      (setElem d hi c, f)
    else if ty == 8 then
      let (c, f) := laneRound fd rm (fs.decode (elemBits x.toNat 16 hi), 0)
      (BitVec.ofNat 32 c, f)
    else fltElems ty fun i => laneRound fd rm (fs.decode (elemBits x.toNat 16 i), 0)) s

def execVicvt (o : VU) (dir uns h : Bool) (s : State) : Out :=
  let ty := extTy fltUnRm o.ext
  let ff := laneFmt ty
  let rm := rmOf o.ext
  let hi := if h then 1 else 0
  let fi := if uns then Fmt.uint32 else Fmt.int32
  cvtForm o (dir && ty != 8) (fun x d =>
    if dir then
      let (c, f) := laneRound ff rm (fi.decode x.toNat, 0)
      (if ty == 8 then BitVec.ofNat 32 c else setElem d hi c, f)
    else
      let v := ff.decode (elemBits x.toNat (tyWidth ty) hi)
      let (c, f) := fi.round v ⟨rm, false, false, 0⟩
      (BitVec.ofNat 32 c, f)) s

/-! Slot formats in registers (R152, R153). -/

/-- A format slot of the group's launch (R133). A handler context has none, and every slot reads 0 there, which VQNT and
VDQNT reject (DESIGN CHOICE, log 80). -/
def State.slot (s : State) (g : Group) (k : Nat) : DWord :=
  match s.blockOf g with
  | some b => b.slots.getD k 0
  | none => 0

/-- The slot's format where VQNT and VDQNT accept the slot. -/
def vqntFmt (sl : DWord) : Option Fmt :=
  if !slotOk sl || slotScale sl == 2 || slotFmt sl < 3 then none else Fmt.ofCode (slotFmt sl)

/-- VQNT writes the whole granule and its band byte (R152). -/
def execVqnt (o : VU) (k : BitVec 2) (slot : BitVec 3) (s : State) : Out :=
  issueArch s fun g cu =>
    let a := g.arch
    let lanes := a.lanes cu.gang o.p
    let sl := s.slot g slot.toNat
    let bad := poisonIn (a.badLane [o.a.toNat] lanes)
    match vqntFmt sl with
    | none => .error ((pickFate (bad ++ [illegal])).getD illegal)
    | some fm =>
      orFault bad fun _ =>
        if lanes.isEmpty then a
        else
          let t := k.toNat
          let v := (List.range 32).map fun j =>
            if lanes.contains j then Fmt.fp32.decode (a.readV o.a.toNat j).toNat else Val.zero
          let (cs, u, f) :=
            if slotScale sl == 1 then quantise fm sl v t
            else
              let rs := (List.range 32).map fun j =>
                fm.round (v.getD j Val.zero) (slotMode sl (ditherD j t (slotStep sl)))
              (rs.map Prod.fst, 0x7F, rs.foldl (fun acc r => acc ||| r.2) 0)
          let ws := gLanes (gOf fm.width cs)
          let a1 := a.writeLanes o.d.toNat ((List.range 8).map fun q =>
            (8 * t + q, BitVec.ofNat 32 (ws.getD q 0)))
          (a1.writeBand o.d.toNat t (BitVec.ofNat 8 u)).report (BitVec.ofNat 32 f)

/-- VDQNT (R153). For a poisoned granule word or band byte, which every lane's value comes from, the lane is the lowest
executing one (DESIGN CHOICE, log 82). For a slot whose FMT is rejected the rule fixes no element width, and all eight
lanes of the granule count as holding elements: their poison comes before the illegal instruction (DESIGN CHOICE, log 92). -/
def execVdqnt (o : VU) (k : BitVec 2) (slot : BitVec 3) (s : State) : Out :=
  issueArch s fun g cu =>
    let a := g.arch
    let lanes := a.lanes cu.gang o.p
    let sl := s.slot g slot.toNat
    let t := k.toNat
    let width := match Fmt.ofCode (slotFmt sl) with | some f => f.width | none => 8
    let used := (List.range (min 8 (gUsed width))).map (8 * t + ·)
    let bad := !lanes.isEmpty && (used.any (a.badV o.a.toNat) || (slotScale sl == 1 && a.badB o.a.toNat t))
    let fs := if bad then poisonIn lanes.head? else []
    match vqntFmt sl with
    | none => .error ((pickFate (fs ++ [illegal])).getD illegal)
    | some fm =>
      orFault fs fun _ =>
        let u := if slotScale sl == 1 then (a.readB o.a.toNat t).toNat else 0x7F
        let gs := gOfLanes ((List.range 8).map fun q => (a.readV o.a.toNat (8 * t + q)).toNat)
        let res := lanes.map fun j =>
          (j, Fmt.fp32.round (dequantise fm (gElem fm.width gs j) u) (laneMode (rmOf o.ext)))
        (a.writeV o.d.toNat (res.map fun x => (x.1, BitVec.ofNat 32 x.2.1))).report
          (orFlags (res.map fun x => ((), x.2.2)))

/-! Band bytes (R154). -/

def execVbandr (o : VU) (s : State) : Out :=
  issueArch s fun g cu =>
    let a := g.arch
    let lanes := a.lanes cu.gang o.p
    orFault (poisonIn (lanes.find? fun l => a.badB o.a.toNat (l / 8))) fun _ =>
      a.writeV o.d.toNat (lanes.map fun l => (l, BitVec.ofNat 32 (a.readB o.a.toNat (l / 8)).toNat))

def execVbandw (o : VU) (s : State) : Out :=
  issueArch s fun g cu =>
    let a := g.arch
    let lanes := a.lanes cu.gang o.p
    let low := (granulesOf lanes).map fun m => (m, (lanes.find? (· / 8 == m)).getD 0)
    orFault (poisonIn ((low.map Prod.snd).find? (a.badV o.a.toNat))) fun _ =>
      low.foldl (fun b (m, l) => b.writeBand o.d.toNat m (BitVec.ofNat 8 (a.readV o.a.toNat l).toNat)) a

end Sys2Proof.Machine
end

