-- ==== Sys2Proof/Machine/Cross.lean ====
section
/-! DEFINITION. Cross-lane instructions (R155 to R159). Results are computed at issue from the words read
then, and return later (R49). -/

namespace Sys2Proof.Machine

/-- A leaf or node of a reduction: its word and the flags of the additions that led to it (R156). -/
abbrev Node := Nat × Nat

/-- x ⊕ y of an operation and type (R156). -/
def redOp (op ty : Nat) (x y : Node) : Node :=
  let f := x.2 ||| y.2
  let sg := ty == 0
  match op with
  | 0 =>
    if ty == 8 then
      let (c, fl) := laneRound .fp32 0 ((Fmt.fp32.decode x.1).add false (Fmt.fp32.decode y.1))
      (c, f ||| fl)
    else ((x.1 + y.1) % 2 ^ 32, f)
  | 1 =>
    if ty == 8 then
      ((Fmt.fp32.round (Val.minV (Fmt.fp32.decode x.1) (Fmt.fp32.decode y.1)) (laneMode 0)).1, f)
    else (wrap (min (intOf sg x.1 32) (intOf sg y.1 32)) 32, f)
  | 2 =>
    if ty == 8 then
      ((Fmt.fp32.round (Val.maxV (Fmt.fp32.decode x.1) (Fmt.fp32.decode y.1)) (laneMode 0)).1, f)
    else (wrap (max (intOf sg x.1 32) (intOf sg y.1 32)) 32, f)
  | 3 => (x.1 &&& y.1, f)
  | 4 => (x.1 ||| y.1, f)
  | _ => (x.1 ^^^ y.1, f)

/-- The identity of an operation (R156). -/
def redId (op ty : Nat) : Nat :=
  match op with
  | 0 => if ty == 8 then 0x80000000 else 0
  | 1 => if ty == 8 then 0x7F800000 else if ty == 0 then 0x7FFFFFFF else 0xFFFFFFFF
  | 2 => if ty == 8 then 0xFF800000 else if ty == 0 then 0x80000000 else 0
  | 3 => 0xFFFFFFFF
  | _ => 0

/-- One level of the balanced pairwise tree. -/
def treeLevel (f : Node → Node → Node) (xs : List Node) : List Node :=
  match xs with
  | x :: y :: r => f x y :: treeLevel f r
  | xs => xs
/-- The five levels. -/
def tree (f : Node → Node → Node) (xs : List Node) : Node :=
  (treeLevel f (treeLevel f (treeLevel f (treeLevel f (treeLevel f xs))))).headD (0, 0)

/-- One Kogge and Stone step at distance d. -/
def scanStep (f : Node → Node → Node) (d : Nat) (xs : List Node) : List Node :=
  (List.range xs.length).map fun l =>
    if d ≤ l then f (xs.getD (l - d) (0, 0)) (xs.getD l (0, 0)) else xs.getD l (0, 0)
def scan (f : Node → Node → Node) (xs : List Node) : List Node :=
  scanStep f 16 (scanStep f 8 (scanStep f 4 (scanStep f 2 (scanStep f 1 xs))))

/-- The leaves: participants' words, the identity elsewhere. -/
def leaves (a : Arch) (r : Nat) (lanes : List Nat) (id : Nat) : List Node :=
  (List.range 32).map fun l => (if lanes.contains l then (a.readV r l).toNat else id, 0)

/-- A cross-lane form with a vector result: `f` gives each participant's word and flags. -/
def crossForm (o : VU) (regs : List Nat) (f : Arch → List Nat → Nat → Nat × Nat) (s : State) : Out :=
  issueLocal s fun g cu =>
    let a := g.arch
    let lanes := a.lanes cu.gang o.p
    orFault (poisonIn (a.badLane regs lanes)) fun _ =>
      (.vec, o.d.toNat, lanes.map fun l =>
        let x := f a lanes l
        (l, BitVec.ofNat 32 x.1, x.2))

def execVred (o : VU) (op : BitVec 3) (s : State) : Out :=
  let ty := extTy (redRule op) o.ext
  crossForm o [o.a.toNat] (fun a lanes _ =>
    tree (redOp op.toNat ty) (leaves a o.a.toNat lanes (redId op.toNat ty))) s

def execVscan (o : VU) (excl : Bool) (op : BitVec 3) (s : State) : Out :=
  let ty := extTy (redRule op) o.ext
  let id := redId op.toNat ty
  crossForm o [o.a.toNat] (fun a lanes l =>
    let xs := scan (redOp op.toNat ty) (leaves a o.a.toNat lanes id)
    if excl then (if l == 0 then (id, 0) else xs.getD (l - 1) (0, 0)) else xs.getD l (0, 0)) s

/-- The source lane of VSHFL (R157). -/
def shflLane (mode cnt l c : Nat) : Int :=
  match mode with
  | 0 => (c : Int)
  | 1 => (l : Int) - cnt
  | 2 => (l : Int) + cnt
  | _ => ((l ^^^ cnt : Nat) : Int)

def execVshfl (o : VU) (mode : BitVec 2) (cnt : BitVec 5) (s : State) : Out :=
  let c := (srcC o.d o.ext).toNat
  crossForm o (o.a.toNat :: (if mode == 0 then [c] else [])) (fun a lanes l =>
    let q := shflLane mode.toNat cnt.toNat l (a.readV c l).toNat
    ((a.readV o.a.toNat (if 0 ≤ q && lanes.contains q.toNat then q.toNat else l)).toNat, 0)) s

def execVmatch (o : VU) (s : State) : Out :=
  crossForm o [o.a.toNat] (fun a lanes l =>
    ((lanes.filter fun m => a.readV o.a.toNat m == a.readV o.a.toNat l).foldl (fun n m => n + 2 ^ m) 0, 0)) s

/-- VVOTE (R158): predicate results, or the ballot word. Predicates carry no poison. -/
def execVvote (o : VU) (mode : BitVec 2) (s : State) : Out :=
  issueLocal s fun g cu =>
    let a := g.arch
    let lanes := a.lanes cu.gang o.p
    let pa := fun l => a.readP (o.a.toNat % 8) l
    if mode == 3 then
      let w := (lanes.filter pa).foldl (fun n m => n + 2 ^ m) 0
      .ok (.vec, o.d.toNat, lanes.map fun l => (l, BitVec.ofNat 32 w, 0))
    else if o.d.toNat % 8 == 7 then .ok (.prd, 7, [])
    else
      let b := match mode.toNat with
        | 0 => lanes.any pa
        | 1 => lanes.all pa
        | _ => lanes.all pa || !lanes.any pa
      .ok (.prd, o.d.toNat % 8, lanes.map fun l => (l, if b then 1 else 0, 0))

end Sys2Proof.Machine
end

