-- ==== Sys2Proof/Machine/Capability.lean ====
section
/-! DEFINITION. The capability table (R343): its bytes in the view of the whole device or of a partition. -/

namespace Sys2Proof.Machine

/-- Where privileged code reads the table. -/
def capBase : Nat := 0xFFFFF00000000
/-- A header of 64 bytes and 12 records of 32 bytes. -/
def capSize : Nat := 64 + 12 * 32

/-- Cheuk ports that are up. -/
def State.portsUp (s : State) : Nat := 16 - (s.ports.filter fun x => !x.2.up).length

/-- Clusters of which every core is listed. -/
def wholeClusters (cores : List Nat) : Nat :=
  ((List.range Config.clusters).filter fun c =>
    (List.range Config.coresPerCluster).all fun i => cores.contains (Config.coresPerCluster * c + i)).length

/-- Clusters of which some core is listed. -/
def heldClusters (cores : List Nat) : Nat := ((cores.map clusterOf).eraseDups).length

/-- COUNT by resource type; `none` is the whole device (readings: DESIGN CHOICE, log 15). -/
def State.capCount (s : State) (p : Option Part) (ty : Nat) : Nat :=
  match p with
  | none =>
    match ty with
    | 1 => 192 | 2 => 32 | 3 => 512 | 4 => 2048 | 5 => 64 | 6 => 256 | 7 => 256
    | 8 => 8 * s.parts.length
    | 9 => 8
    | 10 => s.portsUp
    | 11 => 64
    | _ => 1
  | some q =>
    match ty with
    | 1 => q.cores.length
    | 2 => wholeClusters q.cores
    | 3 => q.units.length
    | 4 => q.asids.length
    | 5 => q.pools.length
    | 6 => q.queues.length
    | 7 => (q.cbars.map Prod.snd).foldl (· + ·) 0
    | 8 => 8
    | 9 => ((q.units.map (· / 64)).eraseDups).length
    | 10 => s.portsUp
    | _ => 1

/-- GRANULE, MIN, MAX and RATE by resource type. -/
def capRow (ty : Nat) : Nat × Nat × Nat × Nat :=
  match ty with
  | 1 => (1, 1, 192, 0)
  | 2 => (1, 0, 32, 0)
  | 3 => (1, 1, 512, 0)
  | 4 => (1, 1, 2048, 0)
  | 5 => (1, 0, 64, 0)
  | 6 => (1, 1, 256, 0)
  | 7 => (1, 0, 256, 0)
  | 8 => (8, 0, 8, 0)
  | 9 => (1, 0, 8, 2800000000000)
  | 10 => (1, 0, 16, 224000000000)
  | 11 => (1, 0, 0, 0)
  | _ => (1, 0, 2800, 1000000000)

/-- The 32-bit word at a multiple of 4 in the table. -/
def State.capWord (s : State) (p : Option Part) (off : Nat) : Nat :=
  if off == 0 then 0x43365443
  else if off == 4 then 12 + (if s.bootfail then 2 ^ 16 else 0)
  else if off < 64 || capSize ≤ off then 0
  else
    let ty := (off - 64) / 32 + 1
    let (g, lo, hi, rate) := capRow ty
    match (off - 64) % 32 with
    | 0 => ty
    | 4 => s.capCount p ty
    | 8 => g
    | 12 => lo
    | 16 => match p with
      | some q => if ty == 7 then 8 * heldClusters q.cores else hi
      | none => hi
    | 24 => rate % 2 ^ 32
    | 28 => rate / 2 ^ 32
    | _ => 0

/-- A byte of the table. -/
def State.capByte (s : State) (p : Option Part) (off : Nat) : Byte :=
  BitVec.ofNat 8 (s.capWord p (off / 4 * 4) / 2 ^ (8 * (off % 4)))

end Sys2Proof.Machine
end

