-- ==== Sys2Proof/Machine/Translate.lean ====
section
/-! DEFINITION. Physical memories, the ECC granules, the L1 lines of a core and address translation (R161,
R168, R173, R180 to R183, R333, R347). -/

namespace Sys2Proof.Machine

/-- The memory a target names: 0 device, 1 host, otherwise peer (R181). -/
def State.memOf (s : State) (tgt : Nat) : Memory :=
  match tgt with | 0 => s.mem | 1 => s.host | _ => s.peer
def State.setMem (s : State) (tgt : Nat) (m : Memory) : State :=
  match tgt with | 0 => { s with mem := m } | 1 => { s with host := m } | _ => { s with peer := m }

/-- The three memories of the machine are in their canonical form. -/
def State.memoriesCanonical (s : State) : Bool := s.mem.wf && s.host.wf && s.peer.wf
/-- A block's scratchpad bytes, barriers and accumulator elements are in their canonical form. -/
def Block.canonical (b : Block) : Bool :=
  b.scr.wf && Store.wf Barrier.reset b.bars && b.acs.all fun x => Store.wf 0 x.2.el
/-- Every block is in its canonical form, those kept of saved launches too. -/
def State.blocksCanonical (s : State) : Bool :=
  (s.blocks.all fun x => x.2.canonical) && s.savedBlocks.all fun x => x.b.canonical

/-- The 32-byte granules of a byte range. -/
def granules (a n : Nat) : List Nat :=
  if n == 0 then [] else (List.range ((a + n - 1) / 32 - a / 32 + 1)).map (a / 32 + ·)

/-- Under what number `State.poison` holds granule k of the device (target 0), the host (1) or a peer (2). -/
def poisonKey (tgt k : Nat) : Nat := tgt * 2 ^ 48 + k
/-- Some byte of a range is uncorrectable, or holds what was stored as poisoned (R76, R209). -/
def State.badMem (s : State) (tgt a n : Nat) : Bool := (granules a n).any fun k => s.poison.contains (poisonKey tgt k)

/-- A write at a home (R173): a granule written whole loses its poison, or is poisoned by poisoned data;
a granule written in part keeps it. -/
def State.writeHome (s : State) (tgt a : Nat) (bs : List Byte) (bad : Bool) : State :=
  let s1 := s.setMem tgt ((s.memOf tgt).writeN a bs)
  let f := fun (m : NSet) (k : Nat) =>
    if bad then NSet.insert m (poisonKey tgt k)
    else if a ≤ 32 * k && 32 * k + 32 ≤ a + bs.length then m.erase (poisonKey tgt k) else m
  { s1 with poison := (granules a bs.length).foldl f s1.poison }

/-- The granules that lie whole in a range have been written whole, byte by byte: their poison is gone (R173). -/
def State.clearHome (s : State) (tgt a n : Nat) : State :=
  let whole := (granules a n).filter fun k => a ≤ 32 * k && 32 * k + 32 ≤ a + n
  { s with poison := whole.foldl (fun m k => m.erase (poisonKey tgt k)) s.poison }

def State.readHome (s : State) (tgt a n : Nat) : List Byte := (s.memOf tgt).readN a n

/-! Cheuk links (R349). -/

/-- The port on the way to a peer address. -/
def peerLink (pa : Nat) : Nat := Config.peerPort (pa / 2 ^ 44) % 16
/-- The next flit goes out, and stays in the buffer of 64 flits until that is full. -/
def Port.send (p : Port) (kind : FlitKind) (addr : Nat) (bytes : List Byte) : Port :=
  let f : Flit := ⟨p.txSeq, true, kind, addr, bytes⟩
  let buf := p.replay ++ [f]
  { p with txSeq := p.txSeq + 1, replay := buf.drop (buf.length - 64), out := p.out ++ [f] }
/-- An access to a peer goes out over its port. -/
def State.sendPeer (s : State) (tgt pa : Nat) (kind : FlitKind) (bytes : List Byte) : State :=
  if tgt != 2 then s
  else s.setPort (peerLink pa) ((s.port (peerLink pa)).send kind (pa % 2 ^ 44) bytes)

/-- The Cheuk port on the way to a peer is up. -/
def State.peerUp (s : State) (p : Place) : Bool :=
  (s.port (peerLink p.pa)).up
/-- The access goes to a peer that does not admit it. -/
def peerRefuses (p : Place) : Bool := p.tgt == 2 && !Config.peerAdmits p.pa
/-- The access goes to a peer behind a port that is down. -/
def State.peerDown (s : State) (p : Place) : Bool := p.tgt == 2 && !s.peerUp p

/-! L1 lines (R168). -/

def Core.line (c : Core) (konst : Bool) (tgt a : Nat) : Option Line :=
  c.lines.find? fun l => l.konst == konst && l.tgt == tgt && l.addr == a / 128

/-- The lines that stay beside a new one: the cache holds 128 KiB (R13). The oldest line that is not constant goes;
constant lines stay until TLBINV or CTXLD (R170). -/
def makeRoom (ls : List Line) : List Line :=
  if ls.length < 1024 then ls else (ls.reverse.eraseP fun l => !l.konst).reverse

/-- A constant line holds what its home holds in a range: no later load of it returns a value older than what is read or
written there now (R169, R170). -/
def State.refreshed (s : State) (l : Line) (a n : Nat) : Line :=
  { l with
    data := (List.range 128).map fun i =>
      let x := l.addr * 128 + i
      if a ≤ x && x < a + n then (s.readHome l.tgt x 1).headD 0 else l.data.getD i 0,
    bad := (List.range 4).filter fun k =>
      let g := 4 * l.addr + k
      (overlap (32 * g) 32 a n && s.poison.contains (poisonKey l.tgt g)) ||
        (l.bad.contains k && !(a ≤ 32 * g && 32 * g + 32 ≤ a + n)) }

/-- A line filled from its home, and with it a constant line of the location (R169); a cache full of constant lines
takes none. -/
def State.fillLine (s : State) (core : Nat) (konst : Bool) (p : Place) : State :=
  let c := s.core core
  let base := p.pa / 128 * 128
  let l : Line :=
    { konst := konst, tgt := p.tgt, addr := p.pa / 128, bind := p.bind,
      data := s.readHome p.tgt base 128,
      bad := (List.range 4).filter fun k => s.poison.contains (poisonKey p.tgt (base / 32 + k)) }
  let rest := makeRoom (c.lines.filterMap fun x =>
    if x.tgt == p.tgt && x.addr == p.pa / 128 then (if x.konst && !konst then some { l with konst := true, bind := x.bind }
      else if x.konst == konst then none else some x)
    else some x)
  s.setCore core { c with lines := if rest.length < 1024 then l :: rest else rest }

/-- A resident line takes the bytes written by its own core (R168); a granule written whole, here or together
with the instruction's earlier accesses (`whole`), is no longer bad (R173). -/
def Line.update (l : Line) (a : Nat) (bs : List Byte) (whole : Bool) : Line :=
  { l with
    data := (List.range 128).map fun i =>
      let x := l.addr * 128 + i
      if a ≤ x && x < a + bs.length then bs.getD (x - a) 0 else l.data.getD i 0,
    bad := l.bad.filter fun k =>
      let g := 4 * l.addr + k
      !((a ≤ 32 * g && 32 * g + 32 ≤ a + bs.length) || (whole && g == a / 32)) }
def State.updateLines (s : State) (core tgt a : Nat) (bs : List Byte) (whole : Bool) : State :=
  let c := s.core core
  s.setCore core { c with lines := c.lines.map fun l =>
    if l.tgt == tgt && overlap (l.addr * 128) 128 a bs.length then l.update a bs whole else l }
/-- The core's lines of a location are dropped; a constant line stays, and follows its home (R169, R170). -/
def State.dropLines (s : State) (core tgt a n : Nat) : State :=
  let c := s.core core
  let kept := c.lines.filterMap fun l =>
    if !(l.tgt == tgt && overlap (l.addr * 128) 128 a n) then some l
    else if l.konst then some (s.refreshed l a n)
    else none
  s.setCore core { c with lines := kept }
/-- An acquire's invalidation: every line, or those of one bind id (R168). -/
def State.invalidate (s : State) (core : Nat) (bind : Option Nat) : State :=
  let c := s.core core
  s.setCore core { c with lines := c.lines.filter fun l =>
    l.konst || (match bind with | none => false | some b => l.bind != b) }
/-- The core's lines of unbound pages that are not constant hold what their homes do; one of a peer whose port is down
goes. -/
def State.refreshUnbound (s : State) (core : Nat) : State :=
  let stale := fun (l : Line) => !l.konst && l.bind == 0
  let ls := (s.core core).lines.filter fun l => !(stale l && s.peerDown ⟨l.tgt, 128 * l.addr, 0⟩)
  let s1 := (ls.filter stale).foldl (fun s l => s.sendPeer l.tgt (128 * l.addr) (.read 128) []) s
  s1.setCore core { (s1.core core) with lines := ls.map fun l => if stale l then s.refreshed l (128 * l.addr) 128 else l }

/-! Translation. -/

/-- What a walk finds. -/
inductive Walk where
  | hit (x : Xlat)
  | replay
  /-- a valid leaf with TGT 3: replayable for a group's access, a TARGET fault for an engine's (R183, R206) -/
  | target
  /-- an isolation violation: 1 PART, 2 ASID (R317) -/
  | iso (detail : Nat)
  deriving DecidableEq, Repr

/-- The doubleword at a physical address. -/
def State.dwordAt (s : State) (tgt a : Nat) : Nat := leNat (s.readHome tgt a 8)

/-- The valid entries of the ASID table as it stands in memory, the lower-indexed of two for one ASID (R333). -/
def State.asidTable (s : State) : Store (Nat × Nat) :=
  let base := s.asidtab.toNat * 4096
  (List.range 2048).foldr (fun i m =>
    let d := s.dwordAt 0 (base + 16 * i)
    if d / 2 ^ 63 == 1 then Store.put m (d % 2 ^ 16) (d, s.dwordAt 0 (base + 16 * i + 8)) else m) []

/-- The entry of an ASID that is in effect (R333). -/
def State.asidEntry (s : State) (asid : Nat) : Option (Nat × Nat) := Store.find s.asids asid

/-- The table's entry for an ASID, or for `none` every entry, takes effect: TLBINV at .dev (R333). -/
def State.takeAsids (s : State) (asid : Option Nat) : State :=
  match asid with
  | none => { s with asids := s.asidTable }
  | some a => { s with asids := match Store.find s.asidTable a with
      | some e => Store.put s.asids a e
      | none => s.asids.del a }

/-- Low VA bit and index bits of a level (R180). -/
def levelBits (lv : Nat) : Nat × Nat :=
  match lv with | 3 => (39, 13) | 2 => (30, 9) | 1 => (21, 9) | _ => (16, 5)

/-- The walk from a table at level `lv` (R180, R181). An entry whose L bit is not one its level admits is
taken as invalid (DEDUCED, log 13); the PA bits of a leaf below its page size, which must be 0, are not looked at
(DESIGN CHOICE, log 76). A table on a peer is read over its port: a read that the peer refuses is class 2 PART (R349),
and while the port is down the entry counts as invalid (DESIGN CHOICE, log 38). -/
def State.walkAt (s0 : State) (asid part va : Nat) (lv tgt table : Nat) : State × Walk :=
  let (lo, n) := levelBits lv
  let at_ := table + 8 * (va / 2 ^ lo % 2 ^ n)
  let s := if s0.peerDown ⟨tgt, at_, 0⟩ then s0 else s0.sendPeer tgt at_ (.read 8) []
  let e := s.dwordAt tgt at_
  let t := e / 2 ^ 8 % 4
  let pa := e / 2 ^ 16 % 2 ^ 36 * 2 ^ 16
  let leaf := e / 8 % 2 == 1
  if peerRefuses ⟨tgt, at_, 0⟩ then (s, .iso 1)
  else if s0.peerDown ⟨tgt, at_, 0⟩ || e % 2 == 0 then (s, .replay)
  else if t == 3 then (s, if leaf && lv != 3 then .target else .replay)
  else if e / 2 ^ 10 % 2 ^ 6 != part then (s, .iso 1)
  else if leaf then
    if lv == 3 then (s, .replay)
    else (s, .hit
      { asid := asid, base := va / 2 ^ lo * 2 ^ lo, size := lo, pa := pa / 2 ^ lo * 2 ^ lo,
        part := e / 2 ^ 10 % 2 ^ 6, tgt := t, bind := e / 2 ^ 52, w := e / 2 % 2 == 1, x := e / 4 % 2 == 1 })
  else
    match lv with
    | 0 => (s, .replay)
    | lv + 1 => s.walkAt asid part va lv t pa

/-- The walk of an address from its ASID's root (R180, R333). -/
def State.walk (s : State) (asid part va : Nat) : State × Walk :=
  match s.asidEntry asid with
  | none => (s, .iso 2)
  | some (_, root) => s.walkAt asid part va 3 0 (root / 65536 * 65536)

def findXlat (tlb : List Xlat) (asid va : Nat) : Option Xlat :=
  tlb.find? fun x => x.asid == asid && va / 2 ^ x.size == x.base / 2 ^ x.size

/-- A translation through the core's TLB, the cluster's TLB, or a walk, which fills both (R182). -/
def State.translate (s : State) (core asid part va : Nat) : State × Walk :=
  let cl := clusterOf core
  let check := fun (x : Xlat) => if x.part != part then Walk.iso 1 else Walk.hit x
  match findXlat (s.core core).tlb asid va with
  | some x => (s, check x)
  | none =>
    match findXlat (s.cluster cl).tlb asid va with
    | some x =>
      let c := s.core core
      (s.setCore core { c with tlb := x :: c.tlb }, check x)
    | none =>
      match s.walk asid part va with
      | (s1, .hit x) =>
        let c := s1.core core
        let k := s1.cluster cl
        ((s1.setCore core { c with tlb := x :: c.tlb }).setCluster cl { k with tlb := x :: k.tlb }, .hit x)
      | r => r

/-- The place of an address in its page. -/
def Xlat.place (x : Xlat) (va : Nat) : Place := ⟨x.tgt, x.pa + va % 2 ^ x.size, x.bind⟩

/-- The owner of the 1 GiB unit is the master's partition (R347). -/
def State.unitOk (s : State) (part : Nat) (p : Place) : Bool :=
  p.tgt != 0 || Store.get s.units (p.pa / 2 ^ 30) 0 == part + 1
/-- The check at the home of a request's place (R347). -/
def State.mayReach (s : State) (q : Req) (p : Place) : Bool := q.part == noPart || s.unitOk q.part p

/-- The result of the checks of one lane's global address at issue (R183, R185). -/
inductive LaneCheck where
  | ok (p : Place)
  | wait
  | bad (f : Fate)
  deriving DecidableEq, Repr

/-- What an access needs of its page. -/
inductive Need where | read | write | atomic | konst | direct | directWrite | ordered | drop
  deriving DecidableEq, Repr
/-- Kind bits of R184. -/
def Need.kind : Need → Nat
  | .write | .directWrite => 2 | .atomic | .ordered => 4 | _ => 1
def Need.writes : Need → Bool
  | .write | .atomic | .directWrite | .ordered => true | _ => false
/-- Loads wait lane by lane; other accesses fault at issue (R183). -/
def Need.waits : Need → Bool
  | .read | .konst | .direct => true | _ => false

/-- The checks of one lane's address (R180 to R183, R347). Handler contexts use physical addresses (R315). A lane that
fails two checks of class 4, a page that is not writable and a target off device DRAM, takes the page fault (DESIGN
CHOICE, log 77). -/
def State.checkLane (s : State) (g : Group) (need : Need) (lane : Nat) (va : Nat) : State × LaneCheck :=
  let ln := BitVec.ofNat 32 lane
  if 2 ^ 52 ≤ va then (s, .bad (.trap 4 1 ln va))
  else if g.sorrel.isSome then
    -- a physical address where there is nothing is the context's own fault (DESIGN CHOICE, log 15)
    if va < Config.dramBytes || (capBase ≤ va && va < capBase + capSize && !need.writes) then (s, .ok ⟨0, va, 0⟩)
    else (s, .bad (.trap 4 1 ln va))
  else
    match s.translate g.core g.asid g.part va with
    | (s1, .iso d) => (s1, .bad (.freeze d ln va))
    | (s1, .replay) | (s1, .target) => (s1, if need.waits then .wait else .bad (.page va need.kind ln))
    | (s1, .hit x) =>
      let p := x.place va
      if need.writes && !x.w then (s1, .bad (.page va need.kind ln))
      else if need == .konst && x.w then (s1, .bad (.trap 4 2 ln va))
      else if (need == .direct || need == .directWrite) && x.tgt != 0 then (s1, .bad (.trap 4 3 ln va))
      else if need == .ordered && x.tgt != 0 then (s1, .bad (.trap 4 5 ln va))
      else if !s.unitOk g.part p then (s1, .bad (.freeze 1 ln va))
      else (s1, .ok p)

end Sys2Proof.Machine
end

