-- ==== Sys2Proof/Machine/Memory.lean ====
section
/-! DEFINITION. Memory accesses: forming and issuing them, program order within a group, and what happens
where they are performed (R161 to R179, R307 to R312). Scratchpad accesses share the forms. -/

namespace Sys2Proof.Machine

/-! Allocations as accesses meet them. -/

def Alloc.covers (a : Alloc) (off : Nat) : Bool := a.base ≤ off && off < a.base + 1024 * a.granules
/-- The allocation an offset lies in (R187). -/
def Block.allocAt (b : Block) (off : Nat) : Option Alloc := b.allocs.find? (·.covers off)
/-- An allocation lanes and operands may name: not a table's spill (R259). -/
def Block.laneAlloc (b : Block) (off : Nat) : Option Alloc :=
  b.allocs.find? fun a => a.covers off && a.spill.isNone
/-- The group's accesses to the allocation are performed (R188). -/
def Alloc.serves (a : Alloc) (uid : Nat) : Bool :=
  match a.state with | .live => true | .lost => false | .rebuilding o => o == uid
/-- A group's access number `id` comes before the zeros of its own SALLOC or SRESTORE (R308). -/
def Alloc.before (a : Alloc) (uid id : Nat) : Bool := a.zeroed.any fun z => z.1 == uid && id < z.2

/-! Forming accesses (R165). -/

/-- One access of an instruction: `off` the register offset of its piece, `data` what a store writes. -/
structure Piece where
  lane : Nat
  va : Nat
  w : Nat
  off : Nat
  data : Nat
  deriving DecidableEq, Repr

/-- Bytes per lane of SZ (R162). -/
def szBytes (sz : Nat) : Nat :=
  match sz with | 0 => 1 | 1 => 2 | 2 => 4 | 3 => 8 | 4 => 16 | _ => 132

/-- A signed 32-bit literal offset. -/
def litOff (off : Option Word) : Int := match off with | some x => sext x.toNat 32 | none => 0

/-- The base in a lane: a uniform or vector register, a pair for a global access. -/
def Arch.base (a : Arch) (ub glob : Bool) (r lane : Nat) : Nat :=
  if ub then (if glob then a.readS64 r else (a.readS r).toNat)
  else if glob then a.readV64 r lane else (a.readV r lane).toNat

/-- The effective address (R165). -/
def effAddr (glob : Bool) (b : Nat) (off : Int) : Nat := wrap ((b : Int) + off) (if glob then 64 else 32)

/-- Data of a lane, w bytes from register d. -/
def Arch.storeData (a : Arch) (d lane w : Nat) : Nat :=
  (List.range ((w + 3) / 4)).foldl (fun acc i => acc + (a.readV (d + i) lane).toNat * 2 ^ (32 * i)) 0 % 2 ^ (8 * w)

/-- The accesses of a vector form, in ascending lane order; 16 bytes are four words (R307), the register
image is its lane words and band bytes (R165). A band byte belongs to no lane: a fault of it is reported as that
of lane k, its granule's number (DESIGN CHOICE, log 70). -/
def Arch.pieces (a : Arch) (m : VMem) (glob : Bool) (lanes : List Nat) : List Piece :=
  let w := szBytes m.sz.toNat
  let ea := fun l => effAddr glob (a.base m.ub glob m.a.toNat l) (litOff m.off)
  let r := m.r.toNat
  if w == 132 then
    (lanes.map fun l => ⟨l, effAddr glob (ea l) (4 * l : Nat), 4, 0, (a.readV r l).toNat⟩) ++
    ((granulesOf lanes).map fun k =>
      ⟨32 + k, effAddr glob (ea 0) (128 + k : Nat), 1, 0, (a.readB r k).toNat⟩)
  else if w == 16 then
    (lanes.map fun l => (List.range 4).map fun i =>
      ⟨l, effAddr glob (ea l) (4 * i : Nat), 4, i, (a.readV (r + i) l).toNat⟩).flatten
  else lanes.map fun l => ⟨l, ea l, w, 0, a.storeData r l w⟩

/-- Poison of bases and data, and alignment (R76, R165, R185). -/
def Arch.vmemFates (a : Arch) (m : VMem) (glob store : Bool) (lanes : List Nat) : List Fate :=
  let w := szBytes m.sz.toNat
  let badBase := m.ub && !lanes.isEmpty && a.badUs (uRegs m.a.toNat glob)
  let regs := (if m.ub then [] else uRegs m.a.toNat glob) ++
    (if store then (List.range (if w == 132 then 1 else (w + 3) / 4)).map (m.r.toNat + ·) else [])
  let badBand := if store && w == 132 then
      (lanes.find? fun l => a.badB m.r.toNat (l / 8)) else none
  poisonIn (if badBase then lanes.head? else none) ++ poisonIn (a.badLane regs lanes) ++ poisonIn badBand ++
  (lanes.filterMap fun l =>
    let ea := effAddr glob (a.base m.ub glob m.a.toNat l) (litOff m.off)
    if ea % (if w == 132 then 4 else w) == 0 then none else some (misaligned (BitVec.ofNat 32 l) ea))

/-! Program order within a group. -/

/-- The address range of an act. -/
def Act.width (a : Act) : Nat :=
  match a with
  | .load _ w _ => w
  | .store _ w _ => w
  | .atomic _ _ ty _ _ => if ty == 3 then 8 else 4
  | .atomo bf _ _ _ => if bf then 2 else 4
  | .szero n => n
  | _ => 0
def Act.isLoad (a : Act) : Bool := match a with | .load .. => true | _ => false
def Act.isStore (a : Act) : Bool := match a with | .store .. => true | _ => false
def Act.isAtomic (a : Act) : Bool := match a with | .atomic .. => true | _ => false
def Act.isAtomo (a : Act) : Bool := match a with | .atomo .. => true | _ => false
/-- The access is to the scratchpad. -/
def Act.isScr (a : Act) : Bool :=
  match a with
  | .load p _ _ => p == .scr
  | .store p _ _ => p == .scr
  | .atomic scr _ _ _ _ => scr
  | _ => false
def Act.isDirectStore (a : Act) : Bool := match a with | .store p _ _ => p == .direct | _ => false

/-- Two accesses touch a common byte, or of the scratchpad a common word (R169); untranslated ones are compared by
virtual address. -/
def Req.meets (q r : Req) : Bool :=
  q.act.isScr == r.act.isScr &&
  (match q.place, r.place with
   | some x, some y => x.tgt == y.tgt && overlap x.pa q.act.width y.pa r.act.width
   | _, _ =>
     if q.act.isScr then
       overlap (q.va / 4) ((q.va + q.act.width - 1) / 4 - q.va / 4 + 1) (r.va / 4)
         ((r.va + r.act.width - 1) / 4 - r.va / 4 + 1)
     else overlap q.va q.act.width r.va r.act.width)

/-- Held and departing requests of a group, oldest first. -/
def Group.heldReqs (g : Group) : List Req :=
  g.outq ++ (g.unret.map (·.held)).flatten ++ (match g.cur with | some c => c.held | none => [])

/-- All requests of a group, oldest first; those in `reqs` come first. -/
def State.reqsOf (s : State) (uid : Nat) : List Req :=
  (s.reqs.filter fun q => q.grp == uid) ++
  (match s.handleOf uid with
   | some h => match s.group h with
     | some g => g.heldReqs
     | none => []
   | none => [])

/-- All requests of the group of `r` issued before it. -/
def State.before (s : State) (r : Req) : List Req := (s.reqsOf r.grp).filter fun q => q.id < r.id

/-- An access has not been performed yet. -/
def Req.open (q : Req) : Bool := q.reply.isNone

/-- A fence orders this access: it was made to unbound memory or to the scratchpad (axioms Scope, Bind;
DEDUCED, log 16). -/
def Req.unbound (q : Req) : Bool := match q.place with | some p => p.bind == 0 | none => true

/-- An acquire marker still holds back later accesses: earlier loads and atomics have not returned, or
after .full an earlier store, atomic or ATOMO is not performed (R232). -/
def State.fenceWaits (s : State) (q : Req) : Bool :=
  match q.act with
  | .fence _ ord =>
    (s.before q).any fun p =>
      p.act.isLoad || (p.act.isAtomic && (p.open || p.pid.isSome)) ||
      (ord == 3 && p.unbound && p.open && (p.act.isStore || p.act.isAtomo))
  | .acq _ _ => true
  | _ => false

/-- Acquire markers whose condition holds go, and the core's lines with them (R168, R232). -/
def State.settleFences (s : State) (uid : Nat) : State :=
  (s.reqs.filter fun q => q.grp == uid && (match q.act with | .fence _ _ => true | _ => false)).foldl
    (fun s q =>
      if s.fenceWaits q then s
      else
        let s1 := match q.act with
          | .fence sc _ => if 2 ≤ sc then s.invalidate q.core none else s
          | _ => s
        s1.dropReq q.id) s

/-- An earlier acquire marker of the group still waits. -/
def State.behindFence (s : State) (r : Req) : Bool :=
  s.reqs.any fun q => q.grp == r.grp && q.id < r.id && s.fenceWaits q

/-- An unacknowledged direct store of the core stands in a range (R168, R172). -/
def State.directPending (s : State) (core : Nat) (p : Place) (unit : Nat) : Bool :=
  s.reqs.any fun q => q.core == core && q.act.isDirectStore &&
    (match q.place with
     | some x => x.tgt == p.tgt && overlap x.pa q.act.width (p.pa / unit * unit) unit
     | none => false)

/-- An earlier scratchpad access of the group, of another instruction, has left and not arrived: arrivals keep
program order (R313). A load does not wait for a store or an atomic that its clause still holds (R53, R59;
DEDUCED, log 71). -/
def State.behindArrival (s : State) (r : Req) : Bool :=
  r.act.isScr && s.reqs.any fun q => q.grp == r.grp && q.id < r.id && q.open && q.act.isScr && q.lost.isNone &&
    (q.clause, q.word) != (r.clause, r.word)

/-- A pop that the group issued before has not been answered. It may answer OK, which acquires what was pushed for the
group's later reads and arrivals (R304, R311, R313; DEDUCED, log 85). -/
def State.behindPop (s : State) (r : Req) : Bool :=
  (s.before r ++ s.parkedAt r.grp).any fun q => q.id < r.id && q.open && (match q.act with | .plpop .. => true | _ => false)

/-- An access may be performed: nothing earlier of its group to the same bytes is in the way (R165, R169),
no fence and no pop holds it back, and no direct store of the core is in flight to the same line or granule (R168). -/
def State.canPerform (s : State) (r : Req) : Bool :=
  r.open && !s.behindFence r && !s.behindArrival r && !((r.act.isLoad || r.act.isAtomic || r.act.isScr) && s.behindPop r) &&
  (match r.act with
   | .load path _ _ =>
     !((s.before r).any fun q => q.open && q.meets r && (q.act.isLoad || q.act.isAtomic)) &&
     (match r.place with
      | some p =>
        if path == .direct then !s.directPending r.core p 32
        else if path == .cached || path == .konst || path == .l2 then !s.directPending r.core p 128
        else true
      | none => path == .scr)
   | .store _ _ _ =>
     !((s.before r).any fun q => q.open && (q.act.isLoad || q.act.isStore || q.act.isAtomic) && (q.meets r ||
         (r.off == 1 && q.act.isStore && q.va / 32 == r.va / 32 && q.act.isScr == r.act.isScr)))
   | .atomic .. =>
     !((s.before r).any fun q =>
       q.open && q.meets r && (q.act.isLoad || q.act.isStore || q.act.isAtomic))
   | .prefetch l1 => !(l1 && r.place.any fun p => s.directPending r.core p 128)
   | .aflush => !((s.before r).any fun q => q.open && q.act.isAtomo && q.place == r.place)
   | _ => true)

/-- The request stores to an allocation that its group has since mapped anew: the zeros come after it (R308). -/
def State.superseded (s : State) (q : Req) : Bool :=
  q.act.isScr &&
  match (s.handleOf q.grp).bind s.group with
  | none => false
  | some g =>
    match (s.blockOf g).bind (·.laneAlloc q.va) with
    | some a => a.before q.grp q.id
    | none => false

/-- The bytes a load sees: those of its home overlaid by its group's earlier stores still under way
(R53). -/
def State.overlay (s : State) (r : Req) (bs : List Byte) : List Byte :=
  let stores := (s.before r).filter fun q => q.open && q.act.isStore && q.meets r && !s.superseded q
  let base := match r.place with | some p => p.pa | none => r.va
  stores.foldl (fun bs q =>
    match q.act with
    | .store _ w d =>
      let qb := match q.place with | some p => p.pa | none => q.va
      (List.range bs.length).map fun i =>
        let a := base + i
        if qb ≤ a && a < qb + w then BitVec.ofNat 8 (d / 2 ^ (8 * (a - qb))) else bs.getD i 0
    | _ => bs) bs

/-- The words a load returns for a request (R165). -/
def loadRets (r : Req) (pid w : Nat) (sx : Bool) (bs : List Byte) (ue : Bool) : List Ret :=
  let x := leNat bs
  if w == 8 then
    [⟨pid, r.lane, 0, some (BitVec.ofNat 32 x), 0, ue⟩, ⟨pid, r.lane, 1, some (BitVec.ofNat 32 (x / 2 ^ 32)), 0, ue⟩]
  else
    let v := if sx then wrap (sext x (8 * w)) 32 else x
    [⟨pid, r.lane, r.off, some (BitVec.ofNat 32 v), 0, ue⟩]

/-- A load's or atomic's answer is set; a request nobody awaits goes (R49). -/
def State.answer (s : State) (r : Req) (rets : List Ret) : State :=
  match r.pid with
  | some _ => s.putReq { r with reply := some rets }
  | none => s.dropReq r.id

/-! Atomic operations (R175). -/

/-- The new value of a location holding m. -/
def atomicOp (op ty m b c : Nat) : Nat :=
  let n := if ty == 3 then 64 else 32
  match op with
  | 0 => if ty == 2 then (laneRound .fp32 0 ((Fmt.fp32.decode m).add false (Fmt.fp32.decode b))).1 else (m + b) % 2 ^ n
  | 1 =>
    if ty == 2 then (Fmt.fp32.round (Val.minV (Fmt.fp32.decode m) (Fmt.fp32.decode b)) (laneMode 0)).1
    else wrap (min (intOf (ty == 0) m n) (intOf (ty == 0) b n)) n
  | 2 =>
    if ty == 2 then (Fmt.fp32.round (Val.maxV (Fmt.fp32.decode m) (Fmt.fp32.decode b)) (laneMode 0)).1
    else wrap (max (intOf (ty == 0) m n) (intOf (ty == 0) b n)) n
  | 3 => m &&& b
  | 4 => m ||| b
  | 5 => m ^^^ b
  | 6 => b
  | _ => if m == c then b else m

/-- The previous content as the words of an atomic's destination. -/
def atomicRets (r : Req) (pid ty m : Nat) (ue : Bool) : List Ret :=
  if ty == 3 then
    [⟨pid, r.lane, 0, some (BitVec.ofNat 32 m), 0, ue⟩, ⟨pid, r.lane, 1, some (BitVec.ofNat 32 (m / 2 ^ 32)), 0, ue⟩]
  else [⟨pid, r.lane, 0, some (BitVec.ofNat 32 m), 0, ue⟩]

/-! Issue. -/

/-- Does the access at position i of a store complete a 32-byte granule that the instruction writes
whole? -/
def completes (ps : List Piece) (i : Nat) : Bool :=
  match ps[i]? with
  | none => false
  | some p =>
    let k := p.va / 32
    let mine := ps.filter fun q => q.va / 32 == k
    !((ps.drop (i + 1)).any fun q => q.va / 32 == k) &&
    ((List.range 32).all fun b => mine.any fun q => q.va ≤ 32 * k + b && 32 * k + b < q.va + q.w)

/-- The checks of every access of an instruction (R183, R185), with the places found. -/
def State.checkAll (s : State) (g : Group) (need : Need) (ps : List Piece) :
    State × List (Option Place) × List Fate :=
  ps.foldl (fun (s, pl, fs) p =>
    match s.checkLane g need (p.lane % 32) p.va with
    | (s1, .ok x) => (s1, pl ++ [some x], fs)
    | (s1, .wait) => (s1, pl ++ [none], fs)
    | (s1, .bad f) => (s1, pl ++ [none], fs ++ [f])) (s, [], [])

/-- The path of a handler context's accesses is physical (R315). -/
def Group.path (g : Group) (p : Path) : Path := if g.sorrel.isSome then .phys else p

/-- The requests of the accesses, numbered from `id`. -/
def mkReqs (g : Group) (c : Cur) (id : Nat) (pid : Option Nat) (ps : List Piece) (pl : List (Option Place))
    (act : Piece → Act) (store : Bool) : List Req :=
  (List.range ps.length).map fun i =>
    let p := ps.getD i ⟨0, 0, 0, 0, 0⟩
    let q := mkReq g c (id + i) (act p)
    { q with lane := p.lane, va := p.va, ea := p.va - 4 * p.off, place := pl.getD i none, pid := pid,
             off := if store then (if completes ps i then 1 else 0) else p.off }

/-- Loads leave at issue: an uncommitted instruction and one request for each access (R49). `keep` says
which register offsets are written. -/
def State.issueLoads (s : State) (g : Group) (c : Cur) (dest : Dest) (reg : Nat) (image : Bool)
    (ps : List Piece) (pl : List (Option Place)) (act : Piece → Act) (keep : Nat → Bool) : State × Group :=
  let pid := s.nextId
  let offs := fun (p : Piece) => if p.w == 8 then [0, 1] else [p.off]
  let pend : Pend := ⟨pid, dest, reg, image,
    ((ps.map fun p => (offs p).map fun o => (p.lane, o)).flatten).filter fun x => keep x.2⟩
  let rs := mkReqs g c (pid + 1) (some pid) ps pl act false
  ({ s with nextId := pid + 1 + ps.length, reqs := s.reqs ++ rs },
    { g with arch := { g.arch with pend := g.arch.pend ++ [pend] } })

/-- Stores and their like are held until their clause retires (R53). -/
def State.holdReqs (s : State) (g : Group) (c : Cur) (rs : List Req) : State × Group :=
  ({ s with nextId := s.nextId + rs.length }, { g with cur := some { c with held := c.held ++ rs } })

/-- A vector load of global memory. -/
def globalLoad (m : VMem) (need : Need) (path : Path) (s : State) : Out :=
  issue s fun s g c =>
    let a := g.arch
    let lanes := a.lanes c.gang m.p
    let ps := a.pieces m true lanes
    let (s1, pl, fs) := s.checkAll g need ps
    match pickFate (a.vmemFates m true false lanes ++ fs) with
    | some f => .error f
    | none =>
      .ok (s1.issueLoads g c .vec m.r.toNat (m.sz == 5) ps pl
        (fun p => .load (g.path path) p.w m.sx) (fun _ => true))

/-- A vector store to global memory. -/
def globalStore (m : VMem) (need : Need) (path : Path) (s : State) : Out :=
  issue s fun s g c =>
    let a := g.arch
    let lanes := a.lanes c.gang m.p
    let ps := a.pieces m true lanes
    let (s1, pl, fs) := s.checkAll g need ps
    match pickFate (a.vmemFates m true true lanes ++ fs) with
    | some f => .error f
    | none =>
      .ok (s1.holdReqs g c (mkReqs g c s1.nextId none ps pl
        (fun p => .store (g.path path) p.w p.data) true))

def execLdg (m : VMem) (s : State) : Out := globalLoad m .read (if m.l2 then .l2 else .cached) s
def execLdc (m : VMem) (s : State) : Out := globalLoad m .konst .konst s
def execLdd (m : VMem) (s : State) : Out := globalLoad m .direct .direct s
def execStg (m : VMem) (s : State) : Out := globalStore m .write .cached s
def execStd (m : VMem) (s : State) : Out := globalStore m .directWrite .direct s

/-- The one access of a uniform form (R163, R165). -/
def Arch.uPieces (a : Arch) (m : UMem) (glob : Bool) : List Piece :=
  let w := szBytes m.sz.toNat
  [⟨0, effAddr glob (a.base true glob m.a.toNat 0) (litOff m.off), w, 0,
    (if w == 8 then a.readS64 m.r.toNat else (a.readS m.r.toNat).toNat % 2 ^ (8 * w))⟩]
def Arch.umemFates (a : Arch) (m : UMem) (glob store : Bool) : List Fate :=
  let w := szBytes m.sz.toNat
  let ea := effAddr glob (a.base true glob m.a.toNat 0) (litOff m.off)
  (if a.badUs (uRegs m.a.toNat glob ++ (if store then uRegs m.r.toNat (w == 8) else [])) then [poisoned 0] else []) ++
  (if ea % w == 0 then [] else [misaligned 0 ea])

/-- A uniform destination register that keeps what is written (R75). -/
def uKeep (r : Nat) (off : Nat) : Bool := r + off != 63

def execSldg (m : UMem) (s : State) : Out :=
  issue s fun s g c =>
    let ps := g.arch.uPieces m true
    let (s1, pl, fs) := s.checkAll g .read ps
    match pickFate (g.arch.umemFates m true false ++ fs) with
    | some f => .error f
    | none =>
      .ok (s1.issueLoads g c .uni m.r.toNat false ps pl
        (fun p => .load (g.path (if m.l2 then .l2 else .cached)) p.w m.sx) (uKeep m.r.toNat))

def execSstg (m : UMem) (s : State) : Out :=
  issue s fun s g c =>
    let ps := g.arch.uPieces m true
    let (s1, pl, fs) := s.checkAll g .write ps
    match pickFate (g.arch.umemFates m true true ++ fs) with
    | some f => .error f
    | none =>
      .ok (s1.holdReqs g c (mkReqs g c s1.nextId none ps pl
        (fun p => .store (g.path .cached) p.w p.data) true))

/-- PRFG leaves at issue; lanes that fail are dropped (R171), those of another partition's pages too (DESIGN CHOICE,
log 72). -/
def execPrfg (p : Pred) (a : BitVec 7) (ub f1 : Bool) (off : Option Word) (s : State) : Out :=
  issue s fun s g c =>
    let ar := g.arch
    let lanes := ar.lanes c.gang p
    let ps := lanes.map fun l =>
      (⟨l, effAddr true (ar.base ub true a.toNat l) (litOff off), 1, 0, 0⟩ : Piece)
    let badBase := ub && !lanes.isEmpty && ar.badUs (uRegs a.toNat true)
    match pickFate (poisonIn (if badBase then lanes.head? else none) ++
        poisonIn (if ub then none else ar.badLane (uRegs a.toNat true) lanes)) with
    | some f => .error f
    | none =>
      let (s1, pl, _) := s.checkAll g .drop ps
      let rs := (mkReqs g c s1.nextId none ps pl (fun _ => .prefetch f1) false).filter fun r =>
        match r.place with | some x => x.tgt != 1 | none => false
      .ok ({ s1 with nextId := s1.nextId + ps.length, reqs := s1.reqs ++ rs }, g)

/-! Atomics (R174). -/

/-- The fields of an atomic's literal word. -/
def atOff (x : Word) : Int := sext (x.toNat / 2 ^ 21) 11
def atUb (x : Word) : Bool := x.getLsbD 20
def atOrd (x : Word) : Nat := x.toNat / 2 ^ 18 % 4
def atScope (x : Word) : Nat := x.toNat / 2 ^ 15 % 8
def atNr (x : Word) : Bool := x.getLsbD 14
def atC (x : Word) : Nat := x.toNat / 2 ^ 7 % 128
def atB (x : Word) : Nat := x.toNat % 128

/-- The literal word is legal for the form, and its registers and the base lie in the allocation. -/
def atomicLitOk (o : Atomic) (glob : Bool) (vregs : Nat) : Bool :=
  let x := o.lit
  let wide := o.ty == 3
  let more := if wide then 1 else 0
  (if glob then atScope x < 6 else atScope x < 2) &&
  (atOrd x != 0 || atScope x == 0) &&
  (!atNr x || o.d == 0) &&
  (if o.op == 7 then atC x + more < vregs && (!wide || atC x % 2 == 0) else atC x == 0) &&
  atB x + more < vregs && (!wide || atB x % 2 == 0) &&
  (if atUb x then o.a.toNat < 64 && (!glob || o.a.toNat % 2 == 0)
   else if glob then o.a.toNat % 2 == 0 && o.a.toNat + 1 < vregs else o.a.toNat < vregs)

/-- What an illegal literal word raises: the lower classes of the same word prevail (R185, R318). -/
def litFates (ok : Bool) : List Fate := if ok then [] else [illegal]

/-- The accesses of an atomic, with b as data; and what is wrong with its registers. -/
def Arch.atomicPieces (a : Arch) (o : Atomic) (glob : Bool) (lanes : List Nat) : List Piece :=
  let w := if o.ty == 3 then 8 else 4
  lanes.map fun l => ⟨l, effAddr glob (a.base (atUb o.lit) glob o.a.toNat l) (atOff o.lit), w, 0,
    a.storeData (atB o.lit) l w⟩
def Arch.atomicFates (a : Arch) (o : Atomic) (glob : Bool) (lanes : List Nat) : List Fate :=
  let wide := o.ty == 3
  let x := o.lit
  let badBase := atUb x && !lanes.isEmpty && a.badUs (uRegs o.a.toNat glob)
  let regs := (if atUb x then [] else uRegs o.a.toNat glob) ++ uRegs (atB x) wide ++
    (if o.op == 7 then uRegs (atC x) wide else [])
  poisonIn (if badBase then lanes.head? else none) ++ poisonIn (a.badLane regs lanes) ++
  ((a.atomicPieces o glob lanes).filterMap fun p =>
    if p.va % p.w == 0 then none else some (misaligned (BitVec.ofNat 32 p.lane) p.va))

/-- Holds a release marker, the accesses and an acquire marker of an atomic (R174); at .grp there is nothing to
order (R4, R232). -/
def State.issueAtomic (s : State) (g : Group) (c : Cur) (o : Atomic) (scr : Bool) (ps : List Piece)
    (pl : List (Option Place)) : State × Group :=
  let sc := atScope o.lit
  let ord := if sc == 0 then 0 else atOrd o.lit
  let cw := fun (p : Piece) => if o.op == 7 then g.arch.storeData (atC o.lit) p.lane p.w else 0
  let act := fun (p : Piece) => Act.atomic scr o.op.toNat o.ty.toNat p.data (cw p)
  let rel := if ord == 1 || ord == 3 then [mkReq g c s.nextId (.fence sc ord)] else []
  let id1 := s.nextId + rel.length
  let pid := id1
  let acc := mkReqs g c (pid + 1) (if atNr o.lit then none else some pid) ps pl act false
  let last := pid + 1 + ps.length
  let acq := if ord == 2 || ord == 3 then [mkReq g c last (.fence sc ord)] else []
  let offs := if o.ty == 3 then [0, 1] else [0]
  let pend : List Pend := if atNr o.lit then [] else
    [⟨pid, .vec, o.d.toNat, false, (ps.map fun p => offs.map fun k => (p.lane, k)).flatten⟩]
  ({ s with nextId := last + 1, reqs := s.reqs ++ acq },
    { g with arch := { g.arch with pend := g.arch.pend ++ pend },
             cur := some { c with held := c.held ++ rel ++ acc,
                                  commit := c.commit || ord == 2 || ord == 3 } })

def execAtomg (o : Atomic) (s : State) : Out :=
  issue s fun s g c =>
    let lanes := g.arch.lanes c.gang o.p
    let ps := g.arch.atomicPieces o true lanes
    let (s1, pl, fs) := s.checkAll g .atomic ps
    match pickFate (litFates (atomicLitOk o true g.vregs) ++ g.arch.atomicFates o true lanes ++ fs) with
    | some f => .error f
    | none => .ok (s1.issueAtomic g c o false ps pl)

/-! Ordered float accumulation (R176 to R179). -/

def execAtomo (p : Pred) (a : BitVec 7) (lit : Word) (s : State) : Out :=
  issue s fun s g c =>
    let ar := g.arch
    let lanes := ar.lanes c.gang p
    let x := lit.toNat
    let bf := lit.getLsbD 25
    let ub := lit.getLsbD 24
    let vc := x / 2 ^ 17 % 128
    let k := x / 2 ^ 11 % 64
    let nr := x / 2 ^ 5 % 64
    let n := (ar.readS nr).toNat
    let ok := !(x / 2 ^ 26 != 0 || x % 2 ^ 5 != 0 || g.vregs ≤ vc || (ub && (64 ≤ a.toNat || a.toNat % 2 == 1)) ||
        (!ub && (a.toNat % 2 == 1 || g.vregs ≤ a.toNat + 1)))
    let ps := lanes.map fun l =>
      (⟨l, effAddr true (ar.base ub true a.toNat l) 0, if bf then 2 else 4, 0, (ar.readV vc l).toNat⟩ : Piece)
    let badU := ar.badUs ([k, nr] ++ (if ub then uRegs a.toNat true else []))
    let pre := (if badU then poisonIn (if lanes.isEmpty then none else lanes.head?) else []) ++
      poisonIn (ar.badLane ((if ub then [] else uRegs a.toNat true) ++ [vc]) lanes)
    let cnt := if n == 0 || 4096 < n then [Fate.trap 3 5 noLane 0] else []
    let al := ps.filterMap fun q => if q.va % q.w == 0 then none else some (misaligned (BitVec.ofNat 32 q.lane) q.va)
    let (s1, pl, fs) := s.checkAll g .ordered ps
    match pickFate (pre ++ litFates ok ++ (if ok then cnt else []) ++ al ++ fs) with
    | some f => .error f
    | none =>
      let key := fun (q : Piece) => (ar.readS k).toNat * 32 + q.lane
      .ok (s1.holdReqs g c (mkReqs g c s1.nextId none ps pl
        (fun q => .atomo bf (key q) (BitVec.ofNat 32 q.data) n) false))

/-- AFLUSH (R179). Its page is checked as an ATOMO's: a page that is not writable is a replayable fault of kind
atomic, one off device DRAM raises OTARGET (DESIGN CHOICE, log 73). -/
def execAflush (sa : BitVec 6) (s : State) : Out :=
  issue s fun s g c =>
    let va := g.arch.readS64 sa.toNat
    let ps := [(⟨0, va, 1, 0, 0⟩ : Piece)]
    let (s1, pl, fs) := s.checkAll g .ordered ps
    match pickFate ((if g.arch.badUs (uRegs sa.toNat true) then [poisoned noLane] else []) ++ fs) with
    | some f => .error f
    | none => .ok (s1.holdReqs g c (mkReqs g c s1.nextId none ps pl (fun _ => .aflush) false))

/-! Steps. -/

/-- A lane's access ends without a value. -/
def State.cancelLane (s : State) (r : Req) : State :=
  match r.act, r.pid with
  | .atomic _ _ ty _ _, some pid =>
    s.putReq { r with reply := some ((if ty == 3 then [0, 1] else [0]).map fun o => ⟨pid, r.lane, o, none, 0, false⟩) }
  | .load _ w _, some pid =>
    let offs := if w == 8 then [0, 1] else [r.off]
    s.putReq { r with reply := some (offs.map fun o => ⟨pid, r.lane, o, none, 0, false⟩) }
  | _, _ => s.dropReq r.id

/-- The request belongs to a clause that can still be rolled back. -/
def Group.canUndo (g : Group) (id : Nat) : Bool :=
  (match g.cur with | some c => c.first ≤ id | none => false) || g.unret.any fun r => r.first ≤ id && id < r.upto

/-- The group is held, or a trap that no rollback takes back is on its way: it raises nothing more (R318). -/
def Group.raised (g : Group) : Bool :=
  match g.hold with
  | .free | .parking => false
  | .trapping t => t.stands || g.frozen
  | _ => true

/-- A group becomes a frozen master for one of its requests: a clause that can be undone is, and the group
is held with a class-2 trap (R59, R327). -/
def State.freezeGroup (s : State) (h : Nat) (detail : Nat) (q : Req) : State :=
  match s.group h with
  | none => s
  | some g =>
    if g.raised then s
    else
    let back := g.canUndo q.id
    let s1 := if back then s.undoFrom h g q.id else s.undoCur h g
    match s1.group h with
    | none => s1
    | some g1 =>
      let t : Trap := ⟨2, detail, if back then q.word else 15, BitVec.ofNat 32 (q.lane % 32), q.va,
        if back then q.hdr else g1.restartPc, !back⟩
      (s1.putGroup h { g1 with frozen := true, hold := .trapping t }).settleTrap h

/-- A fault met after the issue of a lane, delivered at a clause boundary; of several of one clause the
word issued first, then the lowest class, then the lowest lane stands (R185, R318). -/
def State.defer (s : State) (uid : Nat) (d : Deferred) : State :=
  let key := fun (x : Deferred) => (x.word * 16 + x.cls) * 64 + x.lane
  s.modUid uid fun g =>
    match g.deferred.find? (·.clause == d.clause) with
    | some o =>
      if key d < key o then
        { g with deferred := g.deferred.map fun x => if x.clause == d.clause then d else x }
      else g
    | none => { g with deferred := g.deferred ++ [d] }

/-- What a load needs of its page. -/
def Path.need (p : Path) : Need := match p with | .konst => .konst | .direct => .direct | _ => .read
/-- What an access needs of its page; none for an access that is not translated. -/
def Act.need (a : Act) : Option Need :=
  match a with
  | .load p _ _ => if p == .scr || p == .phys then none else some p.need
  | .store p _ _ => if p == .scr || p == .phys then none else some (if p == .direct then .directWrite else .write)
  | .atomic scr _ _ _ _ => if scr then none else some .atomic
  | .atomo .. | .aflush => some .ordered
  | _ => none

/-- PAGE_WALK_COMPLETE (R183): the walk of a load's lane gives a translation, a record or a violation; likewise of another
access that CTXLD has brought back, whose translation did not outlive the save (R334; DEDUCED, log 25). -/
def execPageWalkComplete (r : Nat) (s : State) : Out :=
  match s.req r with
  | none => .next s
  | some q =>
    match s.handleOf q.grp, q.act.need with
    | some h, some need =>
      match s.group h with
      | none => .next s
      | some g =>
        let record := fun (s : State) (kind : Nat) =>
          let (s1, seq) := s.openRecord g.cluster g.asid q.va kind g.part (0, q.id)
          s1.putReq { q with walk := some (g.cluster, seq) }
        if q.place.isSome || q.walk.isSome || g.frozen || !q.open then .next s
        else
          match s.checkLane g need (q.lane % 32) q.va with
          | (s1, .ok p) =>
            let s2 := if need == .directWrite then s1.dropLines g.core p.tgt p.pa q.act.width else s1
            .next (s2.putReq { q with place := some p })
          | (s1, .wait) => .next (record s1 1)
          | (s1, .bad (.page _ kind _)) => .next (record s1 kind)
          | (s1, .bad (.freeze d _ _)) => .next ((if q.act.isLoad then s1 else s1.answer q []).freezeGroup h d q)
          | (s1, .bad (.trap c d _ a)) =>
            .next ((s1.cancelLane q).defer q.grp ⟨q.clause, q.word, c, d, 0, a, q.lane, 0, q.gang, none, none⟩)
          | (s1, .bad _) => .next s1
    | _, _ => .next s

/-- The line of its core that serves a load of a path (R168). -/
def State.hitLine (s : State) (core : Nat) (path : Path) (p : Place) : Option Line :=
  match path with
  | .cached => (s.core core).line false p.tgt p.pa
  | .konst => (s.core core).line true p.tgt p.pa
  | _ => none

/-- The bytes and poison of an access read at its home or from a line of the core (R161, R168, R312). -/
def State.readPath (s : State) (r : Req) (path : Path) (p : Place) (w : Nat) : State × List Byte × Bool :=
  let home := (s.readHome p.tgt p.pa w, s.badMem p.tgt p.pa w)
  let core := s.core r.core
  let fromLine := fun (l : Line) =>
    ((List.range w).map fun i => l.data.getD (p.pa % 128 + i) 0,
      (granules (p.pa % 128) w).any l.bad.contains)
  match path with
  | .cached =>
    if p.tgt == 1 then (s, home)
    else match core.line false p.tgt p.pa with
      | some l => (s, fromLine l)
      | none => (s.fillLine r.core false p, home)
  | .konst =>
    if p.tgt == 1 then (s, home)
    else match core.line true p.tgt p.pa with
      | some l => (s, fromLine l)
      -- a line of the location that loads filled may be older than what is read now (Coh)
      | none => ((s.dropLines r.core p.tgt p.pa w).fillLine r.core true p, home)
  | .l2 =>
    if p.tgt != 1 && (core.line false p.tgt p.pa).isSome then (s.fillLine r.core false p, home)
    else (s.dropLines r.core p.tgt p.pa w, home)
  | .direct =>
    -- a stale line of the location is evicted, so that no later load returns an older value (R169)
    (s.dropLines r.core p.tgt p.pa w, home)
  | .phys =>
    if capBase ≤ p.pa then (s, (List.range w).map fun i => s.capByte none (p.pa - capBase + i), false)
    else (s, home)
  | .scr => (s, home)

/-- GLOBAL_ACCESS_PERFORM (R312): the access is performed at its home. -/
def execGlobalAccessPerform (r : Nat) (s : State) : Out :=
  match s.req r with
  | none => .next s
  | some q0 =>
    let s0 := s.settleFences q0.grp
    match q0.place with
    | none => .next s0
    | some p =>
      if q0.act.isScr || !s0.canPerform q0 then .next s0
      else
        -- a load that a line of the core serves does not leave it
        let served := match q0.act with | .load path _ _ => (s0.hitLine q0.core path p).isSome | _ => false
        if s0.peerDown p && !served then
          -- loads return poisoned data, stores are discarded (R349); an atomic is taken as both, what it returns poisoned
          -- and its store discarded (DESIGN CHOICE, log 104)
          match q0.act, q0.pid with
          | .load _ w sx, some pid => .next (s0.answer q0 (loadRets q0 pid w sx (List.replicate w 0) true))
          | .atomic _ _ ty _ _, some pid => .next (s0.answer q0 (atomicRets q0 pid ty 0 true))
          | _, _ => .next (s0.dropReq q0.id)
        else if !s0.mayReach q0 p || peerRefuses p then
          -- the second check of R347, or a peer's refusal (R349)
          let s1 := if q0.act.isLoad then s0.cancelLane q0 else s0.answer q0 []
          match s0.handleOf q0.grp with
          | some h => .next (s1.freezeGroup h 1 q0)
          | none => .next s1
        else
          match q0.act with
          | .load path w sx =>
            let (s1, bs, ue) := (if served then s0 else s0.sendPeer p.tgt p.pa (.read w) []).readPath q0 path p w
            match q0.pid with
            | some pid => .next (s1.answer q0 (loadRets q0 pid w sx (s0.overlay q0 bs) ue))
            | none => .next (s1.dropReq q0.id)
          | .store path w d =>
            let bs := leBytes w d
            let s1 := (s0.sendPeer p.tgt p.pa .write bs).writeHome p.tgt p.pa bs false
            let s2 := if q0.off == 1 then s1.clearHome p.tgt (p.pa / 32 * 32) 32 else s1
            let s3 := s2.updateLines q0.core p.tgt p.pa bs (q0.off == 1)
            .next (if path == .direct then s3.putReq { q0 with reply := some [] } else s3.dropReq q0.id)
          | .atomic _ op ty b c =>
            let w := if ty == 3 then 8 else 4
            let m := leNat (s0.readHome p.tgt p.pa w)
            let bs := leBytes w (atomicOp op ty m b c)
            let ue := s0.badMem p.tgt p.pa w
            let s1 := ((s0.sendPeer p.tgt p.pa (.atomic op ty b c) []).writeHome p.tgt p.pa bs false).updateLines q0.core p.tgt p.pa bs false
            .next (s1.answer q0 (match q0.pid with | some pid => atomicRets q0 pid ty m ue | none => []))
          | .prefetch l1 => .next ((if l1 then (s0.sendPeer p.tgt p.pa (.read 128) []).fillLine q0.core false p else s0).dropReq q0.id)
          | _ => .next s0

/-- The returned pieces of a request reach its group (R49). -/
def State.deliver (s : State) (q : Req) : State :=
  let s1 := s.dropReq q.id
  match q.reply with
  | some rs => (s1.modUid q.grp fun g => ({ g with rets := g.rets ++ rs } : Group).pruneRets).settleFences q.grp
  | none => s

/-- LONG_LATENCY_RETURN (R49). A pool's reply to a frozen group waits (R305). -/
def execLongLatencyReturn (g r : Nat) (s : State) : Out :=
  match s.req r with
  | some q =>
    let direct := match q.act with
      | .load p _ _ => p == .direct
      | .store p _ _ => p == .direct
      | _ => false
    let mine := match s.group g with
      | some x => x.uid == q.grp && !(x.frozen && q.act.pool.isSome)
      | none => true
    if q.reply.isSome && !direct && mine then .next (s.deliver q) else .next s
  | none => .next s

/-- DIRECT_PATH_REPLY: the reply or acknowledgement returns (R172). -/
def execDirectPathReply (r : Nat) (s : State) : Out :=
  match s.req r with
  | some q =>
    let direct := match q.act with
      | .load p _ _ => p == .direct
      | .store p _ _ => p == .direct
      | _ => false
    if q.reply.isSome && direct then .next (s.deliver q) else .next s
  | none => .next s

/-! The ordered buffers (R177, R178). -/

/-- The home slice of a device address (R161). -/
def homeCluster (pa : Nat) : Nat := 4 * (pa / 2 ^ 36 % 8) + pa / 2 ^ 12 % 4

/-- Insertion in key order, equal keys in arrival order. -/
def insertKey (xs : List (Nat × Word)) (k : Nat) (v : Word) : List (Nat × Word) :=
  match xs with
  | [] => [(k, v)]
  | (k', v') :: r => if k < k' then (k, v) :: (k', v') :: r else (k', v') :: insertKey r k v

/-- The folded value of a set over the memory's value (R177). -/
def foldSet (o : OSet) (m : Nat) : Nat :=
  let fm := if o.bf then Fmt.bf16 else Fmt.fp32
  o.items.foldl (fun m x =>
    (laneRound fm 0 ((fm.decode m).add false (fm.decode (x.2.toNat % 2 ^ fm.width)))).1) m

/-- Fold(set): one write, and the set is closed. A unit that has gone to another partition takes no write (R347). -/
def State.foldOSet (s : State) (cl : Nat) (o : OSet) : State :=
  let w := if o.bf then 2 else 4
  let m := leNat (s.readHome 0 o.addr w)
  let s1 := if o.part == noPart || s.unitOk o.part ⟨0, o.addr, 0⟩ then s.writeHome 0 o.addr (leBytes w (foldSet o m)) false else s
  let c := s1.cluster cl
  s1.setCluster cl { c with osets := c.osets.filter (·.addr != o.addr) }

/-- Entries a slice's buffer holds. -/
def Cluster.bufferUse (c : Cluster) : Nat :=
  (c.osets.filter fun o => !o.spilled).foldl (fun n o => n + o.items.length) 0
/-- Entries of the slice in all. -/
def Cluster.contributions (c : Cluster) : Nat := c.osets.foldl (fun n o => n + o.items.length) 0

/-- A contribution joins or opens the set of its address (R177). A set of the other type, or that another partition
opened, is folded like one of another count, by the rules of the partition that opened it, and a new one is opened
(DESIGN CHOICE, log 15). -/
def State.contribute (s : State) (part addr : Nat) (bf : Bool) (key : Nat) (v : Word) (n : Nat) : State :=
  let cl := homeCluster addr
  let s1 := match (s.cluster cl).osets.find? (·.addr == addr) with
    | some o => if o.count == n && o.bf == bf && o.part == part then s else s.foldOSet cl o
    | none => s
  let c := s1.cluster cl
  let o := (c.osets.find? (·.addr == addr)).getD ⟨addr, part, bf, n, [], false⟩
  let o1 := { o with items := insertKey o.items key v }
  let s2 := s1.setCluster cl { c with osets := c.osets.filter (·.addr != addr) ++ [o1] }
  if o1.items.length == n then s2.foldOSet cl o1 else s2

/-- The master's unit check at the home has failed: the access is over, and its group frozen (R347). -/
def State.refuse (s : State) (q : Req) : State :=
  match s.handleOf q.grp with
  | some h => (s.dropReq q.id).freezeGroup h 1 q
  | none => s.dropReq q.id

def execAtomoArrival (r : Nat) (s : State) : Out :=
  match s.req r with
  | none => .next s
  | some q =>
    match q.act, q.place with
    | .atomo bf key v n, some p =>
      let c := s.cluster (homeCluster p.pa)
      if s.behindFence q || 4096 ≤ c.bufferUse || 2 ^ 20 + 4096 ≤ c.contributions then .next s
      else if !s.mayReach q p then .next (s.refuse q)
      else .next ((s.contribute q.part p.pa bf key v n).dropReq r)
    | _, _ => .next s

/-- ATOMO_EVICT: at a full buffer the set with the most entries goes to the spill region (R178). -/
def execAtomoEvict (slice : Nat) (s : State) : Out :=
  let c := s.cluster slice
  let inBuf := c.osets.filter fun o => !o.spilled && !o.items.isEmpty
  if c.bufferUse < 4096 then .next s
  else
    let most := inBuf.foldl (fun m o => max m o.items.length) 0
    match inBuf.find? (·.items.length == most) with
    | some o => .next (s.setCluster slice { c with osets := c.osets.map fun x =>
        if x.addr == o.addr then { x with spilled := true } else x })
    | none => .next s

/-- AFLUSH_ARRIVAL: the address's open set is folded as it stands (R179). -/
def execAflushArrival (r : Nat) (s : State) : Out :=
  match s.req r with
  | none => .next s
  | some q =>
    match q.act, q.place with
    | .aflush, some p =>
      if !s.canPerform q then .next s
      else if !s.mayReach q p then .next (s.refuse q)
      else
          let cl := homeCluster p.pa
          let s1 := match (s.cluster cl).osets.find? (·.addr == p.pa) with
            | some o => s.foldOSet cl o
            | none => s
          .next (s1.dropReq r)
    | _, _ => .next s

end Sys2Proof.Machine
end

