-- ==== Sys2Proof/Machine/Layout.lean ====
section
/-! DEFINITION. Tensor layout records, and where a tensor copy writes (R212, R213, R217). -/

namespace Sys2Proof.Machine

/-- A layout record (R212). -/
structure Layout where
  base : Nat
  e : Nat
  nd : Nat
  ext : List Nat
  str : List Nat
  box : List Nat
  bind : Nat
  fill : Nat
  u : Nat
  deriving DecidableEq, Repr

def prod (l : List Nat) : Nat := l.foldl (· * ·) 1
def Layout.size (l : Layout) : Nat := l.e * prod (l.box.take (l.nd + 1))
def Layout.rows (l : Layout) : Nat := prod ((l.box.take (l.nd + 1)).drop 1)
def Layout.rb (l : Layout) : Nat := l.e * l.box.headD 1

/-- SKEW's unit. -/
def skewUnit (k : Nat) : Nat := match k with | 0 => 0 | 1 => 4 | 2 => 8 | _ => 16

/-- The record's 64 bytes for a box at scratchpad offset D; none is LAYOUT (R212). -/
def Layout.parse (raw : List Byte) (d : Nat) : Option Layout :=
  let q := leNat (raw.take 8)
  let wd := fun (o n : Nat) => leNat ((raw.drop o).take n)
  let nd := q / 2 ^ 52 % 8
  let e := 2 ^ (q / 2 ^ 55 % 4)
  let fl := q / 2 ^ 57 % 2
  let boxes := (List.range 5).map fun i => wd (0x2C + i) 1
  let l : Layout :=
    { base := q % 2 ^ 52, e := e, nd := nd, ext := (List.range 5).map fun i => wd (8 + 4 * i) 4,
      str := 0 :: (List.range 4).map fun i => wd (0x1C + 4 * i) 4, box := boxes.map (· + 1),
      bind := wd 0x32 2 % 4096,
      fill := if fl == 0 then 0 else match e with
        | 1 => 0x7F | 2 => 0x7FC0 | 4 => 0x7FC00000 | _ => 0x7FF8000000000000,
      u := skewUnit (q / 2 ^ 58 % 4) }
  if 4 < nd || (boxes.drop (nd + 1)).any (· != 0) || q / 2 ^ 60 != 0 || wd 0x31 1 != 0 ||
      wd 0x32 2 / 4096 != 0 || wd 0x34 12 != 0 || l.base % e != 0 || 524288 < l.size || d % e != 0 ||
      (l.u != 0 && l.rb % l.u != 0) then none
  else some l

/-- The indices j_1 … of a box row (R213). -/
def Layout.index (l : Layout) (row : Nat) : List Nat :=
  (List.range l.nd).map fun i => row / prod ((l.box.drop 1).take i) % l.box.getD (i + 1) 1

/-- Tensor coordinates of an element. -/
def Layout.coord (l : Layout) (cs : List Int) (row j0 : Nat) : List Int :=
  let js := j0 :: l.index row
  (List.range (l.nd + 1)).map fun i => cs.getD i 0 + (js.getD i 0 : Nat)

def Layout.inside (l : Layout) (x : List Int) : Bool :=
  (List.range (l.nd + 1)).all fun i => 0 ≤ x.getD i 0 && x.getD i 0 < (l.ext.getD i 0 : Nat)
def Layout.outside (l : Layout) (cs : List Int) : Bool :=
  (List.range (l.nd + 1)).any fun i =>
    cs.getD i 0 + (l.box.getD i 1 : Nat) ≤ 0 || (l.ext.getD i 0 : Nat) ≤ cs.getD i 0
/-- GAddr of an element inside its tensor. -/
def Layout.gaddr (l : Layout) (x : List Int) : Nat :=
  ((l.base : Int) + (l.e : Nat) * x.getD 0 0 +
    16 * ((List.range (l.nd + 1)).foldl (fun acc i =>
      if i == 0 then acc else acc + x.getD i 0 * (l.str.getD i 0 : Nat)) 0)).toNat
/-- The place of byte y of a box row within the row (R213). -/
def rowPlace (u len row y : Nat) : Nat := if u == 0 then y else (y + u * (row % 16)) % len

/-- The cores of a launch, four of a team (R288). -/
def State.team (s : State) (g : Group) : List Nat :=
  match Store.find s.launches g.launch with | some l => l.cores | none => [g.core]

/-- The blocks a tensor copy writes: the group's own, or those of the mask's team cores (R217). -/
def State.receivers (s : State) (g : Group) (mask : Nat) : List Nat :=
  if mask == 0 then [g.block]
  else ((List.range 4).filter fun k => mask / 2 ^ k % 2 == 1).map fun k =>
    g.launch * 256 + (s.team g).getD k 0

/-- The scratchpad bytes a copy writes, as (block, offset, length): of a tensor copy whose record has yet to be read the
box is unknown, and every byte that one could reach counts (R196, R216, R217). -/
def State.writtenBy (s : State) (op : Op) : List (Nat × Nat × Nat) :=
  match (s.handleOf op.grp).bind s.group with
  | none => []
  | some g =>
    match op.kind with
    | .cpl lanes dir w => if dir == 0 || dir == 2 then lanes.map fun x => (g.block, x.1, w) else []
    | .cpt _ dst _ _ st mask =>
      let n := match Layout.parse (op.scratch.map (BitVec.ofNat 8)) dst with
        | some l => if op.started then l.size else 524288
        | none => 524288
      if st then [] else (s.receivers g mask).map fun k => (k, dst, n)
    | _ => []

end Sys2Proof.Machine
end

