-- ==== Sys2Proof/Machine/Scratch.lean ====
section
/-! DEFINITION. The scratchpad: bank map and placement, darkening, lane accesses and their losses, the
allocation instructions and the loss handler's return (R187 to R201). -/

namespace Sys2Proof.Machine

/-! Allocations of a block. -/

def Block.setAlloc (b : Block) (a : Alloc) : Block :=
  { b with allocs := b.allocs.map fun x => if x.base == a.base then a else x }

/-- Every byte of a range lies in allocations lanes may name. -/
def Block.rangeOk (b : Block) (off n : Nat) : Bool :=
  n == 0 || (off + n ≤ 2097152 &&
    ((List.range ((off + n - 1) / 1024 - off / 1024 + 1)).all fun i =>
      (b.laneAlloc (max off ((off / 1024 + i) * 1024))).isSome))

/-! The validity watch (R266 to R268). -/

/-- The cause word of R268. -/
def causeWord (cause h off : Nat) : Nat :=
  cause * 2 ^ 28 + h * 2 ^ 24 + (if 9 ≤ cause && cause ≤ 11 then 2 ^ 21 else 0) + off % 2 ^ 21

/-- The lowest offset of a write's parts that lies in a range (R268). -/
def lowestIn (lo len : Nat) (parts : List (Nat × Nat)) (dflt : Nat) : Nat :=
  parts.foldl (fun m p => if overlap p.1 p.2 lo len then min m (max p.1 lo) else m) dflt

/-- A write of n bytes at an offset invalidates the tables whose watch it meets; held writes of the arming
group that precede the TBUILD are exempt (R265). `parts` are the other bytes of the same write. -/
def Block.watch (b : Block) (off n cause : Nat) (by_ : Option (Nat × Nat)) (parts : List (Nat × Nat)) : Block :=
  { b with tbs := b.tbs.map fun (id, t) =>
      let ex := match by_ with | some (u, r) => u == t.armUid && r < t.armId | none => false
      if t.armed && n != 0 && overlap off n t.lo (t.hi + 1 - t.lo) && !ex then
        (id, { t with valid := false,
                      cause := if t.cause == 0 then
                          causeWord cause t.h (lowestIn t.lo (t.hi + 1 - t.lo) parts (max off t.lo)) else t.cause })
      else (id, t) }

/-- A table's spill allocation is lost (R259). -/
def Block.spillLost (b : Block) (st base : Nat) : Block :=
  { b with
    tbs := b.tbs.map fun (x : Nat × Tbl) =>
      if x.2.st == st && x.2.spill == some base then
        (x.1, { x.2 with lost := true, cause := causeWord 9 x.2.h base })
      else x,
    tbe := (b.modTbe st fun d => { d with dark := NSet.insert d.dark base }).tbe }

/-! Banks and placement (R189, R190). -/

/-- A lit bank: index, free rows ascending, rank (none: no row held). -/
structure Bank where
  idx : Nat
  free : List Nat
  rank : Option Nat
  deriving DecidableEq, Repr

/-- Rows held on a core, with their ranks. -/
def State.rowsHeld (s : State) (core : Nat) : List (Nat × Nat × Nat) :=
  ((s.blocks.filter fun x => x.2.core == core).map fun x =>
    (x.2.allocs.map fun a => a.rows.map fun r => (r.1, r.2, a.rank)).flatten).flatten

/-- The lit banks of a core. -/
def State.banks (s : State) (core : Nat) : List Bank :=
  let held := s.rowsHeld core
  (List.range 48).filterMap fun i =>
    if (s.core core).lit.contains i then
      let mine := held.filter fun r => r.1 == i
      some ⟨i, (List.range 32).filter fun k => !(mine.any fun r => r.2.1 == k),
        mine.foldl (fun m r => match m with | none => some r.2.2 | some k => some (max k r.2.2)) none⟩
    else none

/-- The bank of the next granule of an allocation of rank r (R190). Banks are listed in ascending order. -/
def chooseBank (r : Nat) (bs : List Bank) : Option Bank :=
  let free := bs.filter fun b => !b.free.isEmpty
  let anchor := (free.filter fun b => b.idx < 4).head?
  let dark := free.filter fun b => 4 ≤ b.idx
  if r == 0 then anchor
  else
    let same := (dark.filter fun b => b.rank == some r).getLast?
    let empty := dark.filter fun b => b.rank.isNone
    let e := if r ≤ 3 then empty.getLast? else empty.head?
    let above := (dark.filter fun b => match b.rank with | some k => r < k | none => false).head?
    let below := (dark.filter fun b => match b.rank with | some k => k < r | none => false).getLast?
    same <|> e <|> above <|> below <|> anchor

/-- Rows for n granules of rank r; none when rows run out. -/
def placeRows (n r : Nat) (bs : List Bank) : Option (List (Nat × Nat)) :=
  match n with
  | 0 => some []
  | n + 1 =>
    match chooseBank r bs with
    | none => none
    | some b =>
      match b.free with
      | [] => none
      | row :: rest =>
        let bs1 := bs.map fun x =>
          if x.idx == b.idx then
            { x with free := rest, rank := match x.rank with | none => some r | some k => some (max k r) }
          else x
        (placeRows n r bs1).map ((b.idx, row) :: ·)

/-- Free rows of lit banks, and of anchor banks. -/
def freeRows (bs : List Bank) : Nat := bs.foldl (fun n b => n + b.free.length) 0
def freeAnchors (bs : List Bank) : Nat := freeRows (bs.filter fun b => b.idx < 4)

/-- The lowest base of a free range of k granules (R195). -/
def Block.freeBase (b : Block) (k : Nat) : Option Nat :=
  (List.range (2048 - k + 1)).find? (fun i =>
    !(b.allocs.any fun a => overlap (1024 * i) (1024 * k) a.base (1024 * a.granules))) |>.map (1024 * ·)

/-- A new allocation, its bytes 0. Allocations are kept in the order of their offsets. -/
def Block.addAlloc (b : Block) (aid base k rank : Nat) (handler : Pc) (rows : List (Nat × Nat))
    (spill : Option Nat) (zeroed : Option (Nat × Nat)) : Block :=
  { b with allocs := b.allocs.filter (·.base < base) ++
      { aid := aid, base := base, granules := k, rank := rank, state := .live, handler := handler, rows := rows,
        donePend := none, zeroed := zeroed, spill := spill } :: b.allocs.filter (base < ·.base) }

/-! Lane accesses: issue. -/

/-- Scratchpad faults of accesses decided at issue (R166, R185). -/
def State.scrFates (s : State) (g : Group) (ps : List Piece) : List Fate :=
  ps.filterMap fun p =>
    let ok := match s.blockOf g with | some b => b.rangeOk p.va p.w | none => false
    if ok then none else some (.trap 4 4 (BitVec.ofNat 32 (p.lane % 32)) p.va)

def execLds (m : VMem) (s : State) : Out :=
  issue s fun s g c =>
    let lanes := g.arch.lanes c.gang m.p
    let ps := g.arch.pieces m false lanes
    match pickFate (g.arch.vmemFates m false false lanes ++ s.scrFates g ps) with
    | some f => .error f
    | none => .ok (s.issueLoads g c .vec m.r.toNat (m.sz == 5) ps [] (fun p => .load .scr p.w m.sx) (fun _ => true))

def execSts (m : VMem) (s : State) : Out :=
  issue s fun s g c =>
    let lanes := g.arch.lanes c.gang m.p
    let ps := g.arch.pieces m false lanes
    match pickFate (g.arch.vmemFates m false true lanes ++ s.scrFates g ps) with
    | some f => .error f
    | none => .ok (s.holdReqs g c (mkReqs g c s.nextId none ps [] (fun p => .store .scr p.w p.data) true))

def execSlds (m : UMem) (s : State) : Out :=
  issue s fun s g c =>
    let ps := g.arch.uPieces m false
    match pickFate (g.arch.umemFates m false false ++ s.scrFates g ps) with
    | some f => .error f
    | none => .ok (s.issueLoads g c .uni m.r.toNat false ps [] (fun p => .load .scr p.w m.sx) (uKeep m.r.toNat))

def execSsts (m : UMem) (s : State) : Out :=
  issue s fun s g c =>
    let ps := g.arch.uPieces m false
    match pickFate (g.arch.umemFates m false true ++ s.scrFates g ps) with
    | some f => .error f
    | none => .ok (s.holdReqs g c (mkReqs g c s.nextId none ps [] (fun p => .store .scr p.w p.data) true))

def execAtoms (o : Atomic) (s : State) : Out :=
  issue s fun s g c =>
    let lanes := g.arch.lanes c.gang o.p
    let ps := g.arch.atomicPieces o false lanes
    match pickFate (litFates (atomicLitOk o false g.vregs) ++ g.arch.atomicFates o false lanes ++ s.scrFates g ps) with
    | some f => .error f
    | none => .ok (s.issueAtomic g c o true ps [])

/-! Lane accesses: arrival at a bank (R192, R193). -/

/-- The copy writes into the allocation of block `k`. -/
def State.copies (s : State) (k : Nat) (a : Alloc) (op : Op) : Bool :=
  (s.writtenBy op).any fun x => x.1 == k && overlap x.2.1 x.2.2 a.base (1024 * a.granules)

/-- An earlier write or copy of a group into an allocation of block `k` has not been performed: it is on its way or still
held. -/
def State.writing (s : State) (uid id k : Nat) (a : Alloc) : Bool :=
  let write := fun (q : Req) => q.grp == uid && q.id < id && q.act.isScr && q.open && !q.act.isLoad && a.covers q.va
  s.reqs.any write || (s.ops.any fun op => op.grp == uid && op.id < id && s.copies k a op) ||
  s.groups.any fun x => x.2.uid == uid && x.2.heldReqs.any fun q =>
    write q || (q.id < id && match q.submission with | some op => s.copies k a op | none => false)

/-- SRESTORE.DONE takes its effect once the group's earlier writes and copies into the allocation are
performed (R196), at its issue if they are (R356). -/
def State.settleAlloc (s : State) (k : Nat) (a : Alloc) : Alloc :=
  match a.donePend, a.state with
  | some id, .rebuilding uid => if s.writing uid id k a then a else { a with state := .live, donePend := none }
  | _, _ => a
def State.settleDone (s : State) : State :=
  { s with blocks := s.blocks.map fun (k, b) =>
      (k, { b with allocs := b.allocs.map (s.settleAlloc k) }) }

/-- A store or ATOMS that meets a loss or no allocation: discarded, the fault deferred (R193). -/
def State.discard (s : State) (q : Req) (cls obj : Nat) (handler : Pc) : State :=
  let d : Deferred := ⟨q.clause, q.word, cls, if cls == 4 then 4 else 0, obj, q.ea, q.lane, handler, q.gang, q.pid, none⟩
  let s1 := match q.act, q.pid with
    | .atomic _ _ ty _ _, some pid =>
      s.putReq { q with reply := some ((if ty == 3 then [0, 1] else [0]).map fun o => ⟨pid, q.lane, o, none, 0, false⟩) }
    | _, _ => s.dropReq q.id
  s1.defer q.grp d

/-- The bytes of the instruction a request belongs to, among these requests of its group (R268). -/
def Req.parts (q : Req) (rs : List Req) : List (Nat × Nat) :=
  (rs.filter fun r => r.clause == q.clause && r.word == q.word && r.act.isScr && r.lost.isNone).map
    fun r => (r.va, r.act.width)

/-- The access is performed on the rows of its allocation. A store or ATOMS that comes before the zeros of its group's
SALLOC or SRESTORE changes nothing, and what that ATOMS returns the spec leaves open (R308; DESIGN CHOICE, log 74). -/
def State.scrPerform (s : State) (q : Req) (k : Nat) (b : Block) : State :=
  if s.superseded q && !q.act.isLoad then
    match q.act, q.pid with
    | .atomic _ _ ty _ _, some pid =>
      (({ s with draws := s.draws + 1 } : State).answer q (atomicRets q pid ty (Config.anyNat s.draws) false)).settleDone
    | _, _ => (s.dropReq q.id).settleDone
  else match q.act with
  | .load _ w sx =>
    let ue := (granules q.va w).any b.scrPoison.contains
    match q.pid with
    | some pid => s.answer q (loadRets q pid w sx (s.overlay q (b.scr.readN q.va w)) ue)
    | none => s.dropReq q.id
  | .store _ w d =>
    let b1 := { b with
      scr := b.scr.writeN q.va (leBytes w d),
      scrPoison := if q.off == 1 then b.scrPoison.erase (q.va / 32) else b.scrPoison }
    ((s.setBlock k (b1.watch q.va w 2 (some (q.grp, q.id)) (q.parts (s.reqsOf q.grp)))).dropReq q.id).settleDone
  | .atomic _ op ty bv cv =>
    let w := if ty == 3 then 8 else 4
    let m := leNat (b.scr.readN q.va w)
    let ue := (granules q.va w).any b.scrPoison.contains
    let b1 := { b with scr := b.scr.writeN q.va (leBytes w (atomicOp op ty m bv cv)) }
    let s1 := s.setBlock k (b1.watch q.va w 3 (some (q.grp, q.id)) (q.parts (s.reqsOf q.grp)))
    (s1.answer q (match q.pid with | some pid => atomicRets q pid ty m ue | none => [])).settleDone
  | _ => s

def execScratchpadArrival (r : Nat) (s : State) : Out :=
  match s.req r with
  | none => .next s
  | some q =>
    let s0 := s.settleFences q.grp
    if !q.act.isScr || q.lost.isSome || !s0.canPerform q then .next s0
    else
      match s0.handleOf q.grp with
      | none => .next (s0.dropReq r)
      | some h =>
        match s0.group h with
        | none => .next s0
        | some g =>
          match Store.find s0.blocks g.block with
          | none => .next (s0.dropReq r)
          | some b =>
            let lose := fun (cls obj : Nat) (handler : Pc) =>
              if q.act.isLoad then
                if g.canUndo q.id then s0.putReq { q with lost := some (cls, obj, handler) }
                else
                  -- a load held back by an earlier ATOMS until its clause retired (DEDUCED, log 17)
                  (s0.cancelLane q).defer q.grp ⟨q.clause, q.word, cls, if cls == 4 then 4 else 0, obj, q.ea, q.lane, handler, q.gang, none, none⟩
              else s0.discard q cls obj handler
            match b.laneAlloc q.va with
            | none => .next (lose 4 0 0)
            | some a =>
              -- a load that comes before the zeros met the allocation while it was LOST (R308)
              if a.serves g.uid && !(q.act.isLoad && a.before q.grp q.id) then .next (s0.scrPerform q g.block b)
              else .next (lose 6 a.base a.handler)

/-- LOST_LOAD_SIGNAL (R59): the group goes back to the clause of the oldest lost load and meets the fault
there; the lowest class, then the lowest lane decides (R185, R193). Traps of later clauses go with them (R104); a
group that is held, or will be for what no rollback takes back, raises nothing more (R318). This rollback is not counted
in %strikes (DESIGN CHOICE, log 87). -/
def execLostLoadSignal (h : Nat) (s : State) : Out :=
  match s.group h with
  | none => .next s
  | some g =>
    let lost := s.reqs.filter fun q => q.grp == g.uid && q.lost.isSome
    match lost.find? fun q => lost.all fun x => q.id ≤ x.id with
    | none => .next s
    | some q0 =>
      let mine := lost.filter (·.pid == q0.pid)
      let waits := s.reqs.any fun q => q.grp == g.uid && q.pid == q0.pid && q.open && q.lost.isNone
      if waits then .next s
      else
        let key := fun (q : Req) => (match q.lost with | some x => x.1 | none => 9) * 64 + q.lane
        match mine.find? fun q => mine.all fun x => key q ≤ key x with
        | none => .next s
        | some q =>
          let s1 := s.undoFrom h g.cancelTrap q.id
          match s1.group h with
          | none => .next s1
          | some g1 =>
            if g1.raised then .next ((s1.putGroup h (g1.moveTrap g1.restartPc)).settleTrap h)
            else match q.lost with
            | some (6, base, handler) =>
              .next ((s1.enterHandler h g1 q.gang q.hdr q.word 6 handler base q.ea 0).settleTrap h)
            | _ =>
              .next ((s1.putGroup h { g1 with
                hold := .trapping ⟨4, 4, q.word, BitVec.ofNat 32 (q.lane % 32), q.ea, q.hdr, false⟩ }).settleTrap h)

/-! Darkening and relighting (R191, R192). -/

/-- The bank that darkens next: lowest rank, then highest index. -/
def State.darkest (s : State) (core : Nat) : Option Bank :=
  let bs := (s.banks core).filter fun b => 4 ≤ b.idx
  let key := fun (b : Bank) => match b.rank with | none => 0 | some k => k + 1
  (bs.filter fun b => bs.all fun x => key b ≤ key x).getLast?

/-- The allocations with a row in a bank are LOST at the loss point. -/
def Block.darken (b : Block) (bank : Nat) : Block :=
  (b.allocs.filter fun a => a.rows.any fun r => r.1 == bank).foldl (fun b a =>
    let b1 := { b.loseAlloc a.base with lostCount := b.lostCount + 1 }
    match a.spill with | some h => b1.spillLost h a.base | none => b1) b

def execBankDarken (core : Nat) (s : State) : Out :=
  let c := s.core core
  if c.lit.length ≤ c.target then .next s
  else
    match s.darkest core with
    | none => .next s
    | some b =>
      let s1 := { s with blocks := s.blocks.map fun (x : Nat × Block) =>
        (x.1, if x.2.core == core then x.2.darken b.idx else x.2) }
      .next (s1.setCore core { c with lit := c.lit.filter (· != b.idx) })

def execBankRelight (core : Nat) (s : State) : Out :=
  let c := s.core core
  if c.target ≤ c.lit.length then .next s
  else
    match (List.range 48).find? fun i => !c.lit.contains i with
    | none => .next s
    | some i => .next (s.setCore core { c with lit := NSet.insert c.lit i })

/-- T lies from 4 to 48 (R191). -/
def clampTarget (t : Nat) : Nat := min (max t 4) 48
/-- The power controller sets T; where privileged code holds it, only a throttled or cooling cluster lowers
it (R201). Once that is over, T stays where it is until CWWR sets it or HOLD ends (DESIGN CHOICE, log 75). -/
def State.setTarget (s : State) (core t : Nat) : State :=
  let c := s.core core
  let cl := s.cluster (clusterOf core)
  if !c.hold then s.setCore core { c with target := clampTarget t }
  else if cl.throt || cl.cool then s.setCore core { c with target := min c.target (clampTarget t) }
  else s
/-- LIT_TARGET_CHANGE. -/
def execLitTargetChange (core t : Nat) (s : State) : Out :=
  if core < Config.cores then .next (s.setTarget core t) else .next s

/-! The allocation instructions (R194 to R199). -/

/-- A uniform status form: poisoned sources are consumed, then the block is read. -/
def blockForm (s : State) (srcs : List Nat)
    (f : State → Group → Cur → Block → Except Fate (State × Group)) : Out :=
  issue s fun s g c =>
    if g.arch.badUs srcs then .error (poisoned noLane)
    else
      match s.blockOf g with
      | some b => f s g c b
      | none => .error illegal

def Group.setS (g : Group) (r : Nat) (x : Nat) : Group := { g with arch := g.arch.writeS r (BitVec.ofNat 32 x) }
def Group.modCur (g : Group) (f : Cur → Cur) : Group := { g with cur := g.cur.map f }

def execSalloc (rank : BitVec 3) (sa sd : BitVec 6) (lit : Word) (s : State) : Out :=
  blockForm s [sa.toNat] fun s g c b =>
    let n := (g.arch.readS sa.toNat).toNat
    let k := n / 1024
    let bs := s.banks g.core
    let r := rank.toNat
    if n == 0 || n % 1024 != 0 || 1572864 < n then .ok (s, g.setS sd.toNat 0x80000004)
    else
      match (if 64 ≤ b.allocs.length then none else b.freeBase k) with
      | none => .ok (s, g.setS sd.toNat 0x80000003)
      | some base =>
        if r == 0 && freeAnchors bs < k then .ok (s, g.setS sd.toNat 0x80000002)
        else
          match (if freeRows bs < k then none else placeRows k r bs) with
          | none => .ok (s, g.setS sd.toNat 0x80000001)
          | some rows =>
            let aid := s.nextId
            .ok (({ s with nextId := aid + 1 } : State).setBlock g.block
                (b.addAlloc aid base k r (target c.hdr lit.toNat 32) rows none (some (g.uid, aid))),
              (g.setS sd.toNat base).modCur fun c => c.takesBack aid [.alloc g.block aid])

/-- SFREE releases at retirement (R196). -/
def execSfree (sa : BitVec 6) (s : State) : Out :=
  blockForm s [sa.toNat] fun s g c b =>
    let off := (g.arch.readS sa.toNat).toNat
    match b.allocAt off with
    | none => .error (.trap 4 4 noLane off)
    | some a =>
      .ok ({ s with nextId := s.nextId + 1 },
        { g with cur := some (c.hold (mkReq g c s.nextId (.sfree a.aid))) })

/-- SRESTORE (R196). Its zeros are held like a store: the watches see them when the clause retires (R58, R266). -/
def execSrestore (sa sd : BitVec 6) (s : State) : Out :=
  blockForm s [sa.toNat] fun s g c b =>
    match b.allocAt (g.arch.readS sa.toNat).toNat with
    | none => .ok (s, g.setS sd.toNat 4)
    | some a =>
      match a.state with
      | .live => .ok (s, g.setS sd.toNat 2)
      | .rebuilding o => .ok (s, g.setS sd.toNat (if o == g.uid then 2 else 1))
      | .lost =>
        match placeRows a.granules a.rank (s.banks g.core) with
        | none => .ok (s, g.setS sd.toNat 3)
        | some rows =>
          let id := s.nextId
          let b1 := b.setAlloc { a with
            state := .rebuilding g.uid, rows := rows, donePend := none, zeroed := some (g.uid, id) }
          .ok (({ s with nextId := id + 1 } : State).setBlock g.block b1,
            { g.setS sd.toNat 0 with cur := some ((c.hold
                { mkReq g c id (.szero (1024 * a.granules)) with va := a.base }).takesBack id [.restore g.block id]) })

/-- SRESTORE.DONE (R196). Once one has been accepted a second changes nothing: the first takes effect no later. -/
def execSrestoreDone (sa sd : BitVec 6) (s : State) : Out :=
  blockForm s [sa.toNat] fun s g c b =>
    match b.allocAt (g.arch.readS sa.toNat).toNat with
    | none => .ok (s, g.setS sd.toNat 4)
    | some a =>
      if a.state == .rebuilding g.uid && a.donePend.isSome then .ok (s, g.setS sd.toNat 0)
      else if a.state == .rebuilding g.uid then
        let a1 := s.settleAlloc g.block { a with donePend := some s.nextId }
        .ok ({ s with nextId := s.nextId + 1 }.setBlock g.block (b.setAlloc a1),
          ({ g with cur := some (c.takesBack s.nextId [.done g.block a.aid g.uid]) } : Group).setS sd.toNat 0)
      else .ok (s, g.setS sd.toNat 5)

def execSrank (rank : BitVec 3) (sa sd : BitVec 6) (s : State) : Out :=
  blockForm s [sa.toNat] fun s g c b =>
    match b.allocAt (g.arch.readS sa.toNat).toNat with
    | none => .ok (s, g.setS sd.toNat 4)
    | some a =>
      if rank == 0 && a.rows.any (fun r => 4 ≤ r.1) then .ok (s, g.setS sd.toNat 1)
      else
        .ok ({ s with nextId := s.nextId + 1 },
          ({ g with cur := some (c.hold (mkReq g c s.nextId (.srank a.aid rank.toNat))) } : Group).setS sd.toNat 0)

/-- The word of R197. -/
def queryWord (a : Option Alloc) (uid : Nat) : Nat :=
  match a with
  | none => 3 * 2 ^ 30
  | some a =>
    (match a.state with | .live => 0 | .lost => 1 | .rebuilding _ => 2) * 2 ^ 30 + a.rank * 2 ^ 27 +
    (if a.state == .rebuilding uid then 2 ^ 26 else 0) + a.granules * 2 ^ 11 + a.base / 1024

def execSquery (sa sd : BitVec 6) (s : State) : Out :=
  blockForm s [sa.toNat] fun s g _ b =>
    .ok (s, g.setS sd.toNat (queryWord (b.allocAt (g.arch.readS sa.toNat).toNat) g.uid))

def execSqueryCnt (sd : BitVec 6) (s : State) : Out :=
  blockForm s [] fun s g _ b => .ok (s, g.setS sd.toNat b.lostCount.toNat)

/-- LHRET: a commit point, then the return (R199). -/
def execLhret (s : State) : Out :=
  issue s fun s g _ =>
    if g.arch.lhret.isEmpty then .error illegal
    else .ok (s, g.modCur fun c => { c with commit := true, lhret := true })

/-! Effects at retirement. -/

/-- The zeros of SRESTORE as the watches see them (R266). -/
def State.applyZero (s : State) (k : Nat) (q : Req) : State :=
  s.modBlock k fun b => b.watch q.va q.act.width 7 (some (q.grp, q.id)) []
/-- SFREE and SRANK when their clause retires. -/
def State.applyFree (s : State) (k aid : Nat) : State :=
  s.modBlock k fun b =>
    match b.allocs.find? (·.aid == aid) with
    | some a =>
      let b1 := (b.watch a.base (1024 * a.granules) 7 none []).freeAlloc a.base
      match a.spill with | some st => b1.spillLost st a.base | none => b1
    | none => b
def State.applyRank (s : State) (k aid rank : Nat) : State :=
  s.modBlock k fun b => { b with allocs := b.allocs.map fun a => if a.aid == aid then { a with rank := rank } else a }

end Sys2Proof.Machine
end

