-- ==== Sys2Proof/Machine/Clause.lean ====
section
/-! DEFINITION. Clauses: fetch, decode with every check of R47 and R71 and those of the chapters, the waits
at a header, issue, completion, commit points and retirement (R46 to R60, R85, R86, R89, R204, R205, R225). -/

namespace Sys2Proof.Machine

/-! What decode asks of an instruction. -/

def vuTop (d a : BitVec 7) : Nat := max d.toNat a.toNat + 1
def vvTop (o : VV) : Nat :=
  max (vuTop o.d o.a) (max (if isBU o.ext then 0 else o.b.toNat) (srcC o.d o.ext).toNat + 1)
def vpTop (o : VP) : Nat := max o.a.toNat (if isBU o.ext then 0 else o.b.toNat) + 1
def vmemTop (m : VMem) : Nat := max m.r.toNat (if m.ub then 0 else m.a.toNat) + 1

/-- One more than the highest vector register the word names, 0 for none (R74). Pairs and quads begin at
multiples of their length, and allocations are multiples of 8, so their first register decides. -/
def vecTop (i : Instr) : Nat :=
  match i with
  | .vadd o | .vsub o | .vadds o | .vsubs o | .vmul o | .vmulh o | .vmad o | .vmadw o | .vmin o | .vmax o
  | .vand o | .vor o | .vxor o | .vshl o | .vshr o | .vsra o | .vrot o | .vbfe o | .vbfi o | .vsel o
  | .vdot4 o | .vlea o | .vfadd o | .vfsub o | .vfmul o | .vfma o | .vfmin o | .vfmax o | .vfscale o =>
    vvTop o
  | .vcmp o | .vfcmp o => vpTop o
  | .vbcst o | .vmovSpecial o => o.d.toNat + 1
  | .vmov o | .vlane o | .vabs o | .vneg o | .vnot o | .vclz o | .vpopc o | .vfabs o | .vfneg o
  | .vfclass o | .vfrint o | .vffrac o | .vfrcp o | .vfrsq o | .vfsqrt o | .vfexp2 o | .vflog2 o
  | .vfsin o | .vfcos o | .vfcvt o _ _ | .vicvt o _ _ _ | .vqnt o _ _ | .vdqnt o _ _ | .vbandr o
  | .vbandw o | .vred o _ | .vscan o _ _ | .vmatch o => vuTop o.d o.a
  | .vshfl o _ _ => max (vuTop o.d o.a) ((o.ext.map fun e => e.c.toNat + 1).getD 0)
  | .vvote o mode => if mode == 3 then o.d.toNat + 1 else 0
  | .lds m | .sts m | .ldg m | .stg m | .ldd m | .std m | .ldc m => vmemTop m
  | .prfg _ a ub _ _ => if ub then 0 else a.toNat + 1
  | .atoms o | .atomg o => o.d.toNat + 1
  | .cpl _ d a _ _ _ => vuTop d a
  | _ => 0

/-- A long-latency instruction that leaves a result uncommitted (R49, R52). -/
def isLong (i : Instr) : Bool :=
  match i with
  | .lds _ | .slds _ | .ldg _ | .sldg _ | .ldd _ | .ldc _ => true
  | .atoms o | .atomg o => !atNr o.lit
  | .vfrcp _ | .vfrsq _ | .vfsqrt _ | .vfexp2 _ | .vflog2 _ | .vfsin _ | .vfcos _ => true
  | .vred _ _ | .vscan _ _ _ | .vshfl _ _ _ | .vvote _ _ | .vmatch _ => true
  | .plpush _ _ _ _ _ | .plpop _ _ _ | .plstat _ _ _ => true
  | _ => false

/-- The timeline on which the instruction adds an entry (R202, R205, R240, R261, R292). -/
def entryOf (i : Instr) : Option Nat :=
  match i with
  | .cpl _ _ _ _ _ cl => some (if cl then 2 else 0)
  | .cptLd o | .cptSt o => some (if o.cl then 2 else 0)
  | .cpm _ _ => some 0
  | .cpr _ _ _ | .lnch _ _ => some 2
  | .tclose _ tl => some tl.toNat
  | .acalloc _ _ _ _ | .acfree _ | .acz _ | .acadd _ _ | .acld _ | .acst _ | .mma _ | .mmaT _ | .mmas _
  | .tbfree _ | .tbuildBp _ _ _ | .tbuildCb _ _ _ _ | .lmma _ | .tbspill _ _ _ | .tbfill _ _ _ => some 1
  | _ => none

/-- A handler context may not issue it (R315); ENG clauses are barred by their class. -/
def contextBars (i : Instr) : Bool :=
  match i with
  | .lds _ | .sts _ | .slds _ | .ssts _ | .atoms _ | .spawn _ _ _ _ | .mcall _ _ _ | .sysc _
  | .bara _ | .barw _ | .baraw _ | .barq _ | .barcfg _ => true
  | _ => false

/-- A word of the macro window may not be one of these (R103). -/
def macroBars (i : Instr) : Bool :=
  match i with
  | .call _ | .mcall _ _ _ | .spawn _ _ _ _ | .brx _ => true
  | _ => false

/-- No word may follow it in its clause (R199, R225, R320). -/
def closes (i : Instr) : Bool :=
  match i with
  | .barw _ | .baraw _ | .lhret | .tret | .tretHold | .tretEnd => true
  | _ => false

/-- The barrier an arrival names. -/
def arrivalOf (i : Instr) : Option (Nat × Nat) :=
  match i with
  | .bara o | .baraw o => some (o.sc.toNat, o.idx.toNat)
  | _ => none

/-- Primaries 0x7C to 0x7E. -/
def privileged (w : Nat) : Bool := 0x7C ≤ opOf w && opOf w ≤ 0x7E

/-! The decode of a clause (R47, R71). -/

/-- Header fields (R46). -/
def hdrN (h : Nat) : Nat := h % 16
def hdrClass (h : Nat) : Nat := h / 16 % 8
def hdrWait (h tl : Nat) : Bool := h / 2 ^ (7 + tl) % 2 == 1
def hdrSw (h : Nat) : Bool := h / 2 ^ 10 % 2 == 1
def hdrYld (h : Nat) : Bool := h / 2 ^ 11 % 2 == 1
def hdrLit (h i : Nat) : Bool := h / 2 ^ (12 + i) % 2 == 1

/-- Checks 1 to 4 of R47. -/
def headerOk (h : Nat) : Bool :=
  h / 2 ^ 27 == 0b10110 && hdrN h != 0 && hdrClass h < 5 && h / 2 ^ 12 % 2 ^ 15 / 2 ^ hdrN h == 0

/-- Details of class 3 (R317). -/
abbrev detClause : Nat := 1
abbrev detInst : Nat := 2
abbrev detPriv : Nat := 3

/-- What decode must know of the issuing group. -/
structure DecodeFor where
  vregs : Nat
  context : Bool
  /-- the parameters in force in the macro window (R102) -/
  params : Option Params
  deriving DecidableEq, Repr

/-- The words that follow word i with their LIT bits set, at most k. -/
def claim (hd n : Nat) (ws : List Nat) (i k : Nat) : List Nat :=
  match k with
  | 0 => []
  | k + 1 =>
    if i + 1 < n && hdrLit hd (i + 1) then ws.getD (i + 1) 0 :: claim hd n ws (i + 1) k else []

/-- How many words word i calls for: an extension word exactly when the next word is a literal (R64). -/
def calls (hd n : Nat) (w i : Nat) : Nat :=
  if extensible (opOf w) then (if i + 1 < n && hdrLit hd (i + 1) then 1 else 0) else litCount w

/-- The instruction of a word with its own words, parameters substituted; `none` is an illegal
instruction (R71, R77, R102). -/
def wordInstr (d : DecodeFor) (w : Nat) (lits : List Nat) : Option Instr :=
  let r := match d.params with
    | none => some (w, lits)
    | some ps =>
      if extensible (opOf w) then
        match substWord ps w lits.head? with
        | some (w', some x) => some (w', [x])
        | some (w', none) => some (w', [])
        | none => none
      else (substWord ps w none).map fun p => (p.1, lits)
  match r with
  | none => none
  | some (w', l') =>
    match decode w' l' with
    | .ok i =>
      if vecTop i ≤ d.vregs && !(d.params.isSome && macroBars i) && !(d.context && contextBars i) then some i
      else none
    | .error _ => none

/-- A REGANG stands after word 0: the clause holds another word beside it (R97). -/
def lateRegang (hd n : Nat) (ws : List Nat) : Bool :=
  (List.range n).any fun i =>
    0 < i && !hdrLit hd i && opOf (ws.getD i 0) == 0x78 && fld (ws.getD i 0) 18 3 == 2

/-- The word checks, in ascending word order (R47, R71 and the chapters' rules on places). The result is
the instructions with their word indices, or the failing word and its detail. Checks 5 to 7 of R47 look at a macro word
before its parameters are substituted, so that their detail stands where a parameter is unused too (R77, R102; DESIGN
CHOICE, log 94). -/
def decodeWords (d : DecodeFor) (hd n : Nat) (ws : List Nat) (fuel i : Nat) (acc : List (Nat × Instr)) :
    Except (Nat × Nat) (List (Nat × Instr)) :=
  match fuel with
  | 0 => .ok acc.reverse
  | fuel + 1 =>
    if n ≤ i then .ok acc.reverse
    else
      let after := acc.any fun x => closes x.2
      let misplaced := after || (i == 0 && lateRegang hd n ws)
      if hdrLit hd i then
        if misplaced then .error (i, detInst) else decodeWords d hd n ws fuel (i + 1) acc
      else
        let w := ws.getD i 0
        let k := calls hd n w i
        let lits := claim hd n ws i k
        let transfer := isTransfer w
        if unassignedOp (opOf w) then .error (i, detInst)
        else if (!transfer && classOf (opOf w) != hdrClass hd) || (transfer && i + 1 + k < n) ||
            lits.length < k then .error (i, detClause)
        else
          match (if misplaced then none else wordInstr d w lits) with
          | none => .error (i, detInst)
          | some ins =>
            let late := (match ins with | .twait _ _ => !acc.isEmpty | _ => false) ||
              (match ins with
               | .ifence => (List.range n).any fun j => i < j && !hdrLit hd j
               | _ => false) ||
              (match arrivalOf ins with
               | some b => acc.any fun x => arrivalOf x.2 == some b
               | none => false)
            if late then .error (i, detInst)
            else if privileged w && !d.context then .error (i, detPriv)
            else decodeWords d hd n ws fuel (i + 1 + k) ((i, ins) :: acc)

/-! Fetch (R48, R101, R183, R315). -/

/-- The words of a fetch unit, or what is wrong with the fetch. -/
inductive Fetched where
  | words (ws : List Nat)
  | bad (f : Fate)
  deriving DecidableEq, Repr

/-- Does an address lie in the macro window? -/
def inMacro (pc : Nat) : Bool := Config.macroBase ≤ pc

/-- The word of the macro window at an address, as the group fetches it. -/
def Arch.macroWord (a : Arch) (pc : Nat) : Nat := (Store.get a.macros ((pc - Config.macroBase) / 4) 0).toNat

/-- A 64-byte unit of memory at a virtual address, fetched whole and kept until an IFENCE. -/
def State.fetchUnit (s : State) (g : Group) (va : Nat) : State × Fetched :=
  let unit := va / 64
  let c := s.core g.core
  match c.fetch.find? fun u => u.asid == g.asid && u.unit == unit with
  | some u => (s, .words u.words)
  | none =>
    match s.translate g.core g.asid g.part va with
    | (s1, .iso d) => (s1, .bad (.freeze d noLane va))
    | (s1, .replay) | (s1, .target) => (s1, .bad (.page va 8 noLane))
    | (s1, .hit x) =>
      let p := x.place (unit * 64)
      if !x.x then (s1, .bad (.page va 8 noLane))
      else if !s1.unitOk g.part p || peerRefuses p then (s1, .bad (.freeze 1 noLane va))
      -- what a port that is down returns is poisoned (R349)
      else if s1.peerDown p then (s1, .bad (.halt 2 noLane))
      else if s1.badMem p.tgt p.pa 64 then (s1.sendPeer p.tgt p.pa (.read 64) [], .bad (.halt 2 noLane))
      else
        let ws := (List.range 16).map fun i => leNat (s1.readHome p.tgt (p.pa + 4 * i) 4)
        let s1 := s1.sendPeer p.tgt p.pa (.read 64) []
        let c1 := s1.core g.core
        (s1.setCore g.core { c1 with fetch := ⟨g.asid, unit, ws⟩ :: c1.fetch }, .words ws)

/-- A word that a handler context fetches, untranslated (R315; what it may not find there, DESIGN CHOICE, log 15). -/
def State.fetchPhysical (s : State) (pc : Nat) : Fetched :=
  if Config.dramBytes ≤ pc then .bad (.trap 4 1 noLane pc)
  else if s.badMem 0 pc 4 then .bad (.halt 2 noLane)
  else .words [leNat (s.readHome 0 pc 4)]

/-- n words from an address. -/
def State.fetchWords (s : State) (g : Group) (n pc : Nat) : State × Fetched :=
  match n with
  | 0 => (s, .words [])
  | n + 1 =>
    let (s1, r) : State × Fetched :=
      if g.sorrel.isSome then (s, s.fetchPhysical pc)
      else if inMacro pc then (s, .words [g.arch.macroWord pc])
      else
        match s.fetchUnit g pc with
        | (s1, .words ws) => (s1, .words [ws.getD (pc % 64 / 4) 0])
        | (s1, .bad f) => (s1, .bad f)
    match r with
    | .bad f => (s1, .bad f)
    | .words w =>
      match s1.fetchWords g n ((pc + 4) % 2 ^ 52) with
      | (s2, .words ws) => (s2, .words (w ++ ws))
      | (s2, .bad f) => (s2, .bad f)

/-- The innermost CALL token of slice `j`, wherever it stands: in the slice or among its spilled tokens (R96). -/
def Group.innerCall (g : Group) (j : Nat) : Option Token :=
  match g.arch.slices[j]? with
  | none => none
  | some sl =>
    match sl.toks.find? (·.kind == .call) with
    | some t => some t
    | none => (Store.get g.spills j []).reverse.find? (·.kind == .call)

/-- The slot of the microprogram that the three words before a return address call: MCALL and its literals (R102). -/
def mcallSlot (ws : List Nat) : Option Nat :=
  match decode (ws.headD 0) (ws.drop 1) with
  | .ok (.mcall m _ _) => some m.toNat
  | _ => none

/-- The parameters in force for slice `j` at a PC in the macro window: the words before the return address of
the innermost CALL token (R102). A window word reached without one names no parameter. A header outside the
slot that the MCALL before the parameters names was reached past word 31 of the slot (R103); past the last slot
control comes to address 0. -/
def State.paramsAt (s : State) (g : Group) (j pc : Nat) : State × Except Fate (Option Params) :=
  let within := inMacro pc
  if !(within || (pc < 64 && g.arch.lhret.isEmpty)) || g.sorrel.isSome then (s, .ok none)
  else
    match g.innerCall j with
    | none => (s, .ok (if within then some [] else none))
    | some t =>
      match s.fetchWords g 3 ((t.target - 12).toNat) with
      | (s1, .words ws) =>
        let slot := mcallSlot ws
        if within then
          if slot.any fun m => m != (pc - Config.macroBase) / 128 then (s1, .error (.trap 3 detClause noLane 0))
          else (s1, .ok (some (((ws.drop 1).map (leBytes 4)).flatten.map BitVec.toNat)))
        else if slot == some 63 then (s1, .error (.trap 3 detClause noLane 0))
        else (s1, .ok none)
      | (s1, .bad f) => if within then (s1, .error f) else (s, .ok none)

/-! The waits at a header. -/

/-- reached(t) of R54. -/
def reached (c : DWord) (w : Word) : Bool := (c.toNat % 2 ^ 32 + 2 ^ 32 - w.toNat) % 2 ^ 32 < 2 ^ 31
/-- A target beyond the last closed batch (R204). -/
def ahead (l : DWord) (w : Word) : Bool :=
  let d := (w.toNat + 2 ^ 32 - l.toNat % 2 ^ 32) % 2 ^ 32
  0 < d && d < 2 ^ 31

/-- Entries of a timeline that have not completed (R205). -/
def Timeline.pending (t : Timeline) : Nat := (t.entries.filter fun e => e.op.isNone || !e.done).length

/-- What the header and a TWAIT wait for: timeline, register and word index (R54, R204). -/
def waitsOf (hd : Nat) (ins : List (Nat × Instr)) : List (Nat × Nat × Nat) :=
  ((List.range 3).filter (hdrWait hd)).map (fun t => (t, 60 + t, 15)) ++
  ins.filterMap fun x => match x.2 with
    | .twait tl sa => some (tl.toNat, sa.toNat, x.1)
    | _ => none

/-- The result of looking at the next clause of a group. -/
inductive Start where
  | wait
  | fault (word : Nat) (f : Fate)
  /-- a forced commit point comes first (R52) -/
  | commit
  | go (c : Cur)
  deriving DecidableEq, Repr

/-- A fault that waits at the boundary can be delivered: its instruction has committed and no access of its
clause is still under way; it belongs to the sub-gang that issues next (R193, R198). -/
def State.deliverable (s : State) (g : Group) (d : Deferred) : Bool :=
  let gang := g.arch.nextGang.getD []
  gang.any d.gang.contains &&
  (match d.pid with | some p => !(g.arch.pend.any (·.id == p)) | none => true) &&
  !(s.reqs.any fun q => q.grp == g.uid && q.clause == d.clause && q.act.isScr && q.open) &&
  !(g.outq.any fun q => q.clause == d.clause)

/-- The group stands at a clause boundary and may go on (R60, R316). -/
def Group.atBoundary (g : Group) : Bool :=
  g.cur.isNone && g.after.isNone && g.parked.isNone && g.hold == .free && !g.ended && !g.halted && !g.frozen

/-- A scratchpad load that the group issued before is still on its way to its bank, or a pop has not been answered: an
LMMA's sample point, which counts as an arrival, comes after them (R267, R313; DEDUCED, log 71). -/
def State.sampleWaits (s : State) (g : Group) : Bool :=
  (s.reqs ++ s.parkedAt g.uid ++ g.heldReqs).any fun q => q.grp == g.uid && q.open &&
    match q.act with
    | .load p _ _ => p == .scr && q.lost.isNone
    | .plpop .. => true
    | _ => false

/-- The next clause of the group: what it waits for, what is wrong with it, or the clause, decoded. Where slices
of the sub-gang hold different CALL tokens, the lowest slice's give the parameters (DESIGN CHOICE, log 68). -/
def State.nextClause (s : State) (g : Group) : State × Start :=
  match g.arch.nextGang with
  | none => (s, .wait)
  | some gang =>
    match g.arch.slices[gang.headD 0]? with
    | none => (s, .wait)
    | some sl =>
      let pc := sl.pc.toNat
      match s.fetchWords g 1 pc with
      | (s1, .bad f) => (s1, .fault 15 f)
      | (s1, .words hs) =>
        let hd := hs.headD 0
        let n := hdrN hd
        if !headerOk hd then (s1, .fault 15 (.trap 3 detClause noLane 0))
        else if g.sorrel.isSome && hdrClass hd == 2 then (s1, .fault 15 illegal)
        else
          match s1.fetchWords g n ((pc + 4) % 2 ^ 52) with
          | (s2, .bad f) => (s2, .fault 15 f)
          | (s2, .words ws) =>
            match s2.paramsAt g (gang.headD 0) pc with
            | (s3, .error f) => (s3, .fault 15 f)
            | (s3, .ok ps) =>
              match decodeWords ⟨g.vregs, g.sorrel.isSome, ps⟩ hd n ws n 0 [] with
              | .error (w, d) => (s3, .fault w (.trap 3 d noLane 0))
              | .ok ins =>
                let a := g.arch
                let waits := waitsOf hd ins
                match waits.find? fun x => a.badS x.2.1 with
                | some x => (s3, .fault x.2.2 (poisoned noLane))
                | none =>
                  match waits.find? fun x => ahead (a.tl x.1).l (a.readS x.2.1) with
                  | some x => (s3, .fault x.2.2 (.trap 3 4 noLane 0))
                  | none =>
                    if waits.any fun x => !reached (a.tl x.1).c (a.readS x.2.1) then (s3, .wait)
                    else if 32 < a.pend.length + (ins.filter fun x => isLong x.2).length then (s3, .commit)
                    else if ins.any fun x => match arrivalOf x.2 with
                        | some b => Store.get a.bars (barNibble b.1 b.2) 0 % 2 == 1
                        | none => false then (s3, .wait)
                    else if (List.range 3).any fun t =>
                        let k := (ins.filter fun x => entryOf x.2 == some t).length
                        0 < k && 64 < (a.tl t).pending + k then (s3, .wait)
                    else if (ins.any fun x => match x.2 with | .lmma _ => true | _ => false) && s3.sampleWaits g then
                      (s3, .wait)
                    else
                      (s3, .go
                        { hdr := sl.pc, n := n, sw := hdrSw hd, yld := hdrYld hd, rest := ins, idx := 15,
                          gang := gang, pass := (s3.cluster g.cluster).passCount, first := s3.nextId,
                          snap := a, held := [], undo := [], commit := false, lhret := false, trap := none,
                          barw := none, ifence := false, tret := none, parks := false })

/-- A spawned group whose parent has requests of before the SPAWN that have yet to leave: its first clause does
not issue (R53, R100). -/
def State.unborn (s : State) (g : Group) : Bool :=
  g.sorrel.isNone && s.groups.any fun x => x.2.core == g.core && x.2.outq.any fun q =>
    match q.act with | .spawn c => c.ctx == g.ctx | _ => false

/-- The group may issue: the middle of a clause, or a boundary at which its next clause does not wait. -/
def State.canIssue (s : State) (g : Group) : Bool :=
  match g.cur with
  | some _ => true
  | none =>
    g.atBoundary && !s.unborn g && !(g.deferred.any (s.deliverable g)) && (s.nextClause g).2 != .wait

/-! Completion, commit and what follows (R51, R57, R104, R199, R225, R323). -/

/-- The sub-gang of a finished clause divides by next PC (R85). A slice that a REGANG meeting has placed
elsewhere keeps its new sub-gang. The place in the order of R86 is that of the lowest slice at the issue, also where that
slice has ended in the clause (DESIGN CHOICE, log 95). -/
def Arch.divide (a : Arch) (gang : List Nat) (old : Arch) : Arch :=
  let pcOf := fun (j : Nat) => match a.slices[j]? with | some s => some s.pc | none => none
  let liveIn := gang.filter fun j => match a.slices[j]? with | some s => s.live | none => false
  { a with
    last := some (gang.headD 0),
    slices := (List.range a.slices.length).map fun j =>
      let sl := a.slices.getD j ⟨0, 0, 15, [], 0, none⟩
      let same := match old.slices[j]? with | some o => o.gang == sl.gang | none => true
      if liveIn.contains j && same then
        { sl with gang := (liveIn.find? fun i => pcOf i == pcOf j).getD j }
      else sl }

/-- Nothing of the group is left to issue. -/
def Group.done (g : Group) : Bool := g.arch.liveSlices.isEmpty

/-- The end of the group becomes final once its last clause has retired and its commit point is over
(R89). -/
def State.settleEnd (s : State) (h : Nat) : State :=
  match s.group h with
  | none => s
  | some g =>
    if g.done && g.unret.isEmpty && g.cur.isNone && g.after.isNone && !g.ended &&
        (g.hold == .free || g.hold == .parking) then
      (s.putGroup h { g with ended := true }).endGroup h
    else if g.ended then s.reap h
    else s

/-- A FENCE.rel of .dev or .sys of the group still waits for earlier stores: an IFENCE after it waits with it,
so that the code they write is fetched (R235). -/
def Group.codePending (g : Group) : Bool :=
  let rel := fun (q : Req) => match q.act with | .fence sc ord => 4 ≤ sc && ord % 2 == 1 | _ => false
  g.outq.any rel || g.unret.any fun r => r.held.any rel

/-- Everything fetched for the group's core is dropped, and the macro control store is read again (R101, R234). -/
def State.dropFetched (s : State) (h : Nat) (g : Group) : State :=
  let s1 := if g.sorrel.isNone then s.setCore g.core { (s.core g.core) with fetch := [] } else s
  s1.putGroup h { g with arch := { g.arch with macros := (s.core g.core).macros } }

/-- The fetched clauses go before the group's next clause. -/
def State.settleFetch (s : State) (h : Nat) : State :=
  match s.group h with
  | none => s
  | some g =>
    match g.after with
    | none => s
    | some af =>
      if af.ifence && !af.commit && !g.codePending then
        s.dropFetched h { g with after := some { af with ifence := false } }
      else s

/-- The ready groups of a core outside its active set, oldest first. -/
def State.pending (s : State) (core : Nat) : List (Nat × Group) :=
  s.groups.filter fun x => x.2.sorrel.isNone && x.2.core == core && !(s.core core).active.contains x.1 && s.canIssue x.2
/-- The order of ages (R55): the earlier cycle, then the lower group number; between roles, whose group numbers
may be equal, the lower handle (DESIGN CHOICE, log 69). -/
def olderThan (x y : Nat × Group) : Bool :=
  x.2.age < y.2.age || (x.2.age == y.2.age && (x.2.index < y.2.index || (x.2.index == y.2.index && x.1 < y.1)))
def oldest (gs : List (Nat × Group)) : Option (Nat × Group) :=
  gs.find? fun x => gs.all fun y => x.1 == y.1 || olderThan x y
def youngest (gs : List (Nat × Group)) : Option (Nat × Group) :=
  gs.find? fun x => gs.all fun y => x.1 == y.1 || olderThan y x

/-- YLD: the group leaves the active set for the oldest ready pending group (R56). -/
def State.yieldSwap (s : State) (h : Nat) (g : Group) : State :=
  let c := s.core g.core
  if !c.active.contains h then s
  else match oldest (s.pending g.core) with
    | some x => s.setCore g.core { c with active := c.active.erase h ++ [x.1] }
    | none => s

/-- What a group does between its last clause and the next: IFENCE's fetch, LHRET's return, a class 10 trap (of a
handler context, its end, R315), BARW's wait, a park, YLD's swap. -/
def State.settleAfter (s0 : State) (h : Nat) : State :=
  let s := s0.settleFetch h
  match s.group h with
  | none => s
  | some g =>
    match g.after with
    | none => s
    | some af =>
      if af.commit || af.ifence then s
      else
        let a := g.arch
        let a1 :=
          if af.lhret then
            match a.lhret with
            | [] => a
            | r :: rest =>
              { a with
                lhret := rest,
                lossid := if rest.isEmpty then 0xFFFFFFFF else a.lossid,
                slices := (List.range a.slices.length).map fun j =>
                  let sl := a.slices.getD j ⟨0, 0, 15, [], 0, none⟩
                  if af.gang.contains j && sl.live then { sl with pc := r } else sl }
          else a
        let (a2, barw) :=
          match af.barw with
          | none => (a1, none)
          | some (sc, idx, sd) =>
            let r := Store.get a1.bars (barNibble sc idx) 0
            if r / 2 % 2 == 0 then (a1.writeS sd 2, none)
            else if r % 2 == 1 then (a1, some (sc, idx, sd))
            else (a1.writeS sd (BitVec.ofNat 32 (r / 4)), none)
        let rest : After := { af with lhret := false, trap := none, barw := barw, yld := false }
        let atEnd := barw.isNone && !af.parks && af.tret.isNone
        let g1 := { g with arch := a2, after := if atEnd then none else some rest, readySince := s.now }
        let s1 := match af.trap with
          | some (d, code, w) =>
            if g1.done then s.putGroup h g1
            else if let some cl := g.sorrel then s.contextFault h g1 cl
            else (s.putGroup h { g1 with hold := .trapping ⟨10, d, w, noLane, code, g1.restartPc, false⟩ }).settleTrap h
          | none => s.putGroup h g1
        (if af.yld then s1.yieldSwap h g1 else s1).settleEnd h

/-- The clause's last word has issued (R57). -/
def State.finishClause (s : State) (h : Nat) : State :=
  match s.group h with
  | none => s
  | some g =>
    match g.cur with
    | none => s
    | some c =>
      let a := g.arch.divide c.gang c.snap
      let r : Retained :=
        { hdr := c.hdr, first := c.first, done := s.now, snap := c.snap, held := c.held, undo := c.undo,
          gang := c.gang, upto := s.nextId }
      let commit := c.sw || c.commit || c.lhret || a.liveSlices.isEmpty
      let af : After :=
        { commit := commit, lhret := c.lhret, gang := c.gang, trap := c.trap, barw := c.barw, ifence := c.ifence,
          tret := c.tret, parks := c.parks, yld := c.yld && g.sorrel.isNone, forced := false }
      let plain := !commit && c.trap.isNone && c.barw.isNone && c.tret.isNone && !c.parks && !c.ifence && !c.yld
      let g1 := { g with arch := a, cur := none, unret := g.unret ++ [r], after := if plain then none else some af }
      (s.putGroup h g1).settleAfter h

/-- The clause's effect on its slices before any word: each goes on after the last word (R48). -/
def Arch.advance (a : Arch) (gang : List Nat) (pc : Pc) : Arch :=
  { a with slices := (List.range a.slices.length).map fun j =>
      let sl := a.slices.getD j ⟨0, 0, 15, [], 0, none⟩
      if gang.contains j && sl.live then { sl with pc := pc } else sl }

/-- CLAUSE_DECODE (R47, R52, R54): the next clause of a group at a boundary is fetched and decoded; it
begins, or traps, or waits, or a forced commit point comes first. -/
def execClauseDecode (h : Nat) (s : State) : Out :=
  match s.group h with
  | none => .next s
  | some g =>
    if !g.atBoundary || g.deferred.any (s.deliverable g) then .next s
    else
      let gang := g.arch.nextGang.getD []
      let hdr := g.restartPc
      match s.nextClause g with
      | (s1, .wait) => .next (s1.putGroup h { g with waits := true })
      | (s1, .fault w f) => .next (s1.raiseAt h g gang hdr w f)
      | (s1, .commit) =>
        let af : After :=
          { commit := true, lhret := false, gang := gang, trap := none, barw := none, ifence := false, tret := none,
            parks := false, yld := false, forced := true }
        .next (s1.putGroup h { g with after := some af })
      | (s1, .go c) =>
        .next (s1.putGroup h { g with cur := some c, waits := false,
                                      arch := g.arch.advance c.gang c.nextPc })

/-- WAIT_SATISFIED (R54): the watermarks a header waits for are reached and the group is ready. -/
def execWaitSatisfied (h : Nat) (s : State) : Out :=
  match s.group h with
  | none => .next s
  | some g =>
    if g.waits && s.canIssue g then .next (s.putGroup h { g with waits := false, readySince := s.now })
    else .next s

/-- The register lanes of one uncommitted instruction written from its returned pieces (R51, R73). -/
def Arch.commitPend (a : Arch) (rets : List Ret) (p : Pend) : Arch :=
  let mine := rets.filter fun r => r.id == p.id
  let vals := fun (off : Nat) => mine.filterMap fun r =>
    if r.off == off && r.lane < 32 then r.val.map fun v => (r.lane, v) else none
  let offs := (p.pieces.map Prod.snd).eraseDups
  let a1 := offs.foldl (fun a off =>
    match p.dest with
    | .vec =>
      if p.image then
        mine.foldl (fun a r => match r.val with
          | some v => if r.off == off && 32 ≤ r.lane then a.writeBand (p.reg + off) (r.lane - 32) (v.setWidth 8) else a
          | none => a) (a.writeLanes (p.reg + off) (vals off))
      else a.writeV (p.reg + off) (vals off)
    | .uni => (vals off).foldl (fun a x => a.writeS (p.reg + off) x.2) a
    | .prd => a.writePs (p.reg + off) ((vals off).map fun x => (x.1, x.2 != 0))) a
  { a1 with fpflags := mine.foldl (fun f r => f ||| r.flags) a1.fpflags }

/-- A returned piece of the group's results holds uncorrectable data. -/
def Group.badRets (g : Group) : List Ret := g.rets.filter fun r => r.ue && g.arch.pend.any (·.id == r.id)

/-- A result that commits is that of a PLPOP which returned a record: an acquire at .dev (R304). -/
def Group.popped (g : Group) : Bool :=
  g.arch.pend.any fun p => p.dest == .uni && p.pieces.length == 12 &&
    g.rets.any fun r => r.id == p.id && r.off == 0 && r.val.isSome

/-- COMMIT_POINT (R51, R185): once every outstanding result has returned they are all written, in program
order; uncorrectable data halts the group at once. -/
def execCommitPoint (h : Nat) (s : State) : Out :=
  match s.group h with
  | none => .next s
  | some g =>
    match g.after with
    | none => .next s
    | some af =>
      if !af.commit || !(g.hold == .free || g.hold == .parking) then .next s
      else
        match g.badRets with
        | r :: rs =>
          let lane := (r :: rs).foldl (fun m x => min m (x.lane % 32)) 31
          .next (s.raiseAt h { g with after := none } af.gang g.restartPc 15 (.halt 2 (BitVec.ofNat 32 lane)))
        | [] =>
          if !g.allReturned then .next s
          else
            let a := g.arch.pend.foldl (fun a p => a.commitPend g.rets p) g.arch
            let g1 := ({ g with arch := { a with pend := [] }, after := some { af with commit := false } } : Group)
            let s1 := if g.popped then s.invalidate g.core none else s
            .next ((s1.putGroup h g1.pruneRets).settleAfter h)

/-! Retirement. -/

/-- A scratchpad access waits for an atomic of a clause that has yet to retire: at the same word, or with an acquire
marker between them; or it follows one that does. -/
def State.awaitsHeld (s : State) (g : Group) (q : Req) : Bool :=
  s.reqs.any fun l => l.grp == q.grp && l.id ≤ q.id && l.act.isScr && l.open &&
    ((g.unret.map (·.held)).flatten ++ (match g.cur with | some c => c.held | none => [])).any fun p =>
      p.id < l.id && p.act.isAtomic && (p.meets l ||
        s.reqs.any fun f => f.grp == l.grp && p.id < f.id && f.id < l.id &&
          (match f.act with | .fence _ _ => true | _ => false))

/-- A scratchpad load of the clause has yet to be signalled (R59). -/
def State.unsignalled (s : State) (g : Group) (r : Retained) : Bool :=
  s.reqs.any fun q => q.grp == g.uid && r.first ≤ q.id && q.id < r.upto && q.act.isScr && q.act.isLoad &&
    (q.lost.isSome || (q.open && !s.awaitsHeld g q && !s.behindPop q))

/-- The oldest clause of the group may retire. -/
def State.retirable (s : State) (g : Group) : Bool :=
  match g.unret with
  | [] => false
  | r :: _ => r.done + Config.retireCycles ≤ s.now && !s.unsignalled g r

/-- DEFERRED_FAULT_DELIVERY (R59, R193, R273): the first fault that can be delivered at this boundary is.
Faults whose sub-gang has ended are dropped (R198). -/
def execDeferredFaultDelivery (h : Nat) (s : State) : Out :=
  match s.group h with
  | none => .next s
  | some g0 =>
    let live := g0.arch.liveSlices
    let g := { g0 with deferred := g0.deferred.filter fun d => d.gang.any live.contains }
    if !g.atBoundary || !g.unret.isEmpty then .next s
    else
      match g.deferred.find? (s.deliverable g) with
      | none => .next (s.putGroup h g)
      | some d =>
        let g1 := { g with deferred := g.deferred.filter (· != d) }
        let gang := g.arch.nextGang.getD []
        let hr := match d.restart with | some p => p | none => g.restartPc
        if d.cls == 6 || d.cls == 7 then
          .next (s.enterHandler h g1 gang hr 15 d.cls d.handler d.obj d.addr (if d.cls == 7 then d.lane else 0))
        else .next (s.raiseAt h g1 gang hr 15 (.trap d.cls d.detail
          (if d.cls == 8 then noLane else BitVec.ofNat 32 (d.lane % 32)) d.addr))

/-! Strikes (R58) and the active set (R55). -/

/-- A group with completed clauses not yet retired goes back to the oldest. A trap of a clause that issues
again is met again, or not at all (R104, R338). -/
def State.strike (s : State) (h : Nat) : State :=
  match s.group h with
  | none => s
  | some g =>
    if g.unret.isEmpty then s
    else
      let s1 := s.undoAll h { g.cancelTrap with strikes := g.strikes + 1, waits := false, readySince := s.now }
      (s1.modGroup h fun x => x.moveTrap x.restartPc).settleTrap h

/-- What is taken back, in the order of issue numbers, the newest first. -/
def insertUndo (u : Nat × Undo) : List (Nat × Undo) → List (Nat × Undo)
  | [] => [u]
  | x :: r => if x.1 < u.1 then u :: x :: r else x :: insertUndo u r

/-- The groups of a core that have clauses not yet retired. -/
def State.struck (s : State) (core : Nat) : List (Nat × Group) :=
  s.groups.filter fun x => x.2.sorrel.isNone && x.2.core == core && !x.2.unret.isEmpty

/-- What the clauses of the struck groups did at their issue is taken back, the newest first whichever group issued it
(R58, R240, R280). -/
def State.strikeUndo (s : State) (core : Nat) : State :=
  let gs := s.struck core
  let us := (gs.map fun x =>
    (match x.2.cur with | some c => c.undo | none => []) ++ (x.2.unret.reverse.map (·.undo)).flatten).flatten
  let bare := fun (s : State) (x : Nat × Group) => s.modGroup x.1 fun g =>
    { g with cur := g.cur.map fun c => { c with undo := [] }, unret := g.unret.map fun r => { r with undo := [] } }
  gs.foldl bare ((us.foldl (fun l u => insertUndo u l) []).foldl (fun s u => s.applyUndo core u.2) s)

/-- STRIKE_REPORT (R58). -/
def execStrikeReport (core : Nat) (s : State) : Out :=
  .next ((s.struck core).foldl (fun s x => s.strike x.1) (s.strikeUndo core))

/-- The active groups of a core. -/
def State.activeGroups (s : State) (core : Nat) : List (Nat × Group) :=
  s.groups.filter fun x => (s.core core).active.contains x.1

/-- ACTIVE_SET_SWAP: a group that is not ready leaves, and the oldest ready pending group enters a free
place. -/
def execActiveSetSwap (core : Nat) (s : State) : Out :=
  let c := s.core core
  let out := (s.activeGroups core).find? fun x => !s.canIssue x.2
  let kept := match out with | some x => c.active.erase x.1 | none => c.active
  if kept.length < Config.activeMax then
    match oldest (s.pending core) with
    | some x => .next (s.setCore core { c with active := kept ++ [x.1] })
    | none => .next (s.setCore core { c with active := kept })
  else .next s

/-- Groups that have been ready and pending for 224 cycles (R55). -/
def State.urgent (s : State) (core : Nat) : List (Nat × Group) :=
  (s.pending core).filter fun x => x.2.readySince + Config.urgentCycles ≤ s.now

/-- URGENT_PROMOTION: once an active group is at a clause boundary the youngest active group, in whatever it is, gives
its place to the oldest urgent one. -/
def execUrgentPromotion (core : Nat) (s : State) : Out :=
  let c := s.core core
  match oldest (s.urgent core), youngest (s.activeGroups core) with
  | some x, some y =>
    if (s.activeGroups core).all fun z => z.2.cur.isSome then .next s
    else .next ((s.setCore core { c with active := c.active.erase y.1 ++ [x.1] }).modGroup y.1
      fun g => { g with readySince := s.now })
  | _, _ => .next s

end Sys2Proof.Machine
end

