-- ==== Sys2Proof/Machine/Copy.lean ====
section
/-! DEFINITION. Timelines and the copy engine (R202 to R221), and the enqueueing operation of LNCH (R292). -/

namespace Sys2Proof.Machine

/-! Submission (R203, R209). -/

/-- A new operation of the issuing clause. -/
def mkOp (g : Group) (c : Cur) (id tl : Nat) (kind : OpKind) (bytes : Nat) : Op :=
  { id := id, grp := g.uid, core := g.core, tl := tl, kind := kind, gang := c.gang, hdr := c.hdr,
    started := false, step := 0, bytes := bytes, oob := false, lost := false, fault := false, detail := 0,
    cancelled := false, flags := 0, wait := none, stopped := false, finished := false, scratch := [], buf := [],
    pos := 0, ending := false, seq := 0, headed := false, work := 0, cyc := 0 }

/-- The operation enters the open batch of its timeline; it leaves with its clause. `pre` are requests that
stand before it. -/
def submitOp (s : State) (g : Group) (c : Cur) (pre : List Act) (tl : Nat) (kind : OpKind) (bytes : Nat) :
    State × Group :=
  let id := s.nextId + pre.length
  let before := (List.range pre.length).map fun i => mkReq g c (s.nextId + i) (pre.getD i .local)
  let op := mkOp g c id tl kind bytes
  ({ s with nextId := id + 1 },
    { g with
      arch := g.arch.modTl tl fun t => { t with entries := t.entries ++ [⟨some id, false, bytes, 0⟩] },
      cur := g.cur.map fun c => { c with held := c.held ++ before ++ [mkReq g c id (.submit op)] } })

/-! Timeline instructions (R203, R204, R207). -/

def execTclose (sd : BitVec 6) (tl : BitVec 2) (s : State) : Out :=
  issue s fun s g c =>
    let n := (g.arch.tl tl.toNat).l + 1
    let a := g.arch.modTl tl.toNat fun t => { t with l := n, entries := t.entries ++ [⟨none, false, 0, 0⟩] }
    .ok ({ s with nextId := s.nextId + 1 },
      { g with arch := a.writeS sd.toNat (n.setWidth 32),
               cur := some (c.hold (mkReq g c s.nextId (.tclose tl.toNat))) })

/-- The close leaves with its clause (R203). -/
def State.applyTclose (s : State) (uid tl : Nat) : State :=
  let rec mark (es : List Entry) : List Entry :=
    match es with
    | [] => []
    | e :: r => if e.op.isNone && !e.done then { e with done := true } :: r else e :: mark r
  s.modUid uid fun g => g.async fun a => a.settleTl tl fun t => ({ t with entries := mark t.entries } : Timeline).settle

/-- TWAIT acted at its clause's header (R204). -/
def execTwait (_tl : BitVec 2) (_sa : BitVec 6) (s : State) : Out := issueArch s fun g _ => .ok g.arch

def execTstat (sd : BitVec 6) (tl : BitVec 2) (sel : BitVec 3) (s : State) : Out :=
  issueArch s fun g _ =>
    let t := g.arch.tl tl.toNat
    let a := g.arch
    match sel.toNat with
    | 0 => .ok (a.writeS sd.toNat t.status)
    | 1 => .ok ((a.writeS sd.toNat t.status).modTl tl.toNat fun t => { t with status := 0 })
    | 2 => .ok (a.writeS sd.toNat (t.c.setWidth 32))
    | 3 => .ok (a.writeS sd.toNat (t.bytes.setWidth 32))
    | _ => .ok (a.writeS sd.toNat (t.l.setWidth 32))

/-! The copy instructions. -/

/-- A scratchpad range inside one allocation lanes may name, in any state. -/
def Block.inOne (b : Block) (off n : Nat) : Bool :=
  match b.laneAlloc off with
  | some a => off + n ≤ a.base + 1024 * a.granules
  | none => false
def State.inOne (s : State) (g : Group) (off n : Nat) : Bool :=
  match s.blockOf g with | some b => b.inOne off n | none => false

def execCpl (p : Pred) (d a : BitVec 7) (dir sz : BitVec 2) (cl : Bool) (s : State) : Out :=
  issue s fun s g c =>
    let ar := g.arch
    let w := szBytes (sz.toNat + 2)
    let gs := dir.toNat == 0 || dir.toNat == 3
    let gd := dir.toNat == 1 || dir.toNat == 3
    let lanes := ar.lanes c.gang p
    let rows := lanes.map fun l => (l, ar.base false gd d.toNat l, ar.base false gs a.toNat l)
    let bad := poisonIn (ar.badLane (uRegs a.toNat gs ++ uRegs d.toNat gd) lanes)
    let fs := (rows.map fun (r : Nat × Nat × Nat) =>
      let ln := BitVec.ofNat 32 r.1
      (if r.2.2 % w != 0 then [misaligned ln r.2.2] else if r.2.1 % w != 0 then [misaligned ln r.2.1] else []) ++
      (if !gs && !s.inOne g r.2.2 w then [Fate.trap 4 4 ln r.2.2]
       else if !gd && !s.inOne g r.2.1 w then [Fate.trap 4 4 ln r.2.1] else [])).flatten
    match pickFate (bad ++ fs) with
    | some f => .error f
    | none => .ok (submitOp s g c [] (if cl then 2 else 0) (.cpl (rows.map Prod.snd) dir.toNat w) (w * lanes.length))

/-- The operands of a tensor copy (R215). -/
def tensor (o : Cpt) (s : State) (st : Bool) (ok : State → Group → Bool) (mask tl : Nat) : Out :=
  issue s fun s g c =>
    let a := g.arch
    let rec_ := (a.readS o.sr.toNat).toNat
    let coords := (List.range 5).map fun i => a.readS (o.sc.toNat + i)
    let bad := (List.range 5).map fun i => a.badS (o.sc.toNat + i)
    if a.badUs [o.sr.toNat, o.sd.toNat] then .error (poisoned noLane)
    else if !ok s g then .error illegal
    else if rec_ % 64 != 0 then .error (misaligned noLane rec_)
    else .ok (submitOp s g c [] tl (.cpt rec_ (a.readS o.sd.toNat).toNat coords bad st mask) 0)

def execCptLd (o : Cpt) (s : State) : Out := tensor o s false (fun _ _ => true) 0 (if o.cl then 2 else 0)
def execCptSt (o : Cpt) (s : State) : Out := tensor o s true (fun _ _ => true) 0 (if o.cl then 2 else 0)

/-- CPM (R217): a team launch and a nonzero mask. -/
def execCpm (o : Cpt) (lit : Word) (s : State) : Out :=
  tensor o s false
    (fun s g => lit.toNat / 16 == 0 && lit.toNat % 16 != 0 && (s.team g).length == 4) (lit.toNat % 16) 0

def execCpr (sa sb : BitVec 6) (lit : Word) (s : State) : Out :=
  issue s fun s g c =>
    let a := g.arch
    let x := lit.toNat
    let op := x / 64 % 4
    let ty := x / 256 % 4
    let nr := x % 64
    let n := (a.readS nr).toNat
    let dst := a.readS64 sa.toNat
    let src := (a.readS sb.toNat).toNat
    if a.badUs (uRegs sa.toNat true ++ [sb.toNat, nr]) then .error (poisoned noLane)
    else if x / 1024 != 0 || op == 3 || ty == 3 || n == 0 || 2 ^ 20 < n then .error illegal
    else if dst % 4 != 0 then .error (misaligned noLane dst)
    else if src % 4 != 0 then .error (misaligned noLane src)
    else .ok (submitOp s g c [] 2 (.cpr src dst n op ty) (4 * n))

/-- LNCH (R292): the operation leaves after a FENCE.rel.sys of the group's earlier writes. -/
def execLnch (sa sb : BitVec 6) (s : State) : Out :=
  issue s fun s g c =>
    let a := g.arch
    let addr := a.readS64 sa.toNat
    if a.badUs (uRegs sa.toNat true ++ [sb.toNat]) then .error (poisoned noLane)
    else if addr % 256 != 0 then .error (misaligned noLane addr)
    else .ok (submitOp s g c [.fence 5 1] 2 (.lnch addr (a.readS sb.toNat).toNat) 256)

/-! The engine. -/

/-- Earlier writes of the group that an operation's reads must see have been performed (R221). -/
def State.submitGate (s : State) (op : Op) : Bool :=
  !(s.reqs.any fun q => q.grp == op.grp && q.id < op.id && q.open &&
    (q.act.isStore || q.act.isAtomic || q.act.isAtomo))

/-- FAULT with a detail code; the first stands (R206). -/
def Op.fail (op : Op) (d : Nat) : Op := { op with fault := true, detail := if op.fault then op.detail else d }

/-- What an engine's global address gives. -/
inductive EngX where
  | ok (p : Place)
  | fail (d : Nat)
  | park
  | iso (d : Nat)
  deriving DecidableEq, Repr

/-- The translation of an engine's access (R183, R206, R209, R347). While the port to the peer is down its pages are no
target (R349). -/
def State.engX (s : State) (core asid part va : Nat) (write : Bool) (bind : Nat) : State × EngX :=
  if 2 ^ 52 ≤ va then (s, .fail 1)
  else
    match s.translate core asid part va with
    | (s1, .iso d) => (s1, .iso d)
    | (s1, .replay) => (s1, .park)
    | (s1, .target) => (s1, .fail 2)
    | (s1, .hit x) =>
      let p := x.place va
      if write && !x.w then (s1, .park)
      else if bind != 0 && x.bind != bind then (s1, .fail 5)
      else if !s1.unitOk part p || peerRefuses p then (s1, .iso 1)
      else if s1.peerDown p then (s1, .fail 2)
      else (s1, .ok p)

/-- The places of several addresses, or the first that stops the transfer. -/
def State.engXs (s : State) (core asid part : Nat) (write : Bool) (bind : Nat) (vas : List Nat) :
    State × List EngX × Option (Nat × EngX) :=
  vas.foldl (fun (s, xs, stop) va =>
    match s.engX core asid part va write bind with
    | (s1, .park) => (s1, xs ++ [.park], stop <|> some (va, .park))
    | (s1, .iso d) => (s1, xs ++ [.iso d], stop <|> some (va, .iso d))
    | (s1, x) => (s1, xs ++ [x], stop)) (s, [], none)

/-- What was read and written of the present transfer is left; it is tried again whole (R209). -/
def Op.cut (op : Op) : Op := { op with buf := [], pos := 0 }

/-- The operation waits on a page-fault record with KIND[4] (R184, R209). A reducing copy's is of kind write (DESIGN CHOICE,
log 97). -/
def State.parkOp (s : State) (op : Op) (g : Group) (asid va : Nat) (write : Bool) : State :=
  let (s1, seq) := s.openRecord g.cluster asid va (16 + (if write then 2 else 1)) g.part (2, op.id)
  s1.putOp { op.cut with wait := some (g.cluster, seq) }

/-- An engine's isolation violation freezes the group, unless it has ended, and its copy context (R209, R327). -/
def State.freezeEngine (s : State) (h : Nat) (detail va : Nat) : State :=
  match s.group h with
  | none => s
  | some g =>
    if g.frozen || g.copyFrozen then s.putGroup h { g with copyFrozen := true }
    else
      let s1 := s.undoCur h g
      match s1.group h with
      | none => s1
      | some g1 =>
        let t : Trap := ⟨2, detail, 15, noLane, va, g1.restartPc, true⟩
        let held := match g1.hold with | .owned | .held | .trapping _ => true | _ => false
        (s1.putGroup h { g1 with
          frozen := !g1.ended, copyFrozen := true,
          hold := if held then g1.hold else .trapping t }).settleTrap h

/-- What stops a transfer is done. -/
def State.stopOp (s : State) (h : Nat) (g : Group) (op : Op) (write : Bool) (asid : Nat) (x : Nat × EngX) : State :=
  match x.2 with
  | .iso d => (s.putOp op.cut).freezeEngine h d x.1
  | _ => s.parkOp op g asid x.1 write

/-- An engine's read at a home, which goes out over the port to a peer: a byte and its poison. -/
def State.engRead (s : State) (p : Place) : State × Byte × Bool :=
  (s.sendPeer p.tgt p.pa (.read 1) [], (s.readHome p.tgt p.pa 1).headD 0, s.badMem p.tgt p.pa 1)

/-- An engine's write at a home; the core's L1 lines of the location are dropped (R168). -/
def State.engWrite (s : State) (core : Nat) (p : Place) (bs : List Byte) (bad : Bool) : State :=
  ((s.sendPeer p.tgt p.pa .write bs).writeHome p.tgt p.pa bs bad).dropLines core p.tgt p.pa bs.length

/-- What an engine's scratchpad range meets (R187, R193, R206). -/
inductive ScrHit where | ok | lost | range
  deriving DecidableEq, Repr
def Block.hit (b : Block) (uid off n : Nat) : ScrHit :=
  match b.laneAlloc off with
  | none => .range
  | some a =>
    if a.base + 1024 * a.granules < off + n then .range
    else if a.serves uid then .ok else .lost
def State.scrHit (s : State) (k uid off n : Nat) : ScrHit :=
  match Store.find s.blocks k with | some b => b.hit uid off n | none => .range
/-- What a miss leaves in the operation. -/
def Op.miss (op : Op) (h : ScrHit) : Op :=
  match h with
  | .ok => op
  | .lost => { op with lost := true }
  | .range => op.fail 3

/-- An engine's read of the scratchpad: bytes and poison. -/
def State.scrGet (s : State) (k off n : Nat) : List Byte × Bool :=
  match Store.find s.blocks k with
  | some b => (b.scr.readN off n, (granules off n).any b.scrPoison.contains)
  | none => (List.replicate n 0, false)

/-- An engine's write of n bytes, seen by the watch (R266). -/
def State.scrPut (s : State) (k off : Nat) (bs : List Byte) (bad : Bool) (cause : Nat) : State :=
  s.modBlock k fun b =>
    let p := (granules off bs.length).foldl (fun m i =>
      if bad then NSet.insert m i
      else if off ≤ 32 * i && 32 * i + 32 ≤ off + bs.length then NSet.erase m i else m) b.scrPoison
    ({ b with scr := b.scr.writeN off bs, scrPoison := p } : Block).watch off bs.length cause none []

/-- Poison of scratchpad granules that a transfer wrote whole is gone (R173). -/
def State.clearScr (s : State) (k : Nat) (gs : List Nat) : State :=
  s.modBlock k fun b => { b with scrPoison := b.scrPoison.filter fun i => !gs.contains i }
/-- Granules all of whose bytes are among these. -/
def wholeGranules (xs : List Nat) : List Nat :=
  ((xs.map (· / 32)).eraseDups).filter fun i => (List.range 32).all fun b => xs.contains (32 * i + b)

/-! The bytes of an engine's step (R307). Each is an event of its own, in an order that is free. -/

/-- Byte i of the step. -/
def Op.byte (op : Op) (i : Nat) : ByteAt := op.buf.getD i .todo
/-- Byte i of the n that the step has is now as `x` says. -/
def Op.setByte (op : Op) (n i : Nat) (x : ByteAt) : Op :=
  { op with buf := (op.buf ++ List.replicate (n - op.buf.length) ByteAt.todo).set i x }
/-- The bytes of the step of which `p` holds. -/
def Op.bytesThat (op : Op) (n : Nat) (p : ByteAt → Bool) : List Nat :=
  (op.buf.zipIdx.filterMap fun x => if p x.1 then some x.2 else none) ++
  (if p .todo then (List.range (n - op.buf.length)).map (op.buf.length + ·) else [])
/-- What was read as byte i, with its poison. -/
def ByteAt.got (x : ByteAt) : Byte × Bool := match x with | .read (some v) => v | _ => (0, false)
def ByteAt.isTodo (x : ByteAt) : Bool := match x with | .todo => true | _ => false
def ByteAt.isRead (x : ByteAt) : Bool := match x with | .read _ => true | _ => false

/-- One of several, which one free by the draw counter. -/
def pickOf (d : Nat) (xs : List Nat) : Option Nat :=
  match xs with
  | [] => none
  | [x] => some x
  | _ => xs[Config.anyNat d % xs.length]?

/-- One of the bytes that a step reads at these offsets is read; none once all have been. -/
def Op.gather (op : Op) (d : Nat) (b : Block) (offs : List Nat) : Option Op :=
  (pickOf d (op.bytesThat offs.length ByteAt.isTodo)).map fun i =>
    let o := offs.getD i 0
    op.setByte offs.length i (.read (some (b.scr.read o, b.scrPoison.contains (o / 32))))
/-- A draw of the machine's choices has been used. -/
def State.drawn (s : State) : State := { s with draws := s.draws + 1 }

/-- The layout record's bytes have been read, for the byte count also where the operation ends here. Of a record with
uncorrectable data the box is unknown, and no byte is counted (R203, R212, R215; DESIGN CHOICE, log 88). -/
def cptRecord (op : Op) (raw : List Byte) (ue : Bool) (d : Nat) (coords : List Word) (bad : List Bool) (st : Bool) : Op :=
  let o := { op.cut with started := true, finished := op.ending }
  if ue then { o.fail 6 with finished := true }
  else
    match Layout.parse raw d with
    | none => { o.fail 4 with finished := true }
    | some l =>
      let o1 := { o with bytes := l.size, scratch := raw.map BitVec.toNat }
      if (bad.take (l.nd + 1)).any id then { o1.fail 6 with finished := true }
      else if op.ending then o1
      else if l.outside (coords.map fun w => sext w.toNat 32) then { o1 with oob := true, finished := st }
      else o1

/-- The first steps of a tensor copy read its record, byte by byte: old and new values may mix (R214). A byte is read as it
stands then: the value before a write that has arrived is not read, where R214 allows it still (DESIGN CHOICE, log 105). -/
def cptStart (s : State) (g : Group) (op : Op) (r d : Nat) (coords : List Word) (bad : List Bool) (st : Bool) : State :=
  match s.scrHit g.block g.uid r 64, Store.find s.blocks g.block with
  | .ok, some b =>
    match op.gather s.draws b ((List.range 64).map (r + ·)) with
    | some o => s.drawn.putOp o
    | none => s.putOp (cptRecord op (op.buf.map fun x => x.got.1) (op.buf.any fun x => x.got.2) d coords bad st)
  | m, _ => s.putOp { ({ op.cut with started := true } : Op).miss m with finished := true }

/-! Transfers (R209, R210, R216, R307). A step of the engine reads one byte of the present transfer or writes one
that it has read; which of them is free. -/

/-- Where a byte comes from: a global page with a bind id, the byte taken where BIND differs; a place in a
scratchpad range; a fill. -/
inductive Src where
  | mem (va bind : Nat) (fill : Byte)
  | scr (base n o : Nat)
  | fill (x : Byte)
  deriving DecidableEq, Repr
/-- Where it goes. -/
inductive Dst where
  | mem (va bind : Nat)
  | scr (ks : List Nat) (base n o : Nat)
  deriving DecidableEq, Repr
structure Move where
  src : Src
  dst : Dst
  deriving DecidableEq, Repr

/-- The present transfer of a CPL: 128 bytes of its lanes, in order (DEDUCED, log 78). -/
def cplMoves (g : Group) (op : Op) (lanes : List (Nat × Nat)) (dir w : Nat) : List Move :=
  (((lanes.drop (op.step * (128 / w))).take (128 / w)).map fun x => (List.range w).map fun b =>
    (⟨if dir == 0 || dir == 3 then .mem (x.2 + b) 0 0 else .scr x.2 w b,
      if dir == 1 || dir == 3 then .mem (x.1 + b) 0 else .scr [g.block] x.1 w b⟩ : Move)).flatten
def cplTransfers (lanes : List (Nat × Nat)) (w : Nat) : Nat := (lanes.length * w + 127) / 128

/-- The present box row of a CPT.LD or CPM; a wholly-outside box is all fill (R213, R216, R217). -/
def loadMoves (s : State) (g : Group) (op : Op) (l : Layout) (d : Nat) (cs : List Int) (mask : Nat) : List Move :=
  ((List.range (l.box.headD 1)).map fun j =>
    let x := l.coord cs op.step j
    (List.range l.e).map fun b =>
      let f := (leBytes l.e l.fill).getD b 0
      (⟨if !op.oob && l.inside x then .mem (l.gaddr x + b) l.bind f else .fill f,
        .scr (s.receivers g mask) (d + l.rb * op.step) l.rb (rowPlace l.u l.rb op.step (l.e * j + b))⟩ : Move)).flatten

/-- The present box row of a CPT.ST: its elements inside the tensor. -/
def storeMoves (op : Op) (l : Layout) (d : Nat) (cs : List Int) : List Move :=
  (((List.range (l.box.headD 1)).filter fun j => l.inside (l.coord cs op.step j)).map fun j =>
    (List.range l.e).map fun b =>
      (⟨.scr (d + l.rb * op.step) l.rb (rowPlace l.u l.rb op.step (l.e * j + b)),
        .mem (l.gaddr (l.coord cs op.step j) + b) l.bind⟩ : Move)).flatten

/-- Byte i of the n of the transfer is read: a source that fails gives none (R209). -/
def readMove (s : State) (h : Nat) (g : Group) (op : Op) (n i : Nat) (x : Src) : State :=
  let got := fun (s : State) (o : Op) (v : Option (Byte × Bool)) =>
    s.putOp { o.setByte n i (.read v) with started := true }
  match x with
  | .fill f => got s op (some (f, false))
  | .scr base n o =>
    match s.scrHit g.block g.uid base n with
    | .ok =>
      let (bs, bad) := s.scrGet g.block (base + o) 1
      got s (if bad then op.fail 6 else op) (some (bs.headD 0, bad))
    | m => got s (op.miss m) none
  | .mem va bind f =>
    let (s1, pl, stop) := s.engXs g.core g.asid g.part false bind [va]
    match stop, pl with
    | some x, _ => s1.stopOp h g op false g.asid x
    | none, .ok p :: _ =>
      let (s2, x, bad) := s1.engRead p
      got s2 (if bad then op.fail 6 else op) (some (x, bad))
    | none, .fail 5 :: _ => got s1 (op.fail 5) (some (f, false))
    | none, .fail e :: _ => got s1 (op.fail e) none
    | none, _ => got s1 op none

/-- Poison of the granules that the transfer wrote whole, each receiver's for itself, is gone; the pages it wrote are
still there (R173, R217). -/
def clearMoves (s : State) (g : Group) (done : List (Move × ByteAt)) : State :=
  let good := done.filterMap fun x => match x.2 with | .wrote ks => some (x.1.dst, ks) | _ => none
  let scr := fun (k : Nat) => good.filterMap fun x => match x.1 with
    | .scr _ base _ o => if x.2.contains k then some (base + o) else none
    | _ => none
  let ks := (good.map fun x => match x.1 with | .scr .. => x.2 | _ => []).flatten.eraseDups
  let s1 := ks.foldl (fun s k => s.clearScr k (wholeGranules (scr k))) s
  (wholeGranules (good.filterMap fun x => match x.1 with | .mem va _ => if x.2.isEmpty then none else some va | _ => none)).foldl
    (fun s i =>
      match s.engX g.core g.asid g.part (32 * i) true 0 with
      | (s1, .ok p) => s1.clearHome p.tgt (p.pa / 32 * 32) 32
      | (s1, _) => s1) s1

/-- The transfer is over: of `total` the next one follows, unless the operation ends here. -/
def Op.nextTransfer (op : Op) (total : Nat) : Op :=
  { op.cut with started := true, step := op.step + 1, finished := op.ending || total ≤ op.step + 1 }

/-- Byte i of the transfer has been dealt with, and `ks` took it: with the last one the transfer is over. -/
def wroteMove (s : State) (g : Group) (op : Op) (ms : List Move) (total i : Nat) (ks : List Nat) : State :=
  let o := { op.setByte ms.length i (.wrote ks) with pos := op.pos + 1 }
  if o.pos < ms.length then s.putOp o
  else (clearMoves s g (ms.zip o.buf)).putOp (o.nextTransfer total)

/-- Byte i, which was read, is written at each of its destinations; one that fails takes none (R209, R217). A
wholly-outside box never faults (R216). -/
def writeMove (s : State) (h : Nat) (g : Group) (op : Op) (ms : List Move) (total i : Nat) (x : Dst) (cause : Nat) : State :=
  match op.byte i with
  | .read (some (b, bad)) =>
    match x with
    | .scr ks base n o =>
      let (s1, o1, took) := ks.foldl (fun (acc : State × Op × List Nat) k =>
        let (s, op, took) := acc
        match s.scrHit k g.uid base n with
        | .ok => (s.scrPut k (base + o) [b] bad cause, op, if bad then took else took ++ [k])
        | .range => (s, if op.oob then op else op.fail 3, took)
        | .lost => (s, { op with lost := true }, took)) (s, op, [])
      wroteMove s1 g o1 ms total i took
    | .mem va bind =>
      let (s1, pl, stop) := s.engXs g.core g.asid g.part true bind [va]
      match stop, pl with
      | some x, _ => s1.stopOp h g op true g.asid x
      | none, .ok p :: _ => wroteMove (s1.engWrite g.core p [b] bad) g op ms total i (if bad then [] else [0])
      | none, .fail e :: _ => wroteMove s1 g (op.fail e) ms total i []
      | none, _ => wroteMove s1 g op ms total i []
  | _ => wroteMove s g op ms total i []

/-- Two destinations may be one byte: in one scratchpad, or in memory at one place of their pages. -/
def Dst.meets (x y : Dst) : Bool :=
  match x, y with
  | .scr ks base _ o, .scr ks' base' _ o' => ks == ks' && base + o == base' + o'
  | .mem va _, .mem va' _ => va % 65536 == va' % 65536
  | _, _ => false
/-- The byte to deal with before byte i, which was read, may be written: of those for its destination the first that is not
written yet, so that the last one's value remains (R211). -/
def Op.inTurn (op : Op) (ms : List Move) (i : Nat) (m : Move) : Nat :=
  ((List.range i).find? fun j =>
    ((op.byte j).isTodo || (op.byte j).isRead) && (match ms[j]? with | some x => x.dst.meets m.dst | none => false)).getD i

/-- A step of a copy's present transfer: a byte not read yet is read, or one that was is written. -/
def moveStep (s : State) (h : Nat) (g : Group) (op : Op) (ms : List Move) (total cause : Nat) : State :=
  if total ≤ op.step then s.putOp { op with finished := true }
  else
    match pickOf s.draws (op.bytesThat ms.length fun x => x.isTodo || x.isRead) with
    | none => s.putOp (op.nextTransfer total)
    | some i0 =>
      let i := match ms[i0]? with | some m => if (op.byte i0).isTodo then i0 else op.inTurn ms i0 m | none => i0
      match ms[i]? with
      | none => s.putOp (op.nextTransfer total)
      | some m =>
        if (op.byte i).isTodo then readMove s.drawn h g op ms.length i m.src
        else writeMove s.drawn h g op ms total i m.dst cause

/-! Reducing copies (R219, R220). -/

/-- The combination at the home. -/
def cprApply (op ty m v : Nat) : Nat :=
  match op with
  | 0 => if ty == 0 then atomicOp 0 2 m v 0 else (m + v) % 2 ^ 32
  | 1 => if ty == 0 then atomicOp 1 2 m v 0 else atomicOp 1 (if ty == 1 then 0 else 1) m v 0
  | _ => if ty == 0 then atomicOp 2 2 m v 0 else atomicOp 2 (if ty == 1 then 0 else 1) m v 0

/-- Elements of a copy that are sent and not acknowledged. -/
def State.inFlight (s : State) (id : Nat) : List Nat :=
  s.reqs.filterMap fun q => match q.act, q.pid with
    | .cprElem _ _ _ i, some k => if k == id then some i else none
    | _, _ => none

/-- One transfer of at most 32 elements; no index is sent 256 or more above one that is not acknowledged, so that
the home's window holds both (R220). -/
def cprSend (s : State) (h : Nat) (g : Group) (op : Op) (src dst n o ty : Nat) : State :=
  let cnt := min 32 (n - op.step)
  let first := (s.inFlight op.id).foldl min op.step
  if op.lost || op.ending || cnt == 0 then s.putOp { op with finished := (s.inFlight op.id).isEmpty }
  else if 256 < op.step + cnt - first then s
  else
    let idx := (List.range cnt).map (op.step + ·)
    let (s1, pl, stop) := s.engXs g.core g.asid g.part true 0 (idx.map fun i => (dst + 4 * i) % 2 ^ 64)
    match stop with
    | some x => s1.stopOp h g op true g.asid x
    | none =>
      let (s2, o2) := (List.range cnt).foldl (fun (s, op) k =>
        let i := idx.getD k 0
        if Op.lost op then (s, op)
        else
          match State.scrHit s g.block g.uid (src + 4 * i) 4 with
          | .ok =>
            let (bs, bad) := s.scrGet g.block (src + 4 * i) 4
            match pl.getD k .park with
            | .ok p =>
              if p.tgt == 1 then (s, Op.fail op 2)
              else if bad then
                -- the destination granule becomes poisoned (R209)
                (s.engWrite g.core p (s.readHome p.tgt p.pa 4) true, Op.fail op 6)
              else
                let q : Req :=
                  { id := s.nextId, grp := g.uid, core := g.core, part := g.part, act := .cprElem o ty (leNat bs) i,
                    lane := 0, va := dst + 4 * i, place := some p, pid := some op.id, off := 0, gang := [],
                    hdr := op.hdr, word := 15, clause := op.id, walk := none, lost := none, ea := 0, released := 0, reply := none }
                ({ s with nextId := s.nextId + 1, reqs := s.reqs ++ [q] }, op)
            | .fail e => (s, Op.fail op e)
            | _ => (s, op)
          | m => (s, Op.miss op m)) (s1, { op with started := true })
      let done := op.step + cnt
      s2.putOp { o2 with step := done, finished := n ≤ done && (s2.inFlight op.id).isEmpty }

/-- An index is below the window's base or already applied. -/
def Window.applied (w : Window) (i : Nat) : Bool := i < w.base || w.bits.contains i
/-- The window after index i: an index 256 below it has been acknowledged before i was sent, so it is applied. -/
def Window.apply (w : Window) (i : Nat) : Window :=
  let b := max w.base (i - 255)
  { w with base := b, bits := (NSet.insert w.bits i).filter (b ≤ ·) }

/-- The window of a copy at a slice, if none is held a new one. -/
def Cluster.window (c : Cluster) (id src : Nat) : Window :=
  (c.windows.find? fun w => w.id == id && w.src == src).getD ⟨id, src, 0, []⟩
/-- The slice holds 256 windows, none of them the copy's. -/
def Cluster.windowsFull (c : Cluster) (id src : Nat) : Bool :=
  256 ≤ c.windows.length && !c.windows.any fun w => w.id == id && w.src == src
def Cluster.setWindow (c : Cluster) (w : Window) : Cluster :=
  { c with windows := (c.windows.filter fun x => x.id != w.id || x.src != w.src) ++ [w] }

/-- The element has been acknowledged. -/
def State.ackElem (s : State) (q : Req) (id : Nat) : State :=
  let s1 := s.dropReq q.id
  match s1.op id with
  | some op =>
    match op.kind with
    | .cpr _ _ n _ _ =>
      if (op.lost || op.ending || n ≤ op.step) && (s1.inFlight id).isEmpty then s1.putOp { op with finished := true } else s1
    | _ => s1
  | none => s1

/-- A fault of an element that is not applied. -/
def State.failElem (s : State) (q : Req) (id d : Nat) : State :=
  (match s.op id with | some op => s.putOp (op.fail d) | none => s).ackElem q id

/-- CPR_ELEMENT_ARRIVAL (R219, R220): an element is applied once at its home, if the unit there is still its
partition's and the peer still in reach (R347, R349). -/
def execCprElementArrival (r : Nat) (s : State) : Out :=
  match s.req r with
  | none => .next s
  | some q =>
    match q.act, q.place, q.pid with
    | .cprElem o ty v i, some p, some id =>
      if s.peerDown p then .next (s.failElem q id 2)
      else if !s.mayReach q p then
        .next (match s.handleOf q.grp with
          | some h => (s.dropReq q.id).freezeEngine h 1 q.va
          | none => s.dropReq q.id)
      else
          let cl := homeCluster p.pa
          let c := s.cluster cl
          let w := c.window id 0
          if w.applied i then .next (s.ackElem q id)
          else if c.windowsFull id 0 then .next s
          else
            let m := leNat (s.readHome p.tgt p.pa 4)
            let s1 := (s.setCluster cl (c.setWindow (w.apply i))).sendPeer p.tgt p.pa (.element id i o ty v) []
            .next (((s1.writeHome p.tgt p.pa (leBytes 4 (cprApply o ty m v)) false).dropLines q.core p.tgt p.pa 4).ackElem q id)
    | _, _, _ => .next s

/-- A copy's windows are freed at its final acknowledgement. -/
def State.freeWindows (s : State) (id : Nat) : State :=
  { s with clusters := s.clusters.map fun (x : Nat × Cluster) =>
      (x.1, { x.2 with windows := x.2.windows.filter fun w => w.id != id || w.src != 0 }) }

/-! LNCH (R285, R292). -/

/-- The ring's slot and sequence addresses of an index. -/
def Queue.slotVa (q : Queue) (i : Nat) : Nat := q.qbase.toNat + 256 * (i % 2 ^ q.log2size.toNat)
def Queue.seqVa (q : Queue) (i : Nat) : Nat :=
  q.qbase.toNat + 256 * 2 ^ q.log2size.toNat + 8 * (i % 2 ^ q.log2size.toNat)

/-- A byte of the slot is written; after the last its poison is that of the record. -/
def slotByte (s : State) (g : Group) (op : Op) (p : Place) (i : Nat) : State :=
  let o := { op.setByte 256 i (.wrote []) with pos := op.pos + 1 }
  let s1 := s.engWrite g.core { p with pa := p.pa + i } [BitVec.ofNat 8 (op.scratch.getD i 0)] (op.detail == 6)
  (if o.pos < 256 || op.detail == 6 then s1 else s1.clearHome p.tgt p.pa 256).putOp o

/-- A byte of the sequence word is written; with the last the slot is published, and QTAIL raised. -/
def seqByte (s : State) (g : Group) (op : Op) (p : Place) (qn i k : Nat) : State :=
  let o := { op.setByte 8 k (.wrote []) with pos := op.pos + 1 }
  let s1 := s.engWrite g.core { p with pa := p.pa + k } [(leBytes 8 (i + 1)).getD k 0] false
  if o.pos < 8 then s1.putOp o
  else
    let q := s1.queue qn
    let tail := if q.qtail.toNat < i + 1 then BitVec.ofNat 64 (i + 1) else q.qtail
    (s1.setQueue qn { q with qtail := tail, polled := true }).putOp { o.cut with finished := true }

/-- The steps of an enqueue: 0 the queue is checked and the record read, byte by byte; 1 an index is reserved; 2 once
there is space the record is written, byte by byte; 3 the sequence word, likewise. -/
def lnchStep (s : State) (h : Nat) (g : Group) (op : Op) (addr qn : Nat) : State :=
  let q := s.queue qn
  let qx := fun (s : State) (write : Bool) (vas : List Nat) => s.engXs g.core q.qasid.toNat g.part write 0 vas
  let failed := fun (s : State) (d : Nat) => s.putOp { op.fail d with finished := true, started := true }
  match op.step with
  | 0 =>
    if 256 ≤ qn || q.part != g.part || !q.en then failed s 11
    else
      match pickOf s.draws (op.bytesThat 256 ByteAt.isTodo) with
      | none => s.putOp { op.cut with step := 1, scratch := op.buf.map fun x => x.got.1.toNat }
      | some i =>
        let (s1, pl, stop) := s.drawn.engXs g.core g.asid g.part false 0 [addr + i]
        match stop, pl with
        | some x, _ => s1.stopOp h g op false g.asid x
        | none, .ok p :: _ =>
          let (s2, x, bad) := s1.engRead p
          let o := { op.setByte 256 i (.read (some (x, bad))) with started := true }
          s2.putOp (if bad then o.fail 6 else o)
        | none, .fail d :: _ => failed s1 d
        | none, _ => s1
  | 1 =>
    let (s1, pl, stop) := qx s true [q.qwidx.toNat]
    match stop, pl with
    | some x, _ => s1.stopOp h g op true q.qasid.toNat x
    | none, .ok p :: _ =>
      let i := leNat (s1.readHome p.tgt p.pa 8)
      let s2 := s1.engWrite g.core p (leBytes 8 (i + 1)) false
      s2.putOp { op with step := 2, scratch := op.scratch ++ [i] }
    | none, .fail d :: _ => failed s1 d
    | none, _ => s1
  | 2 =>
    let i := op.scratch.getD 256 0
    if q.qhead.toNat + 2 ^ q.log2size.toNat ≤ i then s
    else
      let (s1, pl, stop) := qx s true [q.slotVa i, q.seqVa i]
      match stop, pl with
      | some x, _ => s1.stopOp h g op true q.qasid.toNat x
      | none, [.ok p, .ok _] =>
        match pickOf s1.draws (op.bytesThat 256 ByteAt.isTodo) with
        | some j => slotByte s1.drawn g op p j
        | none => s1.putOp { op.cut with step := 3 }
      | none, .fail d :: _ => failed s1 d
      | none, _ :: .fail d :: _ => failed s1 d
      | none, _ => s1
  | _ =>
    let i := op.scratch.getD 256 0
    let (s1, pl, stop) := qx s true [q.seqVa i]
    match stop, pl with
    | some x, _ => s1.stopOp h g op true q.qasid.toNat x
    | none, .ok p :: _ =>
      match pickOf s1.draws (op.bytesThat 8 ByteAt.isTodo) with
      | some k => seqByte s1.drawn g op p qn i k
      | none => s1.putOp { op with finished := true }
    | none, .fail d :: _ => failed s1 d
    | none, _ => s1

/-! Steps. -/

/-- The operation stands at a step or transfer boundary (R210, R256). -/
def Op.atBoundary (op : Op) : Bool := op.pos == 0

/-- The operation can perform a step: a copy or enqueue that is neither over nor parked; a frozen or stopped one goes on to
its transfer boundary (R210, R327), and one that ends can whatever it waits for. -/
def State.copyReady (s : State) (op : Op) (g : Group) : Bool :=
  !op.finished && (op.ending ||
    (op.wait.isNone && ((!g.copyFrozen && !op.stopped) || !op.atBoundary) &&
      (match op.kind with
       | .cpl _ _ _ | .cpr _ _ _ _ _ => s.submitGate op
       | .cpt _ _ _ _ _ _ => !op.started || s.submitGate op
       | .lnch _ _ => s.submitGate op
       | _ => false)))

/-- The next step of an operation. -/
def copyStep (s : State) (h : Nat) (g : Group) (op : Op) : State :=
  match op.kind with
  | .cpl lanes dir w => moveStep s h g op (cplMoves g op lanes dir w) (cplTransfers lanes w) 4
  | .cpt r d coords bad st mask =>
    if !op.started then cptStart s g op r d coords bad st
    else
      match Layout.parse (op.scratch.map (BitVec.ofNat 8)) d with
      | none => s
      | some l =>
        let cs := coords.map fun w => sext w.toNat 32
        moveStep s h g op (if st then storeMoves op l d cs else loadMoves s g op l d cs mask) l.rows
          (if mask == 0 then 4 else 5)
  | .cpr src dst n o ty => cprSend s h g op src dst n o ty
  | .lnch addr q => lnchStep s h g op addr q
  | _ => s

/-- COPY_TRANSFER (R209 to R219, R292, R307): the next step of an operation is performed. One that ends is over at
its boundary; a tensor copy still reads its record and a reducing copy awaits its elements. -/
def execCopyTransfer (k : Nat) (s : State) : Out :=
  match s.op k with
  | none => .next s
  | some op =>
    match s.handleOf op.grp with
    | none => .next s
    | some h =>
      match s.group h with
      | none => .next s
      | some g =>
        let still := match op.kind with | .cpt .. => !op.started | .cpr .. => true | _ => false
        if !s.copyReady op g then .next s
        else if op.ending && op.atBoundary && !still then .next (s.putOp { op with finished := true })
        else .next (copyStep s h g op)

/-- The operation is over at once, with CANCELLED: of a tensor copy that has not begun, the record is read for the byte
count (R203, R210). -/
def State.endOpNow (s : State) (op : Op) : State :=
  match (s.handleOf op.grp).bind s.group with
  | none => { s with ops := s.ops.filter (·.id != op.id) }
  | some g =>
    let o : Op := match op.kind with
      | .cpt r d coords bad st _ =>
        if op.started then op.cancel
        else match s.scrHit g.block g.uid r 64, s.scrGet g.block r 64 with
          | .ok, (raw, ue) => cptRecord op.cancel raw ue d coords bad st
          | m, _ => op.cancel.miss m
      | _ => op.cancel
    (((s.modBlock g.block (·.endTableOp o)).finishOp o).freeWindows o.id).settleDone

/-- COPY_OP_COMPLETE (R203): a finished copy reports to its timeline. -/
def execCopyOpComplete (k : Nat) (s : State) : Out :=
  match s.op k with
  | none => .next s
  | some op =>
    let copy := match op.kind with
      | .cpl _ _ _ | .cpt _ _ _ _ _ _ | .cpr _ _ _ _ _ | .lnch _ _ => true
      | _ => false
    if !copy || !op.finished then .next s
    else
      let s1 := ((s.finishOp op).freeWindows op.id).settleDone
      match s1.handleOf op.grp with
      | some h => .next (s1.reap h)
      | none => .next s1

end Sys2Proof.Machine
end

