-- ==== Sys2Proof/Machine/Sync.lean ====
section
/-! DEFINITION. Barriers, fences, bound regions and new code (R223 to R235). -/

namespace Sys2Proof.Machine

/-- The home of a group's barrier of a kind (R223). -/
def Group.barHome (g : Group) (sc : Nat) : Nat :=
  if sc == 1 then g.block else if sc == 2 then 64 * clusterOf g.core + g.part else g.part

/-- The launch's count of a kind. -/
def Block.barLimit (b : Block) (sc : Nat) : Nat := if sc == 1 then b.bbar else if sc == 2 then b.cbar else b.wbar

/-- A barrier form: poisoned sources come first (R318), then an index at or above the launch's count traps at issue
(R226). -/
def barForm (o : Bar) (srcs : List Nat) (s : State) (f : State → Group → Cur → Except Fate (State × Group)) : Out :=
  issue s fun s g c =>
    if g.arch.badUs srcs then .error (poisoned noLane)
    else match s.blockOf g with
    | none => .error illegal
    | some b => if b.barLimit o.sc.toNat ≤ o.idx.toNat then .error illegal else f s g c

/-- The group's record of a barrier (R225). -/
def Arch.barRec (a : Arch) (sc idx : Nat) : Nat := Store.get a.bars (barNibble sc idx) 0
def Arch.setBarRec (a : Arch) (sc idx v : Nat) : Arch := { a with bars := Store.set a.bars (barNibble sc idx) v 0 }

/-- BARA at issue: PEND and ARR, and the arrival held (R225). -/
def barArriveAt (o : Bar) (s : State) (g : Group) (c : Cur) : State × Group :=
  let sc := o.sc.toNat
  let idx := o.idx.toNat
  ({ s with nextId := s.nextId + 1 },
    { g with arch := g.arch.setBarRec sc idx (g.arch.barRec sc idx / 4 * 4 + 3),
             cur := some (c.hold (mkReq g c s.nextId (.arrive sc idx))) })

def execBara (o : Bar) (s : State) : Out := barForm o [] s fun s g c => .ok (barArriveAt o s g c)
/-- BARW waits after its clause (R225). -/
def execBarw (o : Bar) (s : State) : Out :=
  barForm o [] s fun s g _ =>
    .ok (s, g.modCur fun c => { c with barw := some (o.sc.toNat, o.idx.toNat, o.r.toNat) })
def execBaraw (o : Bar) (s : State) : Out :=
  barForm o [] s fun s g c =>
    let (s1, g1) := barArriveAt o s g c
    .ok (s1, g1.modCur fun c => { c with barw := some (o.sc.toNat, o.idx.toNat, o.r.toNat) })

/-- The barrier state a core sees: the present one, or for a cluster or wide barrier one that ended at most
64 cycles ago; which is free (R227). -/
def State.barSeen (s : State) (sc home idx : Nat) : Word × Nat × Nat :=
  let b := s.barrier sc home idx
  let old := if sc == 1 then [] else b.past.filter fun p => s.now ≤ p.upto + 64
  match old[Config.anyNat s.draws % (old.length + 1)]? with
  | some p => (p.phase, p.count, p.e)
  | none => (b.phase, b.count, b.e)

def execBarq (o : Bar) (s : State) : Out :=
  barForm o [] s fun s g _ =>
    let sc := o.sc.toNat
    let idx := o.idx.toNat
    let (phase, count, e) := s.barSeen sc (g.barHome sc) idx
    let r := g.arch.barRec sc idx
    let ab := (s.barrier sc (g.barHome sc) idx).abandon
    .ok ({ s with draws := s.draws + 1 },
      g.setS o.r.toNat (r % 2 * 2 ^ 31 + r / 2 % 2 * 2 ^ 30 + (if ab then 2 ^ 29 else 0) +
        min count 4095 * 2 ^ 17 + e % 2 ^ 13 * 2 ^ 4 + phase.toNat % 16))

/-- BARCFG (R228). -/
def execBarcfg (o : Bar) (s : State) : Out :=
  barForm o [o.r.toNat] s fun s g c =>
    let w := g.arch.readS o.r.toNat
    let e := barCfgE w.toNat
    if w.toNat / 2 ^ 30 != 0 || e == 0 || 6144 < e || 192 < barCfgP w.toNat || 256 < barCfgD w.toNat then
      .error illegal
    else .ok ({ s with nextId := s.nextId + 1 },
      { g with cur := some (c.hold (mkReq g c s.nextId (.barcfg o.sc.toNat o.idx.toNat w))) })

/-- FENCE (R232): a release marker is held, an acquire marker stands at once; at .grp it changes nothing. -/
def execFence (sc : BitVec 3) (ord : BitVec 2) (s : State) : Out :=
  issue s fun s g c =>
    if sc == 0 then .ok (s, g)
    else
      let rel := ord.toNat % 2 == 1
      let acq := 2 ≤ ord.toNat
      let c1 := if rel then c.hold (mkReq g c s.nextId (.fence sc.toNat ord.toNat)) else c
      let s1 := { s with nextId := s.nextId + 1 }
      if acq then
        .ok ({ s1 with nextId := s1.nextId + 1,
                       reqs := s1.reqs ++ [mkReq g c s1.nextId (.fence sc.toNat ord.toNat)] },
          { g with cur := some { c1 with commit := true } })
      else .ok (s1, { g with cur := some c1 })

/-- A bind id, read at issue (R233). -/
def bindForm (sa : BitVec 6) (s : State) (f : State → Group → Cur → Nat → State × Group) : Out :=
  issue s fun s g c =>
    let b := (g.arch.readS sa.toNat).toNat
    if g.arch.badS sa.toNat then .error (poisoned noLane)
    else if b == 0 || 4095 < b then .error illegal
    else .ok (f { s with nextId := s.nextId + 1 } g c b)

def execRel (sc : BitVec 3) (sa : BitVec 6) (s : State) : Out :=
  bindForm sa s fun s g c b =>
    (s, { g with cur := some (c.hold (mkReq g c (s.nextId - 1) (.rel sc.toNat b))) })
/-- ACQ: a commit point, then a park until the home answers (R233). -/
def execAcq (sc : BitVec 3) (sa : BitVec 6) (s : State) : Out :=
  bindForm sa s fun s g c b =>
    ({ s with reqs := s.reqs ++ [mkReq g c (s.nextId - 1) (.acq sc.toNat b)] },
      { g with cur := some { c with commit := true, parks := true } })

/-- IFENCE acts when its clause has completed (R234). -/
def execIfence (s : State) : Out := issue s fun s g _ => .ok (s, g.modCur fun c => { c with ifence := true })

/-! Arrivals and releases. -/

/-- A request that is for a barrier's home, with the group it came from. -/
def State.fromGroup (s : State) (q : Req) : Option (Nat × Group) :=
  match s.handleOf q.grp with
  | some h => match s.group h with | some g => some (h, g) | none => none
  | none => none

/-- The barrier a request names. -/
def Act.barrier (a : Act) : Option (Nat × Nat) :=
  match a with
  | .arrive sc idx | .barcfg sc idx _ => some (sc, idx)
  | _ => none

/-- An earlier request of the group to the same barrier is still on its way: they reach the home in program order
(DEDUCED, log 83). -/
def State.barBehind (s : State) (q : Req) : Bool :=
  s.reqs.any fun r => r.grp == q.grp && r.id < q.id && r.act.barrier == q.act.barrier

def execBarrierArrival (r : Nat) (s : State) : Out :=
  match s.req r with
  | none => .next s
  | some q =>
    match q.act, s.fromGroup q with
    | .arrive sc idx, some (_, g) =>
      if s.barBehind q then .next s else .next ((s.barArrive sc (g.barHome sc) idx g.uid g.core).dropReq q.id)
    | _, _ => .next s

/-- BARCFG_ARRIVAL (R228). -/
def execBarcfgArrival (r : Nat) (s : State) : Out :=
  match s.req r with
  | none => .next s
  | some q =>
    match q.act, s.fromGroup q with
    | .barcfg sc idx w, some (_, g) =>
      if s.barBehind q then .next s else .next ((s.barConfigure sc (g.barHome sc) idx w).dropReq q.id)
    | _, _ => .next s

/-- A release reaches one arriver: its record is set and its core acquires (R225, R229, R231). False when
it must wait: the arriver is frozen, or Sorrel's queue is full (R230, R319). -/
def State.releaseOne (s : State) (r : Release) (x : Nat × Nat) : State × Bool :=
  match s.handleOf x.1 with
  | some h =>
    match s.group h with
    | none => (s, true)
    | some g =>
      if g.frozen then (s, false)
      else
        let g1 := g.async fun a => a.setBarRec r.scope r.idx (2 + (if r.stat then 4 else 0))
        let s1 := s.putGroup h g1
        let s2 := if r.scope == 1 then s1 else s1.invalidate g.core none
        (s2.settleAfter h, true)
  | none =>
    match s.saved.find? (·.uid == x.1) with
    | some v =>
      let cl := clusterOf v.core
      if 512 ≤ (s.cluster cl).trapQ.length then (s, false)
      else
        let n := barNibble r.scope r.idx + (if r.stat then 32 else 0)
        (s.queueEvent cl 2 v.uid [BitVec.ofNat 32 v.area, BitVec.ofNat 32 (v.area / 2 ^ 32), BitVec.ofNat 32 v.idx,
          BitVec.ofNat 32 n], true)
    | none => (s, true)

/-- BARRIER_RELEASE_DELIVERY (R229): one Yarrow phase reaches its cores. -/
def execBarrierReleaseDelivery (n : Nat) (s : State) : Out :=
  match s.releases.find? (·.id == n) with
  | none => .next s
  | some r =>
    let (s1, left) := r.who.foldl (fun (s, left) x =>
      match State.releaseOne s r x with
      | (s', true) => (s', left)
      | (s', false) => (s', left ++ [x])) (s, ([] : List (Nat × Nat)))
    .next { s1 with releases := s1.releases.filterMap fun y =>
      if y.id == n then (if left.isEmpty then none else some { y with who := left }) else some y }

/-- Some arriver of the release can be served. -/
def State.deliverableRelease (s : State) (r : Release) : Bool :=
  r.who.any fun x => (s.releaseOne r x).2

/-- REL_ARRIVAL: the home of the bind id acknowledges (R233). -/
def execRelArrival (r : Nat) (s : State) : Out :=
  match s.req r with
  | none => .next s
  | some q => match q.act with | .rel _ _ => .next (s.dropReq q.id) | _ => .next s

/-- ACQ_ANSWER: the home answers after the commit point, and the core's lines of pages bound to the id go (R168, R233). The
lines of unbound pages stay, and from now on hold what their homes hold now, since every sw edge carries visibility of
unbound locations (R311 Scope; DEDUCED, log 16). -/
def execAcqAnswer (r : Nat) (s : State) : Out :=
  match s.req r with
  | none => .next s
  | some q =>
    match q.act, s.fromGroup q with
    | .acq _ id, some (h, g) =>
      match g.after with
      | some af =>
        if af.commit then .next s
        else
          let s1 := ((s.dropReq r).invalidate q.core (some id)).refreshUnbound q.core
          let more := s1.reqs.any fun x => x.grp == q.grp && (match x.act with | .acq _ _ => true | _ => false)
          if more then .next s1
          else .next ((s1.putGroup h { g with after := some { af with parks := false } }).settleAfter h)
      | none => .next s
    | _, _ => .next s

/-! What a request waits for before it leaves its core. -/

/-- Writes that a barrier arrival or a release waits for. -/
def Req.isWrite (q : Req) : Bool := q.act.isStore || q.act.isAtomic || q.act.isAtomo

/-- The bind id of a request's page. -/
def Req.bind (q : Req) : Nat := match q.place with | some p => p.bind | none => 0

/-- A push of the group has not been served (R225, R304). -/
def State.pushOpen (s : State) (q : Req) : Bool :=
  (s.reqs.any fun r => r.grp == q.grp && r.id < q.id && r.open && (match r.act with | .plpush _ _ _ _ => true | _ => false)) ||
  s.pools.any fun (x : Nat × Pool) => x.2.pushes.any fun k => k.req.grp == q.grp && k.req.id < q.id

/-- The cluster that a request comes from: a handler context issues as core 256 + its cluster (R14, R315). -/
def sourceCluster (core : Nat) : Nat := if 256 ≤ core then core - 256 else clusterOf core
/-- The stack domain of a cluster (R11). -/
def stackOf (core : Nat) : Nat := sourceCluster core / 4
/-- Two cores lie in one instance of a scope (R4). -/
def sameInstance (sc a b : Nat) : Bool :=
  match sc with
  | 0 => false
  | 1 => a == b
  | 2 => sourceCluster a == sourceCluster b
  | 3 => stackOf a == stackOf b
  | _ => true

/-- The request may leave: fences, arrivals, RELs and pushes wait for what they release, and with submissions for what a pop
acquires; arrivals, RELs, pushes and submissions for what arrives at a bank before them (R225, R232, R233, R304, R310, R311,
R313; DEDUCED, logs 16, 71 and 85). -/
def State.canLeave (s : State) (q : Req) : Bool :=
  let earlier := s.reqs.filter fun r => r.grp == q.grp && r.id < q.id
  let arriving := earlier.any fun r => r.open && r.act.isScr && r.lost.isNone
  !s.behindFence q && !(earlier.any fun r => match r.act with | .rel _ _ => true | _ => false) &&
  (match q.act with
   | .fence _ _ =>
     !s.behindPop q &&
     !earlier.any fun r => r.open && (r.act.isLoad || (r.act.isStore && r.unbound) || r.act.isAtomic || r.act.isAtomo)
   | .arrive _ _ => !s.behindPop q && !arriving && !(earlier.any fun r => r.open && r.isWrite) && !s.pushOpen q
   | .plpush _ _ _ _ => !s.behindPop q && !arriving && !(earlier.any fun r => r.open && r.isWrite)
   | .sfree _ => !arriving
   | .submit _ => !s.behindPop q && !arriving
   | .rel _ id =>
     !s.behindPop q && !arriving && !(earlier.any fun r => r.open && r.isWrite && (r.unbound || r.bind == id)) &&
     !(s.reqs.any fun r => r.open && r.isWrite && r.bind == id && sameInstance r.released r.core q.core)
   | _ => true)

end Sys2Proof.Machine
end

