-- ==== Sys2Proof/Machine/Matrix.lean ====
section
/-! DEFINITION. The matrix engine: accumulators, operand maps, MMA, MMAS and MMA.T, engine order shared with
the lookup engine, and Teasel's activity levels (R237 to R258). -/

namespace Sys2Proof.Machine

/-! Operand maps (R241, R242). -/

def mapBase (m : DWord) : Nat := m.toNat % 2 ^ 21
def mapPitch (m : DWord) : Nat := m.toNat / 2 ^ 21 % 2 ^ 21
def mapSkew (m : DWord) : Nat := m.toNat / 2 ^ 42 % 4
def mapT (m : DWord) : Bool := m.getLsbD 44
def mapScl (m : DWord) : Nat := m.toNat / 2 ^ 45

/-- The checks of R241, and that a skewed row stays inside its PITCH bytes (R242, R243). -/
def mapOk (m : DWord) (rowBytes : Nat) : Bool :=
  mapBase m % 16 == 0 && mapPitch m % 16 == 0 &&
  (mapSkew m == 0 || (mapPitch m != 0 && rowBytes ≤ mapPitch m))

/-- Scratchpad offset of byte y of stored row r (R242). -/
def mapByte (m : DWord) (r y : Nat) : Nat :=
  mapBase m + r * mapPitch m +
    (if mapSkew m == 0 then y else (y + skewUnit (mapSkew m) * (r % 16)) % mapPitch m)

/-- Bytes of a stored row of `len` elements, dense or banded (R242). -/
def rowBytes (len w scale : Nat) : Nat := if scale == 1 then 132 * ((len + 127) / 128) else (len * w + 7) / 8

/-- The ranges of n stored rows, whole PITCH bytes when skewed, and of their scales (R243). -/
def mapRanges (m : DWord) (n len w scale pitch : Nat) : List (Nat × Nat) :=
  let rb := rowBytes len w scale
  ((List.range n).map fun r =>
    (mapBase m + r * mapPitch m, if mapSkew m == 0 then rb else mapPitch m)) ++
  (if scale == 2 then (List.range n).map fun r => (4 * mapScl m + r * pitch, (len + 31) / 32) else [])

/-- An element of an operand as scratchpad bytes: where its bits begin, its bytes in order, and its scale
byte. -/
structure Elem where
  bit : Nat
  bytes : List Nat
  scale : Option Nat
  deriving DecidableEq, Repr

/-- Element q of stored row r (R132, R242). -/
def elemAt (m : DWord) (w scale pitch r q : Nat) : Elem :=
  let pos := if scale == 1 then w * (q % 32) else w * q
  let y := if scale == 1 then 132 * (q / 128) + 32 * (q / 32 % 4) + pos / 8 else pos / 8
  { bit := pos % 8,
    bytes := (List.range ((pos % 8 + w + 7) / 8)).map fun i => mapByte m r (y + i),
    scale :=
      if scale == 1 then some (mapByte m r (132 * (q / 128) + 128 + q / 32 % 4))
      else if scale == 2 then some (4 * mapScl m + r * pitch + q / 32)
      else none }
/-- Element X[r][c] of a map that may be transposed. -/
def elemRC (m : DWord) (w scale pitch r c : Nat) : Elem :=
  if mapT m then elemAt m w scale pitch c r else elemAt m w scale pitch r c

/-- The scratchpad bytes an element needs. -/
def Elem.reads (e : Elem) : List Nat := e.bytes ++ (match e.scale with | some o => [o] | none => [])

/-- A byte of the block's scratchpad. -/
def Block.byte (b : Block) (o : Nat) : Nat := (b.scr.read o).toNat
/-- The code of an element. -/
def Elem.code (e : Elem) (b : Block) (w : Nat) : Nat :=
  leNat (e.bytes.map b.scr.read) / 2 ^ e.bit % 2 ^ w
/-- Val of R243. -/
def Elem.val (e : Elem) (b : Block) (f : Fmt) : Val :=
  dequantise f (e.code b f.width) (match e.scale with | some o => b.byte o | none => 127)

/-- What a set of byte reads meets: no allocation, then a loss (R206, R250). -/
def Block.hits (b : Block) (uid : Nat) (offs : List Nat) : ScrHit :=
  let hs := offs.map fun o => b.hit uid o 1
  if hs.contains .range then .range else if hs.contains .lost then .lost else .ok
/-- Some byte read is uncorrectable. -/
def Block.badBytes (b : Block) (offs : List Nat) : Bool := offs.any fun o => b.scrPoison.contains (o / 32)

/-! Accumulators (R237). -/

def Acc.get (a : Acc) (i j : Nat) : Word := Store.get a.el (i * a.n + j) 0
def Acc.set (a : Acc) (i j : Nat) (x : Word) : Acc := { a with el := Store.set a.el (i * a.n + j) x 0 }
/-- Every element +0 or 0, RS none, no poison (R240). -/
def Acc.zero (a : Acc) : Acc := { a with el := [], rs := none, poison := [] }
def Acc.bytes (a : Acc) : Nat := 4 * a.m * a.n

/-- Bytes of the block's bound accumulators. -/
def Block.accUsed (b : Block) : Nat :=
  b.ach.foldl (fun n x => n + (match Store.find b.acs x.2 with | some a => a.bytes | none => 0)) 0
/-- The accumulator a handle is bound to, with its storage number. -/
def Block.acc (b : Block) (h : Nat) : Option (Nat × Acc) :=
  match Store.find b.ach h with
  | some st => (Store.find b.acs st).map fun a => (st, a)
  | none => none

/-- Acc of R244: the accumulated word and its flags. -/
def accAdd (int : Bool) (a p : Word) : Word × Nat :=
  if int then (a + p, 0)
  else
    let (c, f) := laneRound .fp32 0 ((Fmt.fp32.decode a.toNat).add false (Fmt.fp32.decode p.toNat))
    (BitVec.ofNat 32 c, f)

/-- The exact result of a k-step over the products present, with the invalid report (R244). -/
def exactSum (qs : List (Val × Nat)) : Val × Nat :=
  let inv := if qs.any fun q => q.2 != 0 then flagNV else 0
  let pos := qs.any fun q => q.1 == .inf false
  let neg := qs.any fun q => q.1 == .inf true
  if (qs.any fun q => q.1.isNan) || (pos && neg) then (.nan, inv ||| (if pos && neg then flagNV else 0))
  else if pos then (.inf false, 0)
  else if neg then (.inf true, 0)
  else
    let x := qs.foldl (fun x q => (x.add false q.1).1) Val.zero
    (if x.isZero then .zero else x, 0)
def kSum (ps : List (Val × Val)) : Val × Nat := exactSum (ps.map fun p => p.1.mul p.2)

/-- A k-step as the word that Acc takes: rounded once to FP32, or an exact integer. An integer step whose sum
is no integer, or NaN, is a free value (DESIGN CHOICE, log 7). -/
def stepWord (int : Bool) (v : Val × Nat) : Word × Nat :=
  if int then
    match v.1 with
    | .fin s n d => if n % d == 0 then (BitVec.ofNat 32 (wrap (sgn s (n / d)) 32), 0) else (Config.fracStep (sgn s n) d, 0)
    | _ => (Config.fracStep 0 0, 0)
  else
    let (c, f) := Fmt.fp32.round v.1 (laneMode 0)
    (BitVec.ofNat 32 c, f ||| v.2)

/-! Engine order (R249, R271). `lk` names the lookup engine. -/

def Core.engineQ (c : Core) (lk : Bool) : List Nat := if lk then c.lookupQ else c.matrixQ
def Core.setEngineQ (c : Core) (lk : Bool) (q : List Nat) : Core :=
  if lk then { c with lookupQ := q } else { c with matrixQ := q }
def Core.level (c : Core) (lk : Bool) : Nat := if lk then c.lookupLevel else c.matrixLevel
def Core.setLevel (c : Core) (lk : Bool) (n : Nat) : Core :=
  if lk then { c with lookupLevel := n } else { c with matrixLevel := n }

/-- The operations in an engine's queue, in order; those ended elsewhere have gone. -/
def State.engineOps (s : State) (core : Nat) (lk : Bool) : List Op :=
  ((s.core core).engineQ lk).filterMap s.op
def State.headOp (s : State) (core : Nat) (lk : Bool) : Option Op := (s.engineOps core lk).head?

/-- The accumulators an operation names. -/
def Op.accs (op : Op) : List Nat :=
  match op.kind with
  | .acc _ st st2 _ _ _ => [st, st2]
  | .mma st _ _ _ _ _ _ _ => [st]
  | .quad _ _ st _ _ _ _ _ _ => [st]
  | .lmma st _ _ _ _ _ _ _ _ => [st]
  | _ => []

/-- The operation's engine requests its ramp (R252). -/
def Op.ramps (op : Op) : Bool :=
  match op.kind with
  | .mma .. | .quad .. | .lmma .. => true
  | _ => false

/-- An operation reaches the engine of its core. -/
def State.arriveOp (s : State) (op : Op) (lk : Bool) : State :=
  let c := s.core op.core
  let o := { op with seq := s.nextId }
  let s1 := { s with nextId := s.nextId + 1, ops := s.ops ++ [o] }
  s1.setCore op.core (c.setEngineQ lk ((c.engineQ lk).filter (fun k => (s.op k).isSome) ++ [op.id]))

/-- Every operation of the other engine that arrived earlier at one of its accumulators has completed. -/
def State.accFree (s : State) (op : Op) (lk : Bool) : Bool :=
  (s.engineOps op.core (!lk)).all fun o => !(o.seq < op.seq && o.accs.any op.accs.contains)

/-- The operation whose submission the earlier writes of its group precede: an MMA.T for its quadrants. -/
def State.gateOp (s : State) (op : Op) : Op :=
  match op.kind with
  | .quad parent .. => (s.op parent).getD op
  | _ => op

/-- The head of an engine's queue may go on with its step; one that ends needs no activity level. -/
def State.engineReady (s : State) (core : Nat) (lk : Bool) : Option Op :=
  match s.headOp core lk with
  | none => none
  | some op =>
    if !op.finished && (!op.stopped || op.pos != 0) && s.submitGate (s.gateOp op) && s.accFree op lk &&
        (op.ending || !op.ramps || 1 ≤ (s.core core).level lk) then some op
    else none

/-- The block whose engine performs the operation, and the block whose scratchpad it reads. -/
def Group.engineBlock (g : Group) (op : Op) : Nat := g.launch * 256 + op.core

/-- The operation leaves its engine. -/
def State.popEngine (s : State) (op : Op) (lk : Bool) : State :=
  let c := s.core op.core
  s.setCore op.core (c.setEngineQ lk ((c.engineQ lk).filter fun k => k != op.id))

/-- Cycles added to %slewcy by an operation whose steps take `full` cycles at full rate (R253). -/
def Op.slew (op : Op) (full : Nat) : Nat := if op.ramps then op.cyc - full else 0

/-! Reads of a step, one byte at a time (R307). -/

/-- The operation after one more of the bytes that its step needs has been read; none once all have been. -/
def Op.reading (op : Op) (d : Nat) (b : Block) (offs : List Nat) : Option Op :=
  (op.gather d b offs).map fun o => { o with started := true }
/-- The block as the bytes read for the step show it. -/
def Block.seen (b : Block) (offs : List Nat) (buf : List ByteAt) : Block :=
  let xs := offs.zip (buf.map ByteAt.got)
  { b with
    scr := xs.foldl (fun m x => m.write x.1 x.2.1) b.scr,
    scrPoison := (xs.filter fun x => x.2.2).foldl (fun m x => NSet.insert m (x.1 / 32))
      (b.scrPoison.filter fun k => !xs.any fun x => x.1 / 32 == k) }

/-- A finished operation of an engine reports to its timeline (R203, R253). -/
def State.endEngineOp (s : State) (op : Op) (added : Nat) : State :=
  let s1 := s.modUid op.grp fun g => { g with slewcy := g.slewcy + BitVec.ofNat 32 added }
  let s2 := s1.finishOp op
  match s2.handleOf op.grp with
  | some h => s2.reap h
  | none => s2

/-! Issue. -/

/-- A word that names a bound accumulator: poisoned sources first, then R74. -/
def accForm (h : Nat) (srcs : List Nat) (s : State)
    (f : State → Group → Cur → Block → Nat → Acc → Except Fate (State × Group)) : Out :=
  blockForm s srcs fun s g c b =>
    match b.acc h with
    | none => .error illegal
    | some (st, a) => f s g c b st a

/-- ACALLOC (R239). -/
def execAcalloc (h : BitVec 4) (sa sd : BitVec 6) (int : Bool) (s : State) : Out :=
  blockForm s [sa.toNat] fun s g c b =>
    let x := (g.arch.readS sa.toNat).toNat
    let m := x % 2 ^ 16
    let n := x / 2 ^ 16
    let status :=
      if (Store.find b.ach h.toNat).isSome then 1
      else if m % 16 != 0 || n % 16 != 0 || m < 16 || 128 < m || n < 16 || 192 < n then 3
      else if 1024 * b.accBudget < b.accUsed + m * n * 4 then 2
      else 0
    if status == 0 then
      let st := s.nextId
      let a : Acc := ⟨int, m, n, [], none, []⟩
      let s1 := ({ s with nextId := st + 1 } : State).setBlock g.block
        { b with acs := Store.put b.acs st a, ach := Store.put b.ach h.toNat st }
      let g1 := (g.setS sd.toNat 0).modCur fun c => c.takesBack st [.acBind g.block h.toNat st]
      .ok (submitOp s1 g1 c [] 1 (.acc 0 st st 0 1 true) 0)
    else .ok (submitOp s (g.setS sd.toNat status) c [] 1 (.none 0x64) 0)

/-- ACFREE (R240): unbound at issue. -/
def execAcfree (h : BitVec 4) (s : State) : Out :=
  accForm h.toNat [] s fun s g c b st _ =>
    let s1 := s.setBlock g.block { b with ach := b.ach.del h.toNat }
    .ok (submitOp s1 (g.modCur fun c => c.takesBack s.nextId [.acFree g.block h.toNat st]) c [] 1 (.none (0x64 + 128)) 0)

def execAcz (h : BitVec 4) (s : State) : Out :=
  accForm h.toNat [] s fun s g c _ st _ => .ok (submitOp s g c [] 1 (.acc 0 st st 0 0 true) 0)

def execAcadd (h hs : BitVec 4) (s : State) : Out :=
  accForm h.toNat [] s fun s g c b st a =>
    match b.acc hs.toNat with
    | none => .error illegal
    | some (st2, a2) =>
      if a2.m != a.m || a2.n != a.n || a2.int != a.int then .error illegal
      else .ok (submitOp s g c [] 1 (.acc 1 st st2 0 0 true) 0)

/-- The width of an accumulator image's elements. -/
def ioWidth (slot : DWord) (raw : Bool) : Nat :=
  if raw then 32 else match Fmt.ofCode (slotFmt slot) with | some f => f.width | none => 32

/-- ACLD and ACST (R240, R248): `load` tells them apart. -/
def accIo (o : AcIo) (load : Bool) (s : State) : Out :=
  accForm o.h.toNat (uRegs o.sa.toNat true) s fun s g c b st a =>
    let map := BitVec.ofNat 64 (g.arch.readS64 o.sa.toNat)
    let slot := b.slots.getD o.slot.toNat 0
    let sc := slotScale slot
    let slotBad := !slotOk slot || (Fmt.ofCode (slotFmt slot)).isNone ||
      (if load then a.int || 3 ≤ slotFmt slot || sc != 0 else sc != 0 && a.n % 32 != 0)
    if mapT map || (!o.raw && slotBad) ||
        !mapOk map (rowBytes a.n (ioWidth slot o.raw) (if o.raw then 0 else sc)) then .error illegal
    else .ok (submitOp s g c [] 1 (.acc (if load then 2 else 3) st st map o.slot.toNat o.raw) 0)

def execAcld (o : AcIo) (s : State) : Out := accIo o true s
def execAcst (o : AcIo) (s : State) : Out := accIo o false s

/-- A scratchpad range that lies in no one allocation is SPRANGE (R243). -/
def State.rangeFate (s : State) (g : Group) (rs : List (Nat × Nat)) : Option Fate :=
  (rs.find? fun r => !s.inOne g r.1 r.2).map fun r => .trap 4 4 noLane r.1

/-- The checks of R243 and R246 on operands of M × K and K × N, M and N those of the whole product. -/
def mmaFate (s : State) (g : Group) (slot : DWord) (int : Bool) (m n k : Nat) (ma mb : DWord)
    (sparse : Option Nat) : Option Fate :=
  let sc := slotScale slot
  match Fmt.ofCode (slotFmt slot) with
  | none => some illegal
  | some f =>
    let w := f.width
    let la := if mapT ma then m else if sparse.isSome then k / 2 else k
    let lb := if mapT mb then k else n
    if !slotOk slot || (f == .int8 || f == .int4) != int || (sc != 0 && k % 32 != 0) ||
        (sc != 0 && (mapT ma || !mapT mb)) || (sparse.isSome && (sc != 0 || mapT ma)) ||
        !mapOk ma (rowBytes la w sc) || !mapOk mb (rowBytes lb w sc) then some illegal
    else
      s.rangeFate g
        (mapRanges ma (if mapT ma then k else m) la w sc (slotPitch slot) ++
         mapRanges mb (if mapT mb then n else k) lb w sc (slotPitch slot) ++
         (match sparse with | some o => [(o, m * (k / 8))] | none => []))

/-- MMA, MMAS and MMA.T at issue; `kind` 0, 1, 2. -/
def mmaIssue (o : Mma) (kind : Nat) (s : State) : Out :=
  let lit := o.lit.toNat
  let k := 16 * (lit % 16 + 1)
  let sm := lit / 16 % 64
  let srcs := uRegs o.sa.toNat true ++ uRegs o.sb.toNat true ++ (if kind == 1 then [sm] else [])
  blockForm s srcs fun s g c b =>
    let ma := BitVec.ofNat 64 (g.arch.readS64 o.sa.toNat)
    let mb := BitVec.ofNat 64 (g.arch.readS64 o.sb.toNat)
    let sparse := if kind == 1 then some (g.arch.readS sm).toNat else none
    match b.acc o.h.toNat with
    | none => .error illegal
    | some (st, a) =>
      let big := if kind == 2 then 2 else 1
      if lit / (if kind == 1 then 2 ^ 10 else 2 ^ 4) != 0 || (kind == 2 && (s.team g).length != 4) then .error illegal
      else
        match mmaFate s g (b.slots.getD o.slot.toNat 0) a.int (big * a.m) (big * a.n) k ma mb sparse with
        | some f => .error f
        | none =>
          .ok (submitOp s g c [] 1
            (if kind == 2 then .mmaT o.h.toNat st a.int a.m a.n ma mb k o.slot.toNat o.z o.r
             else .mma st ma mb k sparse o.slot.toNat o.z o.r) 0)

def execMma (o : Mma) (s : State) : Out := mmaIssue o 0 s
def execMmas (o : Mma) (s : State) : Out := mmaIssue o 1 s
def execMmaT (o : Mma) (s : State) : Out := mmaIssue o 2 s

/-- OMAP (R241). -/
def execOmap (sa sb : BitVec 6) (lit : Word) (s : State) : Out :=
  issueArch s fun g _ =>
    let x := lit.toNat
    let sd := x % 64
    let ss := x / 64 % 64
    let skew := x / 2 ^ 12 % 4
    let base := (g.arch.readS sa.toNat).toNat
    let pitch := (g.arch.readS sb.toNat).toNat
    let c := (g.arch.readS ss).toNat
    if g.arch.badUs [sa.toNat, sb.toNat, ss] then .error (poisoned noLane)
    else if x / 2 ^ 15 != 0 || sd % 2 == 1 || 2 ^ 21 ≤ base || base % 16 != 0 || 2 ^ 21 ≤ pitch || pitch % 16 != 0 ||
        2 ^ 21 ≤ c || c % 4 != 0 || (skew != 0 && pitch == 0) then .error illegal
    else .ok (g.arch.writeS64 sd (c / 4 * 2 ^ 45 + x / 2 ^ 14 % 2 * 2 ^ 44 + skew * 2 ^ 42 + pitch * 2 ^ 21 + base))

/-! Engine steps of MMA (R245). -/

/-- The operands of an MMA, an MMAS or a quadrant: `r0`, `c0` its first row of A and column of B. -/
structure Mm where
  st : Nat
  ma : DWord
  mb : DWord
  k : Nat
  sparse : Option Nat
  slot : Nat
  z : Bool
  r : Bool
  q : Nat
  deriving DecidableEq, Repr

def Op.mm (op : Op) : Option Mm :=
  match op.kind with
  | .mma st ma mb k sp slot z r => some ⟨st, ma, mb, k, sp, slot, z, r, 0⟩
  | .quad _ q st ma mb k slot z r => some ⟨st, ma, mb, k, none, slot, z, r, q⟩
  | _ => none

/-- One product operand of a row: logical position in the k-step and element. -/
structure Term where
  k : Nat
  e : Elem
  deriving DecidableEq, Repr

/-- Metadata nibble g of row i at offset o (R246): its byte and value. -/
def metaByte (o k i g : Nat) : Nat := o + i * (k / 8) + g / 2
def metaNib (b : Block) (o k i g : Nat) : Nat := b.byte (metaByte o k i g) / 2 ^ (4 * (g % 2)) % 16

/-- The terms of row i of A in k-step s. -/
def Mm.aTerms (j : Mm) (b : Block) (w sc pitch r0 i s : Nat) : List Term :=
  match j.sparse with
  | none => (List.range 16).map fun t => ⟨t, elemRC j.ma w sc pitch (r0 + i) (16 * s + t)⟩
  | some o =>
    ((List.range 4).map fun t =>
      let g := 4 * s + t
      let x := metaNib b o j.k i g
      [⟨4 * t + x % 4, elemAt j.ma w sc pitch i (2 * g)⟩, ⟨4 * t + x / 4, elemAt j.ma w sc pitch i (2 * g + 1)⟩]).flatten

/-- An MMA begins: Z clears, R resumes (R245). The operation keeps its first step. -/
def beginMm (op : Op) (a : Acc) (z r : Bool) : Op × Acc :=
  if op.started then (op, a)
  else
    let e := if r then a.rs.getD 0 else 0
    ({ op with started := true, step := e, scratch := [e] }, if z then a.zero else a)

/-- An operation stops before its step (R250). -/
def stopMm (op : Op) (a : Acc) : Op × Acc := ({ op with finished := true }, { a with rs := some op.step })

/-- The operation's step is over: RS names the next one, or none after the last. -/
def nextMm (op : Op) (a : Acc) (total : Nat) : Op × Acc :=
  let e := op.step + 1
  ({ op.cut with step := e, finished := total ≤ e }, { a with rs := if total ≤ e then none else some e })
/-- A step met uncorrectable data or failed its residue check twice: the operation ends with it (R245, R250). -/
def failMm (x : Op × Acc) (band : Nat) : Op × Acc :=
  ({ x.1.fail 6 with finished := true }, { x.2 with poison := NSet.insert x.2.poison band })

/-- The residue check of a step (R251): mismatches counted, and whether it failed twice. -/
def State.residueCheck (s : State) (core : Nat) : State × Bool :=
  let d := s.draws
  let m1 := Config.residue d
  let m2 := m1 && Config.residue (d + 1)
  let cl := clusterOf core
  let c := s.cluster cl
  let n := (if m1 then 1 else 0) + (if m2 then 1 else 0)
  (({ s with draws := d + 2 } : State).setCluster cl { c with res := BitVec.ofNat 8 (min 255 (c.res.toNat + n)) }, m2)

/-- Rows `rows` of the accumulator with f applied to each element. -/
def Acc.update (a : Acc) (rows : List Nat) (f : Nat → Nat → Word → Word × Nat) : Acc × Nat :=
  rows.foldl (fun acc i => (List.range a.n).foldl (fun (acc : Acc × Nat) j =>
    let (x, fl) := f i j (acc.1.get i j)
    (acc.1.set i j x, acc.2 ||| fl)) acc) (a, 0)

/-- One engine step: k-step e div (M/16) on the band e mod (M/16); first its bytes are read. -/
def mmStep (s : State) (g : Group) (op0 : Op) (j : Mm) : State :=
  let kb := g.engineBlock op0
  match Store.find s.blocks kb, Store.find s.blocks g.block with
  | some home, some b =>
    match Store.find home.acs j.st, Fmt.ofCode (slotFmt (b.slots.getD j.slot 0)) with
    | some a0, some f =>
      let slot := b.slots.getD j.slot 0
      let sc := slotScale slot
      let pitch := slotPitch slot
      let w := f.width
      let (op, a) := beginMm op0 a0 j.z j.r
      let bands := a.m / 16
      let total := j.k / 16 * bands
      let put := fun (s : State) (x : Op × Acc) =>
        (s.modBlock kb fun h => { h with acs := Store.put h.acs j.st x.2 }).putOp x.1
      if total ≤ op.step then put s ({ op with finished := true }, { a with rs := none })
      else if op.ending then put s (stopMm op a)
      else
        let ks := op.step / bands
        let rows := (List.range 16).map (16 * (op.step % bands) + ·)
        let r0 := a.m * (j.q / 2)
        let c0 := a.n * (j.q % 2)
        let nibs := match j.sparse with
          | some o => (rows.map fun i => (List.range 4).map fun t => (o, i, 4 * ks + t)).flatten
          | none => []
        let terms := fun (b : Block) => rows.map fun i => (i, j.aTerms b w sc pitch r0 i ks)
        let bt := (List.range a.n).map fun c => (List.range 16).map fun t => elemRC j.mb w sc pitch (16 * ks + t) (c0 + c)
        -- where the terms of A lie does not depend on the metadata
        let offs := (nibs.map fun (x : Nat × Nat × Nat) => metaByte x.1 j.k x.2.1 x.2.2) ++
          ((terms b).map fun x => (x.2.map fun t => t.e.reads).flatten).flatten ++
          (bt.map fun x => (x.map Elem.reads).flatten).flatten
        match b.hits g.uid offs with
        | .lost => put s (stopMm { op with lost := true } a)
        | .range => put s (stopMm (op.fail 3) a)
        | .ok =>
          match op.reading s.draws b offs with
          | some o => put s.drawn (o, a)
          | none =>
          let b := b.seen offs op.buf
          let at_ := terms b
          let bad := nibs.any fun (x : Nat × Nat × Nat) =>
            let v := metaNib b x.1 j.k x.2.1 x.2.2
            v / 4 ≤ v % 4
          if bad then put s (stopMm (op.fail 8) a)
          else
            let av := at_.map fun x => (x.1, x.2.map fun t => (t.k, t.e.val b f))
            let bv := bt.map fun x => x.map fun e => e.val b f
            let row := fun (i : Nat) => ((av.find? fun x => x.1 == i).map Prod.snd).getD []
            let (a1, fl) := a.update rows fun i c x =>
              let col := bv.getD c []
              let (p, f1) := stepWord a.int (kSum ((row i).map fun t => (t.2, col.getD t.1 Val.zero)))
              let (y, f2) := accAdd a.int x p
              (y, f1 ||| f2)
            let (s1, twice) := s.residueCheck op.core
            let op1 := { op with flags := op.flags ||| BitVec.ofNat 32 fl }
            let x := nextMm op1 a1 total
            put s1 (if twice || b.badBytes offs then failMm x (op.step % bands) else x)
    | _, _ => s.putOp { op0 with finished := true }
  | _, _ => s.putOp { op0 with finished := true }

/-! The other operations (R240, R248). -/

/-- An element of an accumulator as a value. -/
def Acc.val (a : Acc) (i j : Nat) : Val := (if a.int then Fmt.int32 else Fmt.fp32).decode (a.get i j).toNat

/-- ACADD (R240). -/
def Acc.plus (a b : Acc) : Acc × Nat :=
  let (x, fl) := a.update (List.range a.m) fun i j x => accAdd a.int x (b.get i j)
  ({ x with poison := b.poison.foldl NSet.insert a.poison }, fl)

/-- One step of a row of ACLD, by draw counter `d`: a row with lost bytes keeps its contents (R240, R250). -/
def loadAccRow (b : Block) (uid d : Nat) (op : Op) (a : Acc) (map slot : DWord) (raw : Bool) : Op × Acc :=
  let i := op.step
  let w := ioWidth slot raw
  let els := (List.range a.n).map fun c => elemAt map w 0 0 i c
  let offs := (els.map Elem.reads).flatten
  let done := fun (o : Op) => o.nextTransfer a.m
  match b.hits uid offs with
  | .lost => (done { op with lost := true }, { a with rs := none })
  | .range => (done (op.fail 3), { a with rs := none })
  | .ok =>
    match op.reading d b offs with
    | some o => (o, a)
    | none =>
    let b := b.seen offs op.buf
    let bad := b.badBytes offs
    let word := fun (e : Elem) =>
      let c := e.code b w
      if raw then c
      else match Fmt.ofCode (slotFmt slot) with
        | some f => (Fmt.fp32.round (f.decode c) (laneMode 0)).1
        | none => c
    let a1 := (List.range a.n).foldl (fun a c => a.set i c (BitVec.ofNat 32 (word (els.getD c ⟨0, [], none⟩)))) a
    let first := !(op.scratch.contains (i / 16))
    let p := if bad then NSet.insert a.poison (i / 16) else if first then NSet.erase a.poison (i / 16) else a.poison
    let o := { op with scratch := if first then op.scratch ++ [i / 16] else op.scratch }
    (done (if bad then o.fail 6 else o), { a1 with rs := none, poison := p })

/-- The codes and scales of one row of ACST, and its flags (R248). -/
def accRow (a : Acc) (i : Nat) (slot : DWord) (f : Fmt) : List Nat × List Nat × Nat :=
  let nb := (a.n + 31) / 32
  (List.range nb).foldl (fun (acc : List Nat × List Nat × Nat) k =>
    let vs := (List.range (min 32 (a.n - 32 * k))).map fun p => a.val i (32 * k + p)
    let t := i * nb + k
    if slotScale slot == 0 then
      let cs := (List.range vs.length).map fun p =>
        f.round (vs.getD p Val.zero) (slotMode slot (ditherD p t (slotStep slot)))
      (acc.1 ++ cs.map Prod.fst, acc.2.1, cs.foldl (fun x y => x ||| y.2) acc.2.2)
    else
      let (cs, u, fl) := quantise f slot vs t
      (acc.1 ++ cs, acc.2.1 ++ [u], acc.2.2 ||| fl)) ([], [], 0)

/-- The bytes of a stored row (R132, R242): the granules of a last banded unit beyond its blocks are 0. The
list gives (position, byte). -/
def rowImage (codes us : List Nat) (w scale : Nat) : List (Nat × Nat) :=
  if scale == 1 then
    let nb := us.length
    let units := (nb + 3) / 4
    ((List.range (4 * units)).map fun k =>
      let g := packBits w ((codes.drop (32 * k)).take 32)
      (List.range 32).map fun y => (132 * (k / 4) + 32 * (k % 4) + y, g / 2 ^ (8 * y) % 256)).flatten ++
    (List.range nb).map fun k => (132 * (k / 4) + 128 + k % 4, us.getD k 0)
  else
    let g := packBits w codes
    (List.range (rowBytes codes.length w 0)).map fun y => (y, g / 2 ^ (8 * y) % 256)

/-- All bytes of a row lie in one allocation (R206). -/
def Block.oneAlloc (b : Block) (offs : List Nat) : Bool :=
  match offs with
  | [] => true
  | o :: _ =>
    match b.laneAlloc o with
    | some a => offs.all fun x => a.base ≤ x && x < a.base + 1024 * a.granules
    | none => false

/-- The bytes of row i of ACST, as (offset, byte): of the row itself, and of its scales where these stand in an array; and
the row's flags (R242, R248). -/
def storeRow (a : Acc) (i : Nat) (map slot : DWord) (raw : Bool) : List (Nat × Nat) × List (Nat × Nat) × Nat :=
  let f := (Fmt.ofCode (slotFmt slot)).getD .fp32
  let sc := if raw then 0 else slotScale slot
  let w := ioWidth slot raw
  let (codes, us, fl) := if raw then ((List.range a.n).map fun c => (a.get i c).toNat, [], 0) else accRow a i slot f
  ((rowImage codes us w sc).map fun x => (mapByte map i x.1, x.2),
    if sc == 2 then (List.range us.length).map fun k => (4 * mapScl map + i * slotPitch slot + k, us.getD k 0) else [], fl)
/-- How many they are. -/
def storeRowSize (n : Nat) (slot : DWord) (raw : Bool) : Nat :=
  let sc := if raw then 0 else slotScale slot
  let nb := (n + 31) / 32
  if sc == 1 then 128 * ((nb + 3) / 4) + nb else rowBytes n (ioWidth slot raw) 0 + (if sc == 2 then nb else 0)

/-- Rows at the front of which every byte is written are behind the operation. -/
def Op.passRows (op : Op) (len : Nat) : Nat → Op
  | 0 => op
  | n + 1 =>
    let row := op.buf.take len
    if row.length == len && row.all fun x => !x.isTodo then
      ({ op with buf := op.buf.drop len, pos := op.pos - len, step := op.step + 1 } : Op).passRows len n
    else op
/-- The byte that draw `k` names of those that remain, or the first. -/
def Op.todoAt (op : Op) (k : Nat) : Nat :=
  if (op.byte k).isTodo then k else ((List.range op.buf.length).find? fun i => (op.byte i).isTodo).getD op.buf.length

/-- One byte of ACST, which of those that remain free, whatever their row; an operation that is to stop fills the rows up to
the last one that it has touched (R248, R249, R250, R307). A lost byte is discarded. With its row's last, a granule that the
row wrote whole loses its poison, and a poisoned band's bytes make their granules poisoned. -/
def storeAccByte (s : State) (g : Group) (op : Op) (b : Block) (a : Acc) (map slot : DWord) (raw : Bool) : State × Op :=
  let len := storeRowSize a.n slot raw
  let rows := if op.stopped || op.ending then (op.buf.length + len - 1) / len else a.m - op.step
  let at_ := op.todoAt (Config.anyNat s.draws % (rows * len))
  let i := op.step + at_ / len
  let (bytes, scales, fl) := storeRow a i map slot raw
  let bad := a.poison.contains (i / 16)
  let all := bytes ++ scales
  let k := at_ % len
  let (o, x) := all.getD k (0, 0)
  let part := if k < bytes.length then bytes else scales
  let byte := BitVec.ofNat 8 x
  let (s1, op1, took) :=
    if !b.oneAlloc (part.map Prod.fst) then (s.drawn, op.fail 3, [])
    else match b.hit g.uid o 1 with
      | .ok => (s.drawn.scrPut g.block o [byte] bad 6, if bad then op.fail 6 else op, if bad then [] else [g.block])
      | m => (s.drawn, op.miss m, [])
  let op2 := { op1.setByte (at_ + 1) at_ (.wrote took) with
    started := true, pos := op.pos + 1, flags := op1.flags ||| BitVec.ofNat 32 fl }
  let row := (op2.buf.drop (at_ / len * len)).take len
  let s2 := if row.length < len || row.any ByteAt.isTodo then s1 else
    s1.clearScr g.block (wholeGranules ((all.zip row).filterMap fun x => match x.2 with | .wrote (_ :: _) => some x.1.1 | _ => none))
  let op3 := op2.passRows len rows
  (s2, if op3.pos == 0 then { op3.cut with finished := a.m ≤ op3.step } else op3)

/-- A step of an accumulator operation. -/
def accStep (s : State) (g : Group) (op : Op) (what st st2 : Nat) (map : DWord) (slot : Nat) (raw : Bool) : State :=
  match Store.find s.blocks g.block with
  | none => s.putOp { op with finished := true }
  | some b =>
    match Store.find b.acs st with
    | none => s.putOp { op with finished := true }
    | some a =>
      let put := fun (s : State) (a : Acc) => s.modBlock g.block fun b => { b with acs := Store.put b.acs st a }
      let w := b.slots.getD slot 0
      if op.ending && op.pos == 0 then s.putOp { op with finished := true }
      else match what with
      | 0 => (put s a.zero).putOp { op with finished := true }
      | 1 =>
        let (a1, fl) := a.plus ((Store.find b.acs st2).getD a)
        (put s a1).putOp { op with finished := true, flags := op.flags ||| BitVec.ofNat 32 fl }
      | 2 =>
        let (op1, a1) := loadAccRow b g.uid s.draws op a map w raw
        (put s.drawn a1).putOp op1
      | _ =>
        let (s1, op1) := storeAccByte s g op b a map w raw
        s1.putOp op1

/-! MMA.T (R247). -/

/-- Quadrants of MMA.T operations that have yet to arrive at a core: the operation and the quadrant. -/
def State.teamPending (s : State) (core : Nat) : List (Op × Nat) :=
  s.ops.filterMap fun op =>
    match op.kind with
    | .mmaT .. =>
      match s.handleOf op.grp with
      | some h =>
        match s.group h with
        | some g =>
          match (List.range 4).find? fun q => (s.team g).getD q 256 == core && !op.scratch.contains q with
          | some q => if op.stopped then none else some (op, q)
          | none => none
        | none => none
      | none => none
    | _ => none

/-- A quadrant is over: its outcome joins the MMA.T's, which is finished after the fourth. -/
def Op.quadDone (p : Op) (o : Op) (added : Nat) : Op :=
  { p with
    oob := p.oob || o.oob, lost := p.lost || o.lost, fault := p.fault || o.fault,
    detail := if p.fault then p.detail else o.detail, flags := p.flags ||| o.flags,
    step := p.step + 1, finished := 4 ≤ p.step + 1, cyc := max p.cyc added }

/-- A quadrant arrives at the engine of its core; a handle that does not match computes nothing. On the issuing core
the handle was looked up at issue, so that a later ACFREE there comes after it (R257). -/
def State.arriveQuad (s : State) (core : Nat) (p : Op) (q : Nat) : State :=
  match p.kind with
  | .mmaT h st0 int m n ma mb k slot z r =>
    let p1 := { p with started := true, scratch := p.scratch ++ [q] }
    let b := match s.handleOf p.grp with
      | some hd => match s.group hd with
        | some g => Store.find s.blocks (g.launch * 256 + core)
        | none => none
      | none => none
    match b.bind fun b => if core == p.core then (Store.find b.acs st0).map fun a => (st0, a) else b.acc h with
    | some (st, a) =>
      if a.int == int && a.m == m && a.n == n then
        let o : Op := { p with
          id := s.nextId, core := core, kind := .quad p.id q st ma mb k slot z r, started := false, step := 0,
          scratch := [], flags := 0, fault := false, lost := false, detail := 0, headed := false, work := 0, cyc := 0 }
        (({ s with nextId := s.nextId + 1 } : State).putOp p1).arriveOp o false
      else s.putOp (p1.quadDone ({ p with flags := 0, lost := false, fault := false } |>.fail 9) 0)
    | none => s.putOp (p1.quadDone ({ p with flags := 0, lost := false, fault := false } |>.fail 9) 0)
  | _ => s

/-! Steps. -/

/-- Products per cycle at full rate (R258). -/
def mmaRate (slot : DWord) : Nat :=
  match Fmt.ofCode (slotFmt slot) with
  | some .fp32 => 512
  | some .bf16 => 2048
  | some .fp16 => 2048
  | some .e4m3 => 4096
  | some .e5m2 => 4096
  | some .int8 => 4096
  | _ => 8192

/-- The number of an operation's first step, begun or to begin, on accumulator `st` (R245). -/
def Op.firstStep (op : Op) (b : Block) (st : Nat) (r : Bool) : Nat :=
  if op.started then op.scratch.getD 0 0
  else if r then ((Store.find b.acs st).bind (·.rs)).getD 0 else 0

/-- Full-rate cycles of the steps of an MMA before step `e`, or of all of them (R258). -/
def Group.mmCycles (g : Group) (s : State) (op : Op) (e : Option Nat) : Nat :=
  match op.mm, Store.find s.blocks (g.engineBlock op) with
  | some j, some b =>
    match Store.find b.acs j.st with
    | none => 0
    | some a =>
      let r := mmaRate (b.slots.getD j.slot 0)
      let c := (256 * a.n + r - 1) / r
      (e.getD (j.k / 16 * (a.m / 16)) - op.firstStep b j.st j.r) * (if j.sparse.isSome then (c + 1) / 2 else c)
  | _, _ => 0

/-- MATRIX_ENGINE_STEP (R245, R247, R249, R252): the head of the queue goes on with its next step, as far as its
activity levels have allowed, or the quadrant of a team core's MMA.T arrives; which, when both can be, is free. -/
def execMatrixEngineStep (core : Nat) (s : State) : Out :=
  let quads := s.teamPending core
  let ready := s.engineReady core false
  let n := quads.length + (if ready.isSome then 1 else 0)
  match quads[Config.anyNat s.draws % n]? with
  | some (p, q) => .next (({ s with draws := s.draws + 1 } : State).arriveQuad core p q)
  | none =>
    match ready with
    | none => .next s
    | some op =>
      match s.handleOf op.grp with
      | none => .next s
      | some h =>
        match s.group h with
        | none => .next s
        | some g =>
          let s1 := { s with draws := s.draws + 1 }
          match op.kind, op.mm with
          | .acc what st st2 map slot raw, _ => .next (accStep s1 g op what st st2 map slot raw)
          | _, some j =>
            if op.ending || 8 * g.mmCycles s op (some (op.step + 1)) ≤ op.work then .next (mmStep s1 g op j) else .next s
          | _, none => .next (s1.putOp { op with finished := true })

/-- The operation that MATRIX_OP_COMPLETE would end on a core: the finished head of the engine, or an MMA.T of
one of the core's groups whose quadrants are all over. -/
def State.matrixDone (s : State) (core : Nat) : Option Op :=
  match (s.headOp core false).filter (·.finished) with
  | some op => some op
  | none => s.ops.find? fun op => op.core == core && op.finished &&
      (match op.kind with | .mmaT .. => true | _ => false)

/-- Full-rate cycles of the steps a matrix operation performed. -/
def State.performed (s : State) (op : Op) : Nat :=
  match (s.handleOf op.grp).bind s.group with
  | some g => g.mmCycles s op (some op.step)
  | none => 0

/-- MATRIX_OP_COMPLETE (R203, R247, R253). -/
def execMatrixOpComplete (core : Nat) (s : State) : Out :=
  match s.matrixDone core with
  | none => .next s
  | some op =>
    match op.kind with
    | .mmaT .. => .next (s.endEngineOp op op.cyc)
    | .quad parent .. =>
      let added := op.slew (s.performed op)
      let s1 := s.popEngine op false
      let s2 := { s1 with ops := s1.ops.filter (·.id != op.id) }
      match s2.op parent with
      | some p => .next (s2.putOp (p.quadDone op added))
      | none => .next s2
    | _ => .next ((s.popEngine op false).endEngineOp op (op.slew (s.performed op)))

end Sys2Proof.Machine
end

