-- ==== Sys2Proof/Machine/Lookup.lean ====
section
/-! DEFINITION. The lookup engine: tables, their watch, LMMA, spilling and filling (R259 to R282). A handle is
bound to a state of its table; TBUILD, TBSPILL and TBFILL bind it to a new one, so that a rollback restores
the old. Entries stand under a storage number of their own. -/

namespace Sys2Proof.Machine

/-! Shapes (R259). -/

/-- The entry format of a slot's ENT. -/
def entFmt (slot : DWord) : Fmt :=
  match slotEnt slot with | 0 => .fp16 | 1 => .bf16 | 2 => .fp32 | 3 => .int16 | _ => .int32
def Tbl.e (t : Tbl) : Nat := if t.cb then 16 else 8
/-- Bytes of one group of Y rows. -/
def groupBytes (cb : Bool) (y eb : Nat) : Nat := y * (if cb then 16 else 8) * eb
/-- Entry width in bytes. -/
def entBytes (slot : DWord) : Nat := (entFmt slot).width / 8
/-- The position of entry c of row i of group g. -/
def Tbl.at (t : Tbl) (g i c : Nat) : Nat := (g * t.y + i) * t.e + c
/-- The 32-byte granule of an entry in the table store, or in the spill allocation (R259). -/
def Tbl.granule (t : Tbl) (eb g i c : Nat) : Nat :=
  if g < t.gs then t.at g i c * eb / 32
  else 2 ^ 32 + (t.at g i c - t.at t.gs 0 0) * eb / 32

/-- Table-store granules in use. -/
def Block.tblUsed (b : Block) : Nat := b.tbe.foldl (fun n x => n + x.2.used) 0

/-- Storage of a table: its resident groups, and spill allocation with rows. A failure is TBALLOC's status. -/
structure Placed where
  gs : Nat
  gran : Nat
  /-- base, granules and rows -/
  spill : Option (Nat × Nat × List (Nat × Nat))
  deriving DecidableEq, Repr

/-- Placement of a table (R259, R262). -/
def State.placeTable (s : State) (core : Nat) (b : Block) (rank g gb : Nat) : Except Nat Placed :=
  let gs := min g ((b.tblBudget - b.tblUsed) * 1024 / gb)
  let gran := (gs * gb + 1023) / 1024
  let k := ((g - gs) * gb + 1023) / 1024
  if gs == g then .ok ⟨gs, gran, none⟩
  else if 1572864 < 1024 * k then .error 3
  else
    match (if 64 ≤ b.allocs.length then none else b.freeBase k) with
    | none => .error 4
    | some base =>
      match placeRows k rank (s.banks core) with
      | none => .error 2
      | some rows => .ok ⟨gs, gran, some (base, k, rows)⟩

/-- The block with a placement's spill allocation. -/
def Block.takePlaced (b : Block) (p : Placed) (aid rank st : Nat) (handler : Pc) : Block :=
  match p.spill with
  | some (base, k, rows) => b.addAlloc aid base k rank handler rows (some st) none
  | none => b

/-- The table state a handle is bound to, with its number. -/
def Block.tbl (b : Block) (h : Nat) : Option (Nat × Tbl) :=
  match Store.find b.tbn h with
  | some sn => (Store.find b.tbs sn).map fun t => (sn, t)
  | none => none
def Block.tblData (b : Block) (st : Nat) : TblData := (Store.find b.tbe st).getD ⟨[], [], false, [], []⟩
/-- The groups of a table state that its spill allocation held are gone (R259). -/
def Tbl.dark (t : Tbl) (d : TblData) : Bool := t.spill.any d.dark.contains
/-- The handle is bound to a new state. -/
def Block.bindTbl (b : Block) (h sn : Nat) (t : Tbl) : Block :=
  { b with tbs := Store.put b.tbs sn t, tbn := Store.put b.tbn h sn }
/-- A word that names a bound table: poisoned sources first, then R74. -/
def tblForm (h : Nat) (srcs : List Nat) (s : State)
    (f : State → Group → Cur → Block → Nat → Tbl → Except Fate (State × Group)) : Out :=
  blockForm s srcs fun s g c b =>
    match b.tbl h with
    | none => .error illegal
    | some (sn, t) => f s g c b sn t

def Tbl.usable (t : Tbl) : Bool := t.built && t.valid && !t.lost && !t.spilled

/-! TBALLOC and TBFREE (R262, R263). -/

/-- The slot checks of R262. -/
def tableSlotOk (slot : DWord) : Bool :=
  let f := slotFmt slot
  slotOk slot && slotEnt slot < 5 && slotScale slot == 0 && slotRnd slot != 4 &&
  (if slotEnt slot < 3 then f ≤ 4 || f == 8 || f == 9 else f == 8 || f == 9)

def execTballoc (h : BitVec 4) (sa sd : BitVec 6) (slot : BitVec 3) (lit : Word) (s : State) : Out :=
  blockForm s [sa.toNat] fun s g c b =>
    let x := (g.arch.readS sa.toNat).toNat
    let sl := b.slots.getD slot.toNat 0
    let rank := x / 2 ^ 25 % 8
    let cb := x / 2 ^ 24 % 2 == 1
    let y := x / 2 ^ 16 % 32
    let n := x % 2 ^ 13
    let status := fun (k : Nat) => Except.ok (s, g.setS sd.toNat k)
    if b.tbh ≤ h.toNat || !tableSlotOk sl then .error illegal
    else if (Store.find b.tbn h.toNat).isSome then status 1
    else if n == 0 || 4096 < n || y == 0 || 16 < y || x / 2 ^ 28 != 0 || x / 2 ^ 21 % 8 != 0 || x / 2 ^ 13 % 8 != 0 then
      status 3
    else
      match s.placeTable g.core b rank n (groupBytes cb y (entBytes sl)) with
      | .error k => status k
      | .ok p =>
        let sn := s.nextId
        let handler := target c.hdr lit.toNat 32
        let t : Tbl :=
          { h := h.toNat, cb := cb, rank := rank, y := y, g := n, gs := p.gs, slot := slot.toNat, handler := handler,
            st := sn, res := sn, spill := p.spill.map Prod.fst, built := false, valid := false, lost := false, spilled := false,
            lo := 0, hi := 0, armed := false, armUid := 0, armId := 0, cause := causeWord 1 h.toNat 0, n := 0 }
        let b1 := (b.takePlaced p sn rank sn handler).bindTbl h.toNat sn t
        let b2 := { b1 with tbe := Store.put b1.tbe sn ⟨[(sn, p.gran, true)], [], false, [], []⟩ }
        .ok (({ s with nextId := sn + 1 } : State).setBlock g.block b2,
          (g.setS sd.toNat 0).modCur fun c =>
            c.takesBack sn [.tbBind g.block h.toNat sn, .tbHold g.block sn sn t.spill])

/-- TBFREE (R263): the granules return at issue, the spill allocation when the operation is performed. -/
def execTbfree (h : BitVec 4) (s : State) : Out :=
  tblForm h.toNat [] s fun s g c b sn t =>
    let b1 := { b with tbn := b.tbn.del h.toNat }
    let b2 := if t.spilled then b1 else b1.modTbe t.st (·.hold t.res false)
    let us := .tbFree g.block h.toNat sn :: (if t.spilled then [] else [Undo.tbKeep g.block t.st t.res])
    .ok (submitOp (s.setBlock g.block b2) (g.modCur fun c => c.takesBack s.nextId us) c [] 1 (.tbfree sn) 0)

/-! TBUILD (R264, R265). -/

/-- The spill allocation of a LOST table has rows again: those of the allocation it had, or a new one where it was
freed. Its resident groups stay those it had (R264, R275; DESIGN CHOICE, log 53). -/
def State.replaceSpill (s : State) (core : Nat) (b : Block) (t : Tbl) : Option (Block × Tbl × List TblPlace) :=
  match t.spill with
  | none => some (b, t, [])
  | some base =>
    match b.allocs.find? fun a => a.base == base && a.spill == some t.st with
    | some a =>
      if a.state == .live then some (b, t, [])
      else
        (placeRows a.granules a.rank (s.banks core)).map fun rows =>
          (b.setAlloc { a with state := .live, rows := rows, zeroed := some (0, s.nextId) }, t, [.rows s.nextId])
    | none =>
      let k := ((t.g - t.gs) * groupBytes t.cb t.y (entBytes (b.slots.getD t.slot 0)) + 1023) / 1024
      match (if 64 ≤ b.allocs.length then none else b.freeBase k), placeRows k t.rank (s.banks core) with
      | some base1, some rows =>
        some (b.addAlloc s.nextId base1 k t.rank t.handler rows (some t.st) none, { t with spill := some base1 },
          [.alloc s.nextId])
      | _, _ => none

/-- Storage for a SPILLED or LOST table is placed again (R264, R275): the block, the new state, and what a
rollback gives back. While an earlier TBFILL of it is pending it still counts as SPILLED, and storage is placed a second
time (DESIGN CHOICE, log 53). -/
def State.replaceTable (s : State) (core : Nat) (b : Block) (t : Tbl) : Option (Block × Tbl × List TblPlace) :=
  if !t.spilled then s.replaceSpill core b t
  else
    match s.placeTable core b t.rank t.g (groupBytes t.cb t.y (entBytes (b.slots.getD t.slot 0))) with
    | .error _ => none
    | .ok p =>
      let b1 := b.takePlaced p s.nextId t.rank t.st t.handler
      let b2 := b1.modTbe t.st fun d => { d with res := d.res ++ [(s.nextId, p.gran, true)] }
      let sp := p.spill.map Prod.fst
      some (b2, { t with gs := p.gs, res := s.nextId, spill := sp }, [.hold t.st s.nextId sp])

/-- TBUILD.BP and TBUILD.CB; `cent` the codebook's offset and k its rows. The cause word that they reset is 0, its HANDLE
field too (R268; DESIGN CHOICE, log 100). -/
def tbuildIssue (h : Nat) (sa sd : Nat) (cb : Bool) (srcs : List Nat) (bad : Bool) (centReg k : Nat) (s : State) : Out :=
  tblForm h (uRegs sa true ++ srcs) s fun s g c b _ t =>
    let map := BitVec.ofNat 64 (g.arch.readS64 sa)
    let cent := (g.arch.readS centReg).toNat
    let slot := b.slots.getD t.slot 0
    let w := match Fmt.ofCode (slotFmt slot) with | some f => f.width | none => 32
    let rb := rowBytes (4 * t.g) w 0
    let lo := mapBase map
    let len := (t.y - 1) * mapPitch map + (if mapSkew map == 0 then rb else mapPitch map)
    if bad || mapT map || !mapOk map rb || t.cb != cb then .error illegal
    else
      match s.rangeFate g ((lo, len) :: (if cb then [(cent, (4 * k * w + 7) / 8)] else [])) with
      | some f => .error f
      | none =>
        match (if t.spilled || t.lost then s.replaceTable g.core b t else some (b, t, [])) with
        | none => .ok (submitOp s (g.setS sd 2) c [] 1 (.none (0x6B + if cb then 128 else 0)) 0)
        | some (b1, t1, us) =>
          let sn := s.nextId
          let t2 := { t1 with
            built := true, valid := true, lost := false, spilled := false, lo := lo, hi := lo + len - 1, armed := true,
            armUid := g.uid, armId := sn, cause := 0, n := if cb then k else t1.n }
          let old := (Store.find b.tbn h).getD 0
          let s1 := ({ s with nextId := sn + 1 } : State).setBlock g.block (b1.bindTbl h sn t2)
          let g1 := (g.setS sd 0).modCur fun c => c.takesBack sn [.tbNew g.block h old sn us]
          .ok (submitOp s1 g1 c [] 1 (.tbuild sn map cent) 0)

def execTbuildBp (h : BitVec 4) (sa sd : BitVec 6) (s : State) : Out :=
  tbuildIssue h.toNat sa.toNat sd.toNat false [] false 63 0 s
def execTbuildCb (h : BitVec 4) (sa sd : BitVec 6) (lit : Word) (s : State) : Out :=
  let sc := lit.toNat % 64
  let k := lit.toNat / 64 % 32
  tbuildIssue h.toNat sa.toNat sd.toNat true [sc] (lit.toNat / 2 ^ 11 != 0 || k == 0 || 16 < k) sc k s

/-! LMMA (R269, R272). -/

/-- The issuing group's own writes that have not arrived, but for those that a loss will discard (R266, R267). -/
def State.ownWrites (s : State) (g : Group) (b : Block) : List Req :=
  (s.reqsOf g.uid).filter fun q =>
    q.open && ((match q.act with | .szero _ => true | _ => false) ||
      (q.act.isScr && (q.act.isStore || q.act.isAtomic) && (b.laneAlloc q.va).any (·.serves g.uid)))

/-- The block as if these writes had arrived (R267). -/
def Block.arrived (b : Block) (qs : List Req) : Block :=
  qs.foldl (fun b q => 
    b.watch q.va q.act.width (if !q.act.isScr then 7 else if q.act.isStore then 2 else 3) (some (q.grp, q.id)) (q.parts qs)) b

/-- The block after LMMA has sampled table state `sn`: the issuing group's own writes that have not arrived count, and
invalidate the table at the sample point (R267; DEDUCED, log 29). -/
def State.sampledBlock (s : State) (g : Group) (b : Block) (sn : Nat) : Block :=
  match Store.find (b.arrived (s.ownWrites g b)).tbs sn with
  | some t => { b with tbs := Store.put b.tbs sn t }
  | none => b

/-- Entry into the handler of an unusable table (R272). -/
def tableFate (t : Tbl) : Fate := .inGroup 7 t.handler (2 ^ 31 + t.h) (t.cause % 2 ^ 21) t.cause

/-- The registers that LMMA reads. -/
def lmmaSrcs (o : Lmma) : List Nat := uRegs o.sa.toNat true ++ [o.sb.toNat, o.lit.toNat % 64]
/-- Its codes map, scale offset and groups word. -/
def lmmaOperands (o : Lmma) (a : Arch) : DWord × Nat × Nat :=
  (BitVec.ofNat 64 (a.readS64 o.sa.toNat), (a.readS o.sb.toNat).toNat, (a.readS (o.lit.toNat % 64)).toNat)

/-- The checks of LMMA that come before its sample point (R269): the accumulator's storage and the table's state. -/
def lmmaBefore (o : Lmma) (s : State) (g : Group) (b : Block) : Except Fate (Nat × Nat × Tbl) :=
  let (map, sc, sk) := lmmaOperands o g.arch
  let kg := sk / 2 ^ 16 % 2 ^ 13
  let planes := o.planes.toNat + 1
  if g.arch.badUs (lmmaSrcs o) then .error (poisoned noLane)
  else match b.acc o.h.toNat, b.tbl o.tb.toNat with
  | some (st, a), some (sn, t) =>
    let ent := slotEnt (b.slots.getD t.slot 0)
    if o.lit.toNat / 64 != 0 || (t.cb && 1 < planes) || a.int != (3 ≤ ent : Bool) || a.m < t.y || mapT map ||
        !mapOk map ((kg + 1) / 2) || (o.z && o.r) then .error illegal
    else
      let rows := (mapRanges map (planes * a.n) kg 4 0 0).filter fun r => r.2 != 0
      match s.rangeFate g (rows ++ [(sc, 2 * planes * a.n)]) with
      | some f => .error f
      | none => if sc % 2 != 0 then .error (misaligned noLane sc) else .ok (st, sn, t)
  | _, _ => .error illegal

/-- The sample of the LMMA that is being issued: what the issuing group's own writes do to the table stays, also where
the clause is undone (R267). -/
def State.sample (s : State) (o : Lmma) : State :=
  match s.group s.who with
  | none => s
  | some g =>
    match s.blockOf g with
    | none => s
    | some b =>
      match lmmaBefore o s g b with
      | .ok (_, sn, _) => if (s.ownWrites g b).isEmpty then s else s.setBlock g.block (s.sampledBlock g b sn)
      | .error _ => s

/-- LMMA (R269, R272): the table is as the sample left it. -/
def execLmma (o : Lmma) (s : State) : Out :=
  blockForm (s.sample o) (lmmaSrcs o) fun s g c b =>
    match lmmaBefore o s g b with
    | .error f => .error f
    | .ok (st, sn, t) =>
      let (map, sc, sk) := lmmaOperands o g.arch
      let kg := sk / 2 ^ 16 % 2 ^ 13
      if !t.usable then .error (tableFate t)
      else if kg == 0 || t.g < sk % 2 ^ 13 + kg || sk / 2 ^ 13 % 8 != 0 || sk / 2 ^ 29 != 0 then
        .error (.trap 8 1 noLane 0)
      else .ok (submitOp s g c [] 1 (.lmma st sn map sc sk (o.planes.toNat + 1) t.n o.z o.r) 0)

/-! TBSTAT, TBSPILL and TBFILL at issue (R275, R278). -/

def bit (b : Bool) (n : Nat) : Nat := if b then 2 ^ n else 0

def execTbstat (h : BitVec 4) (sd : BitVec 6) (s : State) : Out :=
  tblForm h.toNat [] s fun s g _ _ _ t =>
    .ok (s, g.setS sd.toNat (bit t.built 31 + bit t.valid 30 + bit t.lost 29 + bit t.spilled 28 + bit t.cb 27 +
      t.rank * 2 ^ 24 + t.cause / 2 ^ 28 * 2 ^ 20 + t.slot * 2 ^ 17 + t.gs))

def execTbspill (h : BitVec 4) (sa sd : BitVec 6) (s : State) : Out :=
  tblForm h.toNat [sa.toNat] s fun s g c b old t =>
    let off := (g.arch.readS sa.toNat).toNat
    if off % 64 != 0 then .error (misaligned noLane off)
    else if !t.built || t.spilled || t.lost then .ok (submitOp s (g.setS sd.toNat 6) c [] 1 (.none (0x6D + 128)) 0)
    else
      let sn := s.nextId
      let t1 := { t with spilled := true, cause := causeWord 10 t.h 0 }
      let s1 := ({ s with nextId := sn + 1 } : State).setBlock g.block (b.bindTbl h.toNat sn t1)
      let g1 := (g.setS sd.toNat 0).modCur fun c => c.takesBack sn [.tbNew g.block h.toNat old sn []]
      .ok (submitOp s1 g1 c [] 1 (.tbspill sn off) 0)

def execTbfill (h : BitVec 4) (sa sd : BitVec 6) (s : State) : Out :=
  tblForm h.toNat [sa.toNat] s fun s g c b old t =>
    let off := (g.arch.readS sa.toNat).toNat
    if !(t.spilled || t.lost) then .ok (submitOp s (g.setS sd.toNat 5) c [] 1 (.none (0x6D + 256)) 0)
    else
      match s.replaceTable g.core b t with
      | none => .ok (submitOp s (g.setS sd.toNat 2) c [] 1 (.none (0x6D + 256)) 0)
      | some (b1, t1, us) =>
        let sn := s.nextId
        let s1 := ({ s with nextId := sn + 1 } : State).setBlock g.block (b1.bindTbl h.toNat sn t1)
        let g1 := (g.setS sd.toNat 0).modCur fun c => c.takesBack sn [.tbNew g.block h.toNat old sn us]
        .ok (submitOp s1 g1 c [] 1 (.tbfill sn off t.spilled) 0)

/-! Engine steps of LMMA (R270). -/

/-- Look of R270. -/
def look (t : Tbl) (n : Nat) (d : TblData) (f : Fmt) (g i code : Nat) : Val :=
  let ent := fun c => f.decode (Store.get d.el (t.at g i c) 0).toNat
  if t.cb then (if code < n then ent code else Val.zero)
  else if code < 8 then ent code
  else (ent (15 - code)).negate
/-- The stored entry a code reads. -/
def lookIdx (t : Tbl) (code : Nat) : Nat := if t.cb || code < 8 then code else 15 - code

/-- A fault that an engine met, for the issuing group's next clause boundary (R272, R273). -/
def State.deferOp (s : State) (op : Op) (cls detail obj addr lane : Nat) (handler : Pc) : State :=
  s.defer op.grp ⟨op.id, 15, cls, detail, obj, addr, lane, handler, op.gang, none, none⟩

/-- One engine step e = chunk · planes + plane; first its bytes are read. -/
def lmmaStep (s : State) (g : Group) (op0 : Op) (st tb : Nat) (map : DWord) (sc sk planes n : Nat) (z r : Bool) : State :=
  match Store.find s.blocks g.block with
  | none => s.putOp { op0 with finished := true }
  | some b =>
    match Store.find b.acs st, Store.find b.tbs tb with
    | some a0, some t =>
      let slot := b.slots.getD t.slot 0
      let f := entFmt slot
      let eb := entBytes slot
      let d := b.tblData t.st
      let g0 := sk % 2 ^ 13
      let kg := sk / 2 ^ 16 % 2 ^ 13
      let (op, a) := beginMm op0 a0 z r
      let total := (kg + 15) / 16 * planes
      let put := fun (s : State) (x : Op × Acc) =>
        (s.modBlock g.block fun b => { b with acs := Store.put b.acs st x.2 }).putOp x.1
      if total ≤ op.step then put s ({ op with finished := true }, { a with rs := none })
      else if op.ending then put s (stopMm op a)
      else
        let c := op.step / planes
        let p := op.step % planes
        let qs := (List.range (min 16 (kg - 16 * c))).map (16 * c + ·)
        let elem := fun (j q : Nat) => elemAt map 4 0 0 (p * a.n + j) q
        let al := fun (j : Nat) => sc + 2 * (p * a.n + j)
        let offs := ((List.range a.n).map fun j => al j :: (al j + 1) :: (qs.map fun q => (elem j q).reads).flatten).flatten
        if d.gone || (t.dark d && qs.any fun q => t.gs ≤ g0 + q) then
          let cause := if d.gone then t.cause else causeWord 9 t.h (t.spill.getD 0)
          (put s (stopMm { op with lost := true } a)).deferOp op 7 0 (2 ^ 31 + t.h) (cause % 2 ^ 21) cause t.handler
        else
          match b.hits g.uid offs with
          | .lost => put s (stopMm { op with lost := true } a)
          | .range => put s (stopMm (op.fail 3) a)
          | .ok =>
            match op.reading s.draws b offs with
            | some o => put s.drawn (o, a)
            | none =>
            let b := b.seen offs op.buf
            let codes := (List.range a.n).map fun j => qs.map fun q => (elem j q).code b 4
            if t.cb && codes.any fun r => r.any fun x => n ≤ x then
              (put s (stopMm (op.fail 10) a)).deferOp op 8 2 0 0 0 0
            else
              let pairs := fun (j : Nat) => qs.zip (codes.getD j [])
              let ue := b.badBytes offs || (List.range a.n).any fun j => (pairs j).any fun (x : Nat × Nat) =>
                (List.range t.y).any fun i => d.poison.contains (t.granule eb (g0 + x.1) i (lookIdx t x.2))
              let (a1, fl) := a.update (List.range t.y) fun i j x =>
                let vs := (pairs j).map fun (x : Nat × Nat) => (look t n d f (g0 + x.1) i x.2, 0)
                let w := b.byte (al j) + 256 * b.byte (al j + 1)
                if a.int then
                  match (exactSum vs).1 with
                  | .fin sg m den => (x + BitVec.ofNat 32 (wrap (sext w 16 * sgn sg (m / den)) 32), 0)
                  | _ => (x, 0)
                else
                  let (s0, f0) := exactSum vs
                  let (s1, f1) := Fmt.fp32.round s0 (laneMode 0)
                  let (pr, f2) := laneRound .fp32 0 ((Fmt.fp16.decode w).mul (Fmt.fp32.decode s1))
                  let (y, f3) := accAdd false x (BitVec.ofNat 32 pr)
                  (y, f0 ||| f1 ||| f2 ||| f3)
              let (op1, a2) := nextMm { op with flags := op.flags ||| BitVec.ofNat 32 fl } a1 total
              put s (if ue then failMm (op1, a2) 0 else (op1, a2))
    | _, _ => s.putOp { op0 with finished := true }

/-! Engine steps of TBUILD (R264, R265). -/

/-- A value read for a build: present, with poison, or lost. -/
structure BuildVal where
  v : Val
  bad : Bool
  lost : Bool
  out : Bool
  deriving DecidableEq, Repr

/-- An element read by the builder. -/
def buildVal (b : Block) (uid : Nat) (f : Fmt) (e : Elem) : BuildVal :=
  match b.hits uid e.reads with
  | .lost => ⟨.zero, false, true, false⟩
  | .range => ⟨.zero, false, false, true⟩
  | .ok => ⟨f.decode (e.code b f.width), b.badBytes e.reads, false, false⟩

/-- Element q of a codebook (R264). -/
def codeElem (f : Fmt) (off q : Nat) : Elem :=
  let pos := f.width * q
  ⟨pos % 8, (List.range ((pos % 8 + f.width + 7) / 8)).map fun i => off + pos / 8 + i, none⟩
/-- The codebook, read once when the operation starts: 4k elements. Codes with marks 2^40 poisoned, 2^41 lost
and 2^42 in no allocation. -/
def readCodebook (b : Block) (uid : Nat) (f : Fmt) (off k : Nat) : List Nat :=
  (List.range (4 * k)).map fun q =>
    let e := codeElem f off q
    match b.hits uid e.reads with
    | .lost => 2 ^ 41
    | .range => 2 ^ 42
    | .ok => e.code b f.width + bit (b.badBytes e.reads) 40
def codeVal (f : Fmt) (x : Nat) : BuildVal :=
  ⟨f.decode x, x / 2 ^ 40 % 2 == 1, x / 2 ^ 41 % 2 == 1, x / 2 ^ 42 % 2 == 1⟩

/-- An entry's exact value and flags: the signed sum of activations, or the product with a codebook row. -/
def entryVal (t : Tbl) (slot : DWord) (xs cs : List Val) (c : Nat) : Val × Nat :=
  let rd := slotRnd slot == 2
  let terms := (List.range 4).map fun i =>
    let x := xs.getD i Val.zero
    if t.cb then x.mul (cs.getD i Val.zero)
    else (if c / 2 ^ i % 2 == 1 then x else x.negate, 0)
  match terms with
  | [] => (Val.zero, 0)
  | p :: r => r.foldl (fun (acc : Val × Nat) q =>
      let (v, f) := acc.1.add rd q.1
      (v, acc.2 ||| f ||| q.2)) p

/-- One entry of a build: the operation and the data after it. -/
def buildEntry (t : Tbl) (slot : DWord) (book : List Nat) (xs : List BuildVal) (g i c : Nat) (od : Op × TblData) : Op × TblData :=
  let (op, d) := od
  let f := (Fmt.ofCode (slotFmt slot)).getD .fp32
  let gran := t.granule (entBytes slot) g i c
  if t.cb && t.n ≤ c then (op, { d with el := Store.del d.el (t.at g i c) })
  else
    let cs := if t.cb then (List.range 4).map fun q => codeVal f (book.getD (4 * c + q) 0) else []
    let all := xs ++ cs
    let op1 := if all.any BuildVal.lost then { op with lost := true } else op
    let op2 := if all.any BuildVal.out then op1.fail 3 else op1
    if all.any fun x => x.lost || x.out then (op2, d)
    else
      let (v, fl) := entryVal t slot (xs.map BuildVal.v) (cs.map BuildVal.v) c
      let (w, fr) := (entFmt slot).round v (slotMode slot 0)
      let bad := all.any BuildVal.bad
      let op3 := { (if bad then op2.fail 6 else op2) with flags := op2.flags ||| BitVec.ofNat 32 (fl ||| fr) }
      (op3, { d with el := Store.set d.el (t.at g i c) (BitVec.ofNat 32 w) 0,
                     poison := if bad then NSet.insert d.poison gran else d.poison })

/-- The bytes that a step of a build reads: before the first, the codebook; then the activations of 16 groups. -/
def buildReads (t : Tbl) (f : Fmt) (op : Op) (map : DWord) (cent : Nat) : List Nat :=
  (if t.cb && op.step == 0 then ((List.range (4 * t.n)).map fun q => (codeElem f cent q).reads).flatten else []) ++
  ((List.range (min 16 (t.g - 16 * op.step))).map fun k => ((List.range t.y).map fun i => ((List.range 4).map fun q =>
    (elemAt map f.width 0 0 i (4 * (16 * op.step + k) + q)).reads).flatten).flatten).flatten

/-- One step of a build: 16 groups; first its bytes are read. -/
def tbuildStep (s : State) (g : Group) (op0 : Op) (tb : Nat) (map : DWord) (cent : Nat) : State :=
  match Store.find s.blocks g.block with
  | none => s.putOp { op0 with finished := true }
  | some b =>
    match Store.find b.tbs tb with
    | none => s.putOp { op0 with finished := true }
    | some t =>
      let slot := b.slots.getD t.slot 0
      let f := (Fmt.ofCode (slotFmt slot)).getD .fp32
      if op0.ending then s.putOp { op0 with finished := true }
      else
      let offs := buildReads t f op0 map cent
      match op0.reading s.draws b offs with
      | some o => s.drawn.putOp o
      | none =>
      let b := b.seen offs op0.buf
      let d0 := b.tblData t.st
      let (op, d) :=
        if op0.step != 0 then (op0, d0)
        else ({ op0 with scratch := if t.cb then readCodebook b g.uid f cent t.n else [] },
          { d0 with dark := [], gone := false, poison := [] })
      let gone := b.spillGone t
      let groups := (List.range (min 16 (t.g - 16 * op.step))).map (16 * op.step + ·)
      let spilled := groups.any fun gr => gone && t.gs ≤ gr
      let (op1, d1) := groups.foldl (fun (od : Op × TblData) gr =>
        if gone && t.gs ≤ gr then (od.1, { od.2 with dark := NSet.insert od.2.dark (t.spill.getD 0) })
        else (List.range t.y).foldl (fun (od : Op × TblData) i =>
          let xs := (List.range 4).map fun q => buildVal b g.uid f (elemAt map f.width 0 0 i (4 * gr + q))
          (List.range t.e).foldl (fun od c => buildEntry t slot op.scratch xs gr i c od) od) od) ({ op with lost := false }, d)
      -- source bytes lost: the table is stale with cause SOURCE
      let s1 := s.modBlock g.block fun b =>
        let b1 := { b with tbe := Store.put b.tbe t.st d1 }
        if op1.lost then b1.modStates t.st fun x =>
          { x with valid := false, cause := if x.cause == 0 then causeWord 8 x.h 0 else x.cause }
        else b1
      s1.putOp { op1.nextTransfer ((t.g + 15) / 16) with lost := op.lost || op1.lost || spilled }

/-! Table images (R277). -/

def shapeWord (t : Tbl) : Nat := t.rank * 2 ^ 25 + bit t.cb 24 + t.y * 2 ^ 16 + t.g
/-- The 64-byte header. -/
def imageHeader (t : Tbl) : List Byte :=
  (leBytes 4 1 ++ leBytes 4 (shapeWord t) ++ leBytes 4 (bit t.built 8 + bit t.valid 9 + bit t.lost 10 + t.slot) ++
    leBytes 4 t.lo ++ leBytes 4 t.hi ++ leBytes 4 t.n ++ leBytes 4 t.cause) ++ List.replicate 36 0
/-- The bytes of one group's entries. -/
def groupImage (t : Tbl) (eb : Nat) (d : TblData) (g : Nat) : List Byte :=
  ((List.range (t.y * t.e)).map fun i => leBytes eb (Store.get d.el (g * t.y * t.e + i) 0).toNat).flatten

/-- The worst that a range of the scratchpad meets, by KiB. -/
def Block.hitRange (b : Block) (uid off n : Nat) : ScrHit :=
  b.hits uid (off :: (List.range (n / 1024 + 1)).filterMap fun i =>
    let o := (off / 1024 + i + 1) * 1024
    if o < off + n then some o else none)

/-- A byte of a part of an image is written, which of those that remain free; a lost one is discarded (R193, R277). -/
def State.imageByte (s : State) (g : Group) (op : Op) (off : Nat) (bs : List Byte) (bad : Bool) (total : Nat) : State :=
  let k := (pickOf s.draws (op.bytesThat bs.length ByteAt.isTodo)).getD 0
  let onward := fun (s : State) (o : Op) =>
    let o1 := { o.setByte bs.length k (.wrote []) with started := true, pos := op.pos + 1 }
    if o1.pos < bs.length then s.putOp o1
    else (if bad then s else s.clearScr g.block (wholeGranules ((List.range bs.length).map (off + ·)))).putOp (o1.nextTransfer total)
  match s.scrHit g.block g.uid (off + k) 1 with
  | .ok => onward (s.drawn.scrPut g.block (off + k) [bs.getD k 0] bad 4) (if bad then op.fail 6 else op)
  | m => onward s.drawn (op.miss m)

/-- One step of TBSPILL: a byte of the header, then of a group at a time. -/
def tbspillStep (s : State) (g : Group) (op : Op) (tb off : Nat) : State :=
  match Store.find s.blocks g.block with
  | none => s.putOp { op with finished := true }
  | some b =>
    match Store.find b.tbs tb with
    | none => s.putOp { op with finished := true }
    | some t =>
      let slot := b.slots.getD t.slot 0
      let eb := entBytes slot
      let gb := groupBytes t.cb t.y eb
      let d := b.tblData t.st
      if op.ending && op.pos == 0 then s.putOp { op with finished := true }
      else if op.step == 0 then
        if b.hitRange g.uid off (64 + t.g * gb) == .range then s.putOp { op.fail 3 with finished := true }
        else s.imageByte g op off (imageHeader t) false (t.g + 1)
      else
        let gr := op.step - 1
        if d.gone || (t.dark d && t.gs ≤ gr) then s.putOp { op.nextTransfer (t.g + 1) with lost := true }
        else
          let bad := (List.range (t.y * t.e)).any fun i => d.poison.contains (t.granule eb gr (i / t.e) (i % t.e))
          s.imageByte g op (off + 64 + gr * gb) (groupImage t eb d gr) bad (t.g + 1)

/-- The image's header matches the handle's state (R277); N is looked at of a CB table only (DESIGN CHOICE, log 101). -/
def imageOk (b : Block) (t : Tbl) (raw : List Byte) : Bool :=
  let wd := fun (o : Nat) => leNat ((raw.drop o).take 4)
  let mask := fun (x : Nat) => x - x / 2 ^ 25 % 8 * 2 ^ 25
  wd 0 == 1 && mask (wd 4) == mask (shapeWord t) &&
  slotEnt (b.slots.getD (wd 8 % 8) 0) == slotEnt (b.slots.getD t.slot 0) &&
  wd 12 == t.lo && wd 16 == t.hi && (!t.cb || wd 20 == t.n)

/-- One step of TBFILL: the header is checked, then a group at a time is read; the entries change only at the
end. -/
def tbfillStep (s : State) (g : Group) (op : Op) (tb off : Nat) : State :=
  match Store.find s.blocks g.block with
  | none => s.putOp { op with finished := true }
  | some b =>
    match Store.find b.tbs tb with
    | none => s.putOp { op with finished := true }
    | some t =>
      let slot := b.slots.getD t.slot 0
      let eb := entBytes slot
      let gb := groupBytes t.cb t.y eb
      let atEnd := fun (o : Op) => { o with finished := true, started := true }
      if op.ending then s.putOp (atEnd op)
      else if op.step == 0 then
        match b.hitRange g.uid off (64 + t.g * gb) with
        | .range => s.putOp (atEnd (op.fail 3))
        | .lost => s.putOp (atEnd { op with lost := true })
        | .ok =>
          let offs := (List.range 64).map (off + ·)
          match op.reading s.draws b offs with
          | some o => s.drawn.putOp o
          | none =>
          let b := b.seen offs op.buf
          if !imageOk b t (b.scr.readN off 64) then s.putOp (atEnd (op.fail 4))
          else
            let o := if b.badBytes [off, off + 32] then op.fail 6 else op
            s.putOp (o.nextTransfer (t.g + 1))
      else
        let gr := op.step - 1
        let at_ := off + 64 + gr * gb
        match b.hitRange g.uid at_ gb with
        | .range => s.putOp (atEnd (op.fail 3))
        | .lost => s.putOp (atEnd { op with lost := true })
        | .ok =>
          let offs := (List.range gb).map (at_ + ·)
          match op.reading s.draws b offs with
          | some o => s.drawn.putOp o
          | none =>
          let b := b.seen offs op.buf
          let ws := (List.range (t.y * t.e)).map fun i =>
            let o := at_ + i * eb
            leNat (b.scr.readN o eb) + bit (b.scrPoison.contains (o / 32)) 40
          let o1 := if ws.any (2 ^ 40 ≤ ·) then op.fail 6 else op
          let o2 := { o1.nextTransfer (t.g + 1) with scratch := op.scratch ++ ws }
          if gr + 1 < t.g then s.putOp o2
          else
            let gone := b.spillGone t
            let n := t.y * t.e
            let d0 := b.tblData t.st
            let d1 := (List.range o2.scratch.length).foldl (fun (d : TblData) i =>
              let x := o2.scratch.getD i 0
              let k := t.granule eb (i / n) (i % n / t.e) (i % t.e)
              { d with el := Store.set d.el i (BitVec.ofNat 32 (x % 2 ^ 32)) 0,
                       poison := if 2 ^ 40 ≤ x then NSet.insert d.poison k else d.poison })
              { d0 with dark := if gone then t.spill.toList else [], gone := false, el := [], poison := [] }
            (s.modBlock g.block fun b => { b with tbe := Store.put b.tbe t.st d1 }).putOp { o2 with lost := o2.lost || gone }

/-! Steps. -/

/-- Full-rate cycles of the steps of an LMMA before step `e`, or of all of them (R282). -/
def Group.lmmaCycles (g : Group) (s : State) (op : Op) (e : Option Nat) : Nat :=
  match op.kind, Store.find s.blocks g.block with
  | .lmma st tb _ _ sk planes _ _ r, some b =>
    match Store.find b.acs st, Store.find b.tbs tb with
    | some a, some t =>
      let g0 := sk % 2 ^ 13
      let kg := sk / 2 ^ 16 % 2 ^ 13
      (List.range (e.getD ((kg + 15) / 16 * planes))).foldl (fun n e =>
        if e < op.firstStep b st r then n
        else
          let c := e / planes
          let gs := (List.range (min 16 (kg - 16 * c))).map (g0 + 16 * c + ·)
          let gp := (gs.filter fun x => t.gs ≤ x).length
          let work := fun (k : Nat) => (t.y * a.n * k + 2047) / 2048
          n + work (gs.length - gp) + 4 * work gp) 0
    | _, _ => 0
  | _, _ => 0

/-- LOOKUP_ENGINE_STEP (R252, R264, R270, R271, R275). -/
def execLookupEngineStep (core : Nat) (s : State) : Out :=
  match s.engineReady core true with
  | none => .next s
  | some op =>
    match s.handleOf op.grp with
    | none => .next s
    | some h =>
      match s.group h with
      | none => .next s
      | some g =>
        match op.kind with
        | .lmma st tb map sc sk planes n z r =>
          if op.ending || 8 * g.lmmaCycles s op (some (op.step + 1)) ≤ op.work then
            .next (lmmaStep s g op st tb map sc sk planes n z r)
          else .next s
        | .tbuild tb map cent => .next (tbuildStep s g op tb map cent)
        | .tbspill tb off => .next (tbspillStep s g op tb off)
        | .tbfill tb off _ => .next (tbfillStep s g op tb off)
        | _ => .next (s.putOp { op with finished := true })

/-- LOOKUP_OP_COMPLETE (R203, R253, R275). -/
def execLookupOpComplete (core : Nat) (s : State) : Out :=
  match (s.headOp core true).filter (·.finished) with
  | none => .next s
  | some op =>
    match (s.handleOf op.grp).bind s.group with
    | none => .next (s.popEngine op true)
    | some g =>
      let s1 := s.modBlock g.block (·.endTableOp op)
      .next ((s1.popEngine op true).endEngineOp op (op.slew (g.lmmaCycles s op (some op.step))))

/-! Teasel (R252 to R254). -/

/-- The engines of a cluster in the order Teasel visits them: ascending core, matrix before lookup. -/
def engines (cluster : Nat) : List (Nat × Bool) :=
  ((List.range Config.coresPerCluster).map fun i =>
    [(cluster * Config.coresPerCluster + i, false), (cluster * Config.coresPerCluster + i, true)]).flatten

def State.engineLevel (s : State) (e : Nat × Bool) : Nat := (s.core e.1).level e.2
def State.setEngineLevel (s : State) (e : Nat × Bool) (n : Nat) : State :=
  s.setCore e.1 ((s.core e.1).setLevel e.2 n)

/-- An engine that runs filler: nothing in its queue and not yet at level 0 (R253). -/
def State.filler (s : State) (e : Nat × Bool) : Bool := (s.engineOps e.1 e.2).isEmpty && s.engineLevel e != 0
/-- An engine that requests (R252, item 2). -/
def State.requests (s : State) (e : Nat × Bool) : Bool :=
  s.engineLevel e < 8 && (match s.headOp e.1 e.2 with | some op => op.ramps && !op.finished | none => false)

/-- The raises of one step: at most CAP in all, stopping at the first that would pass it. -/
def raiseLevels (inc cap : Nat) (s : State) (total : Nat) (es : List (Nat × Bool)) : State :=
  match es with
  | [] => s
  | e :: r =>
    if !s.requests e then raiseLevels inc cap s total r
    else
      let x := min inc (8 - s.engineLevel e)
      if cap < total + x then s
      else raiseLevels inc cap (s.setEngineLevel e (s.engineLevel e + x)) (total + x) r

/-- Filler falls, then requesting engines rise. -/
def State.teasel (s : State) (cluster : Nat) : State :=
  let c := s.cluster cluster
  let inc := c.inc + 1
  let s1 := ((engines cluster).filter s.filler).foldl (fun s e => s.setEngineLevel e (s.engineLevel e - inc)) s
  raiseLevels inc c.cap s1 0 (engines cluster)

/-- What a level allows the operation over `n` cycles, and the cycles of these that it needs for `total` full-rate cycles
of work (R252, R253). -/
def Op.earn (op : Op) (level n total : Nat) : Op :=
  let need := 8 * total - op.work
  { op with
    work := op.work + n * level,
    cyc := op.cyc + (if n * level < need then n else if level == 0 then 0 else (need + level - 1) / level) }
/-- An engine works at its level for `n` cycles. While the other engine, or earlier writes of its group, hold the head
back it does no work, and these cycles are added ones (R253, R271). -/
def State.earn (s : State) (n : Nat) (e : Nat × Bool) : State :=
  match s.headOp e.1 e.2 with
  | some op =>
    if op.ramps && !op.finished && !(s.submitGate (s.gateOp op) && s.accFree op e.2) then
      s.putOp { op with headed := true, cyc := op.cyc + n }
    else if op.ramps && !op.finished then
      match (s.handleOf op.grp).bind s.group with
      | some g => s.putOp (({ op with headed := true } : Op).earn (s.engineLevel e) n
          (if e.2 then g.lmmaCycles s op none else g.mmCycles s op none))
      | none => s
    else s
  | none => s

/-- A step boundary of a cluster: the levels move, and each engine does the work of the 4 cycles that follow (R252). -/
def State.boundary (s : State) (cluster : Nat) : State :=
  (engines cluster).foldl (fun s e => s.earn 4 e) (s.teasel cluster)

/-- TELEASEL_STEP_BOUNDARY (R252). `State.tick` has one fall at every cluster cycle divisible by 4. -/
def execTeleaselStepBoundary (cluster : Nat) (s : State) : Out := .next (s.boundary cluster)

end Sys2Proof.Machine
end

