-- ==== Sys2Proof/Machine/Pools.lean ====
section
/-! DEFINITION. Keyed pools (R293 to R306). -/

namespace Sys2Proof.Machine

/-! Issue. -/

/-- A pool form: poisoned sources, then the binding (R293, R296). -/
def poolForm (b : BitVec 3) (srcs : List Nat) (s : State)
    (f : State → Group → Cur → Block → Nat → Except Fate (State × Group)) : Out :=
  blockForm s srcs fun s g c k =>
    match k.pools[b.toNat]? with
    | none => .error illegal
    | some pool => f s g c k pool

/-- A pool request that returns a long-latency result (R296): an uncommitted instruction and a held
request. A result for s63 is dropped (R75). -/
def poolRequest (s : State) (g : Group) (c : Cur) (pre : List Act) (reg n : Nat) (act : Act) : State × Group :=
  let id := s.nextId
  let before := (List.range pre.length).map fun i => mkReq g c (id + i) (pre.getD i .local)
  let rid := id + pre.length
  let p : Pend := ⟨rid, .uni, reg, false, ((List.range n).filter (uKeep reg)).map fun o => (0, o)⟩
  let q := { mkReq g c rid act with pid := some rid }
  ({ s with nextId := rid + 1 },
    { g with arch := { g.arch with pend := g.arch.pend ++ [p] },
             cur := g.cur.map fun c => { c with held := c.held ++ before ++ [q] } })

/-- A pool request without a result. -/
def poolHeld (s : State) (g : Group) (c : Cur) (act : Act) : State × Group :=
  ({ s with nextId := s.nextId + 1 }, g.modCur fun c' => { c' with held := c'.held ++ [mkReq g c s.nextId act] })

/-- PLCFG (R297): a launch without POOLADM raises the privilege trap. -/
def execPlcfg (b : BitVec 3) (sa : BitVec 6) (s : State) : Out :=
  poolForm b (uRegs sa.toNat true) s fun s g c k pool =>
    if !k.poolAdm then .error (.trap 3 detPriv noLane 0)
    else .ok (poolHeld s g c (.plcfg pool (BitVec.ofNat 64 (g.arch.readS64 sa.toNat))))

def execPlstat (b : BitVec 3) (sd : BitVec 6) (sel : BitVec 2) (s : State) : Out :=
  poolForm b [] s fun s g c _ pool => .ok (poolRequest s g c [] sd.toNat 1 (.plstat pool sel.toNat))

/-- PLPUSH (R299): a release at .dev of the group's earlier writes stands before it (R304). -/
def execPlpush (b : BitVec 3) (sa sb : BitVec 6) (w : Bool) (lit : Word) (s : State) : Out :=
  let pay := (List.range 8).map (sb.toNat + ·)
  poolForm b (uRegs sa.toNat true ++ pay) s fun s g c _ pool =>
    if lit.toNat / 64 != 0 then .error illegal
    else
      .ok (poolRequest s g c [.fence 4 1] (lit.toNat % 64) 1
        (.plpush pool (BitVec.ofNat 64 (g.arch.readS64 sa.toNat)) (pay.map g.arch.readS) w))

/-- PLPOP (R300): twelve registers, of which the answer writes some. -/
def execPlpop (b : BitVec 3) (sd : BitVec 6) (w : Bool) (s : State) : Out :=
  poolForm b [] s fun s g c _ pool => .ok (poolRequest s g c [] sd.toNat 12 (.plpop pool w))

def execPldrain (b : BitVec 3) (s : State) : Out :=
  poolForm b [] s fun s g c _ pool => .ok (poolHeld s g c (.pldrain pool))

/-! Configuration (R297). -/

def cfgCap (c : DWord) : Nat := c.toNat / 2 ^ 32 % 2 ^ 16 + 1
def cfgOrder (c : DWord) : Bool := c.getLsbD 9
def cfgP (c : DWord) : Nat := c.toNat / 2 ^ 6 % 8 + 1
def cfgOp (c : DWord) : Nat := c.toNat % 32

/-- INVAL of R297. -/
def cfgInval (c : DWord) : Bool :=
  c.toNat / 2 ^ 48 != 0 || c.toNat / 2 ^ 10 % 2 ^ 22 != 0 || c.getLsbD 5 || 16 ≤ cfgOp c ||
  ((cfgOp c == 14 || cfgOp c == 15) && cfgP c == 1)

/-- Slots of the pool's base die that other configured pools hold (R293). -/
def State.dieUse (s : State) (pool : Nat) : Nat :=
  (s.pools.filter fun (x : Nat × Pool) => x.1 % 8 == pool % 8 && x.1 != pool && x.2.state != 0).foldl
    (fun n x => n + cfgCap x.2.cfg) 0

/-- The reason for rejecting a configuration, 0 for none. -/
def State.cfgReject (s : State) (pool : Nat) (c : DWord) : Nat :=
  let p := s.pool pool
  if cfgInval c then 1
  else if 65536 < s.dieUse pool + cfgCap c then 2
  else if p.state == 1 || p.state == 2 then 3
  else 0

/-! Merging (R298). -/

/-- Op of a word, and whether ADD left its range. -/
def mergeWord (op s n : Nat) : Nat × Bool :=
  let f := Fmt.fp32
  match op with
  | 0 =>
    let x := sext s 32 + sext n 32
    (wrap (satS x 32) 32, satS x 32 != x)
  | 1 => (min (s + n) (2 ^ 32 - 1), 2 ^ 32 ≤ s + n)
  | 2 => ((laneRound f 0 ((f.decode s).add false (f.decode n))).1, false)
  | 3 => (wrap (min (sext s 32) (sext n 32)) 32, false)
  | 4 => (min s n, false)
  | 5 => ((f.round (Val.minV (f.decode s) (f.decode n)) (laneMode 0)).1, false)
  | 6 => (wrap (max (sext s 32) (sext n 32)) 32, false)
  | 7 => (max s n, false)
  | 8 => ((f.round (Val.maxV (f.decode s) (f.decode n)) (laneMode 0)).1, false)
  | 9 => (s &&& n, false)
  | 10 => (s ||| n, false)
  | 11 => (s ^^^ n, false)
  | 12 => (s, false)
  | _ => (n, false)

/-- A push merged into the record of its key. -/
def PoolRec.merge (r : PoolRec) (op : Nat) (ws : List Word) : PoolRec :=
  let folds := if r.folds == 0xFFFFFFFF then r.folds else r.folds + 1
  let a := sext (r.w.headD 0).toNat 32
  let b := sext (ws.headD 0).toNat 32
  if op == 14 || op == 15 then
    { r with w := if (if op == 14 then b < a else a < b) then ws else r.w, folds := folds }
  else
    let xs := (List.range r.w.length).map fun i => mergeWord op (r.w.getD i 0).toNat (ws.getD i 0).toNat
    { r with w := xs.map fun x => BitVec.ofNat 32 x.1, folds := folds, ovf := r.ovf || xs.any Prod.snd }

/-! Answers. -/

/-- The answer of a request that writes one word at an offset of twelve or one. -/
def poolStatus (q : Req) (n at_ : Nat) (x : Nat) : List Ret :=
  match q.pid with
  | none => []
  | some pid => (List.range n).map fun o =>
    ⟨pid, 0, o, if o == at_ then some (BitVec.ofNat 32 x) else none, 0, false⟩
/-- The snapshot that a pop returns (R300). -/
def poolSnapshot (q : Req) (r : PoolRec) : List Ret :=
  match q.pid with
  | none => []
  | some pid =>
    let ws := [r.key.setWidth 32, (r.key >>> 32).setWidth 32, r.folds, if r.ovf then 16 else 0] ++ r.w
    (List.range 12).map fun o => ⟨pid, 0, o, ws[o]?, 0, r.ue && 4 ≤ o && o < ws.length⟩

/-- The request is answered: its reply is on its way. A request whose group has gone is dropped. With a pop that is OK
the core's lines go, since loads that waited for it may be performed before its commit point (R304; DEDUCED, log 85). -/
def State.poolReply (s : State) (q : Req) (rets : List Ret) : State :=
  let s1 := s.dropReq q.id
  let popped := (match q.act with | .plpop .. => true | _ => false) && rets.any fun r => r.off == 0 && r.val.isSome
  let s2 := if popped then s1.invalidate q.core none else s1
  if (s.handleOf q.grp).isSome && q.pid.isSome then { s2 with reqs := s2.reqs ++ [{ q with reply := some rets }] }
  else s2

def pushStatus (q : Req) (x : Nat) : List Ret := poolStatus q 1 0 x
def popStatus (q : Req) (x : Nat) : List Ret := poolStatus q 12 3 x

/-- Replies to several requests. -/
def State.replyAll (s : State) (xs : List (Req × List Ret)) : State := xs.foldl (fun s x => s.poolReply x.1 x.2) s

/-! Push and pop on a pool (R299 to R301). The answers are collected beside it. -/

abbrev Answers := List (Req × List Ret)

/-- The record a pop selects. -/
def Pool.select (p : Pool) : Option PoolRec :=
  let le := fun (a b : PoolRec) => if cfgOrder p.cfg then a.key ≤ b.key else a.stamp ≤ b.stamp
  p.recs.find? fun r => p.recs.all (le r)
def Pool.remove (p : Pool) (r : PoolRec) : Pool := { p with recs := p.recs.filter (·.key != r.key) }

/-- A push of a key: merged, created, or nothing when no slot is free. -/
def Pool.tryPush (p : Pool) (key : DWord) (ws : List Word) (stamp : Nat) : Option (Pool × Nat) :=
  let n := ws.take (cfgP p.cfg)
  if p.recs.any (·.key == key) then
    some ({ p with recs := p.recs.map fun r => if r.key == key then r.merge (cfgOp p.cfg) n else r }, 0)
  else if p.recs.length < cfgCap p.cfg then
    some ({ p with recs := p.recs ++ [⟨key, n, 1, false, stamp, false⟩] }, 1)
  else none

/-- Parked pops select while records remain. -/
def Pool.servePops (fuel : Nat) (p : Pool) (out : Answers) : Pool × Answers :=
  match fuel with
  | 0 => (p, out)
  | fuel + 1 =>
    match p.pops, p.select with
    | k :: rest, some r => servePops fuel { (p.remove r) with pops := rest } (out ++ [(k.req, poolSnapshot k.req r)])
    | _, _ => (p, out)

/-- Parked pushes are processed again while a slot is free (R301). -/
def Pool.servePushes (fuel : Nat) (p : Pool) (out : Answers) : Pool × Answers :=
  match fuel with
  | 0 => (p, out)
  | fuel + 1 =>
    match p.pushes with
    | [] => (p, out)
    | k :: rest =>
      if cfgCap p.cfg ≤ p.recs.length then (p, out)
      else match k.req.act with
      | .plpush _ key ws _ =>
        match p.tryPush key ws k.stamp with
        | some (p1, st) => servePushes fuel { p1 with pushes := rest } (out ++ [(k.req, pushStatus k.req st)])
        | none => (p, out)
      | _ => servePushes fuel { p with pushes := rest } out

def Pool.push (p : Pool) (q : Req) (key : DWord) (ws : List Word) (w : Bool) : Pool × Answers :=
  if p.state == 0 then (p, [(q, pushStatus q 4)])
  else if p.state != 1 then (p, [(q, pushStatus q 3)])
  else
    match p.tryPush key ws p.arrival with
    | some (p1, st) =>
      if st == 1 then p1.servePops p1.pops.length [(q, pushStatus q 1)] else (p1, [(q, pushStatus q 0)])
    | none =>
      if w then ({ p with pushes := p.pushes ++ [⟨q, p.arrival⟩] }, [])
      else (p, [(q, pushStatus q 2)])

def Pool.pop (p : Pool) (q : Req) (w : Bool) : Pool × Answers :=
  if p.state == 0 then (p, [(q, popStatus q 3)])
  else
    match p.select with
    | some r =>
      let p1 := p.remove r
      let out := [(q, poolSnapshot q r)]
      if p1.state == 2 && p1.recs.isEmpty then
        -- the last record of a draining pool: parked pops receive DRAINED
        ({ p1 with state := 3, pops := [] }, out ++ p1.pops.map fun k => (k.req, popStatus k.req 2))
      else p1.servePushes p1.pushes.length out
    | none =>
      if p.state == 2 || p.state == 3 then (p, [(q, popStatus q 2)])
      else if w then ({ p with pops := p.pops ++ [⟨q, p.arrival⟩] }, [])
      else (p, [(q, popStatus q 1)])

/-- PLDRAIN at its arrival (R303). -/
def Pool.drain (p : Pool) : Pool × Answers :=
  if p.state != 1 then (p, [])
  else
    let out := p.pushes.map fun k => (k.req, pushStatus k.req 3)
    if p.recs.isEmpty then
      ({ p with state := 3, pushes := [], pops := [] }, out ++ p.pops.map fun k => (k.req, popStatus k.req 2))
    else ({ p with state := 2, pushes := [] }, out)

/-- The word of PLSTAT (R302). -/
def Pool.stat (p : Pool) (sel : Nat) : Nat :=
  match sel with
  | 0 => p.recs.length
  | 1 => p.state * 2 ^ 30 + p.rej * 2 ^ 27 + (if p.state == 0 then 0 else p.cfg.toNat % 2 ^ 10)
  | 2 => if p.state == 0 then 0 else cfgCap p.cfg
  | _ => min p.pushes.length 65535 * 2 ^ 16 + min p.pops.length 65535

/-! Steps. -/

/-- The launch of the group is being saved: its requests are withdrawn (R305, R328). -/
def State.saving (s : State) (uid : Nat) : Bool :=
  match (s.handleOf uid).bind s.group with
  | some g => s.saves.any (·.launch == g.launch)
  | none => false

/-- A pool request may arrive: the group's earlier requests to the pool have (R296). -/
def State.poolTurn (s : State) (q : Req) : Bool :=
  q.open && !s.saving q.grp && !(s.reqs.any fun x => x.grp == q.grp && x.id < q.id && x.open && x.act.pool == q.act.pool)

/-- Nothing of a halted group stays parked (R305). -/
def State.unpark (s : State) (uid : Nat) (p : Pool) : Pool :=
  match (s.handleOf uid).bind s.group with
  | some g => if g.halted then { p with pushes := p.pushes.filter (·.req.grp != uid), pops := p.pops.filter (·.req.grp != uid) } else p
  | none => p

/-- A request arrives at its pool, which gives answers. -/
def poolArrival (r : Nat) (s : State) (f : State → Req → Pool → Nat → Option (Pool × Answers)) : Out :=
  match s.req r with
  | none => .next s
  | some q =>
    match q.act.pool with
    | none => .next s
    | some k =>
      if !s.poolTurn q then .next s
      else
        let p := s.pool k
        match f s q { p with arrival := p.arrival + 1 } k with
        | none => .next s
        | some (p1, out) => .next (((s.dropReq q.id).setPool k (s.unpark q.grp p1)).replyAll out)

def execPushArrival (r : Nat) (s : State) : Out :=
  poolArrival r s fun _ q p _ =>
    match q.act with
    | .plpush _ key ws w => some (p.push q key ws w)
    | _ => none
def execPopArrival (r : Nat) (s : State) : Out :=
  poolArrival r s fun _ q p _ =>
    match q.act with
    | .plpop _ w => some (p.pop q w)
    | _ => none
/-- PLCFG_ARRIVAL (R297): applied or rejected. -/
def execPlcfgArrival (r : Nat) (s : State) : Out :=
  poolArrival r s fun s q p k =>
    match q.act with
    | .plcfg _ c =>
      let rej := s.cfgReject k c
      if rej != 0 then some ({ p with rej := rej }, [])
      else some ({ p with state := 1, cfg := c, rej := 0, recs := [] }, [])
    | _ => none
def execPlstatArrival (r : Nat) (s : State) : Out :=
  poolArrival r s fun _ q p _ =>
    match q.act with
    | .plstat _ sel => some (p, [(q, poolStatus q 1 0 (p.stat sel))])
    | _ => none
def execPldrainArrival (r : Nat) (s : State) : Out :=
  poolArrival r s fun _ q p _ =>
    match q.act with
    | .pldrain _ => some p.drain
    | _ => none

/-- POOL_WITHDRAWAL (R305): the parked requests of a group whose launch is being saved leave the wait lists;
they are sent again after the restore. -/
def execPoolWithdrawal (h : Nat) (s : State) : Out :=
  match s.group h with
  | none => .next s
  | some g =>
    if !s.saving g.uid then .next s
    else
      let mine := fun (k : PoolPark) => k.req.grp == g.uid
      let back := (s.pools.map fun (x : Nat × Pool) => (x.2.pushes ++ x.2.pops).filter mine).flatten
      let s1 := s.withdrawPools g.uid
      .next { s1 with reqs := s1.reqs ++ back.map (·.req) }

end Sys2Proof.Machine
end

