-- ==== Sys2Proof/Machine/Launch.lean ====
section
/-! DEFINITION. Launch queues, launch records, placement of launches and of spawned groups (R100, R283 to
R291, R329). -/

namespace Sys2Proof.Machine

/-! The host's access to registers (R340). -/

/-- The partition a host function serves. -/
def State.fnPart (s : State) (fn : Nat) : Option Part := Store.find s.parts (fn - 1)
/-- Function 0 exists always, function f while partition f - 1 does. -/
def State.fnExists (s : State) (fn : Nat) : Bool := fn == 0 || (fn ≤ 64 && (s.fnPart fn).isSome)
/-- A write by a host function to a register block that it may touch if `own`. A frozen function's writes
are discarded; a foreign block freezes the function (R340); after BOOTFAIL nothing answers (R350). -/
def State.hostWrite (s : State) (fn : Nat) (own : Bool) (f : State → State) : State :=
  if s.bootfail || !s.fnExists fn || s.frozenFns.contains fn then s
  else if fn != 0 && !own then { s with frozenFns := NSet.insert s.frozenFns fn }
  else f s
/-- The function may act on a block that it owns if `own`. -/
def State.hostMay (s : State) (fn : Nat) (own : Bool) : Bool :=
  !s.bootfail && s.fnExists fn && !s.frozenFns.contains fn && (fn == 0 || own)
/-- The queue belongs to the function's partition. -/
def State.ownsQueue (s : State) (fn q : Nat) : Bool :=
  match s.fnPart fn with
  | some p => p.queues.contains q
  | none => false
def State.queueWrite (s : State) (fn q : Nat) (f : Queue → State) : State :=
  if 256 ≤ q then s else s.hostWrite fn (s.ownsQueue fn q) fun s => f (s.queue q)

/-- QTAIL (R283): the greater of the tail and the value. The write has the dispatcher look again (R286). -/
def execQtailWrite (fn q : Nat) (v : DWord) (s : State) : Out :=
  .next (s.queueWrite fn q fun x =>
    s.setQueue q { x with qtail := if x.qtail < v then v else x.qtail, polled := true })

/-- The status bits are cleared where 1 is written (R283). -/
def execQueueStatusClear (fn q : Nat) (bits : Word) (s : State) : Out :=
  .next (s.queueWrite fn q fun x =>
    s.setQueue q { x with
      preerr := x.preerr && !bits.getLsbD 3, parterr := x.parterr && !bits.getLsbD 2,
      xlate := x.xlate && !bits.getLsbD 1, badrec := x.badrec && !bits.getLsbD 0 })

/-! Save areas (R328, R329). -/

/-- A range of device memory lies in units of a partition. -/
def State.inUnits (s : State) (part a n : Nat) : Bool :=
  a + n ≤ Config.dramBytes &&
  ((List.range ((a + n - 1) / 2 ^ 30 - a / 2 ^ 30 + 1)).all fun i =>
    Store.get s.units (a / 2 ^ 30 + i) 0 == part + 1)

/-- The group of a launch with the lowest context number on a core. -/
def State.firstGroup (s : State) (launch core : Nat) : Option (Nat × Group) :=
  s.groups.find? fun x => x.2.launch == launch && x.2.sorrel.isNone && x.2.core == core && !x.2.ended

/-- QUEUE_POLL (R286): the dispatcher looks at the head slot again. -/
def execQueuePoll (q : Nat) (s : State) : Out :=
  let k := s.queue q
  if k.en && k.pending.isNone && k.qhead < k.qtail then .next (s.setQueue q { k with polled := true })
  else .next s

/-! The launch record (R288). -/

/-- The number in `n` bytes of a record. -/
def recN (r : List Byte) (off n : Nat) : Nat := leNat ((r.drop off).take n)
def recTeam (r : List Byte) : Bool := recN r 4 4 / 4 % 2 == 1
def recAdm (r : List Byte) : Bool := recN r 4 4 / 8 % 2 == 1
def recNalloc (r : List Byte) : Nat := recN r 4 4 / 2 ^ 4 % 16
def recBbar (r : List Byte) : Nat := recN r 4 4 / 2 ^ 8 % 32
def recCbar (r : List Byte) : Nat := recN r 4 4 / 2 ^ 13 % 16
def recWbar (r : List Byte) : Nat := recN r 4 4 / 2 ^ 17 % 16
def recNpool (r : List Byte) : Nat := recN r 4 4 / 2 ^ 21 % 16
def recTbh (r : List Byte) : Nat := recN r 4 4 / 2 ^ 25 % 32
def recAsid (r : List Byte) : Nat := recN r 8 2
def recAcc (r : List Byte) : Nat := recN r 0x0C 2
def recTbl (r : List Byte) : Nat := recN r 0x0E 2
def recMacro (r : List Byte) : Nat := recN r 0x10 8

/-- A role of a record. -/
structure Role where
  entry : Nat
  groups : Nat
  vregs : Nat
  slices : Nat
  deriving DecidableEq, Repr

def recRole (r : List Byte) (i : Nat) : Role :=
  let w := recN r (0x20 + 16 * i) 4
  ⟨recN r (0x18 + 16 * i) 8, w / 2 ^ 16 % 64 + 1, (w / 2 ^ 8 % 16 + 1) * 8, w % 8 + 1⟩
def recRoles (r : List Byte) : List Role := (List.range (recN r 4 4 % 4 + 1)).map (recRole r)

/-- Allocation a: granules, rank, handler. -/
def recAlloc (r : List Byte) (a : Nat) : Nat × Nat × Nat :=
  let w := recN r (0xD8 + 4 * a) 4
  (w % 2 ^ 11, w / 2 ^ 11 % 8, recN r (0x98 + 8 * a) 8)
def recAllocs (r : List Byte) : List (Nat × Nat × Nat) := (List.range (min (recNalloc r) 8)).map (recAlloc r)
def recPools (r : List Byte) : List Nat := (List.range (min (recNpool r) 8)).map fun b => recN r (0xF8 + b) 1
def recSlots (r : List Byte) : List DWord := (List.range 8).map fun k => BitVec.ofNat 64 (recN r (0x58 + 8 * k) 8)
def recGroups (r : List Byte) : Nat := (recRoles r).foldl (fun n x => n + x.groups) 0
def recVregs (r : List Byte) : Nat := (recRoles r).foldl (fun n x => n + x.groups * x.vregs) 0

/-- An entry or handler is a clause header address (R289). -/
def headerAddr (x : Nat) : Bool := x % 4 == 0 && x < 2 ^ 52

/-- The limits of R41. -/
def recLimits (r : List Byte) : Bool :=
  let al := recAllocs r
  recGroups r ≤ 32 && recVregs r ≤ 2048 &&
  al.foldl (fun n x => n + x.1) 0 ≤ 1536 &&
  (al.filter (·.2.1 == 0)).foldl (fun n x => n + x.1) 0 ≤ 128

/-- The record passes the checks under BADREC (R288, R289). -/
def recOk (r : List Byte) (admin : Bool) : Bool :=
  let w := recN r 4 4
  let roles := w % 4 + 1
  let zero := fun (off n : Nat) => recN r off n == 0
  recN r 0 4 == 1 && w / 2 ^ 30 == 0 && zero 0x0A 2 &&
  recTbh r ≤ 16 && recNpool r ≤ 8 && recWbar r ≤ 8 && recCbar r ≤ 8 && recBbar r ≤ 16 && recNalloc r ≤ 8 &&
  recAcc r ≤ 128 && recTbl r ≤ 256 &&
  ((List.range 4).all fun i =>
    if i < roles then
      let x := recN r (0x20 + 16 * i) 4
      headerAddr (recN r (0x18 + 16 * i) 8) && x / 2 ^ 22 == 0 && x / 2 ^ 12 % 16 == 0 && x / 8 % 32 == 0 &&
      x / 2 ^ 16 % 64 < 32 && zero (0x24 + 16 * i) 4
    else zero (0x18 + 16 * i) 16) &&
  ((List.range 8).all fun a =>
    let x := recN r (0xD8 + 4 * a) 4
    if a < recNalloc r then
      headerAddr (recN r (0x98 + 8 * a) 8) && x / 2 ^ 14 == 0 && 1 ≤ x % 2 ^ 11 && x % 2 ^ 11 ≤ 1536
    else x == 0 && zero (0x98 + 8 * a) 8) &&
  ((List.range 8).all fun b => if b < recNpool r then recN r (0xF8 + b) 1 < 64 else zero (0xF8 + b) 1) &&
  (recPools r).eraseDups == recPools r &&
  (!recAdm r || admin) && recLimits r

/-- The partition's cluster-barrier allotment in a cluster. -/
def Part.cbarOf (p : Part) (cl : Nat) : Nat := (p.cbars.filter (·.1 == cl)).foldl (fun n x => n + x.2) 0

/-- The record names nothing outside the partition (R289). -/
def State.recInPart (s : State) (part : Nat) (r : List Byte) : Bool :=
  match Store.find s.parts part with
  | none => false
  | some p =>
    (match s.asidEntry (recAsid r) with
     | some (d, _) => d / 2 ^ 16 % 64 == part
     | none => false) &&
    (recPools r).all p.pools.contains &&
    (recCbar r == 0 || p.cores.any fun c => recCbar r ≤ p.cbarOf (clusterOf c)) &&
    recWbar r ≤ 8

/-! Consumption (R284, R286, R287, R289). -/

/-- Bytes at a virtual address as the dispatcher reads them, uncached; `none` is a translation failure, or a peer that
refuses the read or cannot be reached (R349; DESIGN CHOICE, log 38). -/
def State.readVa (s : State) (asid part fuel va n : Nat) : State × Option (List Byte) :=
  match fuel with
  | 0 => (s, if n == 0 then some [] else none)
  | fuel + 1 =>
    if n == 0 then (s, some [])
    else if 2 ^ 52 ≤ va then (s, none)
    else
      let k := min n (65536 - va % 65536)
      match s.walk asid part va with
      | (s1, .hit x) =>
        let p := x.place va
        if !s1.unitOk part p || peerRefuses p || s1.peerDown p then (s1, none)
        else
          let (s2, rest) := (s1.sendPeer p.tgt p.pa (.read k) []).readVa asid part fuel (va + k) (n - k)
          (s2, rest.map (s1.readHome p.tgt p.pa k ++ ·))
      | (s1, _) => (s1, none)

/-- SLOT_CONSUME: the head slot, once published, is copied or rejected. A consumed record is kept with the
macro table it names. A sequence word that cannot be read counts as not published, and is polled again; the macro table
is read in the record's address space (DESIGN CHOICE, log 86). -/
def execSlotConsume (q : Nat) (s : State) : Out :=
  let k := s.queue q
  if !(k.en && k.pending.isNone && k.polled && k.qhead < k.qtail) then .next s
  else
    let i := k.qhead.toNat
    let (s1, word) := s.readVa k.qasid.toNat k.part 2 (k.seqVa i) 8
    if word.map leNat != some (i + 1) then .next (s1.setQueue q { k with polled := false })
    else
      let atEnd := { k with qhead := k.qhead + 1, polled := true }
      let rejected := { atEnd with ridx := BitVec.ofNat 32 i }
      match s1.readVa k.qasid.toNat k.part 2 (k.slotVa i) 256 with
      | (s2, none) => .next (s2.setQueue q { rejected with xlate := true })
      | (s2, some r) =>
        let (s3, table) := if recMacro r == 0 then (s2, some []) else s2.readVa (recAsid r) k.part 3 (recMacro r) 8192
        let bad := !recOk r k.admin
        let foreign := !s.recInPart k.part r
        match table with
        | some t =>
          if !bad && !foreign then .next (s3.setQueue q { atEnd with pending := some (r ++ t, i) })
          else .next (s3.setQueue q { rejected with badrec := k.badrec || bad, parterr := k.parterr || foreign })
        | none =>
          .next (s3.setQueue q { rejected with
            badrec := k.badrec || bad, parterr := k.parterr || foreign, xlate := true })

/-! Placement (R55, R72, R82, R100, R291). -/

/-- The registers and control state of a placed group (R72, R100). -/
def Arch.placed (n : Nat) (entry : Pc) (params : List Word) (macros : Store Word) : Arch :=
  { v := [], b := [], p := [], vpoison := [], bpoison := [], spoison := [],
    s := (List.range params.length).foldl (fun m i => Store.set m i (params.getD i 0) 0) [],
    slices := (List.range n).map fun _ => ⟨entry, 15, 0, [], 0, none⟩,
    last := none, pend := [], fpflags := 0, lhret := [], lossid := 0xFFFFFFFF, lossaddr := 0, tbcause := 0,
    tls := [Timeline.reset, Timeline.reset, Timeline.reset], bars := [], macros := macros }

/-- A group becomes resident in a context, with a fresh hash key (R166). -/
def State.place (s : State) (core ctx role index team part asid launch : Nat) (vregs slices : Nat)
    (entry : Pc) (params : List Word) (age : Nat) : State :=
  let g : Group :=
    { uid := s.nextId, core := core, ctx := ctx, sorrel := none, role := role, index := index, team := team,
      part := part, asid := asid, launch := launch, block := launch * 256 + core, vregs := vregs, age := age,
      spkey := Config.hashKey s.draws, strikes := 0, slewcy := 0,
      arch := Arch.placed slices entry params (s.core core).macros,
      cur := none, after := none, unret := [], outq := [], rets := [], hold := .free, gpark := false, frozen := false,
      halted := false, copyFrozen := false, parked := none, parkVa := 0, parkLane := 0, deferred := [], ended := false, win := [],
      waits := false, readySince := s.now, serves := none, spills := [] }
  ({ s with nextId := s.nextId + 1, draws := s.draws + 1 }).putGroup (handle core ctx) g

/-- The child of a SPAWN becomes resident (R100): it takes the lowest number of its role that no group holds and
joins the block barriers (R224). -/
def State.placeChild (s : State) (g : Group) (c : Child) : State :=
  let co := s.core g.core
  let s1 := s.setCore g.core { co with resv := co.resv.filter (·.1 != c.ctx) }
  let used := fun (i : Nat) => s.groups.any fun x => x.2.sorrel.isNone && x.2.block == g.block &&
    x.2.role == g.role && x.2.index == i && !x.2.ended
  let index := ((List.range 33).find? fun i => !used i).getD 0
  (s1.place g.core c.ctx g.role index g.team g.part g.asid g.launch c.vregs c.slices c.entry c.params s.now).barJoin
    g.block

/-- CLAUSE_RETIRE (R57, R89, R100): the oldest completed clause retires, its held requests may leave, and the
groups it spawned become resident. -/
def execClauseRetire (h : Nat) (s : State) : Out :=
  match s.group h with
  | none => .next s
  | some g =>
    match g.unret with
    | [] => .next s
    | r :: rest =>
      if !s.retirable g then .next s
      else
        let g1 := ({ g with unret := rest, outq := g.outq ++ r.held } : Group).pruneRets
        let born := r.held.filterMap fun q => match q.act with | .spawn c => some c | _ => none
        .next (((born.foldl (fun s c => s.placeChild g c) (s.putGroup h g1)).settleEnd h).settleTrap h)

/-- The block of a launch on a core, its allocations yet to be placed: each launch has its own there, with its own offsets,
handles and block barriers (R14; DESIGN CHOICE, log 93). -/
def newBlock (r : List Byte) (core launch part team : Nat) : Block :=
  { core := core, launch := launch, part := part, asid := recAsid r, team := team, allocs := [], scr := [],
    scrPoison := [], lostCount := 0, acs := [], tbs := [], tbe := [], ach := [], tbn := [],
    bars := if recGroups r == 0 then [] else (List.range 16).map fun i => (i, { Barrier.reset with e := recGroups r }),
    slots := recSlots r, accBudget := recAcc r, tblBudget := recTbl r, tbh := recTbh r, bbar := recBbar r,
    cbar := recCbar r, wbar := recWbar r, pools := recPools r, poolAdm := recAdm r, macro0 := recMacro r }

/-- The allocations of a record with their offsets, which follow declaration order from 0 (R39). -/
def withOffsets (base : Nat) (as_ : List (Nat × Nat × Nat)) : List (Nat × Nat × Nat × Nat) :=
  match as_ with
  | [] => []
  | (k, rank, handler) :: rest => (base, k, rank, handler) :: withOffsets (base + 1024 * k) rest
/-- Ascending rank, and the given order within a rank (R190). -/
def byRank (as_ : List (Nat × Nat × Nat × Nat)) : List (Nat × Nat × Nat × Nat) :=
  ((List.range 8).map fun r => as_.filter fun a => a.2.2.1 == r).flatten

/-- Allocations placed one after the other, each with rows of lit banks (R190). -/
def State.placeAllocs (s : State) (key : Nat) (as_ : List (Nat × Nat × Nat × Nat)) : Option State :=
  match as_ with
  | [] => some s
  | (base, k, rank, handler) :: rest =>
    match Store.find s.blocks key with
    | none => none
    | some b =>
      match placeRows k rank (s.banks b.core) with
      | none => none
      | some rows =>
        (({ s with nextId := s.nextId + 1 } : State).setBlock key
          (b.addAlloc s.nextId base k rank (BitVec.ofNat 52 handler) rows none none)).placeAllocs key rest

/-- The block with its rows, on a core. -/
def State.placeBlock (s : State) (r : List Byte) (core launch part team : Nat) : Option State :=
  let key := launch * 256 + core
  (s.setBlock key (newBlock r core launch part team)).placeAllocs key (byRank (withOffsets 0 (recAllocs r)))

/-- A sum over the blocks of a core. -/
def State.coreSum (s : State) (core : Nat) (f : Block → Nat) : Nat :=
  s.blocks.foldl (fun n x => if x.2.core == core then n + f x.2 else n) 0

/-- The macro table of a launch may stand beside those of the core (R101). -/
def State.macroFits (s : State) (core m : Nat) : Bool :=
  m == 0 || !(s.blocks.any fun x => x.2.core == core && x.2.macro0 != 0 && x.2.macro0 != m)

/-- The launch fits the core (R291). -/
def State.fits (s : State) (p : Part) (part : Nat) (r : List Byte) (core : Nat) : Bool :=
  recGroups r ≤ (s.freeCtx core).length && recVregs r ≤ s.freeVregs core &&
  s.coreSum core (·.accBudget) + recAcc r ≤ 128 && s.coreSum core (·.tblBudget) + recTbl r ≤ 256 &&
  s.coreSum core (·.bbar) + recBbar r ≤ 16 && s.coreSum core (·.tbh) + recTbh r ≤ 16 &&
  s.macroFits core (recMacro r) &&
  (recCbar r == 0 || recCbar r ≤ p.cbarOf (clusterOf core)) &&
  (s.placeBlock r core s.nextId part 0).isSome

/-- The cores a launch is granted (R291): none while it fits nowhere. -/
def State.chooseCores (s : State) (part : Nat) (r : List Byte) : Option (List Nat) :=
  match Store.find s.parts part with
  | none => none
  | some p =>
    let cores := (List.range Config.cores).filter p.cores.contains
    if recTeam r then
      ((List.range Config.clusters).map fun cl =>
        cores.filter fun c => clusterOf c == cl && s.fits p part r c).find? (4 ≤ ·.length) |>.map (·.take 4)
    else (cores.find? (s.fits p part r)).map ([·])

/-- The pending heads in the order in which they are visited (R290). -/
def State.heads (s : State) : List (Nat × Queue) :=
  ((List.range 4).reverse.map fun p =>
    s.queues.filter fun x => x.2.en && x.2.pending.isSome && x.2.prio.toNat == p).flatten

/-- The first head that fits, with its cores. -/
def State.nextGrant (s : State) : Option (Nat × List Nat) :=
  s.heads.findSome? fun x =>
    match x.2.pending with
    | some (r, _) => (s.chooseCores x.2.part r).map fun cs => (x.1, cs)
    | none => none

/-- A macro table is loaded: program k lies at the pointer + 128 k; how many the table holds is left open
(DESIGN CHOICE, log 19), and a word not loaded reads 0 (R101). -/
def loadMacros (t : List Byte) (programs : Nat) : Store Word :=
  (List.range 2048).foldl (fun m i =>
    if i < 32 * programs then Store.set m i (BitVec.ofNat 32 (recN t (4 * i) 4)) 0 else m) []

/-- The groups of a record: role, group number, and the role's fields. -/
def recSeats (r : List Byte) : List (Nat × Nat × Role) :=
  let rs := recRoles r
  ((List.range rs.length).map fun i =>
    let x := rs.getD i ⟨0, 0, 0, 0⟩
    (List.range x.groups).map fun j => (i, j, x)).flatten

/-- The launch's groups become resident on one of its cores. -/
def State.placeGroups (s : State) (r : List Byte) (core launch part team : Nat) : State :=
  (recSeats r).foldl (fun s x =>
    match s.freeCtx core with
    | [] => s
    | ctx :: _ =>
      s.place core ctx x.1 x.2.1 team part (recAsid r) launch x.2.2.vregs x.2.2.slices
        (BitVec.ofNat 52 x.2.2.entry) [] s.now) s

/-- One core of a grant. What was written before the publication is visible to the placed groups: the core's L1
lines go (R287, R310). -/
def State.grantCore (s : State) (bytes : List Byte) (launch part : Nat) (x : Nat × Nat) : State :=
  let r := bytes.take 256
  let (team, core) := x
  match s.placeBlock r core launch part team with
  | none => s
  | some s1 =>
    let s2 :=
      if recMacro r == 0 then s1
      else s1.setCore core { (s1.core core) with
        macros := loadMacros (bytes.drop 256) (Config.anyNat s.draws % 65), table := recMacro r }
    ({ s2 with draws := s2.draws + 1 }.invalidate core none).placeGroups r core launch part team

/-- LAUNCH_GRANT (R290, R291): the first head that fits is granted; every resource is reserved and every
group placed at once. -/
def execLaunchGrant (q : Nat) (s : State) : Out :=
  match s.nextGrant with
  | none => .next s
  | some (q', cores) =>
    let k := s.queue q
    match k.pending with
    | none => .next s
    | some (bytes, slot) =>
      if q' != q then .next s
      else
        let l := s.nextId
        let la : Launch :=
          { queue := q, slot := slot, prio := k.prio.toNat, part := k.part, asid := recAsid bytes,
            recd := bytes.take 256, cores := cores, resident := true }
        let s1 := ({ s with nextId := l + 1, launches := Store.put s.launches l la }).setQueue q
          { k with pending := none }
        .next ((List.range cores.length).foldl (fun s t => s.grantCore bytes l k.part (t, cores.getD t 0)) s1)

end Sys2Proof.Machine
end

