-- ==== Sys2Proof/Machine/System.lean ====
section
/-! DEFINITION. Sorrel: the system instructions, handler entry and return, the register window and the
control words (R315 to R327, R333 to R337). -/

namespace Sys2Proof.Machine

/-! Control words (R201, R254, R337, R355). -/

/-- A sprint ends and its cool-down starts (R352). -/
def State.endSprint (s : State) (cl : Nat) : State :=
  let c := s.cluster cl
  if c.sprint then s.setCluster cl { c with sprint := false, cool := true, since := s.now } else s

/-- An address in each 64-KiB page of a range. -/
def pagesOf (va n : Nat) : List Nat :=
  (List.range ((va % 65536 + n - 1) / 65536 + 1)).map fun i => (va / 65536 + i) * 65536

/-- The cluster holds a group that participates in a wide barrier, or one with a reducing copy to a peer
outstanding (R354). -/
def State.collective (s : State) (cl : Nat) : Bool :=
  s.groups.any fun x =>
    let g := x.2
    g.sorrel.isNone && g.cluster == cl &&
    (((List.range 8).any fun i => Store.get g.arch.bars (24 + i) 0 / 2 % 2 == 1) ||
     s.ops.any fun op => op.grp == g.uid &&
       match op.kind with
       | .cpr _ dst n _ _ => (pagesOf dst (4 * n)).any fun va =>
         (match s.walk g.asid g.part va with | (_, .hit x) => x.tgt == 2 | _ => false)
       | _ => false)

/-- The instance word names what the control word's row gives, in the cluster of the context (R337). -/
def cwInstance (idx w cl : Nat) : Bool :=
  let kind := w / 2 ^ 30
  let n := w % 256
  w / 2 ^ 8 % 2 ^ 22 == 0 &&
  (match idx with
   | 0x00 => kind == 0 && n < Config.cores && clusterOf n == cl
   | 0x01 | 0x02 | 0x03 | 0x10 | 0x11 => kind == 1 && n == cl
   | 0x04 => kind == 2 && n == 0
   | _ => false)

/-- The value of a control word. -/
def State.cwRead (s : State) (idx n : Nat) : Nat :=
  let c := s.cluster n
  let b := fun (x : Bool) (k : Nat) => if x then 2 ^ k else 0
  match idx with
  | 0x00 => b (s.core n).hold 15 + (s.core n).target
  | 0x01 => c.cap * 2 ^ 16 + c.pfloor * 2 ^ 10 + (c.passCount / 2) * 2 ^ 8 + c.inc
  | 0x02 => c.svec.toNat
  | 0x03 => c.ue.toNat * 2 ^ 24 + c.res.toNat * 2 ^ 16 + c.corr.toNat
  | 0x04 => s.asidtab.toNat
  | 0x10 => c.freq * 2 ^ 16 + b c.det 15 + b c.sprint 14 + b c.cool 13 + b c.throt 12 + c.passreq * 2 ^ 10
  | _ => c.temp.toNat * 2 ^ 16 + c.thresh.toNat * 2 ^ 8 + b c.hot 7

/-- Errors corrected by now are counted: how many is free (DESIGN CHOICE, log 20). -/
def State.countCorrected (s : State) (cl : Nat) : State :=
  let c := s.cluster cl
  let s1 := s.setCluster cl { c with corr := BitVec.ofNat 16 (min 65535 (c.corr.toNat + Config.anyNat s.draws)) }
  { s1 with draws := s1.draws + 1 }

/-- A write of a control word; reserved fields and fields whose writes are ignored stay. -/
def State.cwWrite (s : State) (idx n x : Nat) : State :=
  let c := s.cluster n
  match idx with
  | 0x00 =>
    let k := s.core n
    let h := x / 2 ^ 15 % 2 == 1
    s.setCore n { k with hold := h, target := if h then clampTarget (x % 64) else k.target }
  | 0x01 => s.setCluster n { c with
      cap := min (max (x / 2 ^ 16 % 256) 1) 96, pfloor := x / 2 ^ 10 % 4, inc := x % 8 }
  | 0x02 => s.setCluster n { c with svec := BitVec.ofNat 32 x }
  | 0x03 => s.setCluster n { c with
      ue := BitVec.ofNat 8 (x / 2 ^ 24), res := BitVec.ofNat 8 (x / 2 ^ 16), corr := BitVec.ofNat 16 x }
  | 0x04 => { s with asidtab := BitVec.ofNat 32 x }
  | 0x10 =>
    let det := x / 2 ^ 15 % 2 == 1
    let s1 := s.setCluster n { c with freq := min (max (x / 2 ^ 16 % 128) 16) 64, det := det }
    if det && s1.collective n then s1.endSprint n else s1
  | 0x11 => s.setCluster n { c with thresh := BitVec.ofNat 8 (min (max (x / 2 ^ 8 % 256) 60) 110) }
  | _ => s

/-! The frame of a privileged instruction. -/

/-- A privileged word: a group takes the privilege trap (R47, R71), a context issues it; poisoned sources
come first. -/
def privForm (s : State) (srcs : List Nat)
    (f : State → Group → Cur → Nat → Except Fate (State × Group)) : Out :=
  issue s fun s g c =>
    match g.sorrel with
    | none => .error (.trap 3 detPriv noLane 0)
    | some cl => if g.arch.badUs srcs then .error (poisoned noLane) else f s g c cl

/-- The instruction's effect is held until its clause retires (R53). -/
def sysHeld (s : State) (g : Group) (c : Cur) (code : Nat) (args : List Nat) : State × Group :=
  ({ s with nextId := s.nextId + 1 },
    g.modCur fun c' => { c' with held := c'.held ++ [mkReq g c s.nextId (.sys code args)] })

/-- The clause performs a commit point and the context parks until the request is answered. -/
def Group.parkAfter (g : Group) : Group := g.modCur fun c => { c with commit := true, parks := true }

/-- Codes of held system effects. -/
abbrev sysCwwr : Nat := 1
abbrev sysGpark : Nat := 3
abbrev sysGresume : Nat := 4
abbrev sysThaw : Nat := 5
abbrev sysTlbinv : Nat := 6
abbrev sysMcswr : Nat := 7
abbrev sysCtxsv : Nat := 8
abbrev sysCtxld : Nat := 9
abbrev sysDiscard : Nat := 10

/-! Control words and macro words. -/

def execCwrd (sa sd : BitVec 6) (lit : Word) (s : State) : Out :=
  privForm s [sa.toNat] fun s g _ cl =>
    let w := (g.arch.readS sa.toNat).toNat
    if !cwInstance lit.toNat w cl then .error illegal
    else
      let s1 := if lit == 3 then s.countCorrected cl else s
      .ok (s1, g.setS sd.toNat (s1.cwRead lit.toNat (w % 256)))

/-- CWWR: at retirement. A device word is written by contexts of the partition manager's cluster (DESIGN CHOICE, log 21). -/
def execCwwr (sa sb : BitVec 6) (lit : Word) (s : State) : Out :=
  privForm s [sa.toNat, sb.toNat] fun s g c cl =>
    let w := (g.arch.readS sa.toNat).toNat
    if !cwInstance lit.toNat w cl || (lit == 4 && cl != Config.managerCluster % Config.clusters) then .error illegal
    else .ok (sysHeld s g c sysCwwr [lit.toNat, w % 256, (g.arch.readS sb.toNat).toNat])

/-- MCSWR (R335). -/
def execMcswr (sa sb : BitVec 6) (s : State) : Out :=
  privForm s [sa.toNat, sb.toNat] fun s g c cl =>
    let w := (g.arch.readS sa.toNat).toNat
    if w / 2 ^ 19 != 0 || Config.cores ≤ w % 256 || clusterOf (w % 256) != cl then .error illegal
    else .ok (sysHeld s g c sysMcswr [w % 256, w / 2 ^ 8 % 64 * 32 + w / 2 ^ 14 % 32, (g.arch.readS sb.toNat).toNat])

/-! The register window (R321). -/

/-- What a handle names in a cluster: a resident group, or an ended one whose operations keep its context (R89). -/
def State.handleContext (s : State) (cl h : Nat) : Option Group :=
  if h / 2 ^ 13 != 0 || Config.cores ≤ h % 256 || clusterOf (h % 256) != cl then none else s.group h
/-- The resident group of a cluster that a handle names. -/
def State.handleGroup (s : State) (cl h : Nat) : Option Group := (s.handleContext cl h).filter (!·.ended)

/-- Sorrel owns the group (R316). -/
def Group.isHeld (g : Group) : Bool := g.hold == .owned || g.hold == .held

/-- System effects of a context on their way, oldest first. -/
def Group.pendingSys (g : Group) (code : Nat) : List (List Nat) :=
  g.heldReqs.filterMap fun r =>
    match r.act with
    | .sys c args => if c == code then some args else none
    | _ => none

/-- The handle and offset of a window form. -/
def State.windowAt (s : State) (g : Group) (cl sa : Nat) : Option (Nat × Group × Nat) :=
  let h := (g.arch.readS sa).toNat
  let off := (g.arch.readS (sa + 1)).toNat
  match s.handleGroup cl h with
  | some t => if t.isHeld && off % 4 == 0 && off < 0x2000 + 132 * t.vregs then some (h, t, off) else none
  | none => none

def execWinrd (sa sd : BitVec 6) (s : State) : Out :=
  privForm s (uRegs sa.toNat true) fun s g _ cl =>
    match s.windowAt g cl sa.toNat with
    | none => .error illegal
    | some (_, t, off) => .ok (s, g.setS sd.toNat (t.areaWord off))

/-- The words of a window that a write at an offset changes: its own, and after a register's its poison (R76). -/
def windowWords (off : Nat) : List Nat :=
  if 0x500 ≤ off && off < 0x600 then [off, 0x600 + (off - 0x500) / 128 * 4]
  else if 0x2000 ≤ off then
    let r := (off - 0x2000) / 1056 * 8
    let o := (off - 0x2000) % 1056
    [off, if o < 1024 then 0x1840 + 8 * (r + o / 128) else 0x1844 + 8 * (r + (o - 1024) / 4)]
  else [off]
/-- What they hold; none of a control word that no WINWR has written. -/
def Group.windowOld (g : Group) (off : Nat) : List (Nat × Option Word) :=
  (windowWords off).map fun o =>
    (o, if windowControl o then Store.find g.win o else some (BitVec.ofNat 32 (g.areaWord o)))

/-- WINWR: the word is written at issue, before a TRET of the same clause resumes the group (R323), and taken back where
the clause is undone (R59, R315). The state of a halted group does not change (R321). -/
def execWinwr (sa sb : BitVec 6) (s : State) : Out :=
  privForm s (uRegs sa.toNat true ++ [sb.toNat]) fun s g _ cl =>
    match s.windowAt g cl sa.toNat with
    | none => .error illegal
    | some (h, t, off) =>
      let x := g.arch.readS sb.toNat
      if t.halted then .ok (s, g)
      else .ok (s.putGroup h (t.windowWrite off x),
        g.modCur fun c => c.takesBack s.nextId [.window h t.uid (t.windowOld off) x])

/-! Hold and resume (R322, R323). -/

/-- GPARK. -/
def execGpark (sa sd : BitVec 6) (s : State) : Out :=
  privForm s [sa.toNat] fun s g c cl =>
    match s.handleGroup cl (g.arch.readS sa.toNat).toNat with
    | none => .ok (s, g.setS sd.toNat 1)
    | some t =>
      if t.isHeld || t.frozen || t.halted then .ok (s, g.setS sd.toNat 2)
      else
        let (s1, g1) := sysHeld s g c sysGpark [t.uid]
        .ok (s1, (g1.setS sd.toNat 0).parkAfter)

/-- A GRESUME or THAW of the group is on its way: the first to issue has it (R338). -/
def State.resuming (s : State) (h : Nat) : Bool :=
  s.groups.any fun x => x.2.sorrel.isSome && (x.2.pendingSys sysGresume).contains [h]

/-- A handler that serves the group's trap runs. -/
def State.served (s : State) (h : Nat) : Bool := s.groups.any fun x => x.2.serves == some h

/-- The status of GRESUME. -/
def State.resumeStatus (s : State) (cl h : Nat) : Nat :=
  match s.handleGroup cl h with
  | none => 1
  | some t =>
    if t.halted then 6
    else if !t.isHeld || s.resuming h then 2
    else if t.frozen then 3
    else if !t.resumable then 4
    else if t.hold == .owned && s.served h then 5
    else 0

def execGresume (sa sd : BitVec 6) (s : State) : Out :=
  privForm s [sa.toNat] fun s g c cl =>
    let h := (g.arch.readS sa.toNat).toNat
    let st := s.resumeStatus cl h
    if st != 0 then .ok (s, g.setS sd.toNat st)
    else
      let (s1, g1) := sysHeld s g c sysGresume [h]
      .ok (s1, g1.setS sd.toNat 0)

/-- TRET by action: 0 resume, 1 hold, 2 end. -/
def tretForm (action : Nat) (s : State) : Out :=
  privForm s [] fun s g c _ =>
    .ok (s, { g with cur := some { c with tret := some action } })
def execTret (s : State) : Out := tretForm 0 s
def execTretHold (s : State) : Out := tretForm 1 s
def execTretEnd (s : State) : Out := tretForm 2 s

/-- THAW (R327): 0 group, 1 copy context, which may be that of a group that has ended (R209); other kinds are illegal. -/
def thawForm (sa sd : Nat) (fin : Bool) (s : State) : Out :=
  privForm s [sa] fun s g c cl =>
    let w := (g.arch.readS sa).toNat
    let kind := w / 2 ^ 30
    let h := w % 2 ^ 13
    if 2 ≤ kind then .error illegal
    else
      match (if kind == 0 then s.handleGroup cl h else s.handleContext cl h) with
      | none => .ok (s, g.setS sd 2)
      | some t =>
        if !(if kind == 0 then t.frozen else t.copyFrozen) then .ok (s, g.setS sd 1)
        else
          let (s1, g1) := sysHeld s g c sysThaw [kind, t.uid, if fin then 1 else 0]
          .ok (s1, g1.setS sd 0)
def execThaw (sa sd : BitVec 6) (s : State) : Out := thawForm sa.toNat sd.toNat false s
def execThawEnd (sa sd : BitVec 6) (s : State) : Out := thawForm sa.toNat sd.toNat true s

/-! TLBINV (R334) and SYSC (R336). -/

def execTlbinv (sc : BitVec 3) (mode : BitVec 2) (sa sb : BitVec 6) (s : State) : Out :=
  let srcs := (if mode == 2 then uRegs sa.toNat true else []) ++ (if mode == 0 then [] else [sb.toNat])
  privForm s srcs fun s g c cl =>
    let va := if mode == 2 then g.arch.readS64 sa.toNat else 0
    let asid := if mode == 0 then 0 else (g.arch.readS sb.toNat).toNat % 2 ^ 16
    let (s1, g1) := sysHeld s g c sysTlbinv [sc.toNat, mode.toNat, asid, va, cl]
    .ok (s1, g1.parkAfter)

def execSysc (code : BitVec 16) (s : State) : Out :=
  issue s fun s g c =>
    if g.sorrel.isSome then .error illegal
    else .ok (s, { g with cur := some { c with trap := c.trap <|> some (3, code.toNat, c.idx) } })

/-! Effects at retirement. -/

/-- The clusters in the scope of an invalidation. -/
def invScope (sc cl k : Nat) : Bool := sc == 4 || k == cl
/-- A translation of the address space, or of the address, named. -/
def invNames (mode asid va xasid base size : Nat) : Bool :=
  mode == 0 || (xasid == asid && (mode == 1 || va / 2 ^ size == base / 2 ^ size))

/-- At .dev the ASID table's entries are taken anew, all or those of the ASID named (R333). -/
def State.applyTlbinv (s0 : State) (sc mode asid va cl : Nat) : State :=
  let keep := fun (x : Xlat) => !invNames mode asid va x.asid x.base x.size
  let s := if sc == 4 && mode != 2 then s0.takeAsids (if mode == 0 then none else some asid) else s0
  { s with
    clusters := s.clusters.map fun (x : Nat × Cluster) =>
      (x.1, if invScope sc cl x.1 then { x.2 with tlb := x.2.tlb.filter keep } else x.2),
    cores := s.cores.map fun (x : Nat × Core) =>
      (x.1, if invScope sc cl (clusterOf x.1) then
        { x.2 with tlb := x.2.tlb.filter keep, lines := x.2.lines.filter (!·.konst) } else x.2) }

/-- An access translated before the invalidation has not reached its home; of an address, any in its GiB, the
largest page (R334). -/
def State.stillUsed (s : State) (sc mode asid va cl bound : Nat) : Bool :=
  let old := fun (g : Group) (q : Req) =>
    q.id < bound && q.open && q.place.isSome && !q.act.isScr &&
    invScope sc cl (clusterOf q.core) && invNames mode asid va g.asid q.va 30
  s.groups.any fun x => x.2.sorrel.isNone &&
    (x.2.heldReqs.any (old x.2) || s.reqs.any fun q => q.grp == x.2.uid && old x.2 q)

/-- GPARK takes effect at the group's next clause boundary. -/
def State.applyGpark (s : State) (uid : Nat) : State :=
  match s.handleOf uid with
  | none => s
  | some h =>
    (s.modGroup h fun g =>
      match g.hold with
      | .free | .parking => { g with hold := .parking, gpark := true }
      -- held by the trap instead, unless that is taken back
      | .trapping _ => { g with gpark := true }
      | _ => g).settleTrap h

/-- Lanes whose page-fault record was answered as unresolvable are performed again once the group goes on
(R342; DEDUCED, log 25). -/
def State.retryLanes (s : State) (h : Nat) : State :=
  match s.group h with
  | none => s
  | some g =>
    { s with reqs := s.reqs.map fun q =>
        match q.walk with
        | some (cl, seq) =>
          if q.grp == g.uid && !(s.cluster cl).recs.any (·.seq == seq) then { q with walk := none } else q
        | none => q }

/-- A held group goes on, its end settled if it has nothing left to issue. -/
def State.resumeAndSettle (s : State) (h : Nat) : State :=
  (((s.retryLanes h).resumeGroup h).modGroup h fun g => { g with waits := false }).settleEnd h

/-- No context owns the group's hold any longer. -/
def State.disown (s : State) (h : Nat) : State :=
  { s with groups := s.groups.map fun (x : Nat × Group) =>
      (x.1, if x.2.serves == some h then { x.2 with serves := none } else x.2) }

/-- Operations of a copy context end: with FAULT, whose detail the spec leaves open (DESIGN CHOICE, log 22), or with
CANCELLED (R209, R327). -/
def Op.ofCopy (op : Op) : Bool :=
  match op.kind with
  | .cpl _ _ _ | .cpt _ _ _ _ _ _ | .cpr _ _ _ _ _ | .lnch _ _ => true
  | _ => false
def State.thawCopies (s : State) (uid : Nat) (fin : Bool) : State :=
  let d := Config.anyNat s.draws % 256
  let s1 := { s with ops := s.ops.map fun (o : Op) =>
    if o.grp == uid && o.ofCopy then (if fin || o.finished then o.cancel else { o.fail d with ending := true }) else o }
  ({ s1 with draws := s1.draws + 1 }).modUid uid fun g => { g with copyFrozen := false }

def State.applyThaw (s : State) (kind uid : Nat) (fin : Bool) : State :=
  match s.handleOf uid with
  | none => s
  | some h =>
    if kind == 1 then
      let s1 := s.thawCopies uid fin
      s1.reap h
    else if fin then (s.disown h).endUnderSorrel h
    else ((s.disown h).modGroup h fun g => { g with frozen := false }).resumeAndSettle h

/-- The end of a handler context once its clause is complete, and what becomes of the group it served (R323, R326, R356).
What the context's clauses hold leaves as they retire. -/
def State.applyTret (s : State) (k action : Nat) : State :=
  match s.group k with
  | none => s
  | some g =>
    let s1 := s.putGroup k { g with after := none, serves := none, ended := true }
    let served : Option (Nat × Group) := g.serves.bind fun h => (s1.group h).map fun t => (h, t)
    let s2 : State := match served with
      | some (h, t) =>
        if t.hold != .owned then s1
        else if action == 2 || t.halted then s1.endUnderSorrel h
        else if action == 1 || t.frozen then s1.putGroup h { t with hold := .held }
        else s1.resumeAndSettle h
      | none => s1
    s2.reap k

/-- Contexts whose TRET clause is complete end. -/
def State.settleTrets (s : State) : State :=
  s.groups.foldl (fun s x =>
    match x.2.sorrel, x.2.after with
    | some _, some af =>
      (match af.tret with | some action => if af.commit || af.parks then s else s.applyTret x.1 action | none => s)
    | _, _ => s) s

/-- The park of a context ends (R323, R328). -/
def State.endPark (s : State) (uid : Nat) : State :=
  match s.handleOf uid with
  | none => s
  | some k => (s.modGroup k fun g => { g with after := g.after.map fun a => { a with parks := false } }).settleAfter k

/-- What a context waits for has come about: the group of its GPARK is held or has gone, the accesses of
its TLBINV have reached their homes. -/
def State.settleParks (s : State) : State :=
  s.reqs.foldl (fun s q =>
    let atEnd := match q.act with
      | .sys 3 (uid :: _) =>
        (match (s.handleOf uid).bind s.group with | some g => g.isHeld || g.ended | none => true)
      | .sys 6 [sc, mode, asid, va, cl] => !s.stillUsed sc mode asid va cl q.va
      | _ => false
    if atEnd then (s.dropReq q.id).endPark q.grp else s) s

/-! Handler entry (R319). -/

/-- The registers of a handler context at entry, its vector registers and bands 0. -/
def Arch.handler (pc : Nat) (regs : List Nat) : Arch :=
  { Arch.placed 1 (BitVec.ofNat 52 pc) (regs.map (BitVec.ofNat 32)) [] with
    b := (List.range 32).map fun k => (k, 0),
    slices := [⟨BitVec.ofNat 52 pc, 1, 14, [], 0, none⟩] }

/-- A handler context (R315). -/
def State.enterContext (s : State) (cl ctx asid : Nat) (arch : Arch) (serves : Option Nat) : State :=
  let g : Group :=
    { uid := s.nextId, core := 256 + cl, ctx := ctx, sorrel := some cl, role := 0, index := 0, team := 0,
      part := 0, asid := asid, launch := 0, block := 0, vregs := 8, age := s.now, spkey := 0, strikes := 0,
      slewcy := 0, arch := arch, cur := none, after := none, unret := [], outq := [], rets := [],
      hold := .free, gpark := false, frozen := false, halted := false, copyFrozen := false, parked := none, parkVa := 0, parkLane := 0, deferred := [],
      ended := false, win := [], waits := false, readySince := s.now, serves := serves, spills := [] }
  ({ s with nextId := s.nextId + 1 }).putGroup (sorrelKey cl ctx) g

/-- The registers s0 to s6 at entry. -/
def Event.regs0 (e : Event) : List Nat :=
  let t := e.trap
  if e.isTrap then
    let pc := t.pc.toNat
    let addr := if [2, 4, 5, 10].contains t.cls then t.addr else 0
    [t.cls + t.detail * 2 ^ 4 + t.word * 2 ^ 12, e.handle, pc % 2 ^ 32, pc / 2 ^ 32, t.lane.toNat,
      addr % 2 ^ 32, if t.cls == 10 then 0 else addr / 2 ^ 32]
  else
    [e.code * 2 ^ 4, if e.code == 3 then e.handle else 0] ++ e.regs.map BitVec.toNat

/-- A group that waited for room in the queue enters it (R319). -/
def State.admitTrap (s : State) (cluster : Nat) : State :=
  match s.groups.find? fun x => x.2.sorrel.isNone && x.2.cluster == cluster && x.2.unret.isEmpty &&
      x.2.cur.isNone && (match x.2.hold with | .trapping _ => true | _ => false) with
  | some x => s.settleTrap x.1
  | none => s

/-- TRAP_HANDLER_ENTRY: a free context takes the oldest entry of its queue; a group that waited for room
in the queue then enters it. -/
def execTrapHandlerEntry (cluster ctx : Nat) (s : State) : Out :=
  let c := s.cluster cluster
  let busy := fun (i : Nat) => (s.group (sorrelKey cluster i)).isSome
  let q := if ctx == 3 then c.preemptQ else c.trapQ
  match q with
  | [] => .next s
  | e :: rest =>
    if Config.clusters ≤ cluster || 4 ≤ ctx || busy ctx || (ctx < 3 && (List.range ctx).any fun i => !busy i) then
      .next s
    else
      let s1 := s.setCluster cluster (if ctx == 3 then { c with preemptQ := rest } else { c with trapQ := rest })
      let regs := e.regs0
      let pc := c.svec.toNat * 4096 + (if e.isTrap then 256 * e.trap.cls else 0)
      let asid := match s.group (regs.getD 1 0) with
        | some g => if regs.getD 1 0 == 0 then 0 else g.asid
        | none => 0
      let s2 := s1.enterContext cluster ctx asid (Arch.handler pc regs) (if e.isTrap then some e.handle else none)
      .next (s2.admitTrap cluster)

/-! What the manual says of Sorrel's own work on its queue (log 32): token spills (R96), the record of a saved
arriver (R230), and RESOLVE, which carries no duty (R342). A handler context may serve the entry instead. -/

/-- Spilled tokens by slice, without slices that have ended (R96). -/
def Group.liveSpills (g : Group) : List (Nat × List Token) := g.spills.filter fun x => g.arch.liveSlices.contains x.1

/-- How many tokens the spill store of a cluster's Sorrel holds (R332). -/
def State.spilled (s : State) (cl : Nat) : Nat :=
  ((s.groups.filter fun x => x.2.sorrel.isNone && x.2.cluster == cl).map fun x =>
    (x.2.liveSpills.map fun y => y.2.length).sum).sum

/-- Up to `n` bottom tokens of slice `j` move to the store, above those already there (R96). -/
def Group.spillTokens (g : Group) (j n room : Nat) : Option Group :=
  match g.arch.slices[j]? with
  | none => none
  | some sl =>
    let m := min n sl.toks.length
    if m == 0 || room < m then none
    else
      let keep := sl.toks.take (sl.toks.length - m)
      let moved := (sl.toks.drop (sl.toks.length - m)).reverse
      some { g with arch := { g.arch with slices := g.arch.slices.set j { sl with toks := keep } },
                    spills := Store.put g.spills j ((Store.find g.spills j).getD [] ++ moved) }

/-- Up to `n` of the topmost spilled tokens of slice `j` return under those that remain (R96). -/
def Group.refillTokens (g : Group) (j n : Nat) : Option Group :=
  match g.arch.slices[j]?, Store.find g.spills j with
  | some sl, some sp =>
    let m := min n (min sp.length (16 - sl.toks.length))
    if m == 0 then none
    else
      let left := sp.take (sp.length - m)
      let back := (sp.drop (sp.length - m)).reverse
      some { g with arch := { g.arch with slices := g.arch.slices.set j { sl with toks := sl.toks ++ back } },
                    spills := if left.isEmpty then g.spills.del j else Store.put g.spills j left }
  | _, _ => none

/-- A token fault of class 9: OVERFLOW spills; EMPTY, NOCALL and NOBREAK refill while a spill exists. Slice `j`
is one of those at the restart header. -/
def Group.serveTokens (g : Group) (t : Trap) (j n room : Nat) : Option Group :=
  match g.arch.slices[j]? with
  | none => none
  | some sl =>
    if t.cls != 9 || g.hold != .owned || sl.pc != t.pc || !sl.live then none
    else if t.detail == 0 then g.spillTokens j n room
    else if t.detail == 1 || t.detail == 3 || t.detail == 4 then g.refillTokens j n
    else none

/-- The barrier record of a saved arriver: PEND 0, ARR 1 and STAT, in its nibble of the group table (R331). -/
def State.writeArriver (s : State) (v : SavedGroup) (w : Nat) : State :=
  let o := 64 + 32 * v.pos
  let block := v.area + leNat (s.readHome 0 (v.area + o) 4)
  let entry := block + leNat (s.readHome 0 (v.area + o + 24) 4) + 128 * v.idx
  let a := entry + 0x38 + w % 32 / 2
  let old := leNat (s.readHome 0 a 1)
  let x := 2 + w / 32 % 2 * 4
  s.writeHome 0 a [BitVec.ofNat 8 (if w % 2 == 0 then old / 16 * 16 + x else old % 16 + 16 * x)] false

/-- Sorrel serves the front of its queue. An event for a saved arriver that CTXLD has restored meanwhile is left to a
handler context (R230; DESIGN CHOICE, log 98). -/
def State.service (s : State) (cl j n : Nat) : State :=
  let c := s.cluster cl
  match c.trapQ with
  | [] => s
  | e :: rest =>
    let s1 := s.setCluster cl { c with trapQ := rest }
    if (List.range 3).all fun i => (s.group (sorrelKey cl i)).isSome then s
    else if e.isTrap then
      match s.group e.handle with
      | none => s
      | some g =>
        match g.serveTokens e.trap j n (4096 - s.spilled cl) with
        | some g1 => ((s1.putGroup e.handle g1).resumeAndSettle e.handle).admitTrap cl
        | none => s
    else if e.code == 1 then s1.admitTrap cl
    else if e.code == 2 then
      match s.saved.find? fun v => v.uid == e.handle with
      | some v => (s1.writeArriver v (e.regs.getD 3 0).toNat).admitTrap cl
      | none => s
    else s

end Sys2Proof.Machine
end

