-- ==== Sys2Proof/Machine/SaveArea.lean ====
section
/-! DEFINITION. The launch save area: CTXSV, CTXLD and CTXLD.DISCARD (R78 to R81, R200, R210, R256, R279,
R328 to R332). -/

namespace Sys2Proof.Machine

/-! Issue. -/

/-- The save-area address of a form: a multiple of 64 in device memory (R328; DESIGN CHOICE, log 15). -/
def areaOf (a : Arch) (sa : Nat) : Except Fate Nat :=
  let x := a.readS64 sa
  if x % 64 != 0 then .error illegal
  else if Config.dramBytes ≤ x then .error (.trap 4 1 noLane x)
  else .ok x

def areaForm (sa : Nat) (srcs : List Nat) (code : Nat) (s : State) (args : Arch → Nat → Except Fate (List Nat)) : Out :=
  privForm s (uRegs sa true ++ srcs) fun s g c cl =>
    match areaOf g.arch sa with
    | .error f => .error f
    | .ok area =>
      match args g.arch cl with
      | .error f => .error f
      | .ok xs =>
        let (s1, g1) := sysHeld s g c code (area :: xs)
        .ok (s1, g1.parkAfter)

def execCtxsv (sa sb : BitVec 6) (s : State) : Out :=
  areaForm sa.toNat [sb.toNat] sysCtxsv s fun a cl =>
    let w := (a.readS sb.toNat).toNat
    if w / 2 ^ 17 != 0 || 8 < w / 2 ^ 13 % 16 then .error illegal
    else .ok [w / 2 ^ 13 % 16, w % 2 ^ 13, cl]

def execCtxld (sa sb : BitVec 6) (s : State) : Out :=
  areaForm sa.toNat [sb.toNat] sysCtxld s fun a _ => .ok [(a.readS sb.toNat).toNat]

def execCtxldDiscard (sa _sb : BitVec 6) (s : State) : Out :=
  areaForm sa.toNat [] sysDiscard s fun _ _ => .ok []

/-! Stopping (R60, R210, R328). -/

/-- The word of device memory at an address. -/
def State.word (s : State) (a : Nat) : Nat := leNat (s.readHome 0 a 4)
def State.putBytes (s : State) (a : Nat) (bs : List Byte) : State := s.writeHome 0 a bs false

/-- RESULT of an area, STATE left as it was; CAPMASK as given. -/
def State.reportArea (s : State) (area mask result : Nat) : State :=
  s.putBytes (area + 4) (leBytes 4 (s.word (area + 4) / 2 ^ 28 * 2 ^ 28 + mask + result))

/-- The groups of a launch, on one core or on all. -/
def State.launchGroups (s : State) (l : Nat) : List (Nat × Group) :=
  s.groups.filter fun x => x.2.launch == l && x.2.sorrel.isNone

/-- The operation stops at its next step or transfer boundary (R210, R256). -/
def Op.stop (op : Op) : Op := if op.pos == 0 then { op.cut with stopped := true } else { op with stopped := true }

/-- CTXSV is performed: BUSY, NOGROUP, or the stop begins. -/
def State.applyCtxsv (s : State) (q : Req) (area floor h cl : Nat) : State :=
  let quit := fun (r : Nat) => ((s.reportArea area 0 r).dropReq q.id).endPark q.grp
  match s.handleGroup cl h with
  | none => quit 1
  | some t =>
    let gs := s.launchGroups t.launch
    if gs.any fun x => x.2.hold == .owned && s.groups.any fun y => y.2.serves == some x.1 && y.2.uid != q.grp then quit 2
    else
      let mine := (gs.filter fun x => x.2.hold == .free).map fun x => x.2.uid
      let s1 := { s with
        saves := s.saves ++ [⟨q.grp, t.launch, area, floor, mine⟩],
        ops := s.ops.map fun (o : Op) => if gs.any fun x => x.2.uid == o.grp then o.stop else o }
      mine.foldl (fun s u => s.applyGpark u) s1

/-- A request is saved with its group: it waits for a page, or at a pool, or behind a request that does. -/
def State.savedReq (s : State) (r : Req) : Bool :=
  -- an atomic that the group's queue still holds stands before it
  let behindHeld := match (s.handleOf r.grp).bind s.group with
    | some g => r.act.isScr && g.outq.any fun p => p.id < r.id && p.act.isAtomic && p.meets r
    | none => false
  match r.act with
  | .fence _ _ => true
  | .plcfg _ _ | .plstat _ _ | .plpush _ _ _ _ | .plpop _ _ | .pldrain _ => true
  | _ => r.open && (r.walk.isSome || s.behindFence r || s.behindPop r || behindHeld)
/-- A request that the save awaits. -/
def State.awaited (s : State) (g : Group) (r : Req) : Bool :=
  match r.act with
  | .plcfg _ _ | .plstat _ _ | .plpush _ _ _ _ | .plpop _ _ | .pldrain _ => r.reply.isSome && !g.frozen
  | .prefetch _ | .atomo _ _ _ _ | .aflush | .rel _ _ => false
  | .store p _ _ => !s.savedReq r && p == .scr
  | .atomic scr _ _ _ _ => !s.savedReq r && (scr || r.pid.isSome)
  | _ => !s.savedReq r

/-- The group's held requests have left, or the front of them waits for what is saved with the group, so that they are
saved too (R60). -/
def State.queueStopped (s : State) (g : Group) : Bool :=
  match g.outq with
  | [] => true
  | q :: _ => !({ s with reqs := s.reqs.filter fun r => r.grp == g.uid && s.savedReq r } : State).canLeave q

/-- The group is at a boundary, its clauses retired and its requests gone or saved (R60, R328). -/
def State.stoppedGroup (s : State) (g : Group) : Bool :=
  g.cur.isNone && g.unret.isEmpty && s.queueStopped g && (g.isHeld || g.ended) &&
  !(s.reqs.any fun r => r.grp == g.uid && s.awaited g r) &&
  (s.ops.all fun o => o.grp != g.uid || o.atBoundary) &&
  !(s.pools.any fun (x : Nat × Pool) => (x.2.pushes ++ x.2.pops).any fun k => k.req.grp == g.uid)

/-! Writing (R78 to R81, R256, R279, R330, R331). -/

def padTo (n : Nat) (bs : List Byte) : List Byte := bs ++ List.replicate ((n - bs.length % n) % n) 0

/-- The block under a save floor: allocations and tables of lower rank are LOST (R200, R279). -/
def Block.underFloor (b : Block) (f : Nat) : Block :=
  let b1 := (b.allocs.filter fun a => a.rank < f && a.state != .lost).foldl (fun b a => b.loseAlloc a.base) b
  let low := fun (st : Nat) => b.tbs.any fun (x : Nat × Tbl) => x.2.st == st && x.2.rank < f
  { b1 with
    lostCount := b1.lostCount + BitVec.ofNat 32 (b.allocs.filter fun a => a.rank < f && a.state != .lost).length,
    tbs := b1.tbs.map fun (x : Nat × Tbl) =>
      if x.2.rank < f then (x.1, { x.2 with lost := true, valid := false, cause := causeWord 11 x.2.h 0 }) else x,
    tbe := b1.tbe.map fun (x : Nat × TblData) => if low x.1 then (x.1, { x.2 with el := [], poison := [], gone := true }) else x }

/-- The table's image is saved whole. -/
def Tbl.whole (t : Tbl) : Bool := !t.lost && !t.spilled
def Acc.granules (a : Acc) : Nat := (a.bytes + 1023) / 1024

/-- The 16-byte handle records (R81). -/
def handleRecords (b : Block) : List Byte :=
  let rec_ := fun (w : Nat) => leBytes 4 w ++ List.replicate 12 (0 : Byte)
  ((List.range 16).map fun h =>
    match b.tbl h with
    | some (_, t) =>
      rec_ (1 + bit t.valid 1 + bit t.lost 2 + t.slot * 2 ^ 8 +
        (if t.spilled then 0 else (b.tblData t.st).granules t.res) * 2 ^ 16)
    | none => rec_ 0).flatten ++
  ((List.range 16).map fun h =>
    match b.acc h with
    | some (_, a) => rec_ (3 + a.granules * 2 ^ 16)
    | none => rec_ 0).flatten

def accSection (b : Block) : List Byte :=
  ((List.range 16).map fun h =>
    match b.acc h with
    | some (_, a) =>
      leBytes 2 a.m ++ leBytes 2 a.n ++
      leBytes 4 (bit a.int 0 + (match a.rs with | some r => r + 1 | none => 0) * 2) ++
      leBytes 1 (a.poison.foldl (fun x k => x + 2 ^ k) 0) ++ List.replicate 7 0 ++
      ((List.range (a.m * a.n)).map fun i => leBytes 4 (Store.get a.el i 0).toNat).flatten
    | none => []).flatten

def tableSection (b : Block) : List Byte :=
  ((List.range 16).map fun h =>
    match b.tbl h with
    | some (_, t) =>
      let d := b.tblData t.st
      let eb := entBytes (b.slots.getD t.slot 0)
      imageHeader t ++ (if t.whole then ((List.range t.g).map fun g => groupImage t eb d g).flatten else [])
    | none => []).flatten

def AllocState.code : AllocState → Nat
  | .live => 0 | .lost => 1 | .rebuilding _ => 2

/-- The allocation's contents are saved with it. -/
def Alloc.full (a : Alloc) : Bool := a.state != .lost && a.spill.isNone

def allocSection (b : Block) (uids : List Nat) : List Byte :=
  (b.allocs.map fun a =>
    leBytes 4 (a.base / 1024 + a.granules * 2 ^ 11 + a.rank * 2 ^ 22 + a.state.code * 2 ^ 25 +
      (if a.spill.isSome then 2 ^ 27 else 0)) ++
    leBytes 4 (match a.state with
      | .rebuilding o => (match uids.idxOf? o with | some i => i | none => 0xFFFFFFFF)
      | _ => 0xFFFFFFFF) ++
    leBytes 8 a.handler.toNat ++
    (if a.full then b.scr.readN a.base (1024 * a.granules) else [])).flatten

def barrierSection (s : State) (key : Nat) : List Byte :=
  ((List.range 16).map fun i =>
    let x := s.barrier 1 key i
    leBytes 4 x.phase.toNat ++ leBytes 4 x.count ++ leBytes 4 x.e ++ leBytes 1 (bit x.abandon 0) ++
      List.replicate 3 0).flatten

/-- The submitting instruction of an operation: primary in [6:0], SEC in [10:7]. -/
def OpKind.code (k : OpKind) : Nat :=
  match k with
  | .cpl _ _ _ => 0x5C
  | .cpt _ _ _ _ st mask => if mask != 0 then 0x60 else if st then 0x5E else 0x5D
  | .cpr _ _ _ _ _ => 0x5F
  | .lnch _ _ => 0x71
  | .acc 0 _ _ _ mark _ => if mark == 1 then 0x64 else 0x65
  | .acc 1 _ _ _ _ _ => 0x65 + 128
  | .acc 2 _ _ _ _ _ => 0x66
  | .acc _ _ _ _ _ _ => 0x66 + 128
  | .mma _ _ _ _ sp _ _ _ => if sp.isSome then 0x68 else 0x67
  | .mmaT .. | .quad .. => 0x67 + 128
  | .lmma .. => 0x6C
  | .tbuild _ _ _ => 0x6B
  | .tbspill _ _ => 0x6D + 128
  | .tbfill _ _ _ => 0x6D + 256
  | .tbfree _ => 0x6A + 128
  | .none c => c

/-- The handle bound to an accumulator's storage, 15 for one no longer bound. -/
def handleNo (m : Store Nat) (k : Nat) : Nat :=
  match m.find? fun x => x.2 == k with | some x => x.1 % 16 | none => 15
/-- The handle of a table by one of its states, which need not be the one that is bound now (R279). -/
def Block.tableNo (b : Block) (tb : Nat) : Nat := match Store.find b.tbs tb with | some t => t.h % 16 | none => 15

/-- The operand values of an operation, as words: register values in operand order, then one word of the fields
that its instruction writes out (DESIGN CHOICE, log 23). `pos` is the place of its group's core in the team. -/
def Op.words (op : Op) (b : Block) (pos : Nat) : List Nat :=
  let dw : DWord → List Nat := fun m => [m.toNat % 2 ^ 32, m.toNat / 2 ^ 32]
  let mm : DWord → DWord → Nat → Nat → Nat → Bool → Bool → List Nat × Nat := fun ma mb k st slot z r =>
    (dw ma ++ dw mb ++ [k], handleNo b.ach st + slot * 2 ^ 4 + bit z 7 + bit r 8)
  match op.kind with
  | .cpl lanes dir w => [lanes.length + dir * 2 ^ 8 + w * 2 ^ 16]
  | .cpt r d cs bad _ mask =>
    [d, r] ++ cs.map BitVec.toNat ++ [mask + ((List.range 5).filter fun i => bad.getD i false).foldl (fun x i => x + 2 ^ (8 + i)) 0]
  | .cpr src dst n o ty => [dst % 2 ^ 32, dst / 2 ^ 32, src, n, o + 4 * ty]
  | .lnch a q => [a % 2 ^ 32, a / 2 ^ 32, q] ++ (match op.scratch[256]? with | some i => [1, i % 2 ^ 32, i / 2 ^ 32] | none => [])
  | .acc what st st2 m slot raw =>
    dw m ++ [handleNo b.ach st + handleNo b.ach st2 * 2 ^ 4 + slot * 2 ^ 8 + bit raw 11 + what * 2 ^ 12 + 2 ^ 31]
  | .mma st ma mb k sp slot z r =>
    let (xs, f) := mm ma mb k st slot z r
    xs ++ [sp.getD 0, f]
  | .mmaT h _ int m n ma mb k slot z r =>
    let (xs, f) := mm ma mb k 0 slot z r
    xs ++ [op.id % 2 ^ 32, f / 16 * 16 + h % 16 + bit int 9 + 2 ^ 10, m + n * 2 ^ 16, op.scratch.foldl (fun x q => x + 2 ^ q) 0]
  | .quad parent q st ma mb k slot z r =>
    let (xs, f) := mm ma mb k st slot z r
    xs ++ [parent % 2 ^ 32, f + 2 ^ 11, q + pos * 2 ^ 2]
  | .lmma st tb m sc sk planes n z r =>
    dw m ++ [sc, sk, handleNo b.ach st + b.tableNo tb * 2 ^ 4 + planes * 2 ^ 8 + n * 2 ^ 12 + bit z 24 + bit r 25]
  | .tbuild tb m c => dw m ++ [c, b.tableNo tb + 2 ^ 31]
  | .tbspill tb off => [off, b.tableNo tb + 2 ^ 31]
  | .tbfill tb off own => [off, b.tableNo tb + bit own 4 + 2 ^ 31]
  | .tbfree tb => [b.tableNo tb]
  | .none _ => []

/-- The batch of an operation's entry (R203). -/
def Timeline.batchOf (t : Timeline) (id : Nat) : Nat :=
  t.c.toNat + 1 + ((t.entries.takeWhile fun e => e.op != some id).filter (·.op.isNone)).length

/-- The operations of a group whose submission has yet to leave its core. -/
def Group.unsent (g : Group) : List Op := g.outq.filterMap Req.submission

/-- A record of the engine section (R331): a reducing copy's progress counts transfers of 32 elements. -/
def engineRecord (b : Block) (g : Group) (idx : Nat) (op : Op) : List Byte :=
  let id := match op.kind with | .quad p .. => p | _ => op.id
  let batch := (g.arch.tl op.tl).batchOf id
  let (copy, step) := match op.kind with | .cpr .. => (op.id % 2 ^ 32, (op.step + 31) / 32) | _ => (0, op.step)
  let code := match op.kind with
    | .tbuild tb _ _ => op.kind.code + (match Store.find b.tbs tb with | some t => bit t.cb 7 | none => 0)
    | k => k.code
  leBytes 4 (code % 2 ^ 11 + op.tl * 2 ^ 11 + idx * 2 ^ 13) ++ leBytes 8 batch ++ leBytes 8 step ++
    leBytes 4 copy ++ ((op.words b g.team ++ List.replicate 10 0).take 10 |>.map (leBytes 4)).flatten

/-- The token runs of a block's groups (R331). -/
def tokenSection (gs : List Group) : List Byte :=
  ((List.range gs.length).map fun i =>
    match gs[i]? with
    | some g => (g.liveSpills.map fun x =>
        leBytes 2 i ++ leBytes 1 x.1 ++ [(0 : Byte)] ++ leBytes 4 x.2.length ++
          (x.2.map fun t => leBytes 8 t.bits).flatten).flatten
    | none => []).flatten

/-- The group was free when the stop began and has been held by nothing but the stop: it goes on at CTXLD. -/
def Save.goesOn (sv : Save) (g : Group) : Bool := sv.mine.contains g.uid && g.hold == .held && !g.frozen

/-- A group-table entry (R331). -/
def groupEntry (g : Group) (at_ : Nat) (held : Bool) : List Byte :=
  let t := g.arch.tl
  let rec_ := (List.range 16).map fun i =>
    BitVec.ofNat 8 (Store.get g.arch.bars (2 * i) 0 + 16 * Store.get g.arch.bars (2 * i + 1) 0)
  (leBytes 4 at_ ++ leBytes 4 (bit held 0 + bit g.frozen 1) ++
    ((List.range 3).map fun i => leBytes 8 (t i).l.toNat).flatten ++
    ((List.range 3).map fun i => leBytes 8 (t i).bytes.toNat).flatten ++ rec_) ++ List.replicate 56 0

/-- The group save area (R78). -/
def groupBytesOf (g : Group) : List Byte :=
  ((List.range ((0x2000 + 132 * g.vregs) / 4)).map fun i => leBytes 4 (g.areaWord (4 * i))).flatten

/-- An ended group has given its context back, and only what it sent is on its way (R89): it is not saved. -/
def Group.ghost (g : Group) (h : Nat) : Bool := h == ghostKey g.uid
/-- The groups of a launch on a core, in the order of the group table. -/
def State.tableOf (s : State) (launch core : Nat) : List Group :=
  ((s.launchGroups launch).filter fun x => x.2.core == core && !x.2.ghost x.1).map Prod.snd
/-- A group's index in the group table of its block. -/
def State.tableIndex (s : State) (g : Group) : Nat := (((s.tableOf g.launch g.core).map (·.uid)).idxOf? g.uid).getD 31

/-- One block of the area, with the offsets of its five sections. -/
def blockBytes (s : State) (sv : Save) (key : Nat) (b : Block) (gs : List Group) : List Byte × List Nat :=
  let uids := gs.map (·.uid)
  let ops := (s.ops.filter fun o => o.core == b.core && s.groups.any fun x => x.2.launch == sv.launch && x.2.uid == o.grp) ++
    (gs.map Group.unsent).flatten
  let head := padTo 16 (handleRecords b ++ accSection b ++ tableSection b)
  let o1 := head.length
  let sec1 := padTo 16 (allocSection b uids)
  let o2 := o1 + sec1.length
  let sec2 := barrierSection s key
  let o3 := o2 + sec2.length
  let sec3 := (ops.map fun o =>
    match s.handleOf o.grp |>.bind s.group with
    | some g => engineRecord b g (s.tableIndex g) o
    | none => []).flatten
  let o4 := o3 + sec3.length
  let sec4 := padTo 16 (tokenSection gs)
  let o5 := o4 + sec4.length
  let start := (o5 + 128 * gs.length + 63) / 64 * 64
  let places := (List.range gs.length).map fun i =>
    start + (gs.take i).foldl (fun n g => n + (0x2000 + 132 * g.vregs + 63) / 64 * 64) 0
  let table := ((List.range gs.length).map fun i =>
    match gs[i]? with
    | some g => groupEntry g (places.getD i 0) (!sv.goesOn g)
    | none => []).flatten
  let all := padTo 64 (head ++ sec1 ++ sec2 ++ sec3 ++ sec4 ++ table) ++ (gs.map fun g => padTo 64 (groupBytesOf g)).flatten
  (all, [o1, o2, o3, o4, o5])

/-- The whole area of a stopped launch. -/
def areaBytes (s : State) (sv : Save) (la : Launch) (blocks : List (Nat × Block × List Group)) : List Byte :=
  let bs := blocks.map fun x => blockBytes s sv x.1 x.2.1 x.2.2
  let offs := (List.range bs.length).map fun i => 512 + (bs.take i).foldl (fun n x => n + x.1.length) 0
  let size := 512 + bs.foldl (fun n x => n + x.1.length) 0
  let team := recTeam la.recd
  let rows := ((List.range 4).map fun k =>
    match bs[k]? with
    | some x =>
      leBytes 4 (offs.getD k 0) ++ leBytes 1 (la.cores.getD k 0) ++ List.replicate 3 0 ++
        (x.2.map (leBytes 4)).flatten ++ List.replicate 4 0
    | none => List.replicate 32 0).flatten
  let head := leBytes 4 1 ++ leBytes 4 (1 * 2 ^ 28) ++ leBytes 4 size ++
    leBytes 4 (bit team 0 + sv.floor * 2 + la.prio * 2 ^ 5) ++ leBytes 4 (la.asid + la.part * 2 ^ 16) ++
    List.replicate 44 0 ++ rows ++ List.replicate 64 0 ++ la.recd.take 256
  head ++ (bs.map Prod.fst).flatten

/-- The group as the device keeps it: REGANG arrivals are discarded (R98). -/
def Group.kept (g : Group) (goesOn : Bool) : Group :=
  { g with
    hold := if goesOn then .free else .held, parked := none, waits := false,
    arch := { g.arch with slices := g.arch.slices.map fun x => { x with arr := none } } }

/-- The launch's blocks leave their cores (R328, step 3). -/
def State.releaseLaunch (s : State) (l : Nat) (la : Launch) : State :=
  let gone := fun (u : Nat) => (s.launchGroups l).any fun x => x.2.uid == u && !x.2.ghost x.1
  let s1 := { s with
    groups := s.groups.filter fun x => x.2.launch != l || x.2.sorrel.isSome || x.2.ghost x.1,
    ops := s.ops.filter fun o => !gone o.grp,
    reqs := s.reqs.filter fun r => !(gone r.grp && (s.savedReq r || r.act.own || r.reply.isSome)),
    blocks := la.cores.foldl (fun b c => b.del (l * 256 + c)) s.blocks,
    launches := s.launches.map fun (x : Nat × Launch) =>
      if x.1 == l then (x.1, { x.2 with resident := false }) else x }
  la.cores.foldl (fun s c =>
    let co := s.core c
    let s2 := s.setCore c { co with
      active := co.active.filter fun h => (s.group h).isSome,
      matrixQ := co.matrixQ.filter fun k => (s.op k).isSome,
      lookupQ := co.lookupQ.filter fun k => (s.op k).isSome,
      table := if s.blocks.any (fun x => x.2.core == c && x.2.macro0 != 0) then co.table else 0 }
    s2.pruneWaiters (clusterOf c)) s1

/-- The step that a stopped operation on accumulator `a` performs next (R245, R256). -/
def Op.restart (op : Op) (a : Acc) : Nat :=
  let r := match op.kind with
    | .mma _ _ _ _ _ _ _ r | .quad _ _ _ _ _ _ _ _ r | .lmma _ _ _ _ _ _ _ _ r => r
    | _ => false
  if op.started then op.step else if r then a.rs.getD 0 else 0
/-- RS of each accumulator names the first step that the oldest of the stopped operations on it did not perform (R245,
R256). -/
def State.withRestarts (s : State) (b : Block) : Block :=
  { b with acs := b.acs.map fun (x : Nat × Acc) =>
      let os := s.ops.filter fun o => o.ramps && !o.finished && o.accs.contains x.1
      match os.find? fun o => os.all fun y => o.seq ≤ y.seq with
      | some o => (x.1, { x.2 with rs := some (o.restart x.2) })
      | none => x }

/-- The blocks that a save writes: key, block under the floor, and groups. -/
def State.saveBlocks (s : State) (sv : Save) (la : Launch) : List (Nat × Block × List Group) :=
  la.cores.filterMap fun c =>
    let key := sv.launch * 256 + c
    (Store.find s.blocks key).map fun b => (key, (s.withRestarts b).underFloor sv.floor, s.tableOf sv.launch c)

/-- The save is written, the launch released and the result reported. -/
def State.writeSave (s : State) (sv : Save) (la : Launch) : State :=
  let blocks := s.saveBlocks sv la
  let bytes := areaBytes s sv la blocks
  let kept := ((List.range blocks.length).map fun k =>
    match blocks[k]? with
    | none => []
    | some (_, b, gs) => (List.range gs.length).filterMap fun i =>
      gs[i]?.map fun g =>
        ({ uid := g.uid, core := b.core, area := sv.area, pos := k, idx := i,
           g := g.kept (sv.goesOn g),
           reqs := s.reqs.filter fun r => r.grp == g.uid && s.savedReq r,
           ops := (s.ops.filter (·.grp == g.uid)).map Op.cut } : SavedGroup)).flatten
  let keptBlocks := (List.range blocks.length).filterMap fun k =>
    blocks[k]?.map fun x => ({ area := sv.area, pos := k, b := x.2.1, macros := (s.core x.2.1.core).macros } : SavedBlock)
  let s1 := (s.putBytes sv.area bytes).releaseLaunch sv.launch la
  { s1 with
    saved := s1.saved.filter (·.area != sv.area) ++ kept,
    savedBlocks := s1.savedBlocks.filter (·.area != sv.area) ++ keptBlocks }

/-- A group that was halted ends, and the operations that it still has are over, so that nothing of it is saved (R326,
R338). -/
def State.endHalted (s : State) (h : Nat) (g : Group) : State :=
  let s1 := if g.ended then s else s.endUnderSorrel h
  ((s1.ops.filter (·.grp == g.uid)).foldl (fun s o => s.endOpNow o) s1).reap h

/-- CTXSV_COMPLETE: once everything has stopped, the area is written (R328). Halted groups end and are not
saved (R338). Where no group is left the answer is NOGROUP (R329). -/
def execCtxsvComplete (g : Nat) (s : State) : Out :=
  match s.group g with
  | none => .next s
  | some cx =>
    match s.saves.find? (·.issuer == cx.uid) with
    | none => .next s
    | some sv =>
      let gs := s.launchGroups sv.launch
      let atEnd := fun (s : State) =>
        let s1 := { s with
          saves := s.saves.filter (·.issuer != cx.uid),
          reqs := s.reqs.filter fun r => !(r.grp == cx.uid && (match r.act with | .sys 8 _ => true | _ => false)) }
        s1.endPark cx.uid
      if !gs.all fun x => s.stoppedGroup x.2 then .next s
      else
        let s1 := (gs.filter fun x => x.2.halted).foldl (fun s x => s.endHalted x.1 x.2) s
        match Store.find s1.launches sv.launch, (s1.launchGroups sv.launch).filter fun x => !x.2.ghost x.1 with
        | some la, _ :: _ => .next (atEnd (s1.writeSave sv la))
        | _, _ => .next (atEnd (s1.reportArea sv.area 0 1))

/-! Pre-emption (R329). -/

/-- A PREEMPT event for the launch is queued, or its save is in progress. -/
def State.preempting (s : State) (l : Nat) : Bool :=
  (s.saves.any fun v => v.launch == l) ||
  s.clusters.any fun x => (x.2.preemptQ ++ x.2.waiting).any fun e => e.code == 3 && e.of == l

/-- QPREEMPT (R329): a PREEMPT event for the named launch, or PREERR. The size of the area is that of a save
now (DESIGN CHOICE, log 18); where no group is left on the launch's first core there is no handle to give, and the write
sets PREERR (DESIGN CHOICE, log 103). -/
def execQpreempt (fn q : Nat) (v : DWord) (s : State) : Out :=
  let x := v.toNat
  let area := x / 2 ^ 24 * 64
  let floor := x / 2 ^ 20 % 16
  .next (s.queueWrite fn q fun k =>
    let err := s.setQueue q { k with preerr := true }
    match s.launches.find? fun l => l.2.queue == q && l.2.resident && l.2.slot % 2 ^ 16 == x % 2 ^ 16 with
    | none => err
    | some (l, la) =>
      let sv : Save := ⟨0, l, area, floor, []⟩
      if s.preempting l then s
      else if 8 < floor || !s.inUnits k.part area (areaBytes s sv la (s.saveBlocks sv la)).length then err
      else
        let core := la.cores.headD 0
        match s.firstGroup l core with
        | none => err
        | some (h, _) =>
          s.queueEvent (clusterOf core) 3 h
            [BitVec.ofNat 32 area, BitVec.ofNat 32 (area / 2 ^ 32), BitVec.ofNat 32 floor] l)

/-! Reading an area back (R332). -/

/-- The fields of an area's header. -/
structure AreaHead where
  area : Nat
  size : Nat
  team : Bool
  floor : Nat
  prio : Nat
  asid : Nat
  part : Nat
  recd : List Byte
  /-- block offset and its five section offsets -/
  blocks : List (Nat × List Nat)
  deriving DecidableEq, Repr

def State.areaHead (s : State) (area : Nat) : AreaHead :=
  let w := fun (o : Nat) => s.word (area + o)
  let team := w 0x0C % 2 == 1
  { area := area, size := w 8, team := team, floor := w 0x0C / 2 % 16, prio := w 0x0C / 2 ^ 5 % 4,
    asid := w 0x10 % 2 ^ 16, part := w 0x10 / 2 ^ 16 % 64, recd := s.readHome 0 (area + 0x100) 256,
    blocks := (List.range (if team then 4 else 1)).map fun k =>
      (w (0x40 + 32 * k), (List.range 5).map fun i => w (0x48 + 32 * k + 4 * i)) }

/-- One group-table entry: its offset from the area, its control bits and its area's address. -/
structure SavedRef where
  entry : Nat
  at_ : Nat
  vregs : Nat
  deriving DecidableEq, Repr

/-- The core that a block of the area was saved on. -/
def State.savedCore (s : State) (a : AreaHead) (k : Nat) : Nat := s.word (a.area + 0x44 + 32 * k) % 256

/-- Groups of a block: the table runs to the first group area (R331); none where it lies at the block's end. -/
def State.refsOf (s : State) (a : AreaHead) (k : Nat) : List SavedRef :=
  let (b, secs) := a.blocks.getD k (0, [])
  let table := a.area + b + secs.getD 4 0
  let first := a.area + b + s.word table
  let stop := ((a.blocks.map Prod.fst).filter (b < ·)).foldl min a.size
  let n := if stop ≤ b + secs.getD 4 0 then 0 else min 32 ((first - table) / 128)
  (List.range n).map fun i =>
    let e := table + 128 * i
    let at_ := a.area + b + s.word e
    ⟨e, at_, s.word (at_ + 4) / 2 ^ 8 % 2 ^ 8 * 8⟩

/-- Target cores. -/
def targets (a : AreaHead) (ctl : Nat) : List Nat := (List.range a.blocks.length).map fun k => ctl / 2 ^ (8 * k) % 256

/-- A saved allocation. -/
structure AllocRec where
  base : Nat
  granules : Nat
  rank : Nat
  state : Nat
  spill : Bool
  owner : Nat
  handler : Nat
  /-- where its contents lie, when saved -/
  body : Nat
  deriving DecidableEq, Repr

def AllocRec.full (r : AllocRec) : Bool := r.state != 1 && !r.spill

/-- The allocation section, read from `at_` up to `stop`. -/
def State.readAllocs (s : State) (fuel at_ stop : Nat) : List AllocRec :=
  match fuel with
  | 0 => []
  | fuel + 1 =>
    let w := s.word at_
    let g := w / 2 ^ 11 % 2 ^ 11
    if stop < at_ + 16 || g == 0 then []
    else
      let r : AllocRec :=
        { base := 1024 * (w % 2 ^ 11), granules := g, rank := w / 2 ^ 22 % 8, state := w / 2 ^ 25 % 4,
          spill := w / 2 ^ 27 % 2 == 1, owner := s.word (at_ + 4),
          handler := s.word (at_ + 8) + 2 ^ 32 * s.word (at_ + 12), body := at_ + 16 }
      r :: s.readAllocs fuel (at_ + 16 + (if r.full then 1024 * g else 0)) stop

def State.blockAllocs (s : State) (a : AreaHead) (k : Nat) : List AllocRec :=
  let (b, secs) := a.blocks.getD k (0, [])
  s.readAllocs 64 (a.area + b + secs.getD 0 0) (a.area + b + secs.getD 1 0)

/-- Token runs, read from `at_` up to `stop`: group-table index, slice and tokens, bottom first. -/
def State.readRuns (s : State) (fuel at_ stop : Nat) : List (Nat × Nat × List Token) :=
  match fuel with
  | 0 => []
  | fuel + 1 =>
    let n := s.word (at_ + 4)
    if stop < at_ + 8 + 8 * n || n == 0 then []
    else
      (s.word at_ % 2 ^ 16, s.word at_ / 2 ^ 16 % 2 ^ 8, (List.range n).map fun i =>
        Token.ofBits (s.word (at_ + 8 + 8 * i) + 2 ^ 32 * s.word (at_ + 12 + 8 * i))) ::
      s.readRuns fuel (at_ + 8 + 8 * n) stop

def State.blockRuns (s : State) (a : AreaHead) (k : Nat) : List (Nat × Nat × List Token) :=
  let (b, secs) := a.blocks.getD k (0, [])
  s.readRuns 256 (a.area + b + secs.getD 3 0) (a.area + b + secs.getD 4 0)

/-- The spilled tokens of a saved group (R331). -/
def State.readSpills (s : State) (a : AreaHead) (k idx : Nat) : Store (List Token) :=
  (s.blockRuns a k).foldl (fun m x => if x.1 == idx then Store.put m x.2.1 x.2.2 else m) []

/-- Rows for the allocations saved LIVE or REBUILDING, in the order of the area (R190, R332; DESIGN CHOICE, log 90). -/
def placeSaved (rs : List AllocRec) (bs : List Bank) : Option (List (List (Nat × Nat))) :=
  match rs with
  | [] => some []
  | r :: rest =>
    if r.state == 1 then (placeSaved rest bs).map ([] :: ·)
    else
      match placeRows r.granules r.rank bs with
      | none => none
      | some rows =>
        let bs1 := bs.map fun b =>
          let mine := rows.filter fun x => x.1 == b.idx
          { b with free := b.free.filter fun x => !mine.any fun y => y.2 == x,
                   rank := if mine.isEmpty then b.rank else some (max (b.rank.getD 0) r.rank) }
        (placeSaved rest bs1).map (rows :: ·)

/-- The failing bits of CAPMASK for one block on its target core. -/
def State.capMask (s : State) (a : AreaHead) (ts : List Nat) (k : Nat) : Nat :=
  let core := ts.getD k 0
  let refs := s.refsOf a k
  let al := s.blockAllocs a k
  let kept := al.filter (·.state != 1)
  let total := fun (l : List AllocRec) => l.foldl (fun n x => n + x.granules) 0
  let bs := s.banks core
  let r := a.recd
  let plain := kept.filter (!·.spill)
  let rowsOk := fun (l : List AllocRec) => (placeSaved l bs).isSome
  bit (decide ((s.freeCtx core).length < refs.length)) 16 +
  bit (decide (s.freeVregs core < refs.foldl (fun n x => n + x.vregs) 0)) 17 +
  bit (decide (freeRows bs < total plain) || !rowsOk (plain.filter (·.rank != 0))) 18 +
  bit (decide (freeAnchors bs < total (kept.filter (·.rank == 0)))) 19 +
  bit (decide (128 < s.coreSum core (·.accBudget) + recAcc r)) 20 +
  bit (decide (256 < s.coreSum core (·.tblBudget) + recTbl r) || (rowsOk plain && !rowsOk kept)) 21 +
  bit (decide (16 < s.coreSum core (·.bbar) + recBbar r)) 22 +
  bit (decide (16 < s.coreSum core (·.tbh) + recTbh r)) 23 +
  bit (!s.macroFits core (recMacro r)) 24 +
  bit (decide (4096 < s.spilled (clusterOf core) +
    ((List.range a.blocks.length).map fun j => (s.blockRuns a j).foldl (fun n x => n + x.2.2.length) 0).sum)) 25

def teamShape (a : AreaHead) (ts : List Nat) : Bool :=
  !a.team || (ts.eraseDups.length == 4 && (ts.all fun c => clusterOf c == clusterOf (ts.headD 0)))

/-- The bitwise or of the blocks' failing bits. -/
def State.capMasks (s : State) (a : AreaHead) (ts : List Nat) : Nat :=
  (List.range ts.length).foldl (fun m k => m ||| s.capMask a ts k) (bit (!teamShape a ts) 26)

/-! Applying. -/

/-- The registers and control state of a saved group, REGANG arrivals discarded (R98); `old` holds what the layout has no
place for. -/
def State.readArch (s : State) (r : SavedRef) (old : Arch) : Arch :=
  let rd := fun (o : Nat) => s.word (r.at_ + o)
  let n := max 1 (min 8 (rd 4 % 16))
  let bytes := fun (x : Nat) => (List.range 4).map fun k => BitVec.ofNat 8 (x / 2 ^ (8 * k))
  let bits := fun (x w : Nat) => (List.range w).filter fun i => x / 2 ^ i % 2 == 1
  { old with
    v := ((List.range (32 * r.vregs)).map fun i =>
        (i, BitVec.ofNat 32 (rd (0x2000 + 1056 * (i / 256) + 4 * (i % 256))))).filter fun x => x.2 != 0,
    b := (((List.range r.vregs).map fun m =>
        let bs := bytes (rd (0x2000 + 1056 * (m / 8) + 1024 + 4 * (m % 8)))
        (List.range 4).map fun k => (4 * m + k, bs.getD k 0)).flatten).filter fun x => x.2 != 0x7F,
    s := ((List.range 63).map fun i => (i, BitVec.ofNat 32 (rd (0x500 + 4 * i)))).filter fun x => x.2 != 0,
    p := ((List.range 7).map fun i => (i, BitVec.ofNat 32 (rd (0x620 + 4 * i)))).filter fun x => x.2 != 0,
    vpoison := ((List.range r.vregs).map fun m => (bits (rd (0x1840 + 8 * m)) 32).map (32 * m + ·)).flatten,
    bpoison := ((List.range r.vregs).map fun m => (bits (rd (0x1844 + 8 * m)) 4).map (4 * m + ·)).flatten,
    spoison := (bits (rd 0x600 + 2 ^ 32 * rd 0x604) 63),
    slices := (List.range n).map (rdSlice rd),
    last := none,
    fpflags := BitVec.ofNat 32 (rd 0xC % 32),
    lhret := rdLhret rd,
    lossid := BitVec.ofNat 32 (rd 0xB8),
    lossaddr := BitVec.ofNat 32 (rd 0xBC),
    tls := (List.range 3).map fun i =>
      { (old.tl i) with
        c := BitVec.ofNat 64 (rd64 rd (0x68 + 8 * i)), status := BitVec.ofNat 32 (rd (0x80 + 4 * i) / 2 ^ 24 * 2 ^ 24 + rd (0x80 + 4 * i) % 16),
        l := BitVec.ofNat 64 (rd64 (fun o => s.word (r.entry + o)) (8 + 8 * i)),
        bytes := BitVec.ofNat 64 (rd64 (fun o => s.word (r.entry + o)) (0x20 + 8 * i)) },
    bars := ((List.range 32).map fun i => (i, s.word (r.entry + 0x38 + i / 8 * 4) / 2 ^ (4 * (i % 8)) % 8)).filter fun x => x.2 != 0 }

/-- The uncommitted results of an area that the device did not save itself: returned records keep their
values, and those of others are free (DESIGN CHOICE, log 23). -/
def State.readPends (s : State) (r : SavedRef) (base : Nat) : List Pend × List Ret :=
  let rd := fun (o : Nat) => s.word (r.at_ + o)
  let recs := (List.range (min 32 (rd 0x8C))).map fun i =>
    let o := 0x640 + 144 * i
    let w := rd o
    let lanes := (List.range 32).filter fun l => rd (o + 4) / 2 ^ l % 2 == 1
    let cls := w % 4
    let bands := w / 2 ^ 15 % 2 == 1 && cls == 0
    let p : Pend :=
      ⟨base + i, if cls == 0 then .vec else if cls == 1 then .uni else .prd, w / 4 % 128, bands,
        lanes.map (·, 0) ++ (if bands then ((lanes.map (· / 8)).eraseDups).map (32 + ·, 0) else [])⟩
    let val := fun (l : Nat) =>
      if w / 2 ^ 14 % 2 == 0 then Config.anyNat (s.draws + 64 * i + l)
      else if l < 32 then rd (o + 16 + 4 * l) else rd (o + 8) / 2 ^ (8 * (l - 32)) % 256
    (p, p.pieces.map fun x => (⟨p.id, x.1, 0, some (BitVec.ofNat 32 (val x.1)), 0, false⟩ : Ret))
  (recs.map Prod.fst, (recs.map Prod.snd).flatten)

/-- The area's uncommitted results stand as the device wrote them. -/
def State.pendsStand (s : State) (r : SavedRef) (g : Group) : Bool :=
  (0x8C :: (List.range 1152).map fun i => 0x640 + 4 * i).all fun o => s.word (r.at_ + o) == g.areaWord o

/-- An operation of the engine section, with its batch. -/
structure SavedOp where
  batch : Nat
  op : Op
  deriving DecidableEq, Repr

/-- The entries of a timeline whose batches up to `l` are closed and up to `c` complete (R203). -/
def entriesOf (ops : List SavedOp) (c l : Nat) : List Entry :=
  let of := fun (n : Nat) => (ops.filter fun x => x.batch == n).map fun x => (⟨some x.op.id, false, x.op.bytes, 0⟩ : Entry)
  ((List.range (l - c)).map fun i => of (c + 1 + i) ++ [⟨none, true, 0, 0⟩]).flatten ++ of (l + 1)

/-- A group as it returns: in a context of its target core, with a new age and key (R55, R166). What the device keeps of
it (`old`) goes with an area whose sections stand as written; else the area's words count, and the number in its role
of a group this device did not save is its index in the group table (DESIGN CHOICE, log 79). `ops` are the group's
operations where they come from the area. -/
def State.readGroup (s : State) (a : AreaHead) (r : SavedRef) (old : Option Group) (ops : Option (List SavedOp))
    (launch core ctx pos idx uid : Nat) : Group :=
  let rd := fun (o : Nat) => s.word (r.at_ + o)
  let flags := s.word (r.entry + 4)
  let key := launch * 256 + core
  let base : Group := match old with
    | some g => g
    | none =>
      { uid := uid, core := core, ctx := ctx, sorrel := none, role := 0, index := idx, team := pos, part := a.part,
        asid := a.asid, launch := launch, block := key, vregs := 0, age := 0, spkey := 0, strikes := 0, slewcy := 0,
        arch := Arch.placed 8 0 [] (s.core core).macros, cur := none, after := none, unret := [], outq := [], rets := [],
        hold := .free, gpark := false, frozen := false, halted := false, copyFrozen := false, parked := none, parkVa := 0, parkLane := 0,
        deferred := [], ended := false, win := [], waits := false, readySince := 0, serves := none, spills := [] }
  let arch := s.readArch r base.arch
  let (pend, rets) := match old with
    | some g => if s.pendsStand r g then (g.arch.pend, g.rets) else s.readPends r (uid + 1)
    | none => s.readPends r (uid + 1)
  let tls := match ops with
    | none => arch.tls
    | some os => (List.range 3).map fun i =>
      let t := arch.tl i
      ({ t with entries := entriesOf (os.filter fun x => x.op.tl == i) t.c.toNat t.l.toNat } : Timeline).settle
  -- without a live slice the group has ended, or stands before the commit point that its end performs (R89)
  let gone := arch.liveSlices.isEmpty && (match old with | some g => g.ended | none => pend.isEmpty)
  let last : After :=
    { commit := true, lhret := false, gang := [], trap := none, barw := none, ifence := false, tret := none, parks := false,
      yld := false, forced := false }
  { base with
    uid := uid, core := core, ctx := ctx, role := rd 4 / 2 ^ 16 % 4, team := pos, launch := launch, block := key,
    vregs := r.vregs, age := s.now, spkey := Config.hashKey s.draws, strikes := BitVec.ofNat 32 (rd 8),
    arch := { arch with pend := pend, tls := tls }, rets := rets,
    hold := if flags % 2 == 1 then .held else .free, frozen := flags / 2 % 2 == 1,
    ended := gone,
    after := if arch.liveSlices.isEmpty && !gone && base.after.isNone then some last else base.after,
    win := [], readySince := s.now, spills := s.readSpills a pos idx }

/-- Accumulators, from the handle records and the section after them. -/
def State.readAccs (s : State) (hs : List Nat) (recs at_ : Nat) (b : Block) (fresh : Nat) : Block × Nat :=
  match hs with
  | [] => (b, at_)
  | h :: rest =>
    if s.word (recs + 256 + 16 * h) % 2 == 0 then s.readAccs rest recs at_ b fresh
    else
      let m := s.word at_ % 2 ^ 16
      let n := s.word at_ / 2 ^ 16
      let w := s.word (at_ + 4)
      let st := (Store.find b.ach h).getD (fresh + h)
      let acc : Acc :=
        { int := w % 2 == 1, m := m, n := n,
          el := ((List.range (m * n)).map fun i => (i, BitVec.ofNat 32 (s.word (at_ + 16 + 4 * i)))).filter fun x => x.2 != 0,
          rs := if w / 2 % 2 ^ 11 == 0 then none else some (w / 2 % 2 ^ 11 - 1),
          poison := (List.range 8).filter fun i => s.word (at_ + 8) / 2 ^ i % 2 == 1 }
      s.readAccs rest recs (at_ + 16 + 4 * (m * n))
        { b with acs := Store.put b.acs st acc, ach := Store.put b.ach h st } fresh

/-- The spill allocation of a table read from an area the device did not save: one of its rank and size that no earlier
table took. -/
def Block.spillFor (b : Block) (rank k : Nat) : Option Alloc :=
  if k == 0 then none
  else b.allocs.find? fun a => a.spill == some 0 && a.rank == rank && a.granules == k

/-- Tables, likewise, those of `spilling` with a TBSPILL under way. What the image does not hold comes from the device's
own record, or else from the size of its storage (R259) and its spill allocation: a table with neither is SPILLED; the
handler of one without an allocation is free (DESIGN CHOICE, log 23). A watch is armed again (R279). -/
def State.readTbls (s : State) (hs spilling : List Nat) (recs at_ : Nat) (b : Block) (fresh : Nat) : Block × Nat :=
  match hs with
  | [] => (b, at_)
  | h :: rest =>
    let hr := s.word (recs + 16 * h)
    if hr % 2 == 0 then s.readTbls rest spilling recs at_ b fresh
    else
      let w := fun (o : Nat) => s.word (at_ + o)
      let (shape, y, n) := (w 4, w 4 / 2 ^ 16 % 2 ^ 5, w 4 % 2 ^ 13)
      let st8 := w 8
      let gran := hr / 2 ^ 16
      let sn := (Store.find b.tbn h).getD (fresh + h)
      let lost := st8 / 2 ^ 10 % 2 == 1
      let eb := entBytes (b.slots.getD (st8 % 8) 0)
      let gb := groupBytes (shape / 2 ^ 24 % 2 == 1) y eb
      let gs := min n (gran * 1024 / gb)
      let sp := if (Store.find b.tbs sn).isSome then none
        else b.spillFor (shape / 2 ^ 25 % 8) (((n - gs) * gb + 1023) / 1024)
      let t0 : Tbl := (Store.find b.tbs sn).getD
        { h := h, cb := shape / 2 ^ 24 % 2 == 1, rank := shape / 2 ^ 25 % 8, y := y, g := n, gs := gs, slot := st8 % 8,
          handler := match sp with | some a => a.handler | none => BitVec.ofNat 52 (Config.anyNat (s.draws + h)),
          st := sn, res := sn, spill := sp.map (·.base), built := false,
          valid := false, lost := lost, spilled := gran == 0 && !lost && (sp.isNone || spilling.contains h), lo := 0, hi := 0, armed := st8 / 2 ^ 8 % 2 == 1,
          armUid := 0, armId := 0, cause := 0, n := 0 }
      let t1 := { t0 with
        built := st8 / 2 ^ 8 % 2 == 1, valid := st8 / 2 ^ 9 % 2 == 1, lost := lost, lo := w 12, hi := w 16,
        n := w 20, cause := w 24 - w 24 / 2 ^ 22 % 4 * 2 ^ 22 }
      let num := t1.g * t1.y * t1.e
      let d0 := (Store.find b.tbe t1.st).getD ⟨[(sn, gran, !t1.spilled)], if lost then t1.spill.toList else [], lost, [], []⟩
      let d1 := if !t1.whole then d0 else
        { d0 with el := ((List.range num).map fun i =>
            (i, BitVec.ofNat 32 (leNat (s.readHome 0 (at_ + 64 + eb * i) eb)))).filter fun x => x.2 != 0 }
      s.readTbls rest spilling recs (at_ + 64 + (if t1.whole then eb * num else 0))
        { b with
          tbs := Store.put b.tbs sn t1, tbn := Store.put b.tbn h sn, tbe := Store.put b.tbe t1.st d1,
          allocs := b.allocs.map fun x => match sp with
            | some a => if x.base == a.base then { x with spill := some sn } else x
            | none => x } fresh

/-- A record of the engine section (R331): submitting instruction, timeline, group-table index, batch, progress, copy id, operands. -/
structure EngineRec where
  code : Nat
  tl : Nat
  idx : Nat
  batch : Nat
  step : Nat
  copy : Nat
  w : List Nat
  deriving DecidableEq, Repr

/-- Where the engine section of a block lies, and how many records it has. -/
def AreaHead.engineSpan (a : AreaHead) (k : Nat) : Nat × Nat :=
  let (b, secs) := a.blocks.getD k (0, [])
  (a.area + b + secs.getD 2 0, (secs.getD 3 0 - secs.getD 2 0) / 64)
def State.engineRecs (s : State) (a : AreaHead) (k : Nat) : List EngineRec :=
  let (at_, n) := a.engineSpan k
  (List.range n).map fun i =>
    let w := fun (j : Nat) => s.word (at_ + 64 * i + 4 * j)
    ⟨w 0 % 2 ^ 11, w 0 / 2 ^ 11 % 4, w 0 / 2 ^ 13 % 32, w 1 + 2 ^ 32 * w 2, w 3 + 2 ^ 32 * w 4, w 5,
      (List.range 10).map fun j => w (6 + j)⟩

/-- Accumulators and tables of a block of the area, and where their sections end. -/
def State.readHandles (s : State) (a : AreaHead) (k : Nat) (b : Block) (fresh : Nat) : Block × Nat :=
  let base := a.area + (a.blocks.getD k (0, [])).1
  let spilling := (s.engineRecs a k).filterMap fun e =>
    if e.code == 0xED && 2 ^ 31 ≤ e.w.getD 1 0 then some (e.w.getD 1 0 % 16) else none
  let (b2, at_) := s.readAccs (List.range 16) base (base + 512) b fresh
  s.readTbls (List.range 16) spilling base at_ b2 (fresh + 16)

/-- The area is one CTXLD can restore: no section runs past SIZE. -/
def State.areaOk (s : State) (a : AreaHead) : Bool :=
  s.word a.area == 1 && s.word (a.area + 4) / 2 ^ 28 == 1 &&
  a.blocks.all (fun b => b.2.all (fun o => b.1 + o ≤ a.size) && b.1 + b.2.getD 1 0 + 256 ≤ a.size) &&
  (List.range a.blocks.length).all fun k =>
    let stop := a.area + a.size
    let refs := s.refsOf a k
    (refs.all fun r => r.entry + 128 ≤ stop && r.at_ + 0x2000 + 132 * r.vregs ≤ stop) &&
    ((s.blockAllocs a k).all fun r => !r.full || r.body + 1024 * r.granules ≤ stop) &&
    (s.readHandles a k (newBlock a.recd 0 0 a.part k) 0).2 ≤ stop

/-- A block with its allocations, accumulators, tables and barriers as the area holds them; `fresh` is the first of
the numbers its new parts take. -/
def State.readBlock (s : State) (a : AreaHead) (k launch core fresh : Nat) (uids : List Nat) : Block :=
  let (off, secs) := a.blocks.getD k (0, [])
  let base := a.area + off
  let old := (s.savedBlocks.find? fun x => x.area == a.area && x.pos == k).map (·.b)
  let b0 := { (old.getD (newBlock a.recd core launch a.part k)) with core := core, launch := launch, team := k }
  let recs := s.blockAllocs a k
  let rows := (placeSaved recs (s.banks core)).getD []
  let allocs := (List.range recs.length).filterMap fun i =>
    recs[i]?.map fun r =>
      let was := b0.allocs.find? (·.base == r.base)
      ({ aid := match was with | some x => x.aid | none => fresh + 100 + i, zeroed := none, base := r.base, granules := r.granules, rank := r.rank,
         state := match r.state with
           | 0 => .live
           | 2 => .rebuilding (uids.getD r.owner 0)
           | _ => .lost,
         handler := BitVec.ofNat 52 r.handler, rows := rows.getD i [],
         donePend := was.bind (·.donePend), spill := if r.spill then some ((was.bind (·.spill)).getD 0) else none } : Alloc)
  let scr := recs.foldl (fun (m : Memory) r => if r.full then m.writeN r.base (s.readHome 0 r.body (1024 * r.granules)) else m) []
  let b1 := { b0 with allocs := allocs, scr := scr }
  let b3 := (s.readHandles a k b1 fresh).1
  let bar := base + secs.getD 1 0
  { b3 with bars := ((List.range 16).map fun i =>
      let x := Store.get b3.bars i Barrier.reset
      (i, { x with
        phase := BitVec.ofNat 32 (s.word (bar + 16 * i)), count := s.word (bar + 16 * i + 4),
        e := s.word (bar + 16 * i + 8), abandon := s.word (bar + 16 * i + 12) % 2 == 1,
        arrivers := x.arrivers.map fun y => (y.1, core) })).filter fun x => x.2 != Barrier.reset }

/-- The scratchpad destination of an operation is an allocation that the floor discarded (R210), of a CPM at one of its
receivers; where that is so of a part only, the whole operation counts (DESIGN CHOICE, log 89). -/
def State.belowFloor (s : State) (op : Op) (b : Block) (f : Nat) : Bool :=
  let lowIn := fun (b : Block) (o : Nat) => match b.allocAt o with | some a => a.rank < f | none => false
  let low := lowIn b
  match op.kind with
  | .cpl lanes dir w => (dir == 0 || dir == 2) && (lanes.drop (op.step * (128 / w))).any fun x => low x.1
  | .cpt _ d _ _ st mask =>
    !st && (match (s.handleOf op.grp).bind s.group with
      | some g => (s.receivers g mask).any fun k => (Store.find s.blocks k).any fun b => lowIn b d
      | none => low d)
  | .acc 3 _ _ m _ _ => low (mapBase m)
  | .tbspill _ off => low off
  | _ => false

/-- The lookup engine performs the operation. -/
def Op.isLookup (op : Op) : Bool :=
  match op.kind with
  | .lmma .. | .tbuild _ _ _ | .tbspill _ _ | .tbfill _ _ _ | .tbfree _ => true
  | .none c => c % 128 != 0x64
  | _ => false
/-- An operation of an engine's queue. -/
def Op.isEngine (op : Op) : Bool :=
  match op.kind with
  | .acc .. | .mma .. | .quad .. | .none _ => true
  | _ => op.isLookup

/-- A remaining part is resubmitted, or ends with CANCELLED at once (R210). -/
def State.resubmit (s : State) (a : AreaHead) (launch : Nat) (op : Op) : State :=
  let o := { op with stopped := false, wait := none, headed := false }
  match Store.find s.blocks (launch * 256 + o.core) with
  | some b =>
    if s.belowFloor o b a.floor then s.endOpNow o
    else if o.isEngine then s.arriveOp o o.isLookup else { s with ops := s.ops ++ [o] }
  | none => s
/-- So do parts whose submission has yet to leave its core. -/
def State.dropUnsent (s : State) (a : AreaHead) (launch : Nat) : State :=
  (s.launchGroups launch).foldl (fun (s : State) x =>
    match Store.find s.blocks x.2.block with
    | none => s
    | some b =>
      let low := x.2.unsent.filter fun o => s.belowFloor o b a.floor
      low.foldl (fun s o => s.endOpNow o) (s.modGroup x.1 fun g =>
        { g with outq := g.outq.filter fun q => !(q.submission.any fun o => low.any fun y => y.id == o.id) })) s

/-- Operations in their old order of arrival. -/
def insertOp (o : Op) (l : List Op) : List Op :=
  match l with
  | [] => [o]
  | x :: r => if o.seq < x.seq || (o.seq == x.seq && o.id < x.id) then o :: x :: r else x :: insertOp o r

/-! The engine section (R331). -/

/-- The engine sections stand as the device wrote them: the operations that it keeps are those of the area. -/
def State.enginesStand (s : State) (a : AreaHead) : Bool :=
  let mine := s.saved.filter (·.area == a.area)
  (List.range a.blocks.length).all fun k =>
    match s.savedBlocks.find? fun x => x.area == a.area && x.pos == k with
    | none => false
    | some sb =>
      let recs := (mine.map fun v => ((v.ops ++ v.g.unsent).filter fun o => o.core == sb.b.core).map fun o => engineRecord sb.b v.g v.idx o).flatten
      let (at_, n) := a.engineSpan k
      let area := (List.range n).map fun i => s.readHome 0 (at_ + 64 * i) 64
      recs.length == n && recs.all area.contains && area.all recs.contains

/-- An operation that has performed steps is resubmitted with R set; one that has not, as its instruction says (R256). -/
def EngineRec.resumes (e : EngineRec) (fields n : Nat) : Bool := e.step != 0 || fields / 2 ^ n % 2 == 1

/-- The operation a record names, but for its identity: what the record does not hold (a CPL's lane addresses, the data
of an enqueue, flags and faults so far, the clause) is free (DESIGN CHOICE, log 23). `parent` gives an MMA.T's new
number. -/
def EngineRec.kind (e : EngineRec) (b : Block) (d : Nat) (parent : Nat → Nat) : OpKind :=
  let w := fun (i : Nat) => e.w.getD i 0
  let dw := fun (i : Nat) => BitVec.ofNat 64 (w i + 2 ^ 32 * w (i + 1))
  let ac := fun (h : Nat) => (Store.find b.ach (h % 16)).getD 0
  let tb := fun (h : Nat) => (Store.find b.tbn (h % 16)).getD 0
  match e.code with
  | 0x5C => .cpl ((List.range (w 0 % 2 ^ 8)).map fun i => (Config.anyNat (d + 2 * i), Config.anyNat (d + 2 * i + 1)))
      (w 0 / 2 ^ 8 % 4) (max 1 (w 0 / 2 ^ 16))
  | 0x5D | 0x5E | 0x60 => .cpt (w 1) (w 0) ((List.range 5).map fun i => BitVec.ofNat 32 (w (2 + i)))
      ((List.range 5).map fun i => w 7 / 2 ^ (8 + i) % 2 == 1) (e.code == 0x5E) (w 7 % 2 ^ 4)
  | 0x5F => .cpr (w 2) (w 0 + 2 ^ 32 * w 1) (w 3) (w 4 % 4) (w 4 / 4)
  | 0x71 => .lnch (w 0 + 2 ^ 32 * w 1) (w 2)
  | 0x67 => .mma (ac (w 6)) (dw 0) (dw 2) (w 4) none (w 6 / 2 ^ 4 % 8) (w 6 / 2 ^ 7 % 2 == 1) (e.resumes (w 6) 8)
  | 0x68 => .mma (ac (w 6)) (dw 0) (dw 2) (w 4) (some (w 5)) (w 6 / 2 ^ 4 % 8) (w 6 / 2 ^ 7 % 2 == 1) (e.resumes (w 6) 8)
  | 0xE7 =>
    if w 6 / 2 ^ 10 % 2 == 1 then
      .mmaT (w 6 % 16) (ac (w 6)) (w 6 / 2 ^ 9 % 2 == 1) (w 7 % 2 ^ 16) (w 7 / 2 ^ 16) (dw 0) (dw 2) (w 4) (w 6 / 2 ^ 4 % 8)
        (w 6 / 2 ^ 7 % 2 == 1) (e.resumes (w 6) 8)
    else .quad (parent (w 5)) (w 7 % 4) (ac (w 6)) (dw 0) (dw 2) (w 4) (w 6 / 2 ^ 4 % 8) (w 6 / 2 ^ 7 % 2 == 1) (e.resumes (w 6) 8)
  | 0x6C => .lmma (ac (w 4)) (tb (w 4 / 2 ^ 4)) (dw 0) (w 2) (w 3) (w 4 / 2 ^ 8 % 2 ^ 4) (w 4 / 2 ^ 12 % 2 ^ 12) (w 4 / 2 ^ 24 % 2 == 1)
      (e.resumes (w 4) 25)
  | 0x6B | 0xEB => if w 3 < 2 ^ 31 then .none e.code else .tbuild (tb (w 3)) (dw 0) (w 2)
  | 0xED => if w 1 < 2 ^ 31 then .none e.code else .tbspill (tb (w 1)) (w 0)
  | 0x16D => if w 1 < 2 ^ 31 then .none e.code else .tbfill (tb (w 1)) (w 0) (w 1 / 2 ^ 4 % 2 == 1)
  | 0xEA => .tbfree (tb (w 0))
  | 0x64 | 0x65 | 0xE5 | 0x66 | 0xE6 =>
    if w 2 < 2 ^ 31 then .none e.code else .acc (w 2 / 2 ^ 12 % 4) (ac (w 2)) (ac (w 2 / 2 ^ 4)) (dw 0) (w 2 / 2 ^ 8 % 8) (w 2 / 2 ^ 11 % 2 == 1)
  | c => .none c

/-- What a resumed TBUILD.CB has read of its codebook, and a resumed TBFILL of its image: the bytes as the scratchpad
holds them now (DESIGN CHOICE, log 23). -/
def bookNow (b : Block) (uid cent : Nat) (t : Tbl) : List Nat :=
  if t.cb then readCodebook b uid ((Fmt.ofCode (slotFmt (b.slots.getD t.slot 0))).getD .fp32) cent t.n else []
def imageNow (b : Block) (off step : Nat) (t : Tbl) : List Nat :=
  let eb := entBytes (b.slots.getD t.slot 0)
  (List.range ((step - 1) * (t.y * t.e))).map fun i =>
    let o := off + 64 + i * eb
    leNat (b.scr.readN o eb) + bit (b.scrPoison.contains (o / 32)) 40

/-- The operation of a record, for a group with identity `uid` on `core`. -/
def EngineRec.toOp (e : EngineRec) (b : Block) (core uid id d : Nat) (parent : Nat → Nat) : Op :=
  let k := e.kind b (d + 8) parent
  let w := fun (i : Nat) => e.w.getD i 0
  let raw := match k with | .cpt r .. => b.scr.readN r 64 | _ => []
  let size := match k with
    | .cpl lanes _ w => lanes.length * w
    | .cpt _ dst .. => (match Layout.parse raw dst with | some l => if e.step == 0 then 0 else l.size | none => 0)
    | .cpr _ _ n _ _ => 4 * n
    | .lnch .. => 256
    | _ => 0
  let scratch := match k with
    | .cpt .. => raw.map BitVec.toNat
    | .lnch .. => if e.step == 0 then [] else (List.range 256).map (fun i => Config.anyNat (d + 8 + i) % 256) ++
        (if w 3 == 1 then [w 4 + 2 ^ 32 * w 5] else [])
    | .mmaT .. => (List.range 4).filter fun q => w 8 / 2 ^ q % 2 == 1
    | .acc 2 .. => List.range ((e.step + 15) / 16)
    | .mma .. | .quad .. | .lmma .. => [0]
    | .tbuild tb _ cent => if e.step == 0 then [] else (Store.find b.tbs tb).elim [] (bookNow b uid cent)
    | .tbfill tb off _ => (Store.find b.tbs tb).elim [] (imageNow b off e.step)
    | _ => []
  let f := Config.anyNat d
  { id := id, grp := uid, core := core, tl := e.tl, kind := k, gang := [], hdr := BitVec.ofNat 52 (Config.anyNat (d + 1)),
    started := e.step != 0, step := match k with | .cpr _ _ n _ _ => min n (32 * e.step) | _ => e.step, bytes := size,
    oob := f / 32 % 2 == 1, lost := f / 64 % 2 == 1, fault := f / 128 % 2 == 1, detail := Config.anyNat (d + 2) % 12,
    cancelled := false, flags := BitVec.ofNat 32 (f % 32), wait := none, stopped := true, finished := false,
    scratch := scratch, buf := [], pos := 0, ending := false, seq := 0, headed := false, work := 0, cyc := 0 }

/-- The operations of an area's engine sections, each with the block and group-table index of its group. -/
def State.readOps (s : State) (a : AreaHead) (bs : List Block) (ts : List Nat) (uids : List (List Nat)) (fresh : Nat) :
    List (Nat × Nat × SavedOp) :=
  let all := ((List.range a.blocks.length).map fun k => (s.engineRecs a k).map fun e => (k, e)).flatten
  let isT := fun (e : EngineRec) => e.code == 0xE7 && e.w.getD 6 0 / 2 ^ 10 % 2 == 1
  let isQ := fun (e : EngineRec) => e.code == 0xE7 && e.w.getD 6 0 / 2 ^ 10 % 2 == 0
  let idOf := fun (i : Nat) (e : EngineRec) => if e.code == 0x5F then e.copy else fresh + i
  let parent := fun (old : Nat) =>
    match (List.range all.length).find? fun i => match all[i]? with | some x => isT x.2 && x.2.w.getD 5 0 == old | none => false with
    | some i => fresh + i
    | none => 0
  (List.range all.length).filterMap fun i =>
    all[i]?.map fun x =>
      let (k, e) := x
      let at_ := if isQ e then e.w.getD 7 0 / 4 % 4 else k
      let op := e.toOp (bs.getD k (newBlock a.recd 0 0 a.part k)) (ts.getD k 0) ((uids.getD at_ []).getD e.idx 0)
        (idOf i e) (s.draws + 1024 * i) parent
      (at_, e.idx, ⟨e.batch, { op with seq := i }⟩)

/-- What the device keeps of a group of the area. -/
def State.savedAt (s : State) (a : AreaHead) (k i : Nat) : Option SavedGroup :=
  s.saved.find? fun x => x.area == a.area && x.pos == k && x.idx == i

/-- One block and its groups return to a core. No L1 line of the core stays, constant or not (R170, R231, R312);
`ops` are the area's operations where the device does not keep them. -/
def State.restoreBlock (s : State) (a : AreaHead) (launch : Nat) (ts : List Nat) (bs : List Block) (uids : List (List Nat))
    (ops : Option (List (Nat × Nat × SavedOp))) (k : Nat) : State :=
  let core := ts.getD k 0
  let refs := s.refsOf a k
  let co := s.core core
  let macros := match s.savedBlocks.find? fun x => x.area == a.area && x.pos == k with
    | some x => if recMacro a.recd != 0 && co.table != recMacro a.recd then x.macros else co.macros
    | none => co.macros
  let b := bs.getD k (newBlock a.recd core launch a.part k)
  let s1 := (s.setBlock (launch * 256 + core) b).setCore core { co with
    macros := macros, lines := [], table := if recMacro a.recd != 0 then recMacro a.recd else co.table }
  (List.range refs.length).foldl (fun s i =>
    match refs[i]?, s.freeCtx core with
    | some r, ctx :: _ =>
      let old := s.savedAt a k i
      let mine := ops.map fun os => (os.filter fun x => x.1 == k && x.2.1 == i &&
        (match x.2.2.op.kind with | .quad .. => false | _ => true)).map fun x => x.2.2
      let g := s.readGroup a r (old.map (·.g)) mine launch core ctx k i ((uids.getD k []).getD i 0)
      let stands := match old with | some x => s.pendsStand r x.g | none => false
      -- a translation does not outlive the save (R334)
      let again := fun (qs : List Req) => qs.filterMap fun (q : Req) =>
        if q.pid.isSome && !stands then none
        else some { q with
          core := core, walk := none, place := if q.act.need.isSome then none else q.place,
          act := match q.act with | .submit o => .submit { o with core := core } | x => x }
      let unsent := (again g.outq).filter fun q => mine.isNone || q.submission.isNone
      ({ s with draws := s.draws + 1, reqs := s.reqs ++ again (match old with | some x => x.reqs | none => []) } : State).putGroup
        (handle core ctx) { g with outq := unsent }
    | _, _ => s) { s1 with draws := s1.draws + 4096 }

/-- Arrivers of cluster and wide barriers count with the cores they stand on now (R229). -/
def Barrier.moved (b : Barrier) (core : Nat → Option Nat) : Barrier :=
  { b with arrivers := b.arrivers.map fun x => (x.1, (core x.1).getD x.2) }
def State.moveArrivers (s : State) (core : Nat → Option Nat) : State :=
  let all := fun (m : Store Barrier) => m.map fun (x : Nat × Barrier) => (x.1, x.2.moved core)
  { s with
    clusters := s.clusters.map fun (x : Nat × Cluster) => (x.1, { x.2 with bars := all x.2.bars }),
    parts := s.parts.map fun (x : Nat × Part) => (x.1, { x.2 with wbars := all x.2.wbars }) }

/-- What a group waits for after its last clause is looked at again: a saved arriver's record may have been
written (R230), and a group's end be due, or what an ended group's context was kept for over (R89). -/
def State.settleRestored (s : State) (launch : Nat) : State :=
  (s.launchGroups launch).foldl (fun s x => (s.settleAfter x.1).settleEnd x.1) s

/-- The whole restore (R332, step 2). -/
def State.restore (s : State) (a : AreaHead) (ts : List Nat) : State :=
  let mine := s.saved.filter (·.area == a.area)
  let l := match mine with | x :: _ => x.g.launch | [] => s.nextId
  let la : Launch := match Store.find s.launches l with
    | some la => { la with cores := ts, resident := true }
    | none =>
      { queue := 256, slot := 0, prio := a.prio, part := a.part, asid := a.asid, recd := a.recd, cores := ts,
        resident := true }
  let fresh := fun (k : Nat) => s.nextId + 64000 * k + 1000
  let uids := (List.range ts.length).map fun k => (List.range (s.refsOf a k).length).map fun i =>
    match s.savedAt a k i with | some x => x.uid | none => fresh k + 1000 * (i + 1)
  let bs := (List.range ts.length).map fun k => s.readBlock a k l (ts.getD k 0) (fresh k) (uids.getD k [])
  let ops := if s.enginesStand a then none else some (s.readOps a bs ts uids (s.nextId + 512000))
  let moved := fun (o : Op) =>
    match s.savedBlocks.find? fun x => x.area == a.area && x.b.core == o.core with
    | some x => { o with core := ts.getD x.pos 0 }
    | none => o
  let again := match ops with
    | some os => os.map fun (x : Nat × Nat × SavedOp) => x.2.2.op
    | none => ((mine.map SavedGroup.ops).flatten.map moved).foldl (fun l o => insertOp o l) []
  let s1 := { s with launches := Store.put s.launches l la, nextId := s.nextId + 1024000 }
  let s2 := (List.range ts.length).foldl (fun s k => s.restoreBlock a l ts bs uids ops k) s1
  let s3 := (again.foldl (fun (s : State) o => s.resubmit a l o) s2).dropUnsent a l
  let coreNow := fun (u : Nat) => (s3.handleOf u).bind fun h => (s3.group h).map Group.core
  let s4 := { s3.moveArrivers coreNow with
    saved := s3.saved.filter (·.area != a.area), savedBlocks := s3.savedBlocks.filter (·.area != a.area) }
  s4.settleRestored l

/-- CTXLD at its retirement. -/
def State.applyCtxld (s : State) (q : Req) (area ctl : Nat) : State :=
  let atEnd := fun (s : State) => (s.dropReq q.id).endPark q.grp
  let a := s.areaHead area
  let ts := targets a ctl
  let owned := match Store.find s.parts a.part with
    | some p => ts.all p.cores.contains
    | none => false
  let live := match s.asidEntry a.asid with
    | some (d, _) => d / 2 ^ 16 % 64 == a.part
    | none => false
  if !s.areaOk a then atEnd (s.reportArea area 0 4)
  else if !owned || !live then atEnd (s.reportArea area 0 5)
  else
    let mask := s.capMasks a ts
    if mask != 0 then atEnd (s.reportArea area mask 3)
    else
      let s1 := s.restore a ts
      atEnd (s1.putBytes (area + 4) (leBytes 4 (2 * 2 ^ 28)))

/-- What a saved group of the area leaves: each cluster and wide barrier at which it has arrived, as an end without an
arrival outstanding (R224, R332). -/
def State.discardGroup (s : State) (a : AreaHead) (core : Nat) (r : SavedRef) : State :=
  let arr := fun (n : Nat) => s.word (r.entry + 0x38 + n / 8 * 4) / 2 ^ (4 * (n % 8)) / 2 % 2 == 1
  let s1 := (List.range 8).foldl (fun s i =>
    if arr (16 + i) then s.barLeave 2 (64 * clusterOf core + a.part) i false false else s) s
  (List.range 8).foldl (fun s i => if arr (24 + i) then s.barLeave 4 a.part i false false else s) s1

/-- CTXLD.DISCARD at its retirement: the windows of the area's reducing copies are freed, its groups' cluster and wide
participation ends, and the launch with it, where the device saved it (DESIGN CHOICE, log 23). -/
def State.applyDiscard (s : State) (q : Req) (area : Nat) : State :=
  let atEnd := fun (s : State) => (s.dropReq q.id).endPark q.grp
  if s.word (area + 4) / 2 ^ 28 != 1 then atEnd (s.reportArea area 0 4)
  else
    let a := s.areaHead area
    let s1 := (List.range a.blocks.length).foldl (fun s k =>
      let s1 := (s.engineRecs a k).foldl (fun s e => if e.code == 0x5F then s.freeWindows e.copy else s) s
      (s.refsOf a k).foldl (fun s r => s.discardGroup a (s.savedCore a k) r) s1) s
    let s2 := { s1 with
      saved := s1.saved.filter (·.area != area), savedBlocks := s1.savedBlocks.filter (·.area != area) }
    let s3 := match s.saved.find? (·.area == area) with
      | some x =>
        (match Store.find s2.launches x.g.launch with
         | some la =>
           let k := s2.queue la.queue
           { (s2.setQueue la.queue { k with qdone := k.qdone + 1 }) with launches := s2.launches.del x.g.launch }
         | none => s2)
      | none => s2
    atEnd (s3.putBytes (area + 4) (leBytes 4 (3 * 2 ^ 28)))

end Sys2Proof.Machine
end

