-- ==== Sys2Proof/Machine/HostSide.lean ====
section
/-! DEFINITION. The host window, host fault queues, partitions, meters, Cheuk ports, boot and attestation
(R283, R339 to R351). -/

namespace Sys2Proof.Machine

/-! Host fault queues (R341, R342). -/

def HostQueue.size (q : HostQueue) : Nat := 2 ^ q.log2size.toNat
/-- Records can be written: the ring has a size it may have, is enabled and not full. -/
def HostQueue.room (q : HostQueue) : Bool :=
  q.en && 4 ≤ q.log2size.toNat && q.log2size.toNat ≤ 16 && (q.tail - q.head).toNat < q.size

/-- Parked groups and engine contexts of a record (R184). -/
def State.waiterCount (s : State) (r : FaultRec) : Nat :=
  let group := fun (w : Nat × Nat) => match w.1 with
    | 0 => (s.req w.2).map (·.grp)
    | 1 => (s.group w.2).map (·.uid)
    | _ => none
  let engine := fun (w : Nat × Nat) => if w.1 == 2 then (s.op w.2).map (·.grp) else none
  min 65535 ((r.waiters.filterMap group).eraseDups.length + (r.waiters.filterMap engine).eraseDups.length)

/-- The two doublewords of a record (R184). -/
def State.recordDwords (s : State) (cl : Nat) (r : FaultRec) : Nat × Nat :=
  (r.vpn * 2 ^ 16 + r.asid,
    (if r.kind == 0 then 0 else s.waiterCount r) * 2 ^ 48 + cl * 2 ^ 40 + r.seq % 2 ^ 32 * 2 ^ 8 + r.kind)

/-- FAULT_RECORD_FORWARD: a record goes to its partition's ring, a cluster error to partition 0's; it then
stays open, a cluster error does not. -/
def execFaultRecordForward (cluster seq : Nat) (s : State) : Out :=
  let c := s.cluster cluster
  match c.recs.find? (·.seq == seq) with
  | none => .next s
  | some r =>
    let pn := if r.kind == 0 then 0 else r.part
    let q := s.hq pn
    if r.sent || !q.room then .next s
    else
      let (d0, d1) := s.recordDwords cluster r
      let at_ := q.base.toNat + 16 * (q.tail.toNat % q.size)
      let s1 := s.setMem 1 (s.host.writeN at_ (leBytes 8 d0 ++ leBytes 8 d1))
      let s2 := s1.setHq pn { q with tail := q.tail + 1 }
      let recs := if r.kind == 0 then c.recs.filter (·.seq != seq)
        else c.recs.map fun x => if x.seq == seq then { x with sent := true } else x
      .next (s2.setCluster cluster { c with recs := recs })

/-- A waiter tries again (R184, R342). -/
def State.retryWaiter (s : State) (w : Nat × Nat) : State :=
  match w.1 with
  | 0 => { s with reqs := s.reqs.map fun q => if q.id == w.2 then { q with walk := none, place := none } else q }
  | 1 => s.modGroup w.2 fun g => { g with parked := none, readySince := s.now }
  | _ => { s with ops := s.ops.map fun o => if o.id == w.2 then { o with wait := none } else o }

/-- A group takes the REPLAY trap (R342). One that Sorrel holds, or that traps already, raises nothing more
(R318). -/
def State.replayTrap (s : State) (h : Nat) (lane : Word) (va : Nat) : State :=
  match s.group h with
  | none => s
  | some g =>
    if g.hold == .free || g.hold == .parking then
      (s.putGroup h { g with hold := .trapping ⟨4, 0, 15, lane, va, g.restartPc, true⟩ }).settleTrap h
    else s

/-- A waiter learns that its fault cannot be resolved (R342). -/
def State.failWaiter (s : State) (w : Nat × Nat) : State :=
  match w.1 with
  | 0 =>
    match s.req w.2 with
    | some q => (match s.handleOf q.grp with
      | some h => s.replayTrap h (BitVec.ofNat 32 (q.lane % 32)) q.va
      | none => s)
    | none => s
  | 1 =>
    match s.group w.2 with
    | some g => (s.putGroup w.2 { g with parked := none }).replayTrap w.2 g.parkLane g.parkVa
    | none => s
  | _ =>
    match s.op w.2 with
    | none => s
    | some op =>
      let o := { op.fail 7 with wait := none }
      match op.kind with
      | .cpr _ _ n _ _ => s.putOp { o with step := n, finished := (s.inFlight op.id).isEmpty }
      | _ => s.putOp { o with finished := true }

/-- FAULT_ANSWER (R342). -/
def execFaultAnswer (cluster seq : Nat) (unres : Bool) (s : State) : Out :=
  let c := s.cluster cluster
  match c.recs.find? (fun r => r.seq == seq && r.kind != 0) with
  | none => .next s
  | some r =>
    let s1 := s.setCluster cluster { c with recs := c.recs.filter (·.seq != seq) }
    if unres then
      -- the lowest lane of a group gives its trap
      let lane := fun (w : Nat × Nat) => if w.1 == 0 then (match s.req w.2 with | some q => q.lane % 32 | none => 0) else 0
      let ws := ((List.range 32).map fun l => r.waiters.filter fun w => lane w == l).flatten
      .next (ws.foldl State.failWaiter s1)
    else
      let s2 := r.waiters.foldl State.retryWaiter s1
      let d0 := r.vpn * 2 ^ 16 + r.asid
      .next (s2.queueEvent cluster 1 0 [BitVec.ofNat 32 d0, BitVec.ofNat 32 (d0 / 2 ^ 32)])

/-! The register window (R283, R340, R341). -/

/-- A launch queue's RW fields. -/
def Queue.write (k : Queue) (field : Nat) (v : DWord) : Queue :=
  let x := v.toNat
  match field with
  | 0x00 => if k.en then k else { k with qbase := v }
  | 0x08 =>
    let size := if k.en then k.log2size else BitVec.ofNat 5 (x / 2 ^ 33)
    let legal := 1 ≤ size.toNat && size.toNat ≤ 16
    { k with
      qasid := BitVec.ofNat 16 (x / 2 ^ 48), prio := BitVec.ofNat 2 (x / 2 ^ 38), log2size := size,
      en := x / 2 ^ 40 % 2 == 1 && legal, polled := true }
  | 0x10 => if k.en then k else { k with qwidx := v }
  | _ => k

/-- A fault queue's RW fields. -/
def HostQueue.write (q : HostQueue) (field : Nat) (v : DWord) : HostQueue :=
  match field with
  | 0x00 => { q with base := v }
  | 0x08 => { q with en := v.getLsbD 8, log2size := v.setWidth 5 }
  | 0x10 => { q with head := v }
  | _ => q

/-! Host reads (R5, R6, R283, R339 to R341, R343, R345): reserved fields and offsets and write-only fields read 0. -/

/-- The doubleword at a field of a queue's block (R283). -/
def Queue.read (k : Queue) (field : Nat) : Nat :=
  match field with
  | 0x00 => k.qbase.toNat
  | 0x08 =>
    k.qasid.toNat * 2 ^ 48 + k.part % 64 * 2 ^ 42 + k.admin.toNat * 2 ^ 41 + k.en.toNat * 2 ^ 40 + k.prio.toNat * 2 ^ 38 +
      k.log2size.toNat * 2 ^ 33
  | 0x10 => k.qwidx.toNat
  | 0x18 => k.qtail.toNat
  | 0x20 => k.qhead.toNat
  | 0x28 =>
    k.ridx.toNat * 2 ^ 32 + k.preerr.toNat * 8 + k.parterr.toNat * 4 + k.xlate.toNat * 2 + k.badrec.toNat
  | 0x30 => k.qdone.toNat
  | _ => 0

/-- The doubleword at a field of a fault queue's block (R341). -/
def HostQueue.read (q : HostQueue) (field : Nat) : Nat :=
  match field with
  | 0x00 => q.base.toNat
  | 0x08 => q.en.toNat * 2 ^ 8 + q.log2size.toNat
  | 0x10 => q.head.toNat
  | 0x18 => q.tail.toNat
  | _ => 0

/-- The doubleword at a field of the mailbox (R345). -/
def Mailbox.read (m : Mailbox) (field : Nat) : Nat :=
  match field with
  | 0x08 => m.status + m.busy.toNat * 2 ^ 31
  | 0x10 => m.ctr
  | _ => 0

/-- The doubleword at an offset, a multiple of 8, of a function's window (R340). -/
def State.windowRead (s : State) (fn off : Nat) : Nat :=
  if off < 0x10000 then
    let view := if fn == 0 then none else s.fnPart fn
    s.capWord view off + s.capWord view (off + 4) * 2 ^ 32
  else if off < 0x14000 then (s.queue ((off - 0x10000) / 64)).read (off % 64)
  else if 0x20000 ≤ off && off < 0x21000 then (s.hq ((off - 0x20000) / 64)).read (off % 64)
  else if 0x30000 ≤ off && off < 0x30040 then s.mailbox.read (off % 64)
  else 0

/-- The offset lies in a block that function f ≥ 1 may touch, or in none (R340). -/
def State.ownsOffset (s : State) (fn off : Nat) : Bool :=
  if 0x10000 ≤ off && off < 0x14000 then s.ownsQueue fn ((off - 0x10000) / 64)
  else if 0x20000 ≤ off && off < 0x21000 then fn == (off - 0x20000) / 64 + 1
  else !(0x30000 ≤ off && off < 0x30040)

/-- A host function reads a doubleword of its window (R340): a foreign block freezes it, a frozen function reads all ones,
and after BOOTFAIL the capability table alone answers (R350). -/
def State.hostRead (s : State) (fn off : Nat) : State :=
  let ones := List.replicate 8 (some (0xFF : Byte))
  let dw := off / 8 * 8
  if !s.fnExists fn || 2 ^ 26 ≤ off || (s.bootfail && 0x10000 ≤ off) then s
  else if s.frozenFns.contains fn then { s with answered := ones }
  else if fn != 0 && !s.ownsOffset fn dw then { s with frozenFns := NSet.insert s.frozenFns fn, answered := ones }
  else { s with answered := (leBytes 8 (s.windowRead fn dw)).map some }

/-! CXL.mem (R339, R347). -/

/-- The bytes of device memory that a host reads; a byte without valid ECC is none. -/
def State.hostBytes (s : State) (addr n : Nat) : List (Option Byte) :=
  (List.range n).map fun i => if s.badMem 0 (addr + i) 1 then none else (s.readHome 0 (addr + i) 1)[0]?

/-- HOST_MEMORY_ACCESS: performed at the home slice; a byte outside the function's units freezes it.
Function 0 may reach every unit (DEDUCED, log 24). A read answers with the bytes; a byte without valid ECC has no value. -/
def execHostMemoryAccess (fn : Nat) (write : Bool) (addr : Nat) (bytes : List Byte) (s : State) : Out :=
  if bytes.isEmpty || Config.dramBytes < addr + bytes.length then .next s
  else
    .next (s.hostWrite fn (fn != 0 && s.inUnits (fn - 1) addr bytes.length) fun s =>
      if write then s.writeHome 0 addr bytes false
      else { s with answered := s.hostBytes addr bytes.length })

/-- HOST_ISOLATION_VIOLATION (R340): a function f ≥ 1 is frozen. -/
def execHostIsolationViolation (fn : Nat) (s : State) : Out :=
  if fn != 0 && s.fnExists fn then .next { s with frozenFns := NSet.insert s.frozenFns fn } else .next s

/-! Partition commands (R345, R346). -/

/-- The registers of a queue given to a partition; whether it may carry POOLADM is the manager's choice,
free here (DESIGN CHOICE, log 26). -/
def State.giveQueue (s : State) (part q : Nat) : State :=
  ({ s with draws := s.draws + 1 } : State).setQueue q
    { Queue.reset with part := part, admin := Config.anyNat s.draws % 2 == 1 }

/-- Barriers of the cluster kind are zero for a new owner (R224): those from a number on. -/
def State.zeroClusterBars (s : State) (part cl n : Nat) : State :=
  ((List.range 8).filter (n ≤ ·)).foldl (fun s i => s.setBarrier 2 (64 * cl + part) i Barrier.reset) s

/-- The named resources become the partition's (R346). -/
def State.giveAll (s : State) (part : Nat) (old : Part) (c : Command) : State :=
  let added := c.units.filter fun u => !old.units.contains u
  let s1 := { s with units := added.foldl (fun m u => Store.put m u (part + 1)) s.units }
  let s2 := (c.queues.filter fun q => !old.queues.contains q).foldl (fun s q => s.giveQueue part q) s1
  let s3 := (c.pools.filter fun p => !old.pools.contains p).foldl (fun s p => s.setPool p Pool.reset) s2
  let s4 := (c.cores.filter fun x => !old.cores.contains x).foldl (fun s x => s.setCore x Core.reset) s3
  let s5 := c.cbars.foldl (fun s x => s.zeroClusterBars part x.1 (old.cbarOf x.1)) s4
  s5.setPart part { old with
    cores := c.cores, units := c.units, asids := c.asids, pools := c.pools, queues := c.queues, cbars := c.cbars }

/-- Table entries of an ASID become invalid, and every translation of it is dropped (R334, R346). -/
def State.dropAsid (s : State) (asid : Nat) : State :=
  let base := s.asidtab.toNat * 4096
  let s1 := (List.range 2048).foldl (fun s i =>
    let d := s.dwordAt 0 (base + 16 * i)
    if d / 2 ^ 63 == 1 && d % 2 ^ 16 == asid then s.writeHome 0 (base + 16 * i) (leBytes 8 (d - 2 ^ 63)) false
    else s) s
  s1.applyTlbinv 4 1 asid 0 0

/-- The resources a partition loses; a removed core is as after reset. -/
def State.takeAll (s : State) (old : Part) (c : Command) : State :=
  let gone := fun (a b : List Nat) => a.filter fun x => !b.contains x
  let us := gone old.units c.units
  let s1 := { s with
    units := us.foldl (fun m u => m.del u) s.units,
    scrubbing := us.foldl (fun m u => NSet.insert m u) s.scrubbing }
  let s2 := (gone old.asids c.asids).foldl (fun s a => s.dropAsid a) s1
  let s3 := (gone old.pools c.pools).foldl (fun s p => s.setPool p Pool.reset) s2
  let s4 := (gone old.queues c.queues).foldl (fun s q => s.setQueue q Queue.reset) s3
  (gone old.cores c.cores).foldl (fun s x => s.setCore x Core.reset) s4

def Part.none : Part :=
  { cores := [], units := [], asids := [], pools := [], queues := [], cbars := [], wbars := [] }

/-- The command takes effect (R346): 1 CREATE, 2 RESIZE, 3 DESTROY. A frozen function stays so until THAWHOST (R340). -/
def State.applyCommand (s : State) (op : Nat) (c : Command) (old : Part) : State :=
  let p := c.part
  match op with
  | 1 => s.giveAll p .none c
  | 2 => (s.takeAll old c).giveAll p old c
  | _ =>
    let none : Command := { c with cores := [], units := [], asids := [], pools := [], queues := [], cbars := [] }
    let s1 := s.takeAll old none
    { s1 with parts := s1.parts.del p, fqs := s1.fqs.del p }

/-- The numbers a list names are in range, none twice. -/
def named (l : List Nat) (n : Nat) : Bool := l.all (· < n) && l.eraseDups.length == l.length

/-- INVAL: a malformed argument (R344, R345; DESIGN CHOICE, log 26). -/
def State.malformed (s : State) (op : Nat) (c : Command) : Bool :=
  let exists_ := (Store.find s.parts c.part).isSome
  let lists :=
    named c.cores Config.cores && named c.units 512 && named c.asids 65536 && named c.pools 64 &&
    named c.queues 256 && named (c.cbars.map Prod.fst) Config.clusters && c.asids.length ≤ 2048 &&
    c.cbars.all (fun x => x.2 ≤ 8 && c.cores.any fun k => clusterOf k == x.1) &&
    !c.cores.isEmpty && !c.units.isEmpty && !c.asids.isEmpty && !c.queues.isEmpty
  match op with
  | 1 => 64 ≤ c.part || exists_ || !lists
  | 2 => !exists_ || !lists
  | 3 => !exists_
  | 4 => 24 ≤ c.meter || 65536 ≤ c.asid || c.burst < 1 || 1024 < c.burst || (if c.meter < 8 then 2800 else 224) < c.rate
  | 5 => c.fn == 0 || !s.fnExists c.fn
  | _ => true

/-- NORES: a named resource is another partition's. -/
def State.heldElsewhere (s : State) (c : Command) : Bool :=
  let others := s.parts.filter fun (x : Nat × Part) => x.1 != c.part
  let meets := fun (a b : List Nat) => a.any b.contains
  others.any (fun x =>
    meets c.cores x.2.cores || meets c.units x.2.units || meets c.asids x.2.asids || meets c.pools x.2.pools ||
    meets c.queues x.2.queues) ||
  c.cbars.any fun b => 8 < b.2 + others.foldl (fun n x => n + x.2.cbarOf b.1) 0

/-- BUSY: a pool that would be removed is neither DRAINED nor UNCONFIGURED (R346). -/
def State.poolsBusy (s : State) (old : Part) (keep : List Nat) : Bool :=
  old.pools.any fun p => !keep.contains p && (s.pool p).state != 0 && (s.pool p).state != 3

/-- The command must wait: groups on removed cores, or units still being scrubbed. -/
def State.commandWaits (s : State) (op : Nat) (c : Command) : Bool :=
  let cores := if op == 3 then [] else c.cores
  (op != 1 && s.groups.any fun x => x.2.sorrel.isNone && x.2.part == c.part && !cores.contains x.2.core) ||
  (op != 3 && c.units.any s.scrubbing.contains)

/-- The bytes that the signatures cover open with the opcode and the counter (R345). -/
def Command.opens (c : Command) (op : Nat) : Bool :=
  c.body.length == 256 && leNat (c.body.take 4) == op && leNat ((c.body.drop 4).take 8) == c.counter

/-- The command block at a host physical address (R345): its opcode, and the command with its arguments as the free
functions of Config read them (DESIGN CHOICE, log 26). -/
def State.commandAt (s : State) (addr : Nat) : Nat × Command :=
  let body := s.readHome 1 addr 256
  let a := body.drop 12
  (leNat (body.take 4),
    { counter := leNat ((body.drop 4).take 8), body := body, sig := s.readHome 1 (addr + 256) Config.sigBytes,
      part := Config.argNat a 0, cores := Config.argList a 0, units := Config.argList a 1, asids := Config.argList a 2,
      pools := Config.argList a 3, queues := Config.argList a 4, cbars := Config.argPairs a, meter := Config.argNat a 1,
      asid := Config.argNat a 2, rate := Config.argNat a 3, burst := Config.argNat a 4, fn := Config.argNat a 5 })

/-- A mailbox command (R345): refused with a status, performed, or left running. -/
def State.command (s : State) (op : Nat) (c : Command) : State :=
  let m := s.mailbox
  let old := (Store.find s.parts c.part).getD .none
  let fail := fun (n : Nat) => { s with mailbox := { m with status := n } }
  if s.bootfail || !s.ready || m.busy || !Command.opens c op then s
  else if !Config.verifies s.ownerKey c.body c.sig then fail 1
  else if c.counter != m.ctr + 1 then fail 2
  else if s.malformed op c then fail 4
  else if op ≤ 2 && s.heldElsewhere c then fail 5
  else if (op == 2 && s.poolsBusy old c.pools) || (op == 3 && s.poolsBusy old []) then fail 3
  else
    let ok := { m with status := 0, ctr := c.counter }
    if op == 4 then
      let k := c.meter * 65536 + c.asid
      let x := Store.get s.meters k Meter.reset
      { s with mailbox := ok, meters := Store.put s.meters k ⟨c.asid, c.rate, c.burst, min x.tokens (1024 * c.burst)⟩ }
    else if op == 5 then { s with mailbox := ok, frozenFns := s.frozenFns.erase c.fn }
    else if s.commandWaits op c then
      -- from acceptance no launch is placed on a removed core
      let keep := if op == 1 then old.cores else old.cores.filter fun x => op == 2 && c.cores.contains x
      let s1 := if op == 1 then s else s.setPart c.part { old with cores := keep }
      { s1 with mailbox := { m with busy := true, cmd := some (op, c) } }
    else { (s.applyCommand op c old) with mailbox := ok }

/-- REGISTER_WRITE: a doubleword written by a host function at an offset of its window. Fields with a
behaviour of their own act as their own steps do; a mailbox write sends the command at the address written (R345). -/
def execRegisterWrite (fn off : Nat) (v : DWord) (s : State) : Out :=
  if 0x10000 ≤ off && off < 0x14000 then
    let q := (off - 0x10000) / 64
    match off % 64 with
    | 0x18 => execQtailWrite fn q v s
    | 0x28 => execQueueStatusClear fn q (v.setWidth 32) s
    | 0x38 => execQpreempt fn q v s
    | f => .next (s.queueWrite fn q fun k => s.setQueue q (k.write f v))
  else if 0x20000 ≤ off && off < 0x21000 then
    let p := (off - 0x20000) / 64
    if off % 64 == 0x20 then
      if s.hostMay fn (fn == p + 1) then
        execFaultAnswer (v.toNat / 2 ^ 40 % 256) (v.toNat / 2 ^ 8 % 2 ^ 32) (v.getLsbD 0) s
      else .next (s.hostWrite fn (fn == p + 1) fun s => s)
    else
      .next (s.hostWrite fn (fn == p + 1) fun s => s.setHq p ((s.hq p).write (off % 64) v))
  else if off == 0x30000 then
    .next (s.hostWrite fn false fun s => let x := s.commandAt v.toNat; s.command x.1 x.2)
  else if 0x30000 ≤ off && off < 0x30040 then .next (s.hostWrite fn false fun s => s)
  else .next s

def execCreate (c : Command) (s : State) : Out := .next (s.command 1 c)
def execResize (c : Command) (s : State) : Out := .next (s.command 2 c)
def execDestroy (c : Command) (s : State) : Out := .next (s.command 3 c)
def execSetrate (c : Command) (s : State) : Out := .next (s.command 4 c)
def execThawhost (c : Command) (s : State) : Out := .next (s.command 5 c)

/-- RESIZE_COMPLETE: a running command of the partition takes effect once nothing holds it up. -/
def execResizeComplete (part : Nat) (s : State) : Out :=
  match s.mailbox.cmd with
  | some (op, c) =>
    let old := (Store.find s.parts c.part).getD .none
    if c.part != part || s.commandWaits op c then .next s
    else .next { (s.applyCommand op c old) with
      mailbox := { s.mailbox with busy := false, cmd := none, status := 0, ctr := c.counter } }
  | none => .next s

/-- MEMORY_SCRUB_COMPLETE: the unit is zero with valid ECC. -/
def execMemoryScrubComplete (memUnit : Nat) (s : State) : Out :=
  if !s.scrubbing.contains memUnit then .next s
  else
    .next { s with
      scrubbing := s.scrubbing.erase memUnit,
      mem := s.mem.filter fun c => c.1 / 2 ^ 30 != memUnit,
      poison := s.poison.filter fun k => k / 2 ^ 25 != memUnit }

/-! Meters and Cheuk ports (R348, R349). -/

/-- METER_RELEASE: tokens accrue, how many is free, and the request's bytes are taken from them. -/
def execMeterRelease (r : Nat) (s : State) : Out :=
  match s.req r with
  | none => .next s
  | some q =>
    match q.place, (s.handleOf q.grp).bind s.group with
    | some p, some g =>
      let k := (if p.tgt == 2 then 8 + peerLink p.pa else p.pa / 2 ^ 36 % 8) * 65536 + g.asid
      match Store.find s.meters k with
      | none => .next s
      | some m =>
        let w := q.act.width
        let have_ := if w ≤ m.tokens then m.tokens else min (1024 * m.burst) (w + Config.anyNat s.draws)
        .next { s with draws := s.draws + 1, meters := Store.put s.meters k { m with tokens := have_ - w } }
    | _, _ => .next s

/-- What a peer's access does at this device, and what it answers. -/
def State.serveFlit (s : State) (port : Nat) (f : Flit) : State × Option (FlitKind × List Byte) :=
  let n := match f.kind with | .read n => n | .write => f.bytes.length | .atomic _ ty _ _ => if ty == 3 then 8 else 4 | _ => 4
  let inside := f.addr + n ≤ Config.dramBytes && Config.peerAdmits f.addr
  match f.kind with
  | .read n =>
    if !inside then (s, some (.refused, []))
    else (s, some (if s.badMem 0 f.addr n then .poisoned else .reply, s.readHome 0 f.addr n))
  | .write => if inside then (s.writeHome 0 f.addr f.bytes false, none) else (s, some (.refused, []))
  | .atomic op ty b c =>
    if !inside then (s, some (.refused, []))
    else
      let m := s.readHome 0 f.addr n
      (s.writeHome 0 f.addr (leBytes n (atomicOp op ty (leNat m) b c)) false,
        some (if s.badMem 0 f.addr n then .poisoned else .reply, m))
  | .element id i op ty v =>
    let cl := homeCluster f.addr
    let c := s.cluster cl
    let w := c.window id (port + 1)
    if !inside then (s, some (.refused, []))
    else if w.applied i then (s, some (.reply, []))
    else
      ((s.setCluster cl (c.setWindow (w.apply i))).writeHome 0 f.addr
        (leBytes 4 (cprApply op ty (leNat (s.readHome 0 f.addr 4)) v)) false, some (.reply, []))
  | .done id =>
    ({ s with clusters := s.clusters.map fun (x : Nat × Cluster) =>
        (x.1, { x.2 with windows := x.2.windows.filter fun w => w.id != id || w.src != port + 1 }) }, none)
  | _ => (s, none)

/-- An element waits for a window of its home slice (R220). -/
def State.flitWaits (s : State) (port : Nat) (f : Flit) : Bool :=
  match f.kind with
  | .element id _ _ _ _ => (s.cluster (homeCluster f.addr)).windowsFull id (port + 1)
  | _ => false

/-- CHEUK_FLIT: the next flit in order, with a good CRC, is delivered once, as the routing table of this device allows. A
bad CRC or a gap has the flits from the one expected sent again; a repeat is dropped. Such a request has the sender replay
its buffer from the flit named. What a link carries is a choice of the model (DESIGN CHOICE, log 84). -/
def execCheukFlit (port : Nat) (f : Flit) (s : State) : Out :=
  let p := s.port port
  if 16 ≤ port || !p.up || s.bootfail || s.flitWaits port f then .next s
  else if !f.crcOk || p.rxSeq < f.seq then .next (s.setPort port { p with out := p.out ++ [⟨0, true, .resend, p.rxSeq, []⟩] })
  else if f.kind == .resend then .next (s.setPort port { p with out := p.out ++ p.replay.filter (f.addr ≤ ·.seq) })
  else if f.seq < p.rxSeq then .next s
  else
    let (s1, ans) := s.serveFlit port f
    let p1 := { p with rxSeq := p.rxSeq + 1 }
    .next (s1.setPort port (match ans with | some (k, bs) => p1.send k f.addr bs | none => p1))

/-- The peer takes the first flit. -/
def State.wire (s : State) (port : Nat) : State :=
  let p := s.port port
  s.setPort port { p with out := p.out.drop 1 }

/-- CHEUK_PORT_DOWN: the eighth failed retrain. Outstanding accesses end as they are performed. -/
def execCheukPortDown (port : Nat) (s : State) : Out :=
  if 16 ≤ port then .next s
  else .next (s.setPort port { s.port port with up := false, retrains := 8, replay := [], out := [] })

/-! Boot and attestation (R350, R351). -/

/-- POWER_UP: nothing is kept, and the cycle counters are 0 (R83); the three verifications, then the initial partitions.
The draw counter, the numbering and what lies outside the device go on. -/
def execPowerUp (b : BootImage) (s : State) : Out :=
  let s0 := { State.reset with
    turn := s.turn, who := s.who, draws := s.draws, nextId := s.nextId, inputs := s.inputs, host := s.host, peer := s.peer }
  if !Config.verifies Config.romKey b.firmware b.fwSig || !b.helperOk || !Config.verifies b.ownerKey b.config b.cfgSig then .next { s0 with bootfail := true }
  else
    let s1 := b.parts.foldl (fun s c => s.applyCommand 1 c .none) { s0 with
      ready := true, ownerKey := b.ownerKey, fwVersion := b.fwVersion, cfgVersion := b.cfgVersion,
      fwDigest := Config.digest b.firmware, cfgDigest := Config.digest b.config }
    .next s1

def fit (n : Nat) (bs : List Byte) : List Byte := (bs ++ List.replicate n 0).take n

/-- The partition map as bytes. -/
def State.mapBytes (s : State) : List Byte :=
  let list := fun (l : List Nat) => leBytes 4 l.length ++ (l.map (leBytes 4)).flatten
  (s.parts.map fun (x : Nat × Part) =>
    leBytes 4 x.1 ++ list x.2.cores ++ list x.2.units ++ list x.2.asids ++ list x.2.pools ++ list x.2.queues ++
    list (x.2.cbars.map Prod.fst) ++ list (x.2.cbars.map Prod.snd)).flatten

/-- ATTESTATION_REPORT (R351): between commands only. -/
def execAttestationReport (nonce : List Byte) (s : State) : Out :=
  if s.mailbox.busy || !s.ready then .next s
  else
    let body := leBytes 4 1 ++ leBytes 4 s.fwVersion ++ leBytes 8 s.cfgVersion ++ fit 32 nonce ++
      fit 48 s.fwDigest ++ fit 48 s.cfgDigest ++ fit 48 (Config.digest s.mapBytes) ++ leBytes 8 s.mailbox.ctr
    .next { s with report := body ++ Config.signature body }

end Sys2Proof.Machine
end

