-- ==== Sys2Proof/Machine/Power.lean ====
section
/-! DEFINITION. Power and temperature (R352 to R355). -/

namespace Sys2Proof.Machine

/-- Cycles of 500 us, 10 ms and 40 ms at 4.0 GHz. -/
abbrev dwellCycles : Nat := 2000000
abbrev sprintCycles : Nat := 40000000
abbrev coolCycles : Nat := 160000000

/-- Every cluster of the device changed. -/
def State.eachCluster (s : State) (f : State → Nat → State) : State := (List.range Config.clusters).foldl f s

/-- The throttle state may change: it has been held for 500 us (R353). -/
def State.dwelt (s : State) : Bool :=
  (List.range Config.clusters).all fun i =>
    match (s.cluster i).thrSince with | some t => t + dwellCycles ≤ s.now | none => true

/-- Throttling of one cluster begins: a sprint ends and its cool-down starts. -/
def State.throttle (s : State) (hot : Bool) (cl : Nat) : State :=
  let s1 := s.endSprint cl
  s1.setCluster cl { (s1.cluster cl) with throt := true, hot := hot, thrSince := some s.now }

/-- THERMAL_ALARM: a sensor sample, and the alarm when it is at or above THRESH or with a supply droop, which
is free (DESIGN CHOICE, log 27). -/
def execThermalAlarm (cluster : Nat) (temp : BitVec 8) (s : State) : Out :=
  if Config.clusters ≤ cluster then .next s
  else
    let c := s.cluster cluster
    let s1 := ({ s with draws := s.draws + 1 } : State).setCluster cluster
      { c with temp := temp, under := temp.toNat + 2 ≤ c.thresh.toNat }
    let hot := c.thresh ≤ temp
    let droop := Config.anyNat s.draws % 2 == 1
    if !(hot || droop) || c.throt || !s.dwelt then .next s1
    else .next (s1.eachCluster fun s i => s.throttle hot i)

/-- THROTTLE_RELEASE: after the dwell, once the last sample of every sensor was at THRESH - 2 or lower. -/
def execThrottleRelease (s : State) : Out :=
  let cool := (List.range Config.clusters).all fun i => (s.cluster i).under
  let on := (List.range Config.clusters).any fun i => (s.cluster i).throt
  if !on || !cool || !s.dwelt then .next s
  else .next (s.eachCluster fun s i =>
    s.setCluster i { (s.cluster i) with throt := false, hot := false, thrSince := some s.now })

/-- The cores of a cluster whose target can fall, and can rise, by one bank. -/
def State.lowerable (s : State) (cl : Nat) : List Nat :=
  (List.range Config.coresPerCluster).map (Config.coresPerCluster * cl + ·) |>.filter fun k =>
    4 < (s.core k).target && (!(s.core k).hold || (s.cluster cl).throt || (s.cluster cl).cool)
def State.raisable (s : State) (cl : Nat) : List Nat :=
  (List.range Config.coresPerCluster).map (Config.coresPerCluster * cl + ·) |>.filter fun k =>
    (s.core k).target < 48 && !(s.core k).hold

/-- The cores of a cluster from the highest number down, from turn n on (R352). -/
def turnOrder (cl n : Nat) : List Nat :=
  (List.range Config.coresPerCluster).map fun i =>
    Config.coresPerCluster * cl + (Config.coresPerCluster - 1 - (n + i) % Config.coresPerCluster)

/-- POWER_BUDGET_ADJUST (R352): the next lever of its order is applied, or the last one released. The third lever takes one
bank from the core whose turn it is, and gives back in the reverse order; a core whose T cannot move is passed over. -/
def execPowerBudgetAdjust (cluster : Nat) (tighten : Bool) (s : State) : Out :=
  let c := s.cluster cluster
  if Config.clusters ≤ cluster then .next s
  else if tighten then
    if c.sprint then .next (s.endSprint cluster)
    else if c.passreq == 0 then .next (s.setCluster cluster { c with passreq := 1 })
    else
      let ks := s.lowerable cluster
      match (turnOrder cluster c.lever).find? ks.contains with
      | some k =>
        execLitTargetChange k ((s.core k).target - 1)
          (s.setCluster cluster { c with lever := Config.coresPerCluster - k % Config.coresPerCluster })
      | none => .next (s.setCluster cluster { c with passreq := 2 })
  else if 2 ≤ c.passreq then .next (s.setCluster cluster { c with passreq := 1 })
  else
    let ks := s.raisable cluster
    match (turnOrder cluster c.lever).reverse.find? ks.contains with
    | some k =>
      execLitTargetChange k ((s.core k).target + 1)
        (s.setCluster cluster { c with lever := Config.coresPerCluster - 1 - k % Config.coresPerCluster })
    | none =>
      if c.passreq == 1 then .next (s.setCluster cluster { c with passreq := 0 })
      else if c.sprint || c.cool || c.throt || (c.det && s.collective cluster) then .next s
      else .next (s.setCluster cluster { c with sprint := true, since := s.now })

/-- SPRINT_END: at 10 ms. -/
def execSprintEnd (cluster : Nat) (s : State) : Out :=
  if (s.cluster cluster).sprint && (s.cluster cluster).since + sprintCycles ≤ s.now then .next (s.endSprint cluster)
  else .next s

/-- COOL_DOWN_END: after at least 40 ms. -/
def execCoolDownEnd (cluster : Nat) (s : State) : Out :=
  let c := s.cluster cluster
  if c.cool && c.since + coolCycles ≤ s.now then .next (s.setCluster cluster { c with cool := false })
  else .next s

end Sys2Proof.Machine
end

