-- ==== Sys2Proof/Machine/Dispatch.lean ====
section
/-! DEFINITION. One arm for each constructor of Instr. -/

namespace Sys2Proof.Machine

def exec (i : Instr) (s : State) : Host.Outcome State Fault Refusal :=
  match i with
  | .vadd o => Sys2Proof.Machine.execVadd o s
  | .vsub o => Sys2Proof.Machine.execVsub o s
  | .vadds o => Sys2Proof.Machine.execVadds o s
  | .vsubs o => Sys2Proof.Machine.execVsubs o s
  | .vmul o => Sys2Proof.Machine.execVmul o s
  | .vmulh o => Sys2Proof.Machine.execVmulh o s
  | .vmad o => Sys2Proof.Machine.execVmad o s
  | .vmadw o => Sys2Proof.Machine.execVmadw o s
  | .vmin o => Sys2Proof.Machine.execVmin o s
  | .vmax o => Sys2Proof.Machine.execVmax o s
  | .vand o => Sys2Proof.Machine.execVand o s
  | .vor o => Sys2Proof.Machine.execVor o s
  | .vxor o => Sys2Proof.Machine.execVxor o s
  | .vshl o => Sys2Proof.Machine.execVshl o s
  | .vshr o => Sys2Proof.Machine.execVshr o s
  | .vsra o => Sys2Proof.Machine.execVsra o s
  | .vrot o => Sys2Proof.Machine.execVrot o s
  | .vbfe o => Sys2Proof.Machine.execVbfe o s
  | .vbfi o => Sys2Proof.Machine.execVbfi o s
  | .vsel o => Sys2Proof.Machine.execVsel o s
  | .vcmp o => Sys2Proof.Machine.execVcmp o s
  | .vdot4 o => Sys2Proof.Machine.execVdot4 o s
  | .vlea o => Sys2Proof.Machine.execVlea o s
  | .vmov o => Sys2Proof.Machine.execVmov o s
  | .vbcst o => Sys2Proof.Machine.execVbcst o s
  | .vlane o => Sys2Proof.Machine.execVlane o s
  | .vabs o => Sys2Proof.Machine.execVabs o s
  | .vneg o => Sys2Proof.Machine.execVneg o s
  | .vnot o => Sys2Proof.Machine.execVnot o s
  | .vclz o => Sys2Proof.Machine.execVclz o s
  | .vpopc o => Sys2Proof.Machine.execVpopc o s
  | .vmovSpecial o => Sys2Proof.Machine.execVmovSpecial o s
  | .pand o => Sys2Proof.Machine.execPand o s
  | .por o => Sys2Proof.Machine.execPor o s
  | .pxor o => Sys2Proof.Machine.execPxor o s
  | .pnot o => Sys2Proof.Machine.execPnot o s
  | .pmov o => Sys2Proof.Machine.execPmov o s
  | .vfadd o => Sys2Proof.Machine.execVfadd o s
  | .vfsub o => Sys2Proof.Machine.execVfsub o s
  | .vfmul o => Sys2Proof.Machine.execVfmul o s
  | .vfma o => Sys2Proof.Machine.execVfma o s
  | .vfmin o => Sys2Proof.Machine.execVfmin o s
  | .vfmax o => Sys2Proof.Machine.execVfmax o s
  | .vfcmp o => Sys2Proof.Machine.execVfcmp o s
  | .vfscale o => Sys2Proof.Machine.execVfscale o s
  | .vfabs o => Sys2Proof.Machine.execVfabs o s
  | .vfneg o => Sys2Proof.Machine.execVfneg o s
  | .vfclass o => Sys2Proof.Machine.execVfclass o s
  | .vfrint o => Sys2Proof.Machine.execVfrint o s
  | .vffrac o => Sys2Proof.Machine.execVffrac o s
  | .vfclassFlags sd claimed => Sys2Proof.Machine.execVfclassFlags sd claimed s
  | .vfrcp o => Sys2Proof.Machine.execVfrcp o s
  | .vfrsq o => Sys2Proof.Machine.execVfrsq o s
  | .vfsqrt o => Sys2Proof.Machine.execVfsqrt o s
  | .vfexp2 o => Sys2Proof.Machine.execVfexp2 o s
  | .vflog2 o => Sys2Proof.Machine.execVflog2 o s
  | .vfsin o => Sys2Proof.Machine.execVfsin o s
  | .vfcos o => Sys2Proof.Machine.execVfcos o s
  | .vfcvt o src h => Sys2Proof.Machine.execVfcvt o src h s
  | .vicvt o dir uns h => Sys2Proof.Machine.execVicvt o dir uns h s
  | .vqnt o k slot => Sys2Proof.Machine.execVqnt o k slot s
  | .vdqnt o k slot => Sys2Proof.Machine.execVdqnt o k slot s
  | .vbandr o => Sys2Proof.Machine.execVbandr o s
  | .vbandw o => Sys2Proof.Machine.execVbandw o s
  | .vred o op => Sys2Proof.Machine.execVred o op s
  | .vscan o excl op => Sys2Proof.Machine.execVscan o excl op s
  | .vshfl o mode cnt => Sys2Proof.Machine.execVshfl o mode cnt s
  | .vvote o mode => Sys2Proof.Machine.execVvote o mode s
  | .vmatch o => Sys2Proof.Machine.execVmatch o s
  | .smov o => Sys2Proof.Machine.execSmov o s
  | .sli d imm => Sys2Proof.Machine.execSli d imm s
  | .sliHi d imm => Sys2Proof.Machine.execSliHi d imm s
  | .sadd o => Sys2Proof.Machine.execSadd o s
  | .ssub o => Sys2Proof.Machine.execSsub o s
  | .smul o => Sys2Proof.Machine.execSmul o s
  | .smulh o => Sys2Proof.Machine.execSmulh o s
  | .smad o xl => Sys2Proof.Machine.execSmad o xl s
  | .sand o => Sys2Proof.Machine.execSand o s
  | .sor o => Sys2Proof.Machine.execSor o s
  | .sxor o => Sys2Proof.Machine.execSxor o s
  | .sshl o => Sys2Proof.Machine.execSshl o s
  | .sshr o => Sys2Proof.Machine.execSshr o s
  | .ssra o => Sys2Proof.Machine.execSsra o s
  | .smin o => Sys2Proof.Machine.execSmin o s
  | .smax o => Sys2Proof.Machine.execSmax o s
  | .scmp o cc => Sys2Proof.Machine.execScmp o cc s
  | .ssel o xl => Sys2Proof.Machine.execSsel o xl s
  | .sclz o => Sys2Proof.Machine.execSclz o s
  | .spopc o => Sys2Proof.Machine.execSpopc o s
  | .sbfe o => Sys2Proof.Machine.execSbfe o s
  | .sbfi o => Sys2Proof.Machine.execSbfi o s
  | .slea o k => Sys2Proof.Machine.execSlea o k s
  | .srdsp d idx => Sys2Proof.Machine.execSrdsp d idx s
  | .lds m => Sys2Proof.Machine.execLds m s
  | .sts m => Sys2Proof.Machine.execSts m s
  | .slds m => Sys2Proof.Machine.execSlds m s
  | .ssts m => Sys2Proof.Machine.execSsts m s
  | .ldg m => Sys2Proof.Machine.execLdg m s
  | .stg m => Sys2Proof.Machine.execStg m s
  | .sldg m => Sys2Proof.Machine.execSldg m s
  | .sstg m => Sys2Proof.Machine.execSstg m s
  | .ldd m => Sys2Proof.Machine.execLdd m s
  | .std m => Sys2Proof.Machine.execStd m s
  | .ldc m => Sys2Proof.Machine.execLdc m s
  | .prfg p a ub f1 off => Sys2Proof.Machine.execPrfg p a ub f1 off s
  | .atoms o => Sys2Proof.Machine.execAtoms o s
  | .atomg o => Sys2Proof.Machine.execAtomg o s
  | .atomo p a lit => Sys2Proof.Machine.execAtomo p a lit s
  | .aflush sa => Sys2Proof.Machine.execAflush sa s
  | .cpl p d a dir sz cl => Sys2Proof.Machine.execCpl p d a dir sz cl s
  | .cptLd o => Sys2Proof.Machine.execCptLd o s
  | .cptSt o => Sys2Proof.Machine.execCptSt o s
  | .cpr sa sb lit => Sys2Proof.Machine.execCpr sa sb lit s
  | .cpm o lit => Sys2Proof.Machine.execCpm o lit s
  | .tclose sd tl => Sys2Proof.Machine.execTclose sd tl s
  | .twait tl sa => Sys2Proof.Machine.execTwait tl sa s
  | .tstat sd tl sel => Sys2Proof.Machine.execTstat sd tl sel s
  | .acalloc h sa sd int => Sys2Proof.Machine.execAcalloc h sa sd int s
  | .acfree h => Sys2Proof.Machine.execAcfree h s
  | .acz h => Sys2Proof.Machine.execAcz h s
  | .acadd h hs => Sys2Proof.Machine.execAcadd h hs s
  | .acld o => Sys2Proof.Machine.execAcld o s
  | .acst o => Sys2Proof.Machine.execAcst o s
  | .mma o => Sys2Proof.Machine.execMma o s
  | .mmaT o => Sys2Proof.Machine.execMmaT o s
  | .mmas o => Sys2Proof.Machine.execMmas o s
  | .omap sa sb lit => Sys2Proof.Machine.execOmap sa sb lit s
  | .tballoc h sa sd slot lit => Sys2Proof.Machine.execTballoc h sa sd slot lit s
  | .tbfree h => Sys2Proof.Machine.execTbfree h s
  | .tbuildBp h sa sd => Sys2Proof.Machine.execTbuildBp h sa sd s
  | .tbuildCb h sa sd lit => Sys2Proof.Machine.execTbuildCb h sa sd lit s
  | .lmma o => Sys2Proof.Machine.execLmma o s
  | .tbstat h sd => Sys2Proof.Machine.execTbstat h sd s
  | .tbspill h sa sd => Sys2Proof.Machine.execTbspill h sa sd s
  | .tbfill h sa sd => Sys2Proof.Machine.execTbfill h sa sd s
  | .plcfg b sa => Sys2Proof.Machine.execPlcfg b sa s
  | .plstat b sd sel => Sys2Proof.Machine.execPlstat b sd sel s
  | .plpush b sa sb w lit => Sys2Proof.Machine.execPlpush b sa sb w lit s
  | .plpop b sd w => Sys2Proof.Machine.execPlpop b sd w s
  | .pldrain b => Sys2Proof.Machine.execPldrain b s
  | .lnch sa sb => Sys2Proof.Machine.execLnch sa sb s
  | .salloc rank sa sd lit => Sys2Proof.Machine.execSalloc rank sa sd lit s
  | .sfree sa => Sys2Proof.Machine.execSfree sa s
  | .srestore sa sd => Sys2Proof.Machine.execSrestore sa sd s
  | .srestoreDone sa sd => Sys2Proof.Machine.execSrestoreDone sa sd s
  | .srank rank sa sd => Sys2Proof.Machine.execSrank rank sa sd s
  | .squery sa sd => Sys2Proof.Machine.execSquery sa sd s
  | .squeryCnt sd => Sys2Proof.Machine.execSqueryCnt sd s
  | .lhret => Sys2Proof.Machine.execLhret s
  | .bkpt code => Sys2Proof.Machine.execBkpt code s
  | .trapu code => Sys2Proof.Machine.execTrapu code s
  | .bra off => Sys2Proof.Machine.execBra off s
  | .call off => Sys2Proof.Machine.execCall off s
  | .brcAny p off => Sys2Proof.Machine.execBrcAny p off s
  | .brcAll p off => Sys2Proof.Machine.execBrcAll p off s
  | .brx sa => Sys2Proof.Machine.execBrx sa s
  | .ifI p off join => Sys2Proof.Machine.execIfI p off join s
  | .loop off => Sys2Proof.Machine.execLoop off s
  | .brk p => Sys2Proof.Machine.execBrk p s
  | .next => Sys2Proof.Machine.execNext s
  | .ret => Sys2Proof.Machine.execRet s
  | .exit => Sys2Proof.Machine.execExit s
  | .regang id => Sys2Proof.Machine.execRegang id s
  | .spawn off w1 w2 w3 => Sys2Proof.Machine.execSpawn off w1 w2 w3 s
  | .mcall m w1 w2 => Sys2Proof.Machine.execMcall m w1 w2 s
  | .bara o => Sys2Proof.Machine.execBara o s
  | .barw o => Sys2Proof.Machine.execBarw o s
  | .baraw o => Sys2Proof.Machine.execBaraw o s
  | .barq o => Sys2Proof.Machine.execBarq o s
  | .barcfg o => Sys2Proof.Machine.execBarcfg o s
  | .fence sc ord => Sys2Proof.Machine.execFence sc ord s
  | .acq sc sa => Sys2Proof.Machine.execAcq sc sa s
  | .rel sc sa => Sys2Proof.Machine.execRel sc sa s
  | .ifence => Sys2Proof.Machine.execIfence s
  | .cwrd sa sd lit => Sys2Proof.Machine.execCwrd sa sd lit s
  | .cwwr sa sb lit => Sys2Proof.Machine.execCwwr sa sb lit s
  | .winrd sa sd => Sys2Proof.Machine.execWinrd sa sd s
  | .winwr sa sb => Sys2Proof.Machine.execWinwr sa sb s
  | .gpark sa sd => Sys2Proof.Machine.execGpark sa sd s
  | .gresume sa sd => Sys2Proof.Machine.execGresume sa sd s
  | .tret => Sys2Proof.Machine.execTret s
  | .tretHold => Sys2Proof.Machine.execTretHold s
  | .tretEnd => Sys2Proof.Machine.execTretEnd s
  | .thaw sa sd => Sys2Proof.Machine.execThaw sa sd s
  | .thawEnd sa sd => Sys2Proof.Machine.execThawEnd sa sd s
  | .tlbinv sc mode sa sb => Sys2Proof.Machine.execTlbinv sc mode sa sb s
  | .ctxsv sa sb => Sys2Proof.Machine.execCtxsv sa sb s
  | .ctxld sa sb => Sys2Proof.Machine.execCtxld sa sb s
  | .ctxldDiscard sa sb => Sys2Proof.Machine.execCtxldDiscard sa sb s
  | .mcswr sa sb => Sys2Proof.Machine.execMcswr sa sb s
  | .sysc code => Sys2Proof.Machine.execSysc code s
  | .clauseDecode g => Sys2Proof.Machine.execClauseDecode g s
  | .waitSatisfied g => Sys2Proof.Machine.execWaitSatisfied g s
  | .longLatencyReturn g r => Sys2Proof.Machine.execLongLatencyReturn g r s
  | .commitPoint g => Sys2Proof.Machine.execCommitPoint g s
  | .clauseRetire g => Sys2Proof.Machine.execClauseRetire g s
  | .strikeReport core => Sys2Proof.Machine.execStrikeReport core s
  | .activeSetSwap core => Sys2Proof.Machine.execActiveSetSwap core s
  | .urgentPromotion core => Sys2Proof.Machine.execUrgentPromotion core s
  | .deferredFaultDelivery g => Sys2Proof.Machine.execDeferredFaultDelivery g s
  | .lostLoadSignal g => Sys2Proof.Machine.execLostLoadSignal g s
  | .litTargetChange core t => Sys2Proof.Machine.execLitTargetChange core t s
  | .bankDarken core => Sys2Proof.Machine.execBankDarken core s
  | .bankRelight core => Sys2Proof.Machine.execBankRelight core s
  | .scratchpadArrival r => Sys2Proof.Machine.execScratchpadArrival r s
  | .pageWalkComplete r => Sys2Proof.Machine.execPageWalkComplete r s
  | .faultRecordForward cluster seq => Sys2Proof.Machine.execFaultRecordForward cluster seq s
  | .globalAccessPerform r => Sys2Proof.Machine.execGlobalAccessPerform r s
  | .directPathReply r => Sys2Proof.Machine.execDirectPathReply r s
  | .atomoArrival r => Sys2Proof.Machine.execAtomoArrival r s
  | .atomoEvict slice => Sys2Proof.Machine.execAtomoEvict slice s
  | .aflushArrival r => Sys2Proof.Machine.execAflushArrival r s
  | .cprElementArrival r => Sys2Proof.Machine.execCprElementArrival r s
  | .copyTransfer k => Sys2Proof.Machine.execCopyTransfer k s
  | .copyOpComplete k => Sys2Proof.Machine.execCopyOpComplete k s
  | .teleaselStepBoundary cluster => Sys2Proof.Machine.execTeleaselStepBoundary cluster s
  | .matrixEngineStep core => Sys2Proof.Machine.execMatrixEngineStep core s
  | .matrixOpComplete core => Sys2Proof.Machine.execMatrixOpComplete core s
  | .lookupEngineStep core => Sys2Proof.Machine.execLookupEngineStep core s
  | .lookupOpComplete core => Sys2Proof.Machine.execLookupOpComplete core s
  | .barrierArrival r => Sys2Proof.Machine.execBarrierArrival r s
  | .barcfgArrival r => Sys2Proof.Machine.execBarcfgArrival r s
  | .barrierReleaseDelivery n => Sys2Proof.Machine.execBarrierReleaseDelivery n s
  | .relArrival r => Sys2Proof.Machine.execRelArrival r s
  | .acqAnswer r => Sys2Proof.Machine.execAcqAnswer r s
  | .pushArrival r => Sys2Proof.Machine.execPushArrival r s
  | .popArrival r => Sys2Proof.Machine.execPopArrival r s
  | .plcfgArrival r => Sys2Proof.Machine.execPlcfgArrival r s
  | .plstatArrival r => Sys2Proof.Machine.execPlstatArrival r s
  | .pldrainArrival r => Sys2Proof.Machine.execPldrainArrival r s
  | .poolWithdrawal g => Sys2Proof.Machine.execPoolWithdrawal g s
  | .queuePoll q => Sys2Proof.Machine.execQueuePoll q s
  | .slotConsume q => Sys2Proof.Machine.execSlotConsume q s
  | .launchGrant q => Sys2Proof.Machine.execLaunchGrant q s
  | .trapHandlerEntry cluster ctx => Sys2Proof.Machine.execTrapHandlerEntry cluster ctx s
  | .ctxsvComplete g => Sys2Proof.Machine.execCtxsvComplete g s
  | .resizeComplete part => Sys2Proof.Machine.execResizeComplete part s
  | .memoryScrubComplete memUnit => Sys2Proof.Machine.execMemoryScrubComplete memUnit s
  | .meterRelease r => Sys2Proof.Machine.execMeterRelease r s
  | .cheukPortDown port => Sys2Proof.Machine.execCheukPortDown port s
  | .thermalAlarm cluster temp => Sys2Proof.Machine.execThermalAlarm cluster temp s
  | .powerBudgetAdjust cluster tighten => Sys2Proof.Machine.execPowerBudgetAdjust cluster tighten s
  | .sprintEnd cluster => Sys2Proof.Machine.execSprintEnd cluster s
  | .coolDownEnd cluster => Sys2Proof.Machine.execCoolDownEnd cluster s
  | .faultAnswer cluster seq unres => Sys2Proof.Machine.execFaultAnswer cluster seq unres s
  | .qtailWrite fn q v => Sys2Proof.Machine.execQtailWrite fn q v s
  | .queueStatusClear fn q bits => Sys2Proof.Machine.execQueueStatusClear fn q bits s
  | .qpreempt fn q v => Sys2Proof.Machine.execQpreempt fn q v s
  | .registerWrite fn off v => Sys2Proof.Machine.execRegisterWrite fn off v s
  | .create c => Sys2Proof.Machine.execCreate c s
  | .resize c => Sys2Proof.Machine.execResize c s
  | .destroy c => Sys2Proof.Machine.execDestroy c s
  | .setrate c => Sys2Proof.Machine.execSetrate c s
  | .thawhost c => Sys2Proof.Machine.execThawhost c s
  | .hostMemoryAccess fn write addr bytes => Sys2Proof.Machine.execHostMemoryAccess fn write addr bytes s
  | .hostIsolationViolation fn => Sys2Proof.Machine.execHostIsolationViolation fn s
  | .cheukFlit port f => Sys2Proof.Machine.execCheukFlit port f s
  | .powerUp b => Sys2Proof.Machine.execPowerUp b s
  | .attestationReport nonce => Sys2Proof.Machine.execAttestationReport nonce s
  | .throttleRelease => Sys2Proof.Machine.execThrottleRelease s
  | .nop => Sys2Proof.Machine.execNop s
  | .yield => Sys2Proof.Machine.execYield s

end Sys2Proof.Machine
end

