-- ==== Sys2Proof/Machine/Depart.lean ====
section
/-! DEFINITION. What happens when the oldest request of a retired clause leaves its core (R53, R172, R196,
R203, R320). -/

namespace Sys2Proof.Machine

/-- A submission reaches its engine (R209, R247, R249, R271). -/
def State.submit (s : State) (g : Group) (op : Op) : State :=
  match op.kind with
  | .mmaT .. =>
    let s1 := { s with ops := s.ops ++ [op] }
    match (List.range 4).find? fun q => (s.team g).getD q 256 == op.core with
    | some q => s1.arriveQuad op.core op q
    | none => s1
  | _ => if op.isEngine then s.arriveOp op op.isLookup else { s with ops := s.ops ++ [op] }

/-- A system instruction takes effect (R320 to R337). -/
def State.applySys (s : State) (q : Req) (code : Nat) (args : List Nat) : State :=
  match code, args with
  | 1, [idx, n, x] => s.cwWrite idx n x
  | 3, [uid] =>
    let s1 := (s.notBySave uid).applyGpark uid
    { s1 with reqs := s1.reqs ++ [q] }
  | 4, [h] =>
    match s.group h with
    | some t => if t.isHeld && !t.frozen && !t.halted then s.resumeAndSettle h else s
    | none => s
  | 5, [kind, uid, fin] => s.applyThaw kind uid (fin == 1)
  | 6, [sc, mode, asid, va, cl] =>
    let s1 := s.applyTlbinv sc mode asid va cl
    { s1 with reqs := s1.reqs ++ [{ q with va := s1.nextId }] }
  | 7, [core, at_, x] =>
    let c := s.core core
    s.setCore core { c with macros := Store.set c.macros at_ (BitVec.ofNat 32 x) 0 }
  | 8, [area, floor, h, cl] => ({ s with reqs := s.reqs ++ [q] } : State).applyCtxsv q area floor h cl
  | 9, [area, ctl] => s.applyCtxld q area ctl
  | 10, [area] => s.applyDiscard q area
  | _, _ => s

/-- The scope at which a request releases, 0 for none (R310). -/
def Act.releases (a : Act) : Nat :=
  match a with
  | .fence sc ord => if ord % 2 == 1 then sc else 0
  | .arrive sc _ | .rel sc _ => sc
  | .plpush .. => 4
  | _ => 0

/-- A release orders writes to bound pages under way before what follows it in its scope: the group's own earlier ones,
and those that a release which reached the group's core has ordered. A REL of their id by a group there waits for
them (R4, R310, axiom Bind). -/
def State.markReleased (s : State) (q : Req) : State :=
  if q.act.releases == 0 then s
  else { s with reqs := s.reqs.map fun r =>
    if r.isWrite && !r.unbound &&
        ((r.grp == q.grp && r.id < q.id) || (r.grp != q.grp && sameInstance r.released r.core q.core)) then
      { r with released := max r.released q.act.releases }
    else r }

/-- The request leaves the core. -/
def State.depart (s0 : State) (g : Group) (q : Req) : State :=
  let s := s0.markReleased q
  match q.act with
  | .fence _ _ | .spawn _ => s
  | .sfree aid => s.applyFree g.block aid
  | .srank aid rank => s.applyRank g.block aid rank
  | .szero _ => s.applyZero g.block q
  | .tclose tl => s.applyTclose g.uid tl
  | .submit op => s.submit g op
  | .sys code args => s.applySys q code args
  | .store .direct w _ =>
    let s1 := match q.place with | some p => s.dropLines g.core p.tgt p.pa w | none => s
    { s1 with reqs := s1.reqs ++ [q] }
  | _ => { s with reqs := s.reqs ++ [q] }

/-- The front of a group's queue leaves its core. -/
def State.leave (s : State) (h : Nat) : State :=
  match s.group h with
  | none => s
  | some g =>
    match g.outq with
    | [] => s
    | q :: rest =>
      if !s.canLeave q then s
      else ((((s.putGroup h { g with outq := rest }).depart g q).settleFences g.uid).settleAfter h).reap h

end Sys2Proof.Machine
end

