-- ==== Sys2Proof/Machine/Schedule.lean ====
section
/-! DEFINITION. What surrounds the meanings in a step: the issue of a clause's next word (R47, R48, R57), the
loss of cached entries (R168, R170, R182, R234), uncorrectable errors (R76, R173, R324), writes by the host
and peers to their own memories (R181), the passing of cycles (R83, R353, R354; DESIGN CHOICE, log 5), and the
choice of the next turn (DESIGN CHOICE, log 4). -/

namespace Sys2Proof.Machine

/-! The issue of a word. -/

/-- The group may issue now: it is a handler context, or in its core's active set with at most one older active
group that is ready and not busy with the word it issued last (R55). -/
def State.mayIssue (s : State) (g : Group) (h : Nat) : Bool :=
  g.sorrel.isSome ||
  ((s.core g.core).active.contains h && !s.unborn g &&
    ((s.activeGroups g.core).filter fun x =>
      olderThan x (h, g) && s.canIssue x.2 && !Config.busy s.draws x.1).length < 2)

/-- At a boundary the next clause is fetched and decoded first (R47). -/
def State.begin (s : State) (h : Nat) (g : Group) : State :=
  match g.cur with
  | some _ => s
  | none => match execClauseDecode h s with | .next t => t | _ => s

/-- The instruction whose turn it is, and the state it issues in: its word is taken off the clause. -/
def State.front (s : State) (h : Nat) : Option (Instr × State) :=
  match s.group h with
  | none => none
  | some g =>
    match g.cur with
    | none => none
    | some c =>
      match c.rest with
      | [] => none
      | (i, ins) :: rest =>
        some (ins, ({ s with who := h } : State).putGroup h { g with cur := some { c with idx := i, rest := rest } })

/-- After its last word the clause is complete (R57); a clause of orphan literals is so at once (R48). -/
def State.endWord (s : State) (h : Nat) : State :=
  match s.group h with
  | some g => (match g.cur with | some c => if c.rest.isEmpty then s.finishClause h else s | none => s)
  | none => s

/-- A group's turn: the next word of its clause, by `run`; nothing issues where the decode trapped or waits. -/
def State.issueWord (s : State) (run : Instr → State → Out) (h : Nat) : Out :=
  match s.group h with
  | none => .next s
  | some g =>
    if !s.mayIssue g h then .next s
    else
      match (s.begin h g).front h with
      | none => .next ((s.begin h g).endWord h)
      | some (ins, t) =>
        match run ins t with
        | .next u => .next (u.endWord h)
        | .fault r => .fault r
        | .refused r => .refused r

/-! Cached entries are lost at any time. -/

def dropNth {α : Type} (l : List α) (n : Nat) : List α :=
  match l, n with
  | [], _ => []
  | _ :: r, 0 => r
  | x :: r, n + 1 => x :: dropNth r n

/-- Entry `n` is gone: 0 of the core's TLB, 1 of its lines, 2 of its fetch units, 3 of its cluster's TLB. -/
def State.evict (s : State) (core which n : Nat) : State :=
  let c := s.core core
  match which with
  | 0 => s.setCore core { c with tlb := dropNth c.tlb n }
  -- constant lines stay until TLBINV or CTXLD (R170)
  | 1 => if (c.lines.getD n ⟨true, 0, 0, 0, [], []⟩).konst then s else s.setCore core { c with lines := dropNth c.lines n }
  | 2 => s.setCore core { c with fetch := dropNth c.fetch n }
  | _ =>
    let k := s.cluster (clusterOf core)
    s.setCluster (clusterOf core) { k with tlb := dropNth k.tlb n }

/-- A stored word goes bad beyond correction (R76, R173, R187, R237, R259, R305, R324): 0 a 32-byte granule of
device DRAM, 1 one of the scratchpad of block `a`; 2 a lane word, 3 a band byte, 4 a uniform register of group
`a`; 5 a band of an accumulator, 6 a granule of a table's entries in block `a`; 7 a record of pool `a`; 8 a granule of a
line of core `a`. -/
def State.decay (s : State) (what a b : Nat) : State :=
  let block := fun (f : Block → Block) => match Store.find s.blocks a with | some k => s.setBlock a (f k) | none => s
  let arch := fun (f : Arch → Arch) => s.modGroup a fun g => { g with arch := f g.arch }
  match what with
  | 0 => if 32 * (a + 2 ^ 20 * b) < Config.dramBytes then { s with poison := NSet.insert s.poison (a + 2 ^ 20 * b) } else s
  | 1 => if b < 65536 then block fun k => { k with scrPoison := NSet.insert k.scrPoison b } else s
  | 2 => if b < 4096 then arch fun x => { x with vpoison := NSet.insert x.vpoison b } else s
  | 3 => if b < 512 then arch fun x => { x with bpoison := NSet.insert x.bpoison b } else s
  | 4 => if b < 63 then arch fun x => { x with spoison := NSet.insert x.spoison b } else s
  | 5 => block fun k => { k with acs := k.acs.map fun x =>
      (x.1, if x.1 == b / 8 then { x.2 with poison := NSet.insert x.2.poison (b % 8) } else x.2) }
  | 6 => block fun k => { k with tbe := k.tbe.map fun x =>
      (x.1, if x.1 == b / 2 ^ 33 then { x.2 with poison := NSet.insert x.2.poison (b % 2 ^ 33) } else x.2) }
  | 7 =>
    let p := s.pool a
    match p.recs[b]? with
    | some r => s.setPool a { p with recs := p.recs.set b { r with ue := true } }
    | none => s
  | _ =>
    let c := s.core a
    match c.lines[b / 4]? with
    | some l => s.setCore a { c with lines := c.lines.set (b / 4) { l with bad := NSet.insert l.bad (b % 4) } }
    | none => s

/-- The owner of another memory writes it: 1 the host's, 2 a peer's (R181). Whether the granule's poison goes with that is
its owner's affair, and free (DESIGN CHOICE, log 38). -/
def State.outside (s0 : State) (m a : Nat) (x : Byte) : State :=
  let s := if Config.anyNat s0.draws % 2 == 1 then { s0 with poison := s0.poison.erase (poisonKey m (a / 32)) } else s0
  match m with
  | 1 => { s with host := s.host.write a x }
  | 2 => { s with peer := s.peer.write a x }
  | _ => s0

/-! Time. -/

/-- What a cluster's clock falls behind in one device cycle, in 1/256 cycles: throttled it runs at a quarter
(R353); deterministic with a collective under way, at FREQ / 64 (R354). -/
def State.slow (s : State) (k : Nat) (c : Cluster) : Nat :=
  let f := if c.det && s.collective k then min c.freq 64 else 64
  if c.throt then 256 - f else 256 - 4 * f

/-- `dt` device cycles pass. -/
def State.pass (s : State) (dt : Nat) : State :=
  { s with now := s.now + dt, clusters := s.clusters.map fun (x : Nat × Cluster) =>
      (x.1, { x.2 with lag := x.2.lag + dt * s.slow x.1 x.2 }) }

/-! The choice of the next turn. -/

/-- Steps that the outside world takes (R283, R339, R340, R342, R345, R349 to R351). -/
def isInput (i : Instr) : Bool :=
  match i with
  | .qtailWrite _ _ _ | .queueStatusClear _ _ _ | .qpreempt _ _ _ | .registerWrite _ _ _ | .faultAnswer _ _ _
  | .create _ | .resize _ | .destroy _ | .setrate _ | .thawhost _ | .hostMemoryAccess _ _ _ _
  | .hostIsolationViolation _ | .cheukFlit _ _ | .powerUp _ | .attestationReport _ => true
  | _ => false

/-- The turns of a group: its clause, its queue, and its steps without a word. -/
def groupTurns (h : Nat) : List Turn :=
  [.word h, .leave h] ++
  ([.waitSatisfied h, .commitPoint h, .clauseRetire h, .deferredFaultDelivery h, .lostLoadSignal h,
    .poolWithdrawal h, .ctxsvComplete h] : List Instr).map .event

/-- The turns of a request on its way. -/
def reqTurns (s : State) (q : Req) : List Turn :=
  (([.scratchpadArrival q.id, .pageWalkComplete q.id, .globalAccessPerform q.id, .directPathReply q.id,
    .atomoArrival q.id, .aflushArrival q.id, .cprElementArrival q.id, .barrierArrival q.id, .barcfgArrival q.id,
    .relArrival q.id, .acqAnswer q.id, .pushArrival q.id, .popArrival q.id, .plcfgArrival q.id,
    .plstatArrival q.id, .pldrainArrival q.id, .meterRelease q.id] : List Instr) ++
   (match s.handleOf q.grp with | some h => [.longLatencyReturn h q.id] | none => [])).map .event

/-- The turns of a core; `d` is a free number. -/
def coreTurns (d k : Nat) : List Turn :=
  ([.strikeReport k, .activeSetSwap k, .urgentPromotion k, .bankDarken k, .bankRelight k,
    .matrixEngineStep k, .matrixOpComplete k, .lookupEngineStep k, .lookupOpComplete k] : List Instr).map .event ++
  [.evict k (d % 4) (d / 4)]

/-- The turns of a cluster; `d` is a free number. -/
def clusterTurns (s : State) (d k : Nat) : List Turn :=
  (([.atomoEvict k, .trapHandlerEntry k 0, .trapHandlerEntry k 1, .trapHandlerEntry k 2,
    .trapHandlerEntry k 3, .thermalAlarm k (BitVec.ofNat 8 d), .powerBudgetAdjust k true,
    .powerBudgetAdjust k false, .sprintEnd k, .coolDownEnd k] : List Instr) ++
   (s.cluster k).recs.map fun r => Instr.faultRecordForward k r.seq).map .event ++
  [.service k (d % 8) (d / 8 % 17)]

/-- Every turn that can have an effect in this state; a step whose condition is not met changes nothing. -/
def State.turns (s : State) : List Turn :=
  let d := Config.anyNat s.draws
  [.idle] ++
  (match s.inputs with | i :: _ => if isInput i then [.event i] else [] | [] => []) ++
  (s.groups.map fun x => groupTurns x.1).flatten ++
  (s.reqs.map (reqTurns s)).flatten ++
  (s.ops.map fun o => [Turn.event (.copyTransfer o.id), .event (.copyOpComplete o.id)]).flatten ++
  (s.releases.map fun r => Turn.event (.barrierReleaseDelivery r.id)) ++
  (s.queues.map fun q =>
    [Turn.event (.queuePoll q.1), .event (.slotConsume q.1), .event (.launchGrant q.1)]).flatten ++
  (s.parts.map fun p => Turn.event (.resizeComplete p.1)) ++
  ((match s.mailbox.cmd with | some (_, c) => [Turn.event (.resizeComplete c.part)] | none => [])) ++
  (s.scrubbing.map fun u => Turn.event (.memoryScrubComplete u)) ++
  ((List.range Config.clusters).map (clusterTurns s d)).flatten ++
  ((List.range Config.cores).map (coreTurns d)).flatten ++
  ((List.range 16).map fun p => [Turn.event (.cheukPortDown p), .wire p]).flatten ++
  [.decay (d % 9) (d / 9 % 2 ^ 20) (d / (9 * 2 ^ 20)), .outside (1 + d % 2) (d / 2 ^ 9) (BitVec.ofNat 8 (d / 2)),
    .hostRead (d % 65) (d / 65)] ++
  [.event .throttleRelease]

/-- Traps whose queue had no room, and groups asked to park, at the end of a step (R316, R319, R323). -/
def State.settleHolds (s : State) : State :=
  let s1 := { s with clusters := s.clusters.map fun (x : Nat × Cluster) => (x.1, x.2.takeWaiting) }
  (s1.groups.filter fun (x : Nat × Group) => match x.2.hold with | .trapping _ | .parking => true | _ => false).foldl
    (fun s x => s.settleTrap x.1) s1

/-- A launch that is being saved stays stopped: a group that has become free meanwhile, a child of a SPAWN among them, is
asked to park as those were that were free at first, and goes on at CTXLD as they do; operations submitted meanwhile
stop like the others (R328). -/
def State.settleSaves (s : State) : State :=
  s.saves.foldl (fun s sv =>
    let gs := s.launchGroups sv.launch
    let free := (gs.filter fun x => x.2.hold == .free && !x.2.ended && !x.2.halted).map (·.2.uid)
    let s1 := { s with
      saves := s.saves.map fun v => if v.issuer == sv.issuer then { v with mine := v.mine ++ free } else v,
      ops := s.ops.map fun (o : Op) => if !o.stopped && gs.any fun x => x.2.uid == o.grp then o.stop else o }
    free.foldl State.applyGpark s1) s

/-- A group counts as pending from the cycle at which it was last active or not ready (R55). -/
def State.settleReady (s : State) : State :=
  { s with groups := s.groups.map fun (x : Nat × Group) =>
      if x.2.sorrel.isNone && ((s.core x.2.core).active.contains x.1 || !s.canIssue x.2) then
        (x.1, { x.2 with readySince := s.now })
      else x }

/-- A deterministic cluster with a collective under way does not sprint (R354). -/
def State.settleSprints (s : State) : State :=
  (s.clusters.map Prod.fst).foldl (fun s k =>
    if (s.cluster k).det && (s.cluster k).sprint && s.collective k then s.endSprint k else s) s

/-- An operation that has come to the head of its queue works at its engine's level until the next step boundary
(R252). -/
def State.settleHeads (s : State) : State :=
  (s.ops.filter fun op => op.isEngine && op.ramps && !op.headed && !op.finished).foldl (fun s op =>
    let cl := clusterOf op.core
    if (s.headOp op.core op.isLookup).map (·.id) == some op.id then
      s.earn ((4 - s.cycles cl % 4) % 4) (op.core, op.isLookup)
    else s) s

/-- A cluster whose engines a step boundary can concern: an operation in a queue, or a level above 0. -/
def State.ramping (s : State) (cluster : Nat) : Bool :=
  (s.ops.any fun op => op.isEngine && clusterOf op.core == cluster) ||
  (s.cores.any fun x => clusterOf x.1 == cluster && (x.2.matrixLevel != 0 || x.2.lookupLevel != 0))

/-- `n` step boundaries of a cluster, one after another. -/
def State.boundaries (s : State) (cluster : Nat) : Nat → State
  | 0 => s
  | n + 1 => (s.boundaries cluster n).boundary cluster

/-- `dt` device cycles pass, and with them every step boundary of the cycles left behind (R252). -/
def State.passSteps (s : State) (dt : Nat) : State :=
  let s1 := s.pass dt
  ((List.range Config.clusters).filter s1.ramping).foldl (fun t k =>
    t.boundaries k ((s1.cycles k + 3) / 4 - (s.cycles k + 3) / 4)) s1

/-- The end of a step: parks that are over end, cycles pass, and the next turn is chosen. -/
def State.tick (s : State) : State :=
  let s1 := s.settleParks.settleTrets.settleSaves.settleHolds.settleSprints.settleHeads
  let s2 := (s1.passSteps (Config.elapsed s1.draws)).settleReady
  let ts := s2.turns
  { s2 with draws := s2.draws + 1, turn := ts.getD (Config.pick s2.draws % ts.length) .idle }

/-- An input taken from the outside world leaves the list. -/
def State.takeInput (s : State) (i : Instr) : State :=
  match s.inputs with
  | j :: r => if isInput i && j == i then { s with inputs := r } else s
  | [] => s

end Sys2Proof.Machine
end

