-- ==== Sys2Proof/Machine/Step.lean ====
section
/-! DEFINITION. One step of the machine: the stored turn, then cycles pass and the next turn is chosen. A
group's turn issues the next word of its clause, decoding the clause where one begins. -/

namespace Sys2Proof.Machine

/-- What a turn does. -/
def State.takeTurn (s : State) : Out :=
  match s.turn with
  | .idle => .next s
  | .word h => s.issueWord exec h
  | .event i => exec i (s.takeInput i)
  | .leave h => .next (s.leave h)
  | .evict core which n => .next (s.evict core which n)
  | .decay what a b => .next (s.decay what a b)
  | .outside m a x => .next (s.outside m a x)
  | .service cl j n => .next (s.service cl j n)
  | .hostRead fn off => .next (s.hostRead fn off)
  | .wire p => .next (s.wire p)

/-- One step. -/
def step (s : State) : Host.Outcome State Fault Refusal :=
  match s.takeTurn with
  | .next t => .next t.tick
  | .fault r => .fault r
  | .refused r => .refused r

/-! A given instruction as the next to be fetched (DESIGN CHOICE, log 28). -/

/-- Where the clause is put: an address in device DRAM and virtual space alike. -/
abbrev fetchAt : Nat := 0x1000

/-- The clause of one instruction: its header, its word and its literal words. -/
def clauseOf (nbits w : Nat) : List Nat :=
  let x := w % 2 ^ nbits
  let w0 := x % 2 ^ 32
  let given := nbits / 32 - 1
  let n := 1 + (if extensible (opOf w0) then min given 1 else litCount w0)
  let lits := (List.range (n - 1)).map fun i => x / 2 ^ (32 * (i + 1)) % 2 ^ 32
  let cls := if isTransfer w0 then 0 else classOf (opOf w0)
  let litBits := (List.range (n - 1)).foldl (fun b i => b + 2 ^ (13 + i)) 0
  (0b10110 * 2 ^ 27 + litBits + cls * 16 + n) :: w0 :: lits

/-- The group, or for a privileged word the handler context, that fetches at `fetchAt`. -/
def fetchGroup (s : State) (priv : Bool) : Group :=
  { uid := s.nextId, core := if priv then 256 else 0, ctx := 0, sorrel := if priv then some 0 else none, role := 0,
    index := 0, team := 0, part := 0, asid := 0, launch := 0, block := 0, vregs := if priv then 8 else 128,
    age := s.now, spkey := 0, strikes := 0, slewcy := 0,
    arch := if priv then Arch.handler fetchAt [] else Arch.placed 1 (BitVec.ofNat 52 fetchAt) [] [],
    cur := none, after := none, unret := [], outq := [], rets := [], hold := .free, gpark := false, frozen := false,
    halted := false, copyFrozen := false, parked := none, parkVa := 0, parkLane := 0, deferred := [],
    ended := false, win := [], waits := false, readySince := s.now, serves := none, spills := [] }

/-- `s` with the instruction placed where the next step fetches: a clause of its own in memory, a group (a
handler context for a privileged word) at its header, the translation and owner the fetch needs, and the
group's turn. -/
def State.withFetchWord (s : State) (nbits w : Nat) : State :=
  let ws := clauseOf nbits w
  let priv := privileged (w % 2 ^ 32)
  let h := if priv then sorrelKey 0 0 else handle 0 0
  let page : Xlat :=
    { asid := 0, base := 0, size := 16, pa := 0, part := 0, tgt := 0, bind := 0, w := true, x := true }
  let s1 := { s with
    mem := s.mem.writeN fetchAt ((ws.map (leBytes 4)).flatten),
    poison := s.poison.filter fun k => k / 2 != fetchAt / 64,
    units := Store.put s.units 0 1,
    nextId := s.nextId + 1,
    turn := .word h }
  let s2 := s1.putGroup h (fetchGroup s priv)
  let s3 := if priv then s2 else s2.setBlock 0 (newBlock [] 0 0 0 0)
  let c := s3.core 0
  s3.setCore 0 { c with tlb := page :: c.tlb, fetch := [], active := if priv then c.active else [h] }

end Sys2Proof.Machine
end

