-- ==== Sys2Proof/Certificates/Slice0/Obligations.lean ====
section
/-! DEFINITION. The statements for the provers. -/

namespace Sys2Proof.Machine

/-! What the statements speak of. -/

/-- Group `g` issues a word of clause `c` (every word form begins there). -/
def State.Issues (s : State) (g : Group) (c : Cur) : Prop := s.group s.who = some g ∧ g.cur = some c

/-- `s` with the registers and control state of the issuing group replaced. -/
def State.withArch (s : State) (g : Group) (a : Arch) : State := s.putGroup s.who { g with arch := a }

/-- Source A and source B of a uniform form, as the exact integers of its type (R112). -/
def uniA (a : Arch) (o : SS) : Int := intOf (ssSgn o) (a.readU o.a.toNat (ssWide o)) (ssBits o)
def uniB (a : Arch) (o : SS) : Int := intOf (ssSgn o) (a.ssB o (ssWide o)) (ssBits o)

/-- No executing lane reads a poisoned word in a VV or VP form (R76). -/
def laneClean (a : Arch) (gang : List Nat) (p : Pred) (ext : Option Ext) (regs : List Nat) (b : BitVec 7) : Prop :=
  (∀ l ∈ a.lanes gang p, ∀ r ∈ regs, a.badV r l = false) ∧
  (if isBU ext then a.badS b.toNat = false else ∀ l ∈ a.lanes gang p, a.badV b.toNat l = false)

/-- Element `i` of a lane word as an exact integer of a lane type (R84, R117). -/
def elemInt (ty : Nat) (x : Word) (i : Nat) : Int := intOf (tySigned ty) (elemBits x.toNat (tyWidth ty) i) (tyWidth ty)

/-- A lane word whose elements are given as exact integers, wrapped (R117). -/
def wordOfElems (ty : Nat) (f : Nat → Int) : Word :=
  BitVec.ofNat 32 (packBits (tyWidth ty) ((List.range (32 / tyWidth ty)).map fun i => wrap (f i) (tyWidth ty)))

/-- The lane words and flags of a float form: `f` gives the code and flags of element i in lane l (R137, R141). -/
def fltLanes (a : Arch) (gang : List Nat) (p : Pred) (ty : Nat) (f : Nat → Nat → Nat × Nat) : List (Nat × Word × Nat) :=
  (a.lanes gang p).map fun l => (l, fltElems ty (f l))

/-- The registers after such a form: the lane words, the band rule and the sticky flags. -/
def Arch.fltResult (a : Arch) (d : BitVec 7) (rs : List (Nat × Word × Nat)) : Arch :=
  (a.writeV d.toNat (rs.map fun x => (x.1, x.2.1))).report (orFlags (rs.map fun x => ((), x.2.2)))

/-- Element i of a lane word as a value of a float lane type. -/
def fltElem (ty : Nat) (x : Word) (i : Nat) : Val := (laneFmt ty).decode (elemBits x.toNat (tyWidth ty) i)

/-- The state in which a long-latency instruction has issued: `vals` are its lanes' words and flags, returned
later by the request it sends (none where no lane takes part); its registers are written at a commit point. -/
def State.withLong (s : State) (g : Group) (c : Cur) (dest : Dest) (reg : Nat) (vals : List (Nat × Word × Nat)) : State :=
  let p : Pend := ⟨s.nextId, dest, reg, false, vals.map fun x => (x.1, 0)⟩
  let r : Req := { mkReq g c s.nextId .local with
    pid := some s.nextId,
    reply := some (vals.map fun x => ⟨s.nextId, x.1, 0, some x.2.1, BitVec.ofNat 32 x.2.2, false⟩) }
  ({ s with nextId := s.nextId + 1, reqs := if vals.isEmpty then s.reqs else s.reqs ++ [r] } : State).withArch g
    { g.arch with pend := g.arch.pend ++ [p] }

/-- The live slices of the sub-gang changed by `q`, every other slice as before. -/
def Arch.moved (a : Arch) (gang : List Nat) (q : Nat → Slice → Slice) : Arch :=
  { a with slices := a.slices.mapIdx fun j sl => if gang.contains j && sl.live then q j sl else sl }

/-- No REGANG meeting takes place: a live slice has not arrived, or none is live (R97). -/
def Arch.noMeeting (a : Arch) : Prop := (∃ sl ∈ a.slices, sl.live = true ∧ sl.arr = none) ∨ ∀ sl ∈ a.slices, sl.live = false

/-- Slice `sl` with number `j` belongs to the sub-gang and is live. -/
def Arch.hasSlice (a : Arch) (gang : List Nat) (j : Nat) (sl : Slice) : Prop :=
  a.slices[j]? = some sl ∧ gang.contains j = true ∧ sl.live = true

/-- Group `g` reaches address `va` at place `p` through its core's TLB with what `need` asks of the page (R182,
R183, R347); a handler context uses physical addresses (R315). -/
def State.Maps (s : State) (g : Group) (need : Need) (va : Nat) (p : Place) : Prop :=
  va < 2 ^ 52 ∧
  ((g.sorrel ≠ none ∧ p = ⟨0, va, 0⟩ ∧
      (va < Config.dramBytes ∨ (capBase ≤ va ∧ va < capBase + capSize ∧ need.writes = false))) ∨
    (g.sorrel = none ∧ ∃ x, findXlat (s.core g.core).tlb g.asid va = some x ∧ x.part = g.part ∧ p = x.place va ∧
      (need.writes = true → x.w = true) ∧ (need = .konst → x.w = false) ∧
      (need = .direct ∨ need = .directWrite ∨ need = .ordered → x.tgt = 0) ∧ s.unitOk g.part p = true))

/-- `rs` are the requests of the accesses `ps`, one each in order, on their way from group `g`. -/
def Sent (g : Group) (ps : List Piece) (place : Nat → Option Place) (pid : Option Nat) (act : Piece → Act)
    (rs : List Req) : Prop :=
  rs.length = ps.length ∧ ∀ (i : Nat) (p : Piece), ps[i]? = some p → ∃ q : Req, rs[i]? = some q ∧ q.grp = g.uid ∧ q.act = act p ∧
    q.lane = p.lane ∧ q.va = p.va ∧ q.place = place p.va ∧ q.pid = pid ∧ q.reply = none

/-- Instruction `i` sends one load for each access and leaves one uncommitted result; nothing else changes. -/
def State.LoadLeaves (s : State) (g : Group) (i : Instr) (dest : Dest) (reg : Nat) (ps : List Piece)
    (place : Nat → Option Place) (act : Piece → Act) : Prop :=
  ∃ pd rs, exec i s = .next { (s.putGroup s.who { g with arch := { g.arch with pend := g.arch.pend ++ [pd] } }) with
      reqs := s.reqs ++ rs, nextId := s.nextId + 1 + ps.length } ∧
    pd.id = s.nextId ∧ pd.dest = dest ∧ pd.reg = reg ∧ Sent g ps place (some s.nextId) act rs

/-- Instruction `i` holds one request for each access until its clause retires; nothing else changes. -/
def State.StoreHeld (s : State) (g : Group) (c : Cur) (i : Instr) (ps : List Piece) (place : Nat → Option Place)
    (act : Piece → Act) : Prop :=
  ∃ rs, exec i s = .next { (s.putGroup s.who { g with cur := some { c with held := c.held ++ rs } }) with
      nextId := s.nextId + ps.length } ∧ Sent g ps place none act rs

/-- Nothing is in the way of request `r`, `q`: it may be performed, no acquire marker of its group waits, and its
group has not ended. -/
def State.Performs (s : State) (r : Nat) (q : Req) : Prop :=
  s.req r = some q ∧ q.id = r ∧ s.canPerform q = true ∧
  (∀ x ∈ s.reqs, x.grp = q.grp → ∀ sc ord, x.act ≠ .fence sc ord) ∧
  (∀ h g, s.handleOf q.grp = some h → s.group h = some g → g.ended = false)

/-- The home of `p` serves request `q`: a peer admits it, and the unit belongs to the partition that the request is
from, or a handler context sent it (R315, R347, R349). -/
def State.Serves (s : State) (q : Req) (p : Place) : Prop :=
  (p.tgt = 2 → Config.peerAdmits p.pa = true) ∧ (q.part = 64 ∨ p.tgt ≠ 0 ∨ Store.get s.units (p.pa / 2 ^ 30) 0 = q.part + 1)

/-- `t` holds what `s` holds in the three memories but for the bytes `bs` from address `a` of memory `m`. -/
def State.WroteBytes (s t : State) (m a : Nat) (bs : List Byte) : Prop :=
  ∀ m' < 3, ∀ x, (t.memOf m').read x =
    if m' = m ∧ a ≤ x ∧ x < a + bs.length then bs.getD (x - a) 0 else (s.memOf m').read x

/-- Instruction `i`, issued in `s`, submits an operation from state `s1`, group `g1` and clause `c1`: it enters the
open batch of timeline `tl` with its byte count and is held, behind the requests `pre`, until its clause retires. -/
def State.Submits (s s1 : State) (g1 : Group) (c1 : Cur) (i : Instr) (pre : List Act) (tl : Nat) (kind : OpKind)
    (bytes : Nat) : Prop :=
  ∃ (op : Op) (rs : List Req), exec i s = .next { (s1.putGroup s.who { g1 with
        arch := g1.arch.modTl tl fun t => { t with entries := t.entries ++ [⟨some op.id, false, bytes, 0⟩] },
        cur := some { c1 with held := c1.held ++ rs } }) with nextId := s1.nextId + pre.length + 1 } ∧
    rs.map (·.act) = pre ++ [.submit op] ∧ (∀ r ∈ rs, r.grp = g1.uid) ∧ op.id = s1.nextId + pre.length ∧
    op.kind = kind ∧ op.grp = g1.uid ∧ op.core = g1.core ∧ op.tl = tl ∧ op.started = false ∧ op.bytes = bytes

/-- The core of group `g` translates `va` through its TLB to a page of its partition in a unit it owns, not on a
peer (R182, R347). -/
def State.Hits (s : State) (g : Group) (va : Nat) (x : Xlat) : Prop :=
  va < 2 ^ 52 ∧ findXlat (s.core g.core).tlb g.asid va = some x ∧ x.part = g.part ∧ x.tgt < 2 ∧
  s.unitOk g.part (x.place va) = true

/-- Operation `op` with number `k` belongs to group `g` under handle `h`, which has not ended. -/
def State.Runs (s : State) (k : Nat) (op : Op) (h : Nat) (g : Group) : Prop :=
  s.op k = some op ∧ op.id = k ∧ s.handleOf op.grp = some h ∧ s.group h = some g ∧ g.uid = op.grp ∧ g.ended = false

/-- The word of LMMA for an accumulator word `x`, the looked up values `vs` and the weight `w` (R270). -/
def lmmaWord (int : Bool) (x : Word) (vs : List Val) (w : Nat) : Word :=
  let sum := (exactSum (vs.map fun v => (v, 0))).1
  if int then
    match sum with
    | .fin sg m den => x + BitVec.ofNat 32 (wrap (sext w 16 * sgn sg (m / den)) 32)
    | _ => x
  else
    let rounded := (Fmt.fp32.round sum (laneMode 0)).1
    (accAdd false x (BitVec.ofNat 32
      (laneRound .fp32 0 ((Fmt.fp16.decode w).mul (Fmt.fp32.decode rounded))).1)).1

/-- Memory, host, peers and groups of `u` are those of `s`. -/
def State.SameOutside (s u : State) : Prop := u.mem = s.mem ∧ u.host = s.host ∧ u.peer = s.peer ∧ u.groups = s.groups

/-- The present transfer of copy `op` of group `g` is the byte moves `ms`, one of `total` transfers (R211, R213, R217). -/
def State.Moving (s : State) (g : Group) (op : Op) (ms : List Move) (total : Nat) : Prop :=
  (∃ lanes dir w, op.kind = .cpl lanes dir w ∧ ms = cplMoves g op lanes dir w ∧ total = cplTransfers lanes w) ∨
  ∃ r d coords bad st mask l, op.kind = .cpt r d coords bad st mask ∧ op.started = true ∧
    Layout.parse (op.scratch.map (BitVec.ofNat 8)) d = some l ∧ total = l.rows ∧
    let cs := coords.map fun w => sext w.toNat 32
    ms = if st then storeMoves op l d cs else loadMoves s g op l d cs mask

/-- Byte `i` is dealt with where the free order has picked `i0`: that byte where it is to be read, and else the first of
the bytes for its destination that is not written yet (R211). -/
def Op.DealsWith (op : Op) (ms : List Move) (i0 i : Nat) : Prop :=
  let meets := fun j => ((op.byte j).isTodo || (op.byte j).isRead) = true ∧
    ∃ x y, ms[j]? = some x ∧ ms[i0]? = some y ∧ x.dst.meets y.dst = true
  (op.byte i0 = .todo ∧ i = i0) ∨ (op.byte i0 ≠ .todo ∧ i ≤ i0 ∧ meets i ∧ ∀ j < i, ¬meets j)

/-- Steps of the copies (R203, R209, R211 to R213, R215 to R217, R219, R307). -/
def State.CopyStepsOf (s : State) (k : Nat) (op : Op) (h : Nat) (g : Group) (b : Block) : Prop :=
  (∀ lanes dir w i t src, 0 < w → 128 % w = 0 → i < 128 → lanes[op.step * (128 / w) + i / w]? = some (t, src) →
    (cplMoves g op lanes dir w)[i]? = some
      ⟨if dir = 0 ∨ dir = 3 then .mem (src + i % w) 0 0 else .scr src w (i % w),
        if dir = 1 ∨ dir = 3 then .mem (t + i % w) 0 else .scr [g.block] t w (i % w)⟩) ∧
  (∀ l d cs mask j y, j < l.box.headD 1 → y < l.e → let x := l.coord cs op.step j
    let f := (leBytes l.e l.fill).getD y 0
    (loadMoves s g op l d cs mask)[l.e * j + y]? = some
      ⟨if op.oob = false ∧ l.inside x = true then .mem (l.gaddr x + y) l.bind f else .fill f,
        .scr (s.receivers g mask) (d + l.rb * op.step) l.rb (rowPlace l.u l.rb op.step (l.e * j + y))⟩) ∧
  (∀ l d cs m, m ∈ storeMoves op l d cs ↔ ∃ j y, j < l.box.headD 1 ∧ y < l.e ∧
    l.inside (l.coord cs op.step j) = true ∧
    m = ⟨.scr (d + l.rb * op.step) l.rb (rowPlace l.u l.rb op.step (l.e * j + y)),
      .mem (l.gaddr (l.coord cs op.step j) + y) l.bind⟩) ∧
  (∀ ms total i0 i m, s.Moving g op ms total → op.step < total → s.copyReady op g = true → op.ending = false →
    pickOf s.draws (op.bytesThat ms.length fun y => y.isTodo || y.isRead) = some i0 → op.DealsWith ms i0 i → ms[i]? = some m →
    let n := ms.length
    let reads := fun v => ∃ u, exec (.copyTransfer k) s = .next u ∧ s.SameOutside u ∧ u.blocks = s.blocks ∧
      u.op k = some { op.setByte n i (.read (some v)) with started := true }
    (op.byte i = .todo →
      (∀ f, m.src = .fill f → reads (f, false)) ∧
      (∀ base len o, m.src = .scr base len o → b.hit g.uid base len = .ok →
        (granules (base + o) 1).any b.scrPoison.contains = false → reads (b.scr.read (base + o), false)) ∧
      (∀ va bind f x, m.src = .mem va bind f → s.Hits g va x →
        (bind ≠ 0 → x.bind ≠ bind → ∃ u, exec (.copyTransfer k) s = .next u ∧ s.SameOutside u ∧ u.blocks = s.blocks ∧
          u.op k = some { (op.fail 5).setByte n i (.read (some (f, false))) with started := true }) ∧
        (bind = 0 ∨ x.bind = bind → s.badMem x.tgt (x.place va).pa 1 = false →
          reads ((s.memOf x.tgt).read (x.place va).pa, false)))) ∧
    (∀ v, op.byte i = .read (some (v, false)) →
      let wrote := fun ks =>
        let o := { op.setByte n i (.wrote ks) with pos := op.pos + 1 }
        if op.pos + 1 < n then o
        else { o with buf := [], pos := 0, started := true, step := op.step + 1, finished := decide (total ≤ op.step + 1) }
      (∀ ks base len o, m.dst = .scr ks base len o → ks.Nodup →
        (∀ x ∈ ks, ∃ y, Store.find s.blocks x = some y ∧ y.hit g.uid base len = .ok) →
        ∃ u, exec (.copyTransfer k) s = .next u ∧ s.SameOutside u ∧ u.op k = some (wrote ks) ∧
          (∀ x ∈ ks, ∃ y y', Store.find s.blocks x = some y ∧ Store.find u.blocks x = some y' ∧
            ∀ a, y'.scr.read a = if a = base + o then v else y.scr.read a) ∧
          ∀ x, x ∉ ks → (Store.find u.blocks x).map Block.scr = (Store.find s.blocks x).map Block.scr) ∧
      (∀ va bind x, m.dst = .mem va bind → s.Hits g va x → x.w = true → (bind = 0 ∨ x.bind = bind) →
        ∃ u, exec (.copyTransfer k) s = .next u ∧ s.WroteBytes u x.tgt (x.place va).pa [v] ∧ u.groups = s.groups ∧
          u.blocks = s.blocks ∧ u.op k = some (wrote [0])))) ∧
  (∀ r d coords bad st mask, op.kind = .cpt r d coords bad st mask → op.started = false → s.copyReady op g = true →
    op.ending = false → b.hit g.uid r 64 = .ok →
    let offs := (List.range 64).map (r + ·)
    let raw := op.buf.map fun x => x.got.1
    let does := fun (o : Op → Prop) => ∃ u o', exec (.copyTransfer k) s = .next u ∧ s.SameOutside u ∧ u.blocks = s.blocks ∧
      u.op k = some o' ∧ o o'
    (∀ o, op.gather s.draws b offs = some o → does (· = o)) ∧
    (op.gather s.draws b offs = none → (∀ x ∈ op.buf, x.got.2 = false) → (∀ x ∈ bad, x = false) →
      (Layout.parse raw d = none → does fun o => o.finished = true ∧ o.fault = true ∧ (op.fault = false → o.detail = 4)) ∧
      (∀ l, Layout.parse raw d = some l →
        let out := l.outside (coords.map fun w => sext w.toNat 32)
        does fun o => o.started = true ∧ o.bytes = l.size ∧ o.scratch = raw.map BitVec.toNat ∧ o.fault = op.fault ∧
          o.oob = (out || op.oob) ∧ o.finished = (out && st)))) ∧
  (∀ src dst n o ty (x : Nat → Xlat), op.kind = .cpr src dst n o ty → s.copyReady op g = true → op.ending = false →
    op.lost = false → op.step < n → let cnt := min 32 (n - op.step)
    op.step + cnt ≤ 256 + (s.inFlight k).foldl min op.step →
    (∀ i, op.step ≤ i → i < op.step + cnt → b.hit g.uid (src + 4 * i) 4 = .ok ∧
      (granules (src + 4 * i) 4).any b.scrPoison.contains = false ∧ s.Hits g (dst + 4 * i) (x i) ∧ (x i).tgt = 0 ∧ (x i).w = true) →
    ∃ u rs, exec (.copyTransfer k) s = .next u ∧ s.SameOutside u ∧ u.blocks = s.blocks ∧ u.reqs = s.reqs ++ rs ∧
      rs.length = cnt ∧ u.op k = some { op with started := true, step := op.step + cnt, finished := false } ∧
      ∀ i < cnt, ∃ q, rs[i]? = some q ∧ q.act = .cprElem o ty (leNat (b.scr.readN (src + 4 * (op.step + i)) 4)) (op.step + i) ∧
        q.place = some ((x (op.step + i)).place (dst + 4 * (op.step + i))) ∧ q.pid = some k ∧ q.grp = g.uid ∧ q.part = g.part) ∧
  ((∃ lanes dir w, op.kind = .cpl lanes dir w) ∨ (∃ r d cs bad st mask, op.kind = .cpt r d cs bad st mask) ∨
      (∃ src dst n o ty, op.kind = .cpr src dst n o ty) ∨ (∃ a q, op.kind = .lnch a q) → op.finished = true →
    ∃ u g', exec (.copyOpComplete k) s = .next u ∧ u.op k = none ∧ u.group h = some g' ∧
      g'.arch = g.arch.settleTl op.tl (·.opDone op) ∧ u.mem = s.mem)

/-- Steps of the builds and of the copies of tables (R264, R265, R275, R277, R307). -/
def State.TableStepsOf (s : State) (k : Nat) (op : Op) (g : Group) (b : Block) : Prop :=
  op.ending = false → s.engineReady op.core true = some op → ∀ tb t, Store.find b.tbs tb = some t →
  let sl := b.slots.getD t.slot 0
  let eb := entBytes sl
  let gb := groupBytes t.cb t.y eb
  let same := fun (o : Op → Prop) => ∃ u o', exec (.lookupEngineStep op.core) s = .next u ∧ s.SameOutside u ∧
    u.blocks = s.blocks ∧ u.op k = some o' ∧ o o'
  let does := fun (o : Op → Prop) (d : TblData → Prop) => ∃ u o' b', exec (.lookupEngineStep op.core) s = .next u ∧
    s.SameOutside u ∧ u.op k = some o' ∧ o o' ∧ Store.find u.blocks g.block = some b' ∧ b'.scr = b.scr ∧ d (b'.tblData t.st)
  (∀ map cent f, op.kind = .tbuild tb map cent → Fmt.ofCode (slotFmt sl) = some f →
    let offs := buildReads t f op map cent
    (∀ o, op.reading s.draws b offs = some o → same (· = o)) ∧
    (op.reading s.draws b offs = none → let b1 := b.seen offs op.buf
      let book := if op.step ≠ 0 then op.scratch else if t.cb then readCodebook b1 g.uid f cent t.n else []
      let mine := fun gr i c => 16 * op.step ≤ gr ∧ gr < 16 * op.step + 16 ∧ gr < t.g ∧ i < t.y ∧ c < t.e
      (∀ o ∈ offs, b.hit g.uid o 1 = .ok) → (∀ x ∈ book, x < 2 ^ 41) → b.spillGone t = false → op.lost = false →
      does (fun o => o.step = op.step + 1 ∧ o.finished = decide ((t.g + 15) / 16 ≤ op.step + 1) ∧ o.lost = false) fun d =>
        (∀ gr i c, mine gr i c →
          let x := (List.range 4).map fun q => f.decode ((elemAt map f.width 0 0 i (4 * gr + q)).code b1 f.width)
          let cs := (List.range 4).map fun q => (codeVal f (book.getD (4 * c + q) 0)).v
          Store.get d.el (t.at gr i c) 0 = if t.cb = true ∧ t.n ≤ c then 0
            else BitVec.ofNat 32 ((entFmt sl).round (entryVal t sl x (if t.cb then cs else []) c).1 (slotMode sl 0)).1) ∧
        ∀ n, (∀ gr i c, mine gr i c → n ≠ t.at gr i c) →
          Store.get d.el n 0 = Store.get (b.tblData t.st).el n 0)) ∧
  (∀ off i, op.kind = .tbspill tb off → op.step ≤ t.g → let d := b.tblData t.st
    let at_ := if op.step = 0 then off else off + 64 + (op.step - 1) * gb
    let bs := if op.step = 0 then imageHeader t else groupImage t eb d (op.step - 1)
    (op.step = 0 → b.hitRange g.uid off (64 + t.g * gb) ≠ .range) → (op.step ≠ 0 → d.gone = false ∧ t.dark d = false) →
    d.poison = [] → pickOf s.draws (op.bytesThat bs.length ByteAt.isTodo) = some i → i < bs.length →
    b.hit g.uid (at_ + i) 1 = .ok →
    ∃ u b', exec (.lookupEngineStep op.core) s = .next u ∧ s.SameOutside u ∧ Store.find u.blocks g.block = some b' ∧
      (∀ a, b'.scr.read a = if a = at_ + i then bs.getD i 0 else b.scr.read a) ∧
      let o := { op.setByte bs.length i (.wrote []) with started := true, pos := op.pos + 1 };
      u.op k = some (if op.pos + 1 < bs.length then o
        else { o with buf := [], pos := 0, step := op.step + 1, finished := decide (t.g + 1 ≤ op.step + 1) })) ∧
  (∀ off own, op.kind = .tbfill tb off own → op.step ≤ t.g →
    let at_ := if op.step = 0 then off else off + 64 + (op.step - 1) * gb
    let n := if op.step = 0 then 64 else gb
    let offs := (List.range n).map (at_ + ·)
    b.hitRange g.uid at_ (if op.step = 0 then 64 + t.g * gb else gb) = .ok →
    (∀ o, op.reading s.draws b offs = some o → same (· = o)) ∧
    (op.reading s.draws b offs = none → let b1 := b.seen offs op.buf
      let ws := op.scratch ++ (List.range (t.y * t.e)).map fun i =>
        leNat (b1.scr.readN (at_ + i * eb) eb) + bit (b1.scrPoison.contains ((at_ + i * eb) / 32)) 40
      (op.step = 0 → imageOk b1 t (b1.scr.readN off 64) = false →
        same fun o => o.finished = true ∧ o.fault = true ∧ (op.fault = false → o.detail = 4)) ∧
      (op.step = 0 → imageOk b1 t (b1.scr.readN off 64) = true →
        same fun o => o.step = 1 ∧ o.finished = decide (t.g + 1 ≤ 1)) ∧
      (op.step ≠ 0 → op.step < t.g → same fun o => o.step = op.step + 1 ∧ o.scratch = ws ∧ o.finished = false) ∧
      (op.step ≠ 0 → op.step = t.g → b.spillGone t = false →
        does (fun o => o.finished = true ∧ o.lost = op.lost) fun d => d.gone = false ∧ d.dark = [] ∧
          ∀ i < ws.length, Store.get d.el i 0 = BitVec.ofNat 32 (ws.getD i 0))))

/-- Steps of the accumulator operations, of MMA, MMAS and the quadrants of MMA.T (R240, R243 to R250, R307). -/
def State.MatrixStepsOf (s : State) (k : Nat) (op : Op) (h : Nat) (g : Group) (b : Block) : Prop :=
  op.ending = false →
  (∀ what st st2 map slot raw a, op.kind = .acc what st st2 map slot raw → s.teamPending op.core = [] →
    s.engineReady op.core false = some op → Store.find b.acs st = some a →
    let sl := b.slots.getD slot 0
    let does := fun (o : Op → Prop) (acc : Acc → Prop) => ∃ u o' b' a', exec (.matrixEngineStep op.core) s = .next u ∧
      s.SameOutside u ∧ u.op k = some o' ∧ o o' ∧ Store.find u.blocks g.block = some b' ∧ b'.scr = b.scr ∧
      Store.find b'.acs st = some a' ∧ acc a'
    (what = 0 → does (· = { op with finished := true }) (· = { a with el := [], rs := none, poison := [] })) ∧
    (what = 1 → ∀ a2, Store.find b.acs st2 = some a2 → a2.n = a.n →
      does (fun o => o.finished = true) fun a' => (∀ i j, i < a.m → j < a.n →
        a'.get i j = (accAdd a.int (a.get i j) (a2.get i j)).1) ∧ ∀ x, x ∈ a'.poison ↔ x ∈ a.poison ∨ x ∈ a2.poison) ∧
    (what = 2 → let w := ioWidth sl raw
      let els := fun c => elemAt map w 0 0 op.step c
      let offs := ((List.range a.n).map fun c => (els c).reads).flatten
      let passed := fun (o : Op) => o.step = op.step + 1 ∧ o.finished = decide (a.m ≤ op.step + 1)
      (b.hits g.uid offs = .lost → does (fun o => passed o ∧ o.lost = true) fun a' => a'.el = a.el) ∧
      (b.hits g.uid offs = .ok →
        (∀ o, op.reading (s.draws + 1) b offs = some o → does (· = o) (· = a)) ∧
        (op.reading (s.draws + 1) b offs = none → let b1 := b.seen offs op.buf
          does passed fun a' => ∀ i j, j < a.n → a'.get i j = if i ≠ op.step then a.get i j
            else BitVec.ofNat 32 (let c := (els j).code b1 w;
              if raw then c else match Fmt.ofCode (slotFmt sl) with
                | some f => (Fmt.fp32.round (f.decode c) (laneMode 0)).1
                | none => c)))) ∧
    (what = 3 → let len := storeRowSize a.n sl raw
      let row := fun i => storeRow a i map sl raw
      op.stopped = false → op.buf.length ≤ (a.m - op.step) * len → (∃ n < (a.m - op.step) * len, op.byte n = .todo) →
      a.poison = [] → (∀ i < a.m, b.oneAlloc ((row i).1.map Prod.fst) = true ∧ b.oneAlloc ((row i).2.1.map Prod.fst) = true ∧
        ∀ x ∈ (row i).1 ++ (row i).2.1, b.hit g.uid x.1 1 = .ok) → (∀ i < a.m, ((row i).1 ++ (row i).2.1).length = len) →
      ∃ u b' n o x, exec (.matrixEngineStep op.core) s = .next u ∧ s.SameOutside u ∧ n < (a.m - op.step) * len ∧
        op.byte n = .todo ∧ ((row (op.step + n / len)).1 ++ (row (op.step + n / len)).2.1)[n % len]? = some (o, x) ∧
        Store.find u.blocks g.block = some b' ∧ b'.acs = b.acs ∧
        ∀ y, b'.scr.read y = if y = o then BitVec.ofNat 8 x else b.scr.read y)) ∧
  (∀ (j : Mm) hb a f, op.mm = some j → op.started = true → s.teamPending op.core = [] →
    s.engineReady op.core false = some op → 8 * g.mmCycles s op (some (op.step + 1)) ≤ op.work →
    Store.find s.blocks (g.engineBlock op) = some hb → Store.find hb.acs j.st = some a →
    Fmt.ofCode (slotFmt (b.slots.getD j.slot 0)) = some f →
    let w := b.slots.getD j.slot 0
    let bands := a.m / 16
    let band := op.step % bands
    let ks := op.step / bands
    let A := fun i t => elemRC j.ma f.width (slotScale w) (slotPitch w) (a.m * (j.q / 2) + i) (16 * ks + t)
    let B := fun t c => elemRC j.mb f.width (slotScale w) (slotPitch w) (16 * ks + t) (a.n * (j.q % 2) + c)
    let S := fun i q => elemAt j.ma f.width (slotScale w) (slotPitch w) i q
    let nib := fun (b : Block) (o i t : Nat) => b.byte (o + i * (j.k / 8) + (4 * ks + t) / 2) / 2 ^ (4 * ((4 * ks + t) % 2)) % 16
    let terms := fun (b : Block) i => match j.sparse with
      | none => (List.range 16).map fun t => (t, A i t)
      | some o => ((List.range 4).map fun t => [(4 * t + nib b o i t % 4, S i (2 * (4 * ks + t))),
          (4 * t + nib b o i t / 4, S i (2 * (4 * ks + t) + 1))]).flatten
    let rows := (List.range 16).map (16 * band + ·)
    let meta_ := match j.sparse with
      | none => []
      | some o => (rows.map fun i => (List.range 4).map fun t => o + i * (j.k / 8) + (4 * ks + t) / 2).flatten
    let offs := meta_ ++ (rows.map fun i => ((terms b i).map fun x => x.2.reads).flatten).flatten ++
      ((List.range a.n).map fun c => ((List.range 16).map fun t => (B t c).reads).flatten).flatten
    let does := fun (o : Op → Prop) (acc : Acc → Prop) => ∃ u o' b' a', exec (.matrixEngineStep op.core) s = .next u ∧
      s.SameOutside u ∧ u.op k = some o' ∧ o o' ∧ Store.find u.blocks (g.engineBlock op) = some b' ∧ b'.scr = hb.scr ∧
      Store.find b'.acs j.st = some a' ∧ acc a'
    op.step < j.k / 16 * bands → (∀ o ∈ offs, b.hit g.uid o 1 = .ok) →
    (∀ o, op.reading (s.draws + 1) b offs = some o → does (· = o) (· = a)) ∧
    (op.reading (s.draws + 1) b offs = none → let b1 := b.seen offs op.buf
      let legal := ∀ o, j.sparse = some o → ∀ i ∈ rows, ∀ t < 4, nib b1 o i t % 4 < nib b1 o i t / 4
      (¬legal → does (fun o => o.finished = true ∧ o.fault = true ∧ (op.fault = false → o.detail = 8))
        (· = { a with rs := some op.step })) ∧
      (legal → does (fun o => o.step = op.step + 1) fun a' => ∀ i c, c < a.n → a'.get i c =
        if i ∈ rows then
          (accAdd a.int (a.get i c) (stepWord a.int (kSum ((terms b1 i).map fun x =>
            (x.2.val b1 f, (B x.1 c).val b1 f)))).1).1
        else a.get i c))) ∧
  (∀ c q hh st0 int m n ma mb kk slot z r, op.kind = .mmaT hh st0 int m n ma mb kk slot z r → s.teamPending c = [(op, q)] →
    s.engineReady c false = none → s.op s.nextId = none →
    let named := (Store.find s.blocks (g.launch * 256 + c)).bind fun y =>
      if c = op.core then (Store.find y.acs st0).map fun a => (st0, a) else y.acc hh
    let does := fun (o : Op → Prop) (rest : State → Prop) => ∃ u o', exec (.matrixEngineStep c) s = .next u ∧
      s.SameOutside u ∧ u.blocks = s.blocks ∧ u.op k = some o' ∧ o o' ∧ rest u
    (∀ st a, named = some (st, a) → a.int = int → a.m = m → a.n = n →
      does (· = { op with started := true, scratch := op.scratch ++ [q] }) fun u => s.nextId ∈ (u.core c).matrixQ ∧
        ∃ o, u.op s.nextId = some o ∧ o.kind = .quad k q st ma mb kk slot z r ∧ o.core = c ∧ o.grp = op.grp ∧
          o.started = false) ∧
    ((∀ st a, named = some (st, a) → ¬(a.int = int ∧ a.m = m ∧ a.n = n)) →
      does (fun o => o.step = op.step + 1 ∧ o.fault = true ∧ (op.fault = false → o.detail = 9) ∧
        o.finished = decide (4 ≤ op.step + 1)) fun _ => True)) ∧
  (∀ parent q st ma mb kk slot z r p, op.kind = .quad parent q st ma mb kk slot z r → op.finished = true →
    s.headOp op.core false = some op → s.op parent = some p → p.id = parent → parent ≠ k →
    ∃ u o, exec (.matrixOpComplete op.core) s = .next u ∧ u.op k = none ∧ k ∉ (u.core op.core).matrixQ ∧ s.SameOutside u ∧
      u.op parent = some o ∧ o.step = p.step + 1 ∧ o.finished = decide (4 ≤ p.step + 1) ∧ o.flags = p.flags ||| op.flags ∧
      o.fault = (p.fault || op.fault) ∧ o.cyc = max p.cyc (op.slew (s.performed op))) ∧
  (∀ hh st0 int m n ma mb kk slot z r, op.kind = .mmaT hh st0 int m n ma mb kk slot z r → op.finished = true →
    s.matrixDone op.core = some op →
    ∃ u g', exec (.matrixOpComplete op.core) s = .next u ∧ u.op k = none ∧ u.group h = some g' ∧ u.mem = s.mem ∧
      g'.arch = g.arch.settleTl op.tl (·.opDone op) ∧ g'.slewcy = g.slewcy + BitVec.ofNat 32 op.cyc)

/-- Instruction `i` leaves group `g1` with the requests of acts `acts` of group `g`, held until the clause retires,
`pid` the instruction its last request answers; nothing else changes. -/
def State.Holds (s : State) (g : Group) (c : Cur) (i : Instr) (acts : List Act) (pid : Option Nat) (g1 : Group) : Prop :=
  ∃ rs : List Req, exec i s = .next { (s.putGroup s.who { g1 with cur := some { c with held := c.held ++ rs } }) with
      nextId := s.nextId + acts.length } ∧
    rs.map (·.act) = acts ∧ (∀ r ∈ rs, r.grp = g.uid ∧ r.core = g.core) ∧ (rs.getLast?.bind (·.pid)) = pid

/-- Pool request `q`, numbered `r`, is the next of its group at pool `n`, and the group is resident and not halted. -/
def State.Arrives (s : State) (r : Nat) (q : Req) (n : Nat) : Prop :=
  s.req r = some q ∧ q.id = r ∧ q.act.pool = some n ∧ s.poolTurn q = true ∧
  ∃ h g, s.handleOf q.grp = some h ∧ s.group h = some g ∧ g.ended = false ∧ g.halted = false

end Sys2Proof.Machine

open Sys2Proof Sys2Proof.Machine

/-- Decoding the words of a well-formed instruction gives it back (R61, R62, R64, R65, R70). -/
def Obligations.DecodeOfEncode : Prop :=
  ∀ i : Instr, i.WellFormed → ∃ w l, encode i = w :: l ∧ decode w l = .ok i

/-- Words of the worked encodings decode to their instructions (R111, R112, R113, R114, R115). -/
def Obligations.DecodeWorkedWords : Prop :=
  decode 0x741C4110 [] = .ok (.sadd ⟨3, true, 4, 4, 16⟩) ∧
  decode 0x72085678 [] = .ok (.sli 1 0x5678) ∧
  decode 0x720C1234 [] = .ok (.sliHi 1 0x1234) ∧
  decode 0x8E443042 [] = .ok (.scmp ⟨1, false, 3, 1, 2⟩ 2) ∧
  decode 0x7C208042 [9] = .ok (.smad ⟨0, false, 8, 1, 2⟩ (some 9)) ∧
  decode 0x9A606102 [] = .ok (.slea ⟨0, false, 6, 4, 2⟩ 3)

/-- What reset leaves (R191, R254, R283, R295, R341, R355; the model's choices and readings: logs 1, 3). -/
def Obligations.ResetState : Prop :=
  (∀ k, (State.reset.core k).lit = List.range 48 ∧ (State.reset.core k).active = [] ∧ (State.reset.core k).tlb = []) ∧
  (∀ k, (State.reset.cluster k).freq = 64 ∧ (State.reset.cluster k).det = true ∧ (State.reset.cluster k).pfloor = 0 ∧
    (State.reset.cluster k).inc = 0 ∧ (State.reset.cluster k).recs = [] ∧ (State.reset.cluster k).throt = false) ∧
  (∀ q, (State.reset.queue q).en = false ∧ (State.reset.queue q).qhead = 0 ∧ (State.reset.queue q).qtail = 0 ∧
    (State.reset.queue q).qdone = 0) ∧
  (∀ p, (State.reset.pool p).state = 0 ∧ (State.reset.pool p).recs = []) ∧
  State.reset.groups = [] ∧ State.reset.blocks = [] ∧ State.reset.launches = [] ∧ State.reset.reqs = [] ∧ State.reset.ops = []

/-- Every step keeps the memories canonical (R1, R161, R173; the model's choices and readings: log 2). -/
def Obligations.MemoriesCanonicalKept : Prop :=
  ∀ s t : State, s.memoriesCanonical = true → step s = .next t → t.memoriesCanonical = true

/-- Every step keeps the blocks canonical (R1, R187, R188, R224, R237; the model's choices and readings: log 2). -/
def Obligations.BlocksCanonicalKept : Prop :=
  ∀ s t : State, s.blocksCanonical = true → step s = .next t → t.blocksCanonical = true

/-- The memories are canonical at reset (R1, R161, R187; the model's choices and readings: log 2). -/
def Obligations.MemoriesCanonicalAtReset : Prop :=
  State.reset.memoriesCanonical = true ∧ State.reset.blocksCanonical = true ∧
  ∀ n w, (State.reset.withFetchWord n w).memoriesCanonical = true ∧
    (State.reset.withFetchWord n w).blocksCanonical = true

/-- s63 and p7 (R75). -/
def Obligations.FixedRegisters : Prop :=
  ∀ (a : Arch),
  a.readS 63 = 0 ∧ (∀ x, a.writeS 63 x = a) ∧ (∀ l, a.readP 7 l = true) ∧ (∀ vs, a.writePs 7 vs = a) ∧
  (∀ n m x, m ≠ n → (a.writeS n x).readS m = a.readS m ∧ (a.writeS n x).badS m = a.badS m) ∧
  (∀ n m vs l, m ≠ n → (a.writePs n vs).readP m l = a.readP m l)

/-- Results of SADD, SSUB, SMUL, SMULH, SMIN and SMAX (R110, R112). -/
def Obligations.UniformArithmetic : Prop :=
  ∀ (s : State) (g : Group) (c : Cur) (o : SS), s.Issues g c → g.arch.badUs (ssSrcs o ss3) = false →
  ∀ e ∈ ([(.sadd o, fun x y => x + y), (.ssub o, fun x y => x - y), (.smul o, fun x y => x * y),
      (.smulh o, fun x y => x * y / ((2 ^ ssBits o : Nat) : Int)), (.smin o, fun x y => min x y),
      (.smax o, fun x y => max x y)] : List (Instr × (Int → Int → Int))),
    exec e.1 s = .next (s.withArch g (g.arch.writeU o.d.toNat (ssWide o)
      (wrap (e.2 (uniA g.arch o) (uniB g.arch o)) (ssBits o))))

/-- Results of SMOV, SAND, SOR, SXOR, SSHL, SSHR and SSRA (R110, R112, R108). -/
def Obligations.UniformLogicAndShifts : Prop :=
  ∀ (s : State) (g : Group) (c : Cur) (o : SS), s.Issues g c →
  (g.arch.badUs (ssSrcs o ssMov) = false →
    exec (.smov o) s = .next (s.withArch g (g.arch.writeU o.d.toNat (ssWide o) (g.arch.ssB o (ssWide o))))) ∧
  (g.arch.badUs (ssSrcs o ss3) = false →
    ∀ e ∈ ([(.sand o, fun x y => x &&& y), (.sor o, fun x y => x ||| y), (.sxor o, fun x y => x ^^^ y)] :
        List (Instr × (Nat → Nat → Nat))),
      exec e.1 s = .next (s.withArch g (g.arch.writeU o.d.toNat (ssWide o)
        (e.2 (g.arch.readU o.a.toNat (ssWide o)) (g.arch.ssB o (ssWide o)))))) ∧
  (g.arch.badUs (ssSrcs o ssShift) = false →
    ∀ e ∈ ([(.sshl o, shl), (.sshr o, shr), (.ssra o, sra)] : List (Instr × (Nat → Nat → Nat → Nat))),
      exec e.1 s = .next (s.withArch g (g.arch.writeU o.d.toNat (ssWide o)
        (e.2 (g.arch.readU o.a.toNat (ssWide o)) (g.arch.ssB o false) (ssBits o)))))

/-- SCMP, SCLZ, SPOPC, SBFE, SBFI, SMAD and SSEL (R107, R109, R112, R113; the model's choices and readings: log 91). -/
def Obligations.UniformCompareFieldsAndThreeSources : Prop :=
  (∀ (s : State) (g : Group) (c : Cur) (o : SS), s.Issues g c →
    (∀ cc : BitVec 3, g.arch.badUs (ssSrcs o ssCmp) = false →
      exec (.scmp o cc) s = .next (s.withArch g (g.arch.writeS o.d.toNat
        (if cond cc.toNat (ssSgn o) (ssBits o) (g.arch.readU o.a.toNat (ssWide o)) (g.arch.ssB o (ssWide o)) then 1 else 0)))) ∧
    (g.arch.badUs (ssSrcs o ssCount) = false →
      exec (.sclz o) s = .next (s.withArch g (g.arch.writeS o.d.toNat
        (BitVec.ofNat 32 (clz (g.arch.ssB o (ssWide o)) (ssBits o))))) ∧
      exec (.spopc o) s = .next (s.withArch g (g.arch.writeS o.d.toNat
        (BitVec.ofNat 32 (popc (g.arch.ssB o (ssWide o)) (ssBits o)))))) ∧
    (o.ty.toNat < 2 → o.ib = false → g.arch.badS o.a.toNat = false → g.arch.badS o.b.toNat = false →
      exec (.sbfe o) s = .next (s.withArch g (g.arch.writeS o.d.toNat
        (BitVec.ofNat 32 (bfe (g.arch.readS o.a.toNat).toNat (g.arch.readS o.b.toNat).toNat (o.ty == 0))))) ∧
      (g.arch.badS o.d.toNat = false →
        exec (.sbfi o) s = .next (s.withArch g (g.arch.writeS o.d.toNat
          (BitVec.ofNat 32 (bfi (g.arch.readS o.a.toNat).toNat (g.arch.readS o.b.toNat).toNat
            (g.arch.readS o.d.toNat).toNat))))))) ∧
  (∀ (s : State) (g : Group) (c : Cur) (o : SS) (xl : Option Word), s.Issues g c →
    (∀ r, thirdU o xl (ssWide o) = some r → g.arch.badUs (ssSrcs o ss3 ++ uRegs r (ssWide o)) = false →
      exec (.smad o xl) s = .next (s.withArch g (g.arch.writeU o.d.toNat (ssWide o)
        ((g.arch.readU o.a.toNat (ssWide o) * g.arch.ssB o (ssWide o) + g.arch.readU r (ssWide o)) % 2 ^ ssBits o)))) ∧
    (∀ r, thirdU o xl false = some r → g.arch.badUs (ssSrcs o ss32 ++ [r]) = false →
      exec (.ssel o xl) s = .next (s.withArch g (g.arch.writeS o.d.toNat
        (if g.arch.readS r ≠ 0 then g.arch.readS o.a.toNat else BitVec.ofNat 32 (g.arch.ssB o false))))) ∧
    (∀ x : Word, 64 ≤ x.toNat ∨ (ssWide o = true ∧ x.toNat % 2 = 1) →
      exec (.smad o (some x)) s = .next (s.raise s.who g
        (if g.arch.badUs (ssSrcs o ss3) then poisoned noLane else illegal))) ∧
    (∀ x : Word, 64 ≤ x.toNat →
      exec (.ssel o (some x)) s = .next (s.raise s.who g
        (if g.arch.badUs (ssSrcs o ss32) then poisoned noLane else illegal))))

/-- SLI, SLI.HI, SLEA and SRDSP (R82, R83, R114, R115). -/
def Obligations.UniformImmediatesAndSpecialValues : Prop :=
  (∀ (s : State) (g : Group) (c : Cur), s.Issues g c →
    (∀ (d : BitVec 6) (imm : BitVec 18),
      exec (.sli d imm) s = .next (s.withArch g (g.arch.writeS d.toNat (imm.signExtend 32)))) ∧
    (∀ (d : BitVec 6) (imm : BitVec 16), g.arch.badS d.toNat = false →
      exec (.sliHi d imm) s = .next (s.withArch g (g.arch.writeS d.toNat
        (imm ++ (g.arch.readS d.toNat).setWidth 16)))) ∧
    (∀ (o : SS) (k : BitVec 3), g.arch.badUs (uRegs o.a.toNat true ++ (if o.ib then [] else [o.b.toNat])) = false →
      exec (.slea o k) s = .next (s.withArch g (g.arch.writeS64 o.d.toNat
        (wrap ((g.arch.readS64 o.a.toNat : Int) +
          (if o.ib then (o.b.toNat : Int)
           else if o.ty = 0 then (g.arch.readS o.b.toNat).toInt else ((g.arch.readS o.b.toNat).toNat : Int)) *
            2 ^ k.toNat) 64))))) ∧
  (∀ (s : State) (g : Group) (c : Cur) (d : BitVec 6), s.Issues g c → g.sorrel = none →
    ∀ e ∈ ([(0x02, BitVec.ofNat 32 g.index), (0x03, BitVec.ofNat 32 g.role), (0x04, BitVec.ofNat 32 g.ctx),
        (0x08, BitVec.ofNat 32 g.team), (0x09, BitVec.ofNat 32 g.asid), (0x0A, g.strikes), (0x0B, g.arch.lossid),
        (0x0C, g.arch.lossaddr), (0x0D, BitVec.ofNat 32 (s.core g.core).lit.length), (0x0E, g.spkey.setWidth 32),
        (0x0F, g.arch.fpflags), (0x10, g.slewcy), (0x11, BitVec.ofNat 32 c.pass), (0x14, g.arch.tbcause),
        (0x15, BitVec.ofNat 32 g.arch.lhret.length)] : List (BitVec 7 × Word)),
      exec (.srdsp d e.1) s = .next (s.withArch g (g.arch.writeS d.toNat e.2)))

/-- What a write of lane words leaves (R63, R73, R76). -/
def Obligations.LaneWrites : Prop :=
  ∀ (a : Arch) (n : Nat) (vs : List (Nat × Word)), 
  (vs.map Prod.fst).Nodup → (∀ x ∈ vs, x.1 < 32) →
  (∀ x ∈ vs, (a.writeV n vs).readV n x.1 = x.2 ∧ (a.writeV n vs).badV n x.1 = false ∧
    (a.writeV n vs).readB n (x.1 / 8) = 0x7F) ∧
  (∀ m l, l < 32 → (m ≠ n ∨ l ∉ vs.map Prod.fst) →
    (a.writeV n vs).readV m l = a.readV m l ∧ (a.writeV n vs).badV m l = a.badV m l) ∧
  (∀ m k, k < 4 → (m ≠ n ∨ ∀ x ∈ vs, x.1 / 8 ≠ k) →
    (a.writeV n vs).readB m k = a.readB m k ∧ (a.writeV n vs).badB m k = a.badB m k) ∧
  (a.writeV n vs).s = a.s ∧ (a.writeV n vs).p = a.p ∧ (a.writeV n vs).slices = a.slices

/-- Element-wise arithmetic of VADD, VSUB, VADDS, VSUBS, VMUL, VMULH, VMAD, VMIN and VMAX (R84, R116, R117). -/
def Obligations.VectorElementArithmetic : Prop :=
  ∀ (s : State) (g : Group) (c : Cur) (o : VV), s.Issues g c → laneClean g.arch c.gang o.p o.ext [o.a.toNat] o.b →
  (∀ e ∈ ([(.vadd o, fun _ x y => x + y), (.vsub o, fun _ x y => x - y), (.vmul o, fun _ x y => x * y),
      (.vadds o, fun ty x y => if tySigned ty then satS (x + y) (tyWidth ty) else satU (x + y) (tyWidth ty)),
      (.vsubs o, fun ty x y => if tySigned ty then satS (x - y) (tyWidth ty) else satU (x - y) (tyWidth ty)),
      (.vmulh o, fun ty x y => x * y / ((2 ^ tyWidth ty : Nat) : Int)),
      (.vmin o, fun _ x y => min x y), (.vmax o, fun _ x y => max x y)] : List (Instr × (Nat → Int → Int → Int))),
    exec e.1 s = .next (s.withArch g (g.arch.writeV o.d.toNat ((g.arch.lanes c.gang o.p).map fun l =>
      (l, wordOfElems (extTy int6 o.ext) fun i => e.2 (extTy int6 o.ext)
        (elemInt (extTy int6 o.ext) (g.arch.readV o.a.toNat l) i)
        (elemInt (extTy int6 o.ext) (g.arch.opB o.ext o.b l) i)))))) ∧
  ((∀ l ∈ g.arch.lanes c.gang o.p, g.arch.badV (srcC o.d o.ext).toNat l = false) →
    exec (.vmad o) s = .next (s.withArch g (g.arch.writeV o.d.toNat ((g.arch.lanes c.gang o.p).map fun l =>
      (l, wordOfElems (extTy int6 o.ext) fun i =>
        elemInt (extTy int6 o.ext) (g.arch.readV o.a.toNat l) i * elemInt (extTy int6 o.ext) (g.arch.opB o.ext o.b l) i +
          elemInt (extTy int6 o.ext) (g.arch.readV (srcC o.d o.ext).toNat l) i)))))

/-- Element-wise logic, shifts and selection: VAND, VOR, VXOR, VSHL, VSHR, VSRA, VROT and VSEL (R84, R108, R116,
R117). -/
def Obligations.VectorElementBits : Prop :=
  ∀ (s : State) (g : Group) (c : Cur) (o : VV), s.Issues g c → laneClean g.arch c.gang o.p o.ext [o.a.toNat] o.b →
  (∀ e ∈ ([(.vand o, fun _ x y => x &&& y), (.vor o, fun _ x y => x ||| y), (.vxor o, fun _ x y => x ^^^ y),
      (.vshl o, fun w x y => shl x y w), (.vshr o, fun w x y => shr x y w), (.vsra o, fun w x y => sra x y w),
      (.vrot o, fun w x y => rot x y w)] : List (Instr × (Nat → Nat → Nat → Nat))),
    exec e.1 s = .next (s.withArch g (g.arch.writeV o.d.toNat ((g.arch.lanes c.gang o.p).map fun l =>
      (l, BitVec.ofNat 32 (packBits (tyWidth (extTy int6 o.ext)) ((List.range (32 / tyWidth (extTy int6 o.ext))).map fun i =>
        e.2 (tyWidth (extTy int6 o.ext)) (elemBits (g.arch.readV o.a.toNat l).toNat (tyWidth (extTy int6 o.ext)) i)
          (elemBits (g.arch.opB o.ext o.b l).toNat (tyWidth (extTy int6 o.ext)) i)))))))) ∧
  ((∀ l ∈ g.arch.lanes c.gang o.p, g.arch.badV (srcC o.d o.ext).toNat l = false) →
    exec (.vsel o) s = .next (s.withArch g (g.arch.writeV o.d.toNat ((g.arch.lanes c.gang o.p).map fun l =>
      (l, BitVec.ofNat 32 (packBits (tyWidth (extTy int6 o.ext)) ((List.range (32 / tyWidth (extTy int6 o.ext))).map fun i =>
        if elemBits (g.arch.readV (srcC o.d o.ext).toNat l).toNat (tyWidth (extTy int6 o.ext)) i ≠ 0
        then elemBits (g.arch.readV o.a.toNat l).toNat (tyWidth (extTy int6 o.ext)) i
        else elemBits (g.arch.opB o.ext o.b l).toNat (tyWidth (extTy int6 o.ext)) i)))))))

/-- VBFE, VBFI, VDOT4, VLEA and VMADW (R109, R116, R118). -/
def Obligations.VectorWholeWords : Prop :=
  ∀ (s : State) (g : Group) (c : Cur) (o : VV), s.Issues g c → laneClean g.arch c.gang o.p o.ext [o.a.toNat] o.b →
  (exec (.vbfe o) s = .next (s.withArch g (g.arch.writeV o.d.toNat ((g.arch.lanes c.gang o.p).map fun l =>
      (l, BitVec.ofNat 32 (bfe (g.arch.readV o.a.toNat l).toNat (g.arch.opB o.ext o.b l).toNat (extTy int2 o.ext == 0))))))) ∧
  ((∀ l ∈ g.arch.lanes c.gang o.p, g.arch.badV (srcC o.d o.ext).toNat l = false) →
    (∀ e ∈ ([(.vbfi o, fun x y z => BitVec.ofNat 32 (bfi x.toNat y.toNat z.toNat)),
        (.vlea o, fun x y z => z + x <<< (y.toNat % 32)),
        (.vdot4 o, fun x y z => BitVec.ofInt 32 ((z.toNat : Int) +
          elemInt (extTy dot4 o.ext) x 0 * elemInt (extTy dot4 o.ext) y 0 +
          elemInt (extTy dot4 o.ext) x 1 * elemInt (extTy dot4 o.ext) y 1 +
          elemInt (extTy dot4 o.ext) x 2 * elemInt (extTy dot4 o.ext) y 2 +
          elemInt (extTy dot4 o.ext) x 3 * elemInt (extTy dot4 o.ext) y 3))] : List (Instr × (Word → Word → Word → Word))),
      (e.1 = .vdot4 o → tyWidth (extTy dot4 o.ext) = 8) →
      exec e.1 s = .next (s.withArch g (g.arch.writeV o.d.toNat ((g.arch.lanes c.gang o.p).map fun l =>
        (l, e.2 (g.arch.readV o.a.toNat l) (g.arch.opB o.ext o.b l) (g.arch.readV (srcC o.d o.ext).toNat l))))))) ∧
  ((∀ l ∈ g.arch.lanes c.gang o.p, g.arch.badV (srcC o.d o.ext).toNat l = false ∧
      g.arch.badV ((srcC o.d o.ext).toNat + 1) l = false) →
    let res := fun l => wrap (intOf (tySigned (extTy int2c o.ext)) (g.arch.readV o.a.toNat l).toNat 32 *
      intOf (tySigned (extTy int2c o.ext)) (g.arch.opB o.ext o.b l).toNat 32 +
      (g.arch.readV64 (srcC o.d o.ext).toNat l : Int)) 64
    exec (.vmadw o) s = .next (s.withArch g ((g.arch.writeV o.d.toNat ((g.arch.lanes c.gang o.p).map fun l =>
      (l, BitVec.ofNat 32 (res l % 2 ^ 32)))).writeV (o.d.toNat + 1) ((g.arch.lanes c.gang o.p).map fun l =>
      (l, BitVec.ofNat 32 (res l / 2 ^ 32))))))

/-- Vector moves and the unary vector words (R73, R82, R84, R116, R120). -/
def Obligations.VectorMovesAndUnary : Prop :=
  (∀ (s : State) (g : Group) (c : Cur) (o : VU), s.Issues g c →
    ((∀ l ∈ g.arch.lanes c.gang o.p, g.arch.badV o.a.toNat l = false ∧ g.arch.badB o.a.toNat (l / 8) = false) →
      exec (.vmov o) s = .next (s.withArch g
        ((granulesOf (g.arch.lanes c.gang o.p)).foldl (fun b k => b.writeBand o.d.toNat k (g.arch.readB o.a.toNat k))
          (g.arch.writeLanes o.d.toNat ((g.arch.lanes c.gang o.p).map fun l => (l, g.arch.readV o.a.toNat l)))))) ∧
    (g.arch.badS o.a.toNat = false →
      exec (.vbcst o) s = .next (s.withArch g (g.arch.writeV o.d.toNat
        ((g.arch.lanes c.gang o.p).map fun l => (l, g.arch.readS o.a.toNat))))) ∧
    (∀ l0 r, g.arch.lanes c.gang o.p = l0 :: r → g.arch.badV o.a.toNat l0 = false →
      exec (.vlane o) s = .next (s.withArch g (g.arch.writeV o.d.toNat
        ((g.arch.lanes c.gang o.p).map fun l => (l, g.arch.readV o.a.toNat l0))))) ∧
    (g.arch.lanes c.gang o.p = [] → exec (.vlane o) s = .next (s.withArch g g.arch)) ∧
    exec (.vmovSpecial o) s = .next (s.withArch g (g.arch.writeV o.d.toNat
      ((g.arch.lanes c.gang o.p).map fun l => (l, BitVec.ofNat 32 (if o.a = 0 then l else l / 4)))))) ∧
  (∀ (s : State) (g : Group) (c : Cur) (o : VU), s.Issues g c →
    (∀ l ∈ g.arch.lanes c.gang o.p, g.arch.badV o.a.toNat l = false) →
    exec (.vnot o) s = .next (s.withArch g (g.arch.writeV o.d.toNat
      ((g.arch.lanes c.gang o.p).map fun l => (l, ~~~(g.arch.readV o.a.toNat l))))) ∧
    ∀ e ∈ ([(.vabs o, uniSgn, fun w x => wrap ((sext x w).natAbs : Int) w), (.vneg o, uniSgn, fun w x => wrap (-(sext x w)) w),
        (.vclz o, uni6, fun w x => clz x w), (.vpopc o, uni6, fun w x => popc x w)] :
        List (Instr × ExtRule × (Nat → Nat → Nat))),
      exec e.1 s = .next (s.withArch g (g.arch.writeV o.d.toNat ((g.arch.lanes c.gang o.p).map fun l =>
        (l, BitVec.ofNat 32 (packBits (tyWidth (extTy e.2.1 o.ext)) ((List.range (32 / tyWidth (extTy e.2.1 o.ext))).map fun i =>
          e.2.2 (tyWidth (extTy e.2.1 o.ext))
            (elemBits (g.arch.readV o.a.toNat l).toNat (tyWidth (extTy e.2.1 o.ext)) i))))))))

/-- VCMP and VFCMP write a predicate (R75, R107, R119, R144). -/
def Obligations.VectorCompare : Prop :=
  ∀ (s : State) (g : Group) (c : Cur) (o : VP), s.Issues g c → laneClean g.arch c.gang o.p o.ext [o.a.toNat] o.b →
  exec (.vcmp o) s = .next (s.withArch g (g.arch.writePs o.pd.toNat ((g.arch.lanes c.gang o.p).map fun l =>
    (l, cond o.cnd.toNat (extTy int2 o.ext == 0) 32 (g.arch.readV o.a.toNat l).toNat (g.arch.opB o.ext o.b l).toNat)))) ∧
  exec (.vfcmp o) s = .next (s.withArch g (g.arch.writePs o.pd.toNat ((g.arch.lanes c.gang o.p).map fun l =>
    (l, fcond o.cnd.toNat (Fmt.fp32.decode (g.arch.readV o.a.toNat l).toNat)
      (Fmt.fp32.decode (g.arch.opB o.ext o.b l).toNat))))) ∧
  (o.pd = 7 → exec (.vcmp o) s = .next (s.withArch g g.arch) ∧ exec (.vfcmp o) s = .next (s.withArch g g.arch))

/-- PAND, POR, PXOR, PNOT and PMOV (R75, R121). -/
def Obligations.PredicateForms : Prop :=
  ∀ (s : State) (g : Group) (c : Cur) (o : PP), s.Issues g c →
  ∀ e ∈ ([(.pand o, fun x y => x && y), (.por o, fun x y => x || y), (.pxor o, fun x y => x != y), (.pnot o, fun x _ => !x),
      (.pmov o, fun x _ => x)] : List (Instr × (Bool → Bool → Bool))),
    exec e.1 s = .next (s.withArch g (g.arch.writePs o.pd.toNat ((g.arch.lanes c.gang o.p).map fun l =>
      (l, e.2 (g.arch.readP o.pa.toNat l) (g.arch.readP o.pb.toNat l))))) ∧
    (o.pd = 7 → exec e.1 s = .next (s.withArch g g.arch))

/-- A poisoned source consumes uncorrectable data (R76, R110, R185, R317). -/
def Obligations.PoisonedSourceHalts : Prop :=
  ∀ (s : State) (g : Group) (c : Cur), s.Issues g c →
  (∀ (o : VV) (l : Nat), isBU o.ext = false →
    g.arch.badLane [o.a.toNat, o.b.toNat] (g.arch.lanes c.gang o.p) = some l →
    ∀ i ∈ [Instr.vadd o, .vsub o, .vadds o, .vsubs o, .vmul o, .vmulh o, .vmin o, .vmax o, .vand o, .vor o, .vxor o, .vshl o,
      .vshr o, .vsra o, .vrot o, .vbfe o],
      exec i s = .next (s.raise s.who g (.halt 1 (BitVec.ofNat 32 l)))) ∧
  (∀ (o : SS), g.arch.badUs (ssSrcs o ss3) = true →
    ∀ i ∈ [Instr.sadd o, .ssub o, .smul o, .smulh o, .sand o, .sor o, .sxor o, .smin o, .smax o],
      exec i s = .next (s.raise s.who g (.halt 1 noLane)))

/-- VFADD, VFSUB, VFMUL, VFMA, VFMIN, VFMAX and VFSCALE (R137, R141, R143). -/
def Obligations.FloatArithmetic : Prop :=
  ∀ (s : State) (g : Group) (c : Cur) (o : VV), s.Issues g c → laneClean g.arch c.gang o.p o.ext [o.a.toNat] o.b →
  (∀ e ∈ ([(.vfadd o, fun rm fm x y => laneRound fm rm (x.add (rm == 2) y)),
      (.vfsub o, fun rm fm x y => laneRound fm rm (x.add (rm == 2) y.negate)),
      (.vfmul o, fun rm fm x y => laneRound fm rm (x.mul y)),
      (.vfmin o, fun _ fm x y => ((fm.round (Val.minV x y) (laneMode 0)).1, 0)),
      (.vfmax o, fun _ fm x y => ((fm.round (Val.maxV x y) (laneMode 0)).1, 0))] :
      List (Instr × (Nat → Fmt → Val → Val → Nat × Nat))),
    exec e.1 s = .next (s.withArch g (g.arch.fltResult o.d (fltLanes g.arch c.gang o.p (extTy fltRm o.ext) fun l i =>
      e.2 (rmOf o.ext) (laneFmt (extTy fltRm o.ext)) (fltElem (extTy fltRm o.ext) (g.arch.readV o.a.toNat l) i)
        (fltElem (extTy fltRm o.ext) (g.arch.opB o.ext o.b l) i))))) ∧
  ((∀ l ∈ g.arch.lanes c.gang o.p, g.arch.badV (srcC o.d o.ext).toNat l = false) →
    exec (.vfma o) s = .next (s.withArch g (g.arch.fltResult o.d (fltLanes g.arch c.gang o.p (extTy fltRm o.ext) fun l i =>
      laneRound (laneFmt (extTy fltRm o.ext)) (rmOf o.ext) (Val.fma (rmOf o.ext == 2)
        (fltElem (extTy fltRm o.ext) (g.arch.readV o.a.toNat l) i) (fltElem (extTy fltRm o.ext) (g.arch.opB o.ext o.b l) i)
        (fltElem (extTy fltRm o.ext) (g.arch.readV (srcC o.d o.ext).toNat l) i)))))) ∧
  exec (.vfscale o) s = .next (s.withArch g (g.arch.fltResult o.d (fltLanes g.arch c.gang o.p (extTy fltRm o.ext) fun l i =>
    laneRound (laneFmt (extTy fltRm o.ext)) (rmOf o.ext)
      ((fltElem (extTy fltRm o.ext) (g.arch.readV o.a.toNat l) i).scale
        (min (max (sext (elemBits (g.arch.opB o.ext o.b l).toNat (tyWidth (extTy fltRm o.ext)) i)
          (laneFmt (extTy fltRm o.ext)).width) (-600)) 600), 0))))

/-- VFABS, VFNEG, VFCLASS, VFRINT, VFFRAC and VFCLASS.FLAGS (R137, R145, R146, R147). -/
def Obligations.FloatUnary : Prop :=
  ∀ (s : State) (g : Group) (c : Cur), s.Issues g c →
  (∀ (o : VU), (∀ l ∈ g.arch.lanes c.gang o.p, g.arch.badV o.a.toNat l = false) →
    ∀ e ∈ ([(.vfabs o, fun fm x => (signForm fm x (fun _ => false), 0)), (.vfneg o, fun fm x => (signForm fm x (!·), 0)),
        (.vfclass o, fun fm x => (classMask fm x, 0)),
        (.vfrint o, fun fm x => match fm.decode x with
          | .fin neg n d => ((fm.round (.fin neg (roundInt (rmOf o.ext) neg n d) 1) (laneMode 0)).1, 0)
          | v => ((fm.round v (laneMode 0)).1, 0)),
        (.vffrac o, fun fm x => match fm.decode x with
          | .fin neg n d => ((fm.round (.fin neg (n % d) d) (laneMode 0)).1, 0)
          | .inf _ => (fm.nan.getD 0, flagNV)
          | .nan => (fm.nan.getD 0, 0))] : List (Instr × (Fmt → Nat → Nat × Nat))),
      exec e.1 s = .next (s.withArch g (g.arch.fltResult o.d (fltLanes g.arch c.gang o.p (extTy fltUn o.ext) fun l i =>
        e.2 (laneFmt (extTy fltUn o.ext))
          (elemBits (g.arch.readV o.a.toNat l).toNat (tyWidth (extTy fltUn o.ext)) i))))) ∧
  (∀ (sd : BitVec 6) (claimed : Bool),
    exec (.vfclassFlags sd claimed) s =
      .next (s.withArch g { (g.arch.writeS sd.toNat g.arch.fpflags) with fpflags := 0 }))

/-- Conversions, quantisation and bands (R73, R133, R137, R150, R151, R152, R153, R154). -/
def Obligations.ConversionsAndBands : Prop :=
  (∀ (s : State) (g : Group) (c : Cur) (o : VU) (h : Bool), s.Issues g c →
    (∀ l ∈ g.arch.lanes c.gang o.p, g.arch.badV o.a.toNat l = false ∧ g.arch.badV o.d.toNat l = false) →
    let ty := extTy fltUnRm o.ext
    let rm := rmOf o.ext
    let hi := if h then 1 else 0
    let out := fun (f : Word → Word → Word × Nat) => s.withArch g (g.arch.fltResult o.d
      ((g.arch.lanes c.gang o.p).map fun l => (l, f (g.arch.readV o.a.toNat l) (g.arch.readV o.d.toNat l))))
    (∀ src : BitVec 2, exec (.vfcvt o src h) s = .next (out fun x d =>
      if src = 0 then
        let r := laneRound (laneFmt ty) rm (Fmt.fp32.decode x.toNat, 0)
        (setElem d hi r.1, r.2)
      else if ty = 8 then
        let r := laneRound .fp32 rm ((laneFmt (8 + src.toNat)).decode (elemBits x.toNat 16 hi), 0)
        (BitVec.ofNat 32 r.1, r.2)
      else fltElems ty fun i => laneRound (laneFmt ty) rm ((laneFmt (8 + src.toNat)).decode (elemBits x.toNat 16 i), 0))) ∧
    (∀ uns : Bool, exec (.vicvt o true uns h) s = .next (out fun x d =>
      let r := laneRound (laneFmt ty) rm ((if uns then Fmt.uint32 else Fmt.int32).decode x.toNat, 0)
      (if ty = 8 then BitVec.ofNat 32 r.1 else setElem d hi r.1, r.2))) ∧
    (∀ uns : Bool, exec (.vicvt o false uns h) s = .next (out fun x _ =>
      let r := (if uns then Fmt.uint32 else Fmt.int32).round ((laneFmt ty).decode (elemBits x.toNat (tyWidth ty) hi))
        ⟨rm, false, false, 0⟩
      (BitVec.ofNat 32 r.1, r.2)))) ∧
  (∀ (s : State) (g : Group) (c : Cur) (o : VU), s.Issues g c →
    (∀ (k : BitVec 2) (slot : BitVec 3), vqntFmt (s.slot g slot.toNat) = none →
      ((∀ l ∈ g.arch.lanes c.gang o.p, g.arch.badV o.a.toNat l = false) →
        exec (.vqnt o k slot) s = .next (s.raise s.who g illegal)) ∧
      ((∀ l, g.arch.badV o.a.toNat l = false) → (∀ j, g.arch.badB o.a.toNat j = false) →
        exec (.vdqnt o k slot) s = .next (s.raise s.who g illegal))) ∧
    (∀ (k : BitVec 2) (slot : BitVec 3) (fm : Fmt), vqntFmt (s.slot g slot.toNat) = some fm →
      (∀ l ∈ g.arch.lanes c.gang o.p, g.arch.badV o.a.toNat l = false) →
      let sl := s.slot g slot.toNat
      let v := (List.range 32).map fun j =>
        if j ∈ g.arch.lanes c.gang o.p then Fmt.fp32.decode (g.arch.readV o.a.toNat j).toNat else Val.zero
      let rs := (List.range 32).map fun j =>
        fm.round (v.getD j Val.zero) (slotMode sl (ditherD j k.toNat (slotStep sl)))
      let q := if slotScale sl = 1 then quantise fm sl v k.toNat else (rs.map Prod.fst, 0x7F, rs.foldl (fun acc r => acc ||| r.2) 0)
      (g.arch.lanes c.gang o.p = [] → exec (.vqnt o k slot) s = .next (s.withArch g g.arch)) ∧
      (g.arch.lanes c.gang o.p ≠ [] →
        exec (.vqnt o k slot) s = .next (s.withArch g ((((g.arch.writeLanes o.d.toNat
          ((List.range 8).map fun i => (8 * k.toNat + i, BitVec.ofNat 32 ((gLanes (gOf fm.width q.1)).getD i 0)))).writeBand
            o.d.toNat k.toNat (BitVec.ofNat 8 q.2.1)).report (BitVec.ofNat 32 q.2.2)))))) ∧
    (∀ (k : BitVec 2) (slot : BitVec 3) (fm : Fmt), vqntFmt (s.slot g slot.toNat) = some fm →
      (∀ l, g.arch.badV o.a.toNat l = false) → (∀ j, g.arch.badB o.a.toNat j = false) →
      let u := if slotScale (s.slot g slot.toNat) = 1 then (g.arch.readB o.a.toNat k.toNat).toNat else 0x7F
      let gs := gOfLanes ((List.range 8).map fun q => (g.arch.readV o.a.toNat (8 * k.toNat + q)).toNat)
      exec (.vdqnt o k slot) s = .next (s.withArch g (g.arch.fltResult o.d ((g.arch.lanes c.gang o.p).map fun j =>
        let r := Fmt.fp32.round (dequantise fm (gElem fm.width gs j) u) (laneMode (rmOf o.ext))
        (j, BitVec.ofNat 32 r.1, r.2))))) ∧
    ((∀ l ∈ g.arch.lanes c.gang o.p, g.arch.badB o.a.toNat (l / 8) = false) →
      exec (.vbandr o) s = .next (s.withArch g (g.arch.writeV o.d.toNat
        ((g.arch.lanes c.gang o.p).map fun l => (l, (g.arch.readB o.a.toNat (l / 8)).setWidth 32))))) ∧
    ((∀ l ∈ g.arch.lanes c.gang o.p, g.arch.badV o.a.toNat l = false) →
      ∃ a, exec (.vbandw o) s = .next (s.withArch g a) ∧ a.v = g.arch.v ∧ a.s = g.arch.s ∧ a.p = g.arch.p ∧
        a.fpflags = g.arch.fpflags ∧ a.slices = g.arch.slices ∧
        (∀ m j, (m ≠ o.d.toNat ∨ ∀ l ∈ g.arch.lanes c.gang o.p, l / 8 ≠ j) → j < 4 →
          a.readB m j = g.arch.readB m j ∧ a.badB m j = g.arch.badB m j) ∧
        (∀ l, l ∈ g.arch.lanes c.gang o.p →
          (∀ m ∈ g.arch.lanes c.gang o.p, m / 8 = l / 8 → l ≤ m) →
          a.readB o.d.toNat (l / 8) = (g.arch.readV o.a.toNat l).setWidth 8)))

/-- The special functions and their exact corners (R49, R52, R148; the model's choices and readings: log 14). -/
def Obligations.SpecialFunctions : Prop :=
  (∀ (s : State) (g : Group) (c : Cur) (o : VU), s.Issues g c →
    (∀ l ∈ g.arch.lanes c.gang o.p, g.arch.badV o.a.toNat l = false) →
    ∀ e ∈ ([(.vfrcp o, 0), (.vfrsq o, 1), (.vfsqrt o, 2), (.vfexp2 o, 3), (.vflog2 o, 4), (.vfsin o, 5), (.vfcos o, 6)] :
        List (Instr × Nat)),
      exec e.1 s = .next (s.withLong g c .vec o.d.toNat (fltLanes g.arch c.gang o.p (extTy fltUnRm o.ext) fun l i =>
        laneRound (laneFmt (extTy fltUnRm o.ext)) (rmOf o.ext)
          (specialFn e.2 (fltElem (extTy fltUnRm o.ext) (g.arch.readV o.a.toNat l) i))))) ∧
  ((∀ n, specialFn 0 (.fin n 0 1) = (.inf n, flagDZ) ∧ specialFn 1 (.fin n 0 1) = (.inf n, flagDZ) ∧
      specialFn 2 (.fin n 0 1) = (.fin n 0 1, 0) ∧ specialFn 3 (.fin n 0 1) = (.fin false 1 1, 0) ∧
      specialFn 4 (.fin n 0 1) = (.inf true, flagDZ) ∧ specialFn 5 (.fin n 0 1) = (.fin n 0 1, 0) ∧
      specialFn 6 (.fin n 0 1) = (.fin false 1 1, 0)) ∧
    (∀ fn ∈ [1, 2, 4], specialFn fn (.inf true) = (.nan, flagNV) ∧
      ∀ n d, 0 < n → specialFn fn (.fin true n d) = (.nan, flagNV)) ∧
    specialFn 1 (.inf false) = (.fin false 0 1, 0) ∧ specialFn 2 (.inf false) = (.inf false, 0) ∧
    specialFn 4 (.inf false) = (.inf false, 0) ∧ specialFn 3 (.inf false) = (.inf false, 0) ∧
    specialFn 3 (.inf true) = (.fin false 0 1, 0) ∧
    (∀ n, specialFn 5 (.inf n) = (.nan, flagNV) ∧ specialFn 6 (.inf n) = (.nan, flagNV) ∧
      specialFn 0 (.inf n) = (.fin n 0 1, 0)) ∧
    ∀ fn, specialFn fn .nan = (.nan, 0))

/-- VRED, VSCAN, VSHFL, VMATCH and VVOTE (R49, R75, R155, R156, R157, R158, R159). -/
def Obligations.CrossLaneAndVotes : Prop :=
  (∀ (s : State) (g : Group) (c : Cur) (o : VU), s.Issues g c →
    (∀ l ∈ g.arch.lanes c.gang o.p, g.arch.badV o.a.toNat l = false ∧ g.arch.badV (srcC o.d o.ext).toNat l = false) →
    let lanes := g.arch.lanes c.gang o.p
    let out := fun (f : Nat → Nat × Nat) => s.withLong g c .vec o.d.toNat (lanes.map fun l =>
      (l, BitVec.ofNat 32 (f l).1, (f l).2))
    (∀ op : BitVec 3, exec (.vred o op) s = .next (out fun _ =>
      tree (redOp op.toNat (extTy (redRule op) o.ext))
        (leaves g.arch o.a.toNat lanes (redId op.toNat (extTy (redRule op) o.ext))))) ∧
    (∀ op : BitVec 3, exec (.vscan o false op) s = .next (out fun l =>
      (scan (redOp op.toNat (extTy (redRule op) o.ext))
        (leaves g.arch o.a.toNat lanes (redId op.toNat (extTy (redRule op) o.ext)))).getD l (0, 0))) ∧
    (∀ op : BitVec 3, exec (.vscan o true op) s = .next (out fun l =>
      if l = 0 then (redId op.toNat (extTy (redRule op) o.ext), 0)
      else (scan (redOp op.toNat (extTy (redRule op) o.ext))
        (leaves g.arch o.a.toNat lanes (redId op.toNat (extTy (redRule op) o.ext)))).getD (l - 1) (0, 0))) ∧
    (∀ (mode : BitVec 2) (cnt : BitVec 5), exec (.vshfl o mode cnt) s = .next (out fun l =>
      let q := shflLane mode.toNat cnt.toNat l (g.arch.readV (srcC o.d o.ext).toNat l).toNat
      ((g.arch.readV o.a.toNat (if 0 ≤ q ∧ q.toNat ∈ lanes then q.toNat else l)).toNat, 0))) ∧
    exec (.vmatch o) s = .next (out fun l =>
      ((lanes.filter fun m => g.arch.readV o.a.toNat m == g.arch.readV o.a.toNat l).foldl (fun n m => n + 2 ^ m) 0, 0))) ∧
  (∀ (s : State) (g : Group) (c : Cur) (o : VU), s.Issues g c →
    let lanes := g.arch.lanes c.gang o.p
    let h := fun l => g.arch.readP (o.a.toNat % 8) l
    exec (.vvote o 3) s = .next (s.withLong g c .vec o.d.toNat (lanes.map fun l =>
      (l, BitVec.ofNat 32 ((lanes.filter h).foldl (fun n m => n + 2 ^ m) 0), 0))) ∧
    (o.d.toNat % 8 ≠ 7 → ∀ e ∈ ([(0, lanes.any h), (1, lanes.all h), (2, lanes.all h || !lanes.any h)] : List (BitVec 2 × Bool)),
      exec (.vvote o e.1) s = .next (s.withLong g c .prd (o.d.toNat % 8) (lanes.map fun l => (l, if e.2 then 1 else 0, 0)))) ∧
    (o.d.toNat % 8 = 7 → ∀ mode : BitVec 2, mode ≠ 3 →
      exec (.vvote o mode) s = .next (s.withLong g c .prd 7 [])))

/-- BRA, BRC.ANY, BRC.ALL and BRX (R48, R86, R91, R98). -/
def Obligations.BranchesMoveSlices : Prop :=
  ∀ (s : State) (g : Group) (c : Cur), s.Issues g c →
  (∀ (off : BitVec 18) (p : Pred), 
    let tgt := c.hdr + BitVec.ofInt 52 (4 * off.toInt)
    ∀ e ∈ ([(.bra off, fun _ _ => true), (.brcAny p off, fun j sl => g.arch.execMask j sl.am p != 0),
        (.brcAll p off, fun j sl => g.arch.execMask j sl.am p == sl.am)] : List (Instr × (Nat → Slice → Bool))),
      let a := g.arch.moved c.gang fun j sl => if e.2 j sl then { sl with pc := tgt } else sl
      a.noMeeting → exec e.1 s = .next (s.withArch g a)) ∧
  (∀ sa : BitVec 6, g.arch.badUs [sa.toNat, sa.toNat + 1] = false →
    let t := g.arch.readS64 sa.toNat
    let a := g.arch.moved c.gang fun _ sl => { sl with pc := BitVec.ofNat 52 t }
    (t % 4 = 0 → t < Config.macroBase → a.noMeeting → exec (.brx sa) s = .next (s.withArch g a)) ∧
    (t % 4 ≠ 0 ∨ 2 ^ 52 ≤ t → exec (.brx sa) s = .next (s.raise s.who g (.trap 5 2 noLane t))) ∧
    (t % 4 = 0 → Config.macroBase ≤ t → t < 2 ^ 52 → exec (.brx sa) s = .next (s.raise s.who g illegal)))

/-- The pop sequence of a slice (R88). -/
def Obligations.PopSequence : Prop :=
  ∀ (sl : Slice),
  (sl.toks = [] → sl.em = 15 → sl.pop = .ok { sl with am := 0, toks := [], arr := none }) ∧
  (sl.toks = [] → sl.em ≠ 15 → sl.pop = .error (.trap 9 1 noLane 0)) ∧
  (∀ t r, sl.toks = t :: r →
    let sl1 := { sl with am := t.mask &&& ~~~sl.em, pc := t.target, toks := r }
    (sl1.am ≠ 0 → sl.pop = .ok sl1) ∧ (sl1.am = 0 → sl.pop = sl1.pop))

/-- IF, NEXT, LOOP, BRK, CALL, RET, EXIT and MCALL (R88, R92, R93, R94, R102). -/
def Obligations.DivergenceWords : Prop :=
  ∀ (s : State) (g : Group) (c : Cur), s.Issues g c → ∀ (q : Nat → Slice → Slice), (g.arch.moved c.gang q).noMeeting →
  let runs := fun i => exec i s = .next (s.withArch g (g.arch.moved c.gang q))
  (∀ (p : Pred) (off : BitVec 18) (join : Word),
    (∀ j sl, g.arch.hasSlice c.gang j sl →
      let x := g.arch.execMask j sl.am p
      let e := sl.am &&& ~~~x
      let toks := (if e = 0 then [] else [⟨.els, c.hdr + BitVec.ofInt 52 (4 * off.toInt), e⟩]) ++
        ⟨.join, c.hdr + BitVec.ofInt 52 (4 * join.toInt), sl.am⟩ :: sl.toks
      toks.length ≤ 16 ∧ (if x = 0 then ({ sl with am := x, toks := toks } : Slice).pop = .ok (q j sl)
        else q j sl = { sl with am := x, toks := toks })) → runs (.ifI p off join)) ∧
  ((∀ j sl, g.arch.hasSlice c.gang j sl → sl.pop = .ok (q j sl)) → runs .next) ∧
  ((∀ j sl, g.arch.hasSlice c.gang j sl → ({ sl with em := sl.em ||| sl.am } : Slice).pop = .ok (q j sl)) → runs .exit) ∧
  (∀ off : BitVec 18, (∀ j sl, g.arch.hasSlice c.gang j sl → sl.toks.length < 16 ∧
      q j sl = { sl with toks := ⟨.brk, c.hdr + BitVec.ofInt 52 (4 * off.toInt), sl.am⟩ :: sl.toks }) → runs (.loop off)) ∧
  (∀ p : Pred, (∀ j sl, g.arch.hasSlice c.gang j sl → ∃ above t r, sl.toks = above ++ t :: r ∧ t.kind = .brk ∧
      (∀ u ∈ above, u.kind ≠ .brk ∧ u.kind ≠ .call) ∧
      let x := g.arch.execMask j sl.am p
      let sl1 := { sl with am := sl.am &&& ~~~x,
                           toks := above.map (fun u => { u with mask := u.mask &&& ~~~x }) ++ t :: r }
      (if sl1.am = 0 then sl1.pop = .ok (q j sl) else q j sl = sl1)) → runs (.brk p)) ∧
  (∀ off : BitVec 18, (∀ j sl, g.arch.hasSlice c.gang j sl → sl.toks.length < 16 ∧
      q j sl = { sl with toks := ⟨.call, c.hdr + BitVec.ofNat 52 (4 * (c.n + 1)), sl.am⟩ :: sl.toks,
                         pc := c.hdr + BitVec.ofInt 52 (4 * off.toInt) }) → runs (.call off)) ∧
  (∀ (m : BitVec 6) (w1 w2 : Word), (∀ j sl, g.arch.hasSlice c.gang j sl → sl.toks.length < 16 ∧
      q j sl = { sl with toks := ⟨.call, c.hdr + BitVec.ofNat 52 (4 * (c.n + 1)), sl.am⟩ :: sl.toks,
                         pc := BitVec.ofNat 52 (0xFFFFFFFFFE000 + 128 * m.toNat) }) → runs (.mcall m w1 w2)) ∧
  ((∀ j sl, g.arch.hasSlice c.gang j sl → ∃ above t r, sl.toks = above ++ t :: r ∧ t.kind = .call ∧
      (∀ u ∈ above, u.kind ≠ .call ∧ u.mask &&& ~~~sl.em = 0) ∧
      ({ sl with toks := t :: r } : Slice).pop = .ok (q j sl)) → runs .ret)

/-- Class 9 faults of the control words (R87, R88, R89, R92, R93, R94, R95). -/
def Obligations.ControlFaults : Prop :=
  ∀ (s : State) (g : Group) (c : Cur), s.Issues g c →
  (∀ j sl, g.arch.hasSlice c.gang j sl → sl.toks.length = 16 →
    ∀ (off : BitVec 18) (m : BitVec 6) (w1 w2 : Word), ∀ i ∈ [Instr.loop off, .call off, .mcall m w1 w2],
      exec i s = .next (s.raise s.who g (.trap 9 0 noLane 0))) ∧
  (∀ j sl, g.arch.hasSlice c.gang j sl → (∀ k sl', k < j → ¬ g.arch.hasSlice c.gang k sl') →
    (∀ (p : Pred) (off : BitVec 18) (join : Word),
      let e := sl.am &&& ~~~(g.arch.execMask j sl.am p)
      16 < sl.toks.length + 1 + (if e ≠ 0 then 1 else 0) →
        exec (.ifI p off join) s = .next (s.raise s.who g (.trap 9 0 noLane 0))) ∧
    ((∀ t ∈ sl.toks, t.kind ≠ .call) → exec .ret s = .next (s.raise s.who g (.trap 9 3 noLane 0))) ∧
    (∀ above t r, sl.toks = above ++ t :: r → t.kind = .call → (∀ u ∈ above, u.kind ≠ .call) →
      (∃ u ∈ above, u.mask &&& ~~~sl.em ≠ 0) → exec .ret s = .next (s.raise s.who g (.trap 9 2 noLane 0))) ∧
    (∀ p : Pred, (∀ above t r, sl.toks = above ++ t :: r → t.kind = .brk → ∃ u ∈ above, u.kind = .call) →
      exec (.brk p) s = .next (s.raise s.who g (.trap 9 4 noLane 0))) ∧
    (let drained := fun (x : Slice) => x.em ≠ 15 ∧ ∀ t ∈ x.toks, t.mask &&& ~~~x.em = 0
      let empties := fun i => exec i s = .next (s.raise s.who g (.trap 9 1 noLane 0))
      (drained sl → empties .next) ∧ (drained { sl with em := sl.em ||| sl.am } → empties .exit) ∧
      (∀ (p : Pred) (off : BitVec 18) (join : Word), g.arch.execMask j sl.am p = 0 →
        let toks := (if sl.am = 0 then [] else [⟨.els, c.hdr + BitVec.ofInt 52 (4 * off.toInt), sl.am⟩]) ++
          ⟨.join, c.hdr + BitVec.ofInt 52 (4 * join.toInt), sl.am⟩ :: sl.toks
        toks.length ≤ 16 → drained { sl with toks := toks } → empties (.ifI p off join)) ∧
      (∀ (p : Pred) above t r, sl.toks = above ++ t :: r → t.kind = .brk → (∀ u ∈ above, u.kind ≠ .brk ∧ u.kind ≠ .call) →
        let x := g.arch.execMask j sl.am p
        sl.am &&& ~~~x = 0 →
        drained { sl with toks := above.map (fun u => { u with mask := u.mask &&& ~~~x }) ++ t :: r } → empties (.brk p)) ∧
      (∀ above t r, sl.toks = above ++ t :: r → t.kind = .call →
        (∀ u ∈ above, u.kind ≠ .call ∧ u.mask &&& ~~~sl.em = 0) → drained { sl with toks := t :: r } → empties .ret)))

/-- REGANG (R85, R89, R95, R97, R98). -/
def Obligations.RegangMeets : Prop :=
  ∀ (s : State) (g : Group) (c : Cur) (id : BitVec 8), s.Issues g c →
  let a := g.arch.moved c.gang fun _ sl => { sl with pc := c.hdr, arr := some id }
  (a.noMeeting → exec (.regang id) s = .next (s.withArch g a)) ∧
  ((∃ sl ∈ a.slices, sl.live = true) → (∀ sl ∈ a.slices, sl.live = true → sl.arr = some id ∧ sl.pc = c.hdr) →
    exec (.regang id) s = .next (s.withArch g { a with slices := a.slices.map fun sl =>
      if sl.live then { sl with pc := c.hdr + 8, arr := none, gang := a.liveSlices.headD 0 } else sl })) ∧
  ((∃ x ∈ a.slices, ∃ y ∈ a.slices, x.live = true ∧ y.live = true ∧ ¬(x.arr = y.arr ∧ x.pc = y.pc)) →
    (∀ sl ∈ a.slices, sl.live = true → sl.arr ≠ none) →
    exec (.regang id) s = .next (s.raise s.who g (.trap 9 5 noLane 0))) ∧
  (∀ q : Nat → Slice → Slice,
    (∀ j sl, g.arch.hasSlice c.gang j sl → ({ sl with em := sl.em ||| sl.am } : Slice).pop = .ok (q j sl)) →
    let a1 := g.arch.moved c.gang q
    (∀ sl ∈ a1.slices, sl.live = true → sl.arr ≠ none) →
    (∀ h, (∃ sl ∈ a1.slices, sl.live = true) → (∀ sl ∈ a1.slices, sl.live = true → sl.arr = some id ∧ sl.pc = h) →
      exec .exit s = .next (s.withArch g { a1 with slices := a1.slices.map fun sl =>
        if sl.live then { sl with pc := h + 8, arr := none, gang := a1.liveSlices.headD 0 } else sl })) ∧
    ((∃ x ∈ a1.slices, ∃ y ∈ a1.slices, x.live = true ∧ y.live = true ∧ ¬(x.arr = y.arr ∧ x.pc = y.pc)) →
      exec .exit s = .next (s.raise s.who g (.trap 9 5 noLane 0))))

/-- SPAWN (R100). -/
def Obligations.SpawnReserves : Prop :=
  ∀ (s : State) (g : Group) (c : Cur) (off : BitVec 18) (w1 w2 w3 : Word), s.Issues g c →
  let sd := w1.toNat % 64
  let v := (w1.toNat / 512 % 16 + 1) * 8
  (w1.toNat < 2 ^ 13 → w2.toNat < 2 ^ 24 → w3.toNat < 2 ^ 24 →
    (s.freeCtx g.core = [] → exec (.spawn off w1 w2 w3) s = .next (s.withArch g (g.arch.writeS sd 1))) ∧
    (∀ ctx r, s.freeCtx g.core = ctx :: r →
      (s.freeVregs g.core < v → exec (.spawn off w1 w2 w3) s = .next (s.withArch g (g.arch.writeS sd 2))) ∧
      (v ≤ s.freeVregs g.core → (∀ k < 4, g.arch.badS (w2.toNat / 64 ^ k % 64) = false ∧ g.arch.badS (w3.toNat / 64 ^ k % 64) = false) →
        ∃ t q, exec (.spawn off w1 w2 w3) s = .next t ∧
          (t.core g.core).resv = (s.core g.core).resv ++ [(ctx, v)] ∧
          q.act = .spawn ⟨ctx, w1.toNat / 64 % 8 + 1, v, c.hdr + BitVec.ofInt 52 (4 * off.toInt),
            ((List.range 4).map fun k => g.arch.readS (w2.toNat / 64 ^ k % 64)) ++
            ((List.range 4).map fun k => g.arch.readS (w3.toNat / 64 ^ k % 64))⟩ ∧
          t.group s.who = some { g with arch := g.arch.writeS sd 0,
                                        cur := some { c with held := c.held ++ [q], undo := (s.nextId, .child ctx) :: c.undo } } ∧
          t.reqs = s.reqs ∧ t.mem = s.mem ∧ t.blocks = s.blocks))) ∧
  (2 ^ 13 ≤ w1.toNat ∨ 2 ^ 24 ≤ w2.toNat ∨ 2 ^ 24 ≤ w3.toNat →
    exec (.spawn off w1 w2 w3) s = .next (s.raise s.who g illegal))

/-- NOP, YIELD, BKPT, TRAPU and SYSC (R104, R315, R318). -/
def Obligations.PlainWords : Prop :=
  ∀ (s : State) (g : Group) (c : Cur), s.Issues g c →
  exec .nop s = .next (s.withArch g g.arch) ∧
  exec .yield s = .next (s.putGroup s.who { g with cur := some { c with yld := true } }) ∧
  ∀ code : BitVec 16, ∀ e ∈ ([(.bkpt code, 1), (.trapu code, 2), (.sysc code, 3)] : List (Instr × Nat)),
    (e.1 = .sysc code → g.sorrel = none) → (c.trap = none →
      exec e.1 s = .next (s.putGroup s.who { g with cur := some { c with trap := some (e.2, code.toNat, c.idx) } })) ∧
    (c.trap ≠ none → exec e.1 s = .next (s.putGroup s.who g))

/-- A step runs the decoded instruction (R46, R47, R48, R57, R71, R86; the model's choices and readings: log 4). -/
def Obligations.StepRunsTheInstruction : Prop :=
  ∀ (s u : State),
  (∀ i, s.turn = .event i → exec i (s.takeInput i) = .next u → step s = .next u.tick) ∧
  ∀ (h : Nat) (g : Group), s.turn = .word h → s.group h = some g → s.mayIssue g h = true →
    (∀ c k i rest, g.cur = some c → c.rest = (k, i) :: rest →
      exec i (({ s with who := h } : State).putGroup h { g with cur := some { c with idx := k, rest := rest } }) = .next u →
      step s = .next (u.endWord h).tick) ∧
    (∀ gang sl hd w i, g.atBoundary = true → g.deferred = [] → g.arch.nextGang = some gang →
      g.arch.slices[gang.headD 0]? = some sl → s.paramsAt g (gang.headD 0) sl.pc.toNat = (s, .ok none) →
      s.fetchWords g 1 sl.pc.toNat = (s, .words [hd]) →
      s.fetchWords g 1 ((sl.pc.toNat + 4) % 2 ^ 52) = (s, .words [w]) →
      headerOk hd = true → hdrN hd = 1 → (∀ t < 3, hdrWait hd t = false) →
      (isTransfer w = true ∨ classOf (opOf w) = hdrClass hd) → unassignedOp (opOf w) = false →
      (extensible (opOf w) = false → litCount w = 0) → decode w [] = .ok i → i.WellFormed → vecTop i ≤ g.vregs →
      (g.sorrel ≠ none → hdrClass hd ≠ 2 ∧ contextBars i = false) → (g.sorrel = none → privileged w = false) →
      (∀ tl sa, i ≠ .twait tl sa) → g.arch.pend.length < 32 → arrivalOf i = none →
      (∀ o, i = .lmma o → s.sampleWaits g = false) →
      (∀ t, entryOf i = some t → (g.arch.tl t).pending < 64) →
      let c : Cur :=
        { hdr := sl.pc, n := 1, sw := hdrSw hd, yld := hdrYld hd, rest := [], idx := 0, gang := gang,
          pass := (s.cluster g.cluster).passCount, first := s.nextId, snap := g.arch, held := [], undo := [],
          commit := false, lhret := false, trap := none, barw := none, ifence := false, tret := none, parks := false }
      exec i (({ s with who := h } : State).putGroup h
        { g with cur := some c, waits := false, arch := g.arch.advance gang c.nextPc }) = .next u →
      step s = .next (u.endWord h).tick)

/-- Fetch reads the words in memory (R1, R48, R182, R183, R315, R317, R349; the model's choices and readings: logs
38, 46). -/
def Obligations.FetchReadsMemory : Prop :=
  ∀ (s : State) (g : Group) (va : Nat), va % 4 = 0 → va < 2 ^ 52 →
  (g.sorrel ≠ none → va < Config.dramBytes → s.badMem 0 va 4 = false →
    s.fetchWords g 1 va = (s, .words [leNat (s.readHome 0 va 4)])) ∧
  (∀ x : Xlat, g.sorrel = none → inMacro va = false →
    (∀ u ∈ (s.core g.core).fetch, ¬(u.asid = g.asid ∧ u.unit = va / 64)) →
    findXlat (s.core g.core).tlb g.asid va = some x → x.part = g.part →
    let p := x.place (va / 64 * 64)
    (x.x = false → s.fetchWords g 1 va = (s, .bad (.page va 8 noLane))) ∧
    (x.x = true → s.unitOk g.part p = true →
      (peerRefuses p = true → s.fetchWords g 1 va = (s, .bad (.freeze 1 noLane va))) ∧
      (peerRefuses p = false → s.peerDown p = true → s.fetchWords g 1 va = (s, .bad (.halt 2 noLane))) ∧
      (peerRefuses p = false → s.peerDown p = false → s.badMem p.tgt p.pa 64 = false →
        let s1 := s.sendPeer p.tgt p.pa (.read 64) []
        let kept : FetchUnit := ⟨g.asid, va / 64, (List.range 16).map fun i => leNat (s.readHome p.tgt (p.pa + 4 * i) 4)⟩
        s.fetchWords g 1 va = (s1.setCore g.core { (s.core g.core) with fetch := kept :: (s.core g.core).fetch },
          .words [leNat (s.readHome p.tgt (p.pa + 4 * (va % 64 / 4)) 4)]))))

/-- No step faults or is refused (R47, R53, R59; the model's choices and readings: log 4). -/
def Obligations.StepNeverStops : Prop :=
  ∀ s : State, (∀ i, s.turn = .event i → i.isWord = false) →
  ∃ t, step s = .next t ∧ (∀ i, t.turn = .event i → i.isWord = false)

/-- LDG, SLDG, LDC and LDD send their loads (R49, R161, R162, R163, R165, R170, R172, R307, R315). -/
def Obligations.GlobalLoads : Prop :=
  ∀ (s : State) (g : Group) (c : Cur) (place : Nat → Place), s.Issues g c →
  (∀ (m : VMem), let lanes := g.arch.lanes c.gang m.p
    let ps := g.arch.pieces m true lanes
    g.arch.vmemFates m true false lanes = [] →
    ∀ e ∈ ([(.ldg m, .read, if m.l2 then .l2 else .cached), (.ldc m, .konst, .konst), (.ldd m, .direct, .direct)] :
        List (Instr × Need × Path)),
      (∀ p ∈ ps, s.Maps g e.2.1 p.va (place p.va)) →
      s.LoadLeaves g e.1 .vec m.r.toNat ps (some ∘ place) (fun p => .load (g.path e.2.2) p.w m.sx)) ∧
  (∀ (m : UMem), let ps := g.arch.uPieces m true
    g.arch.umemFates m true false = [] → (∀ p ∈ ps, s.Maps g .read p.va (place p.va)) →
    s.LoadLeaves g (.sldg m) .uni m.r.toNat ps (some ∘ place)
      (fun p => .load (g.path (if m.l2 then .l2 else .cached)) p.w m.sx))

/-- STG, SSTG and STD hold their stores (R53, R161, R162, R163, R165, R172, R307, R315). -/
def Obligations.GlobalStores : Prop :=
  ∀ (s : State) (g : Group) (c : Cur) (place : Nat → Place), s.Issues g c →
  (∀ (m : VMem), let lanes := g.arch.lanes c.gang m.p
    let ps := g.arch.pieces m true lanes
    g.arch.vmemFates m true true lanes = [] →
    ∀ e ∈ ([(.stg m, .write, .cached), (.std m, .directWrite, .direct)] : List (Instr × Need × Path)),
      (∀ p ∈ ps, s.Maps g e.2.1 p.va (place p.va)) →
      s.StoreHeld g c e.1 ps (some ∘ place) (fun p => .store (g.path e.2.2) p.w p.data)) ∧
  (∀ (m : UMem), let ps := g.arch.uPieces m true
    g.arch.umemFates m true true = [] → (∀ p ∈ ps, s.Maps g .write p.va (place p.va)) →
    s.StoreHeld g c (.sstg m) ps (some ∘ place) (fun p => .store (g.path .cached) p.w p.data))

/-- LDS, STS, SLDS and SSTS (R49, R53, R165, R166, R187). -/
def Obligations.ScratchpadAccesses : Prop :=
  ∀ (s : State) (g : Group) (c : Cur) (b : Block), s.Issues g c → s.blockOf g = some b →
  (∀ (m : VMem), let lanes := g.arch.lanes c.gang m.p
    let ps := g.arch.pieces m false lanes
    (g.arch.vmemFates m false false lanes = [] → (∀ p ∈ ps, b.rangeOk p.va p.w = true) →
      s.LoadLeaves g (.lds m) .vec m.r.toNat ps (fun _ => none) (fun p => .load .scr p.w m.sx)) ∧
    (g.arch.vmemFates m false true lanes = [] → (∀ p ∈ ps, b.rangeOk p.va p.w = true) →
      s.StoreHeld g c (.sts m) ps (fun _ => none) (fun p => .store .scr p.w p.data)) ∧
    (∀ p r, ps = p :: r → p.lane < 32 → b.rangeOk p.va p.w = false →
      ∀ e ∈ ([(.lds m, false), (.sts m, true)] : List (Instr × Bool)), g.arch.vmemFates m false e.2 lanes = [] →
        (∀ q ∈ r, p.lane ≤ q.lane % 32) →
        exec e.1 s = .next (s.raise s.who g (.trap 4 4 (BitVec.ofNat 32 p.lane) p.va)))) ∧
  (∀ (m : UMem), let ps := g.arch.uPieces m false
    (∀ p ∈ ps, b.rangeOk p.va p.w = true) →
    (g.arch.umemFates m false false = [] →
      s.LoadLeaves g (.slds m) .uni m.r.toNat ps (fun _ => none) (fun p => .load .scr p.w m.sx)) ∧
    (g.arch.umemFates m false true = [] →
      s.StoreHeld g c (.ssts m) ps (fun _ => none) (fun p => .store .scr p.w p.data)))

/-- ATOMS, ATOMG, ATOMO, AFLUSH and PRFG (R53, R76, R171, R174, R176, R179, R232). -/
def Obligations.AtomicsAndPrefetches : Prop :=
  ∀ (s : State) (g : Group) (c : Cur) (place : Nat → Place), s.Issues g c →
  (∀ (o : Atomic) (b : Block), s.blockOf g = some b → let lanes := g.arch.lanes c.gang o.p
    let ord := if atScope o.lit = 0 then 0 else atOrd o.lit
    ∀ e ∈ ([(.atomg o, true), (.atoms o, false)] : List (Instr × Bool)), let ps := g.arch.atomicPieces o e.2 lanes
      atomicLitOk o e.2 g.vregs = true → g.arch.atomicFates o e.2 lanes = [] →
      (∀ p ∈ ps, if e.2 then s.Maps g .atomic p.va (place p.va) else b.rangeOk p.va p.w = true) →
      ∃ t rel rs acq pd, exec e.1 s = .next t ∧
        t = { (s.putGroup s.who { g with arch := { g.arch with pend := g.arch.pend ++ pd },
                                         cur := some { c with held := c.held ++ rel ++ rs,
                                                              commit := c.commit || 2 ≤ ord } }) with
              reqs := s.reqs ++ acq, nextId := t.nextId } ∧
        rel.map (·.act) = (if ord % 2 = 1 then [.fence (atScope o.lit) ord] else []) ∧
        acq.map (·.act) = (if 2 ≤ ord then [.fence (atScope o.lit) ord] else []) ∧
        (if atNr o.lit then pd = [] else ∃ q, pd = [q] ∧ q.dest = .vec ∧ q.reg = o.d.toNat ∧ q.id = s.nextId + rel.length) ∧
        Sent g ps (fun a => if e.2 then some (place a) else none)
          (if atNr o.lit then none else some (s.nextId + rel.length))
          (fun p => .atomic (!e.2) o.op.toNat o.ty.toNat p.data
            (if o.op = 7 then g.arch.storeData (atC o.lit) p.lane p.w else 0)) rs) ∧
  (∀ (p : Pred) (a v : BitVec 7) (k n : BitVec 6) (bf ub : Bool), let lanes := g.arch.lanes c.gang p
    let lit : Word := BitVec.ofNat 32 ((if bf then 2 ^ 25 else 0) + (if ub then 2 ^ 24 else 0) + v.toNat * 2 ^ 17 +
      k.toNat * 2 ^ 11 + n.toNat * 2 ^ 5)
    let addr := fun l => g.arch.base ub true a.toNat l % 2 ^ 64
    let w := if bf then 2 else 4
    a.toNat % 2 = 0 → v.toNat < g.vregs → (if ub then a.toNat < 64 else a.toNat + 1 < g.vregs) →
    1 ≤ (g.arch.readS n.toNat).toNat → (g.arch.readS n.toNat).toNat ≤ 4096 →
    g.arch.badUs ([k.toNat, n.toNat] ++ (if ub then uRegs a.toNat true else [])) = false →
    (∀ l ∈ lanes, ∀ r ∈ (if ub then [] else uRegs a.toNat true) ++ [v.toNat], g.arch.badV r l = false) →
    (∀ l ∈ lanes, addr l % w = 0 ∧ s.Maps g .ordered (addr l) (place (addr l))) →
    s.StoreHeld g c (.atomo p a lit) (lanes.map fun l => ⟨l, addr l, w, 0, (g.arch.readV v.toNat l).toNat⟩) (some ∘ place)
      (fun q => .atomo bf ((g.arch.readS k.toNat).toNat * 32 + q.lane) (BitVec.ofNat 32 q.data)
        (g.arch.readS n.toNat).toNat)) ∧
  (∀ sa : BitVec 6, let va := g.arch.readS64 sa.toNat
    g.arch.badUs (uRegs sa.toNat true) = false → s.Maps g .ordered va (place va) →
    s.StoreHeld g c (.aflush sa) [⟨0, va, 1, 0, 0⟩] (some ∘ place) (fun _ => .aflush)) ∧
  (∀ (p : Pred) (a : BitVec 7) (ub f1 : Bool) (off : Option Word), let lanes := g.arch.lanes c.gang p
    let addr := fun l => effAddr true (g.arch.base ub true a.toNat l) (litOff off)
    (if ub then g.arch.badUs (uRegs a.toNat true) = false
     else ∀ l ∈ lanes, ∀ r ∈ uRegs a.toNat true, g.arch.badV r l = false) →
    (∀ l ∈ lanes, s.Maps g .drop (addr l) (place (addr l))) →
    ∃ rs, exec (.prfg p a ub f1 off) s = .next { (s.putGroup s.who g) with
        reqs := s.reqs ++ rs, nextId := s.nextId + lanes.length } ∧
      rs.map (fun q => (q.act, q.lane, q.va, q.place)) = (lanes.filter fun l => (place (addr l)).tgt != 1).map
        fun l => (.prefetch f1, l, addr l, some (place (addr l))))

/-- Loads, stores, atomics and prefetches at their home (R53, R161, R165, R172, R173, R175, R312, R315, R349). -/
def Obligations.GlobalAccessesPerform : Prop :=
  ∀ (s : State) (r : Nat) (q : Req) (p : Place), s.Performs r q → q.place = some p → p.tgt < 3 → s.Serves q p →
  let up := p.tgt = 2 → s.peerUp p = true
  (∀ path w d, q.act = .store path w d → path ≠ .scr → up →
    ∃ t, exec (.globalAccessPerform r) s = .next t ∧ s.WroteBytes t p.tgt p.pa (leBytes w d) ∧ t.groups = s.groups ∧
      t.blocks = s.blocks ∧ (if path = .direct then t.reqs = (s.putReq { q with reply := some [] }).reqs
        else t.reqs = s.reqs.filter (·.id != r))) ∧
  (∀ op ty b k, q.act = .atomic false op ty b k → up →
    let w := if ty = 3 then 8 else 4
    let old := leNat (s.readHome p.tgt p.pa w)
    ∃ t, exec (.globalAccessPerform r) s = .next t ∧
      s.WroteBytes t p.tgt p.pa (leBytes w (atomicOp op ty old b k)) ∧ t.groups = s.groups ∧ t.blocks = s.blocks ∧
      (∀ pid, q.pid = some pid → s.badMem p.tgt p.pa w = false →
        t.reqs = (s.putReq { q with reply := some (atomicRets q pid ty old false) }).reqs)) ∧
  (∀ path w sx pid, q.act = .load path w sx → q.pid = some pid →
    path ≠ .scr →
    (p.tgt = 1 ∨ s.hitLine q.core path p = none → (path = .phys → p.pa < capBase) → up →
      ∃ t, exec (.globalAccessPerform r) s = .next t ∧ t.mem = s.mem ∧ t.host = s.host ∧ t.peer = s.peer ∧
        t.groups = s.groups ∧ t.blocks = s.blocks ∧
        let rets := loadRets q pid w sx (s.overlay q (s.readHome p.tgt p.pa w)) (s.badMem p.tgt p.pa w)
        t.reqs = (s.putReq { q with reply := some rets }).reqs) ∧
    (∀ l, p.tgt ≠ 1 → s.hitLine q.core path p = some l →
      let bs := (List.range w).map fun i => l.data.getD (p.pa % 128 + i) 0
      exec (.globalAccessPerform r) s = .next (s.putReq { q with
        reply := some (loadRets q pid w sx (s.overlay q bs) ((granules (p.pa % 128) w).any l.bad.contains)) })) ∧
    (p.tgt ≠ 2 → path = .phys → capBase ≤ p.pa → 
      let bs := (List.range w).map fun i => s.capByte none (p.pa - capBase + i)
      exec (.globalAccessPerform r) s = .next (s.putReq { q with reply := some (loadRets q pid w sx (s.overlay q bs) false) })) ∧
    (p.tgt = 2 → s.peerUp p = false → s.hitLine q.core path p = none →
      exec (.globalAccessPerform r) s =
        .next (s.putReq { q with reply := some (loadRets q pid w sx (List.replicate w 0) true) }))) ∧
  (∀ path w d, q.act = .store path w d → path ≠ .scr → p.tgt = 2 → s.peerUp p = false →
    exec (.globalAccessPerform r) s = .next { s with reqs := s.reqs.filter (·.id != r) }) ∧
  (∀ l1, q.act = .prefetch l1 → up →
    ∃ t, exec (.globalAccessPerform r) s = .next t ∧ t.mem = s.mem ∧ t.host = s.host ∧ t.peer = s.peer ∧
      t.groups = s.groups ∧ t.blocks = s.blocks ∧ t.reqs = s.reqs.filter (·.id != r))

/-- Scratchpad accesses at their bank (R175, R188, R192, R193, R308). -/
def Obligations.ScratchpadArrivals : Prop :=
  ∀ (s : State) (r : Nat) (q : Req) (h : Nat) (g : Group) (b : Block) (a : Alloc), s.Performs r q → q.act.isScr = true →
  q.lost = none → s.handleOf q.grp = some h → s.group h = some g → Store.find s.blocks g.block = some b →
  b.laneAlloc q.va = some a →
  let wrote := fun (t : State) (bs : List Byte) => ∃ b', Store.find t.blocks g.block = some b' ∧
    ∀ x, b'.scr.read x = if q.va ≤ x ∧ x < q.va + bs.length then bs.getD (x - q.va) 0 else b.scr.read x
  (a.serves g.uid = true → a.before q.grp q.id = true → q.act.isStore = true →
    ∃ t b', exec (.scratchpadArrival r) s = .next t ∧ Store.find t.blocks g.block = some b' ∧ b'.scr = b.scr ∧
      t.groups = s.groups ∧ t.mem = s.mem ∧ t.reqs = s.reqs.filter (·.id != r)) ∧
  (a.serves g.uid = true → a.before q.grp q.id = false →
    (∀ path w d, q.act = .store path w d → ∃ t, exec (.scratchpadArrival r) s = .next t ∧ wrote t (leBytes w d) ∧
      t.groups = s.groups ∧ t.mem = s.mem ∧ t.host = s.host ∧ t.peer = s.peer ∧ t.reqs = s.reqs.filter (·.id != r)) ∧
    (∀ scr op ty x k, q.act = .atomic scr op ty x k →
      let w := if ty = 3 then 8 else 4
      let old := leNat (b.scr.readN q.va w)
      ∃ t, exec (.scratchpadArrival r) s = .next t ∧ wrote t (leBytes w (atomicOp op ty old x k)) ∧
        t.groups = s.groups ∧ t.mem = s.mem ∧ t.host = s.host ∧ t.peer = s.peer ∧
        (∀ pid, q.pid = some pid → (granules q.va w).any b.scrPoison.contains = false →
          t.reqs = (s.putReq { q with reply := some (atomicRets q pid ty old false) }).reqs)) ∧
    (∀ path w sx pid, q.act = .load path w sx → q.pid = some pid →
      let rets := loadRets q pid w sx (s.overlay q (b.scr.readN q.va w)) ((granules q.va w).any b.scrPoison.contains)
      exec (.scratchpadArrival r) s = .next (s.putReq { q with reply := some rets }))) ∧
  (a.serves g.uid = false →
    (q.act.isLoad = true → g.canUndo q.id = true →
      exec (.scratchpadArrival r) s = .next (s.putReq { q with lost := some (6, a.base, a.handler) })) ∧
    (q.act.isStore = true → ∃ t g', exec (.scratchpadArrival r) s = .next t ∧ t.blocks = s.blocks ∧ t.mem = s.mem ∧
      t.group h = some g' ∧ g'.arch = g.arch ∧ (∃ d ∈ g'.deferred, d.clause = q.clause) ∧
      t.reqs = s.reqs.filter (·.id != r)))

/-- CPL, CPT.LD, CPT.ST, CPM, CPR and LNCH submit their operations (R185, R203, R207, R211, R215, R217, R218, R219,
R292). -/
def Obligations.CopyWords : Prop :=
  ∀ (s : State) (g : Group) (c : Cur), s.Issues g c →
  (∀ (p : Pred) (d a : BitVec 7) (dir sz : BitVec 2) (cl : Bool),
    let w := szBytes (sz.toNat + 2)
    let gs := dir = 0 ∨ dir = 3
    let gd := dir = 1 ∨ dir = 3
    let lanes := g.arch.lanes c.gang p
    let src := fun l => g.arch.base false gs a.toNat l
    let dst := fun l => g.arch.base false gd d.toNat l
    ((∀ l ∈ lanes, ∀ r ∈ uRegs a.toNat gs ++ uRegs d.toNat gd, g.arch.badV r l = false) →
    (∀ l ∈ lanes, src l % w = 0 ∧ dst l % w = 0 ∧ (¬gs → s.inOne g (src l) w = true) ∧ (¬gd → s.inOne g (dst l) w = true)) →
    s.Submits s g c (.cpl p d a dir sz cl) [] (if cl then 2 else 0) (.cpl (lanes.map fun l => (dst l, src l)) dir.toNat w)
      (w * lanes.length)) ∧
    (∀ pre l post, lanes = pre ++ l :: post → (∀ k ∈ pre, src k % w = 0 ∧ dst k % w = 0) →
      (∀ k ∈ lanes, ∀ r ∈ uRegs a.toNat gs ++ uRegs d.toNat gd, g.arch.badV r k = false) →
      (∀ k ∈ lanes, (¬gs → s.inOne g (src k) w = true) ∧ (¬gd → s.inOne g (dst k) w = true)) →
      (src l % w ≠ 0 ∨ dst l % w ≠ 0) →
      exec (.cpl p d a dir sz cl) s = .next (s.raise s.who g
        (misaligned (BitVec.ofNat 32 l) (if src l % w ≠ 0 then src l else dst l))))) ∧
  (∀ (o : Cpt) (m : BitVec 4),
    let at_ := (g.arch.readS o.sr.toNat).toNat
    let kind := fun st m => OpKind.cpt at_ (g.arch.readS o.sd.toNat).toNat
      ((List.range 5).map fun i => g.arch.readS (o.sc.toNat + i)) ((List.range 5).map fun i => g.arch.badS (o.sc.toNat + i)) st m
    g.arch.badUs [o.sr.toNat, o.sd.toNat] = false →
    (at_ % 64 = 0 →
      s.Submits s g c (.cptLd o) [] (if o.cl then 2 else 0) (kind false 0) 0 ∧
      s.Submits s g c (.cptSt o) [] (if o.cl then 2 else 0) (kind true 0) 0 ∧
      ((s.team g).length = 4 → m ≠ 0 → s.Submits s g c (.cpm o (m.setWidth 32)) [] 0 (kind false m.toNat) 0)) ∧
    (at_ % 64 ≠ 0 → ∀ i ∈ [Instr.cptLd o, .cptSt o], exec i s = .next (s.raise s.who g (misaligned noLane at_))) ∧
    (at_ % 64 ≠ 0 → (s.team g).length = 4 → m ≠ 0 →
      exec (.cpm o (m.setWidth 32)) s = .next (s.raise s.who g (misaligned noLane at_)))) ∧
  (∀ (sa sb : BitVec 6) (lit : Word),
    let x := lit.toNat
    let n := (g.arch.readS (x % 64)).toNat
    let dst := g.arch.readS64 sa.toNat
    let src := (g.arch.readS sb.toNat).toNat
    let legal := x < 1024 ∧ x / 64 % 4 ≠ 3 ∧ x / 256 % 4 ≠ 3 ∧ 1 ≤ n ∧ n ≤ 2 ^ 20
    g.arch.badUs (uRegs sa.toNat true ++ [sb.toNat, x % 64]) = false →
    (legal → dst % 4 = 0 → src % 4 = 0 →
      s.Submits s g c (.cpr sa sb lit) [] 2 (.cpr src dst n (x / 64 % 4) (x / 256 % 4)) (4 * n)) ∧
    (legal → dst % 4 ≠ 0 → exec (.cpr sa sb lit) s = .next (s.raise s.who g (misaligned noLane dst))) ∧
    (legal → dst % 4 = 0 → src % 4 ≠ 0 → exec (.cpr sa sb lit) s = .next (s.raise s.who g (misaligned noLane src))) ∧
    (¬legal → exec (.cpr sa sb lit) s = .next (s.raise s.who g illegal))) ∧
  (∀ sa sb : BitVec 6, let at_ := g.arch.readS64 sa.toNat
    g.arch.badUs (uRegs sa.toNat true ++ [sb.toNat]) = false →
    (at_ % 256 = 0 →
      s.Submits s g c (.lnch sa sb) [.fence 5 1] 2 (.lnch at_ (g.arch.readS sb.toNat).toNat) 256) ∧
    (at_ % 256 ≠ 0 → exec (.lnch sa sb) s = .next (s.raise s.who g (misaligned noLane at_))))

/-- TCLOSE, TWAIT and TSTAT (R203, R204, R206, R207). -/
def Obligations.TimelineWords : Prop :=
  ∀ (s : State) (g : Group) (c : Cur) (sd sa : BitVec 6) (tl : BitVec 2), s.Issues g c → tl.toNat < g.arch.tls.length →
  let t := g.arch.tl tl.toNat
  (∃ q : Req, q.act = .tclose tl.toNat ∧ q.grp = g.uid ∧ exec (.tclose sd tl) s = .next { (s.putGroup s.who { g with
      arch := (g.arch.modTl tl.toNat fun t => { t with l := t.l + 1, entries := t.entries ++ [⟨none, false, 0, 0⟩] }).writeS
        sd.toNat ((t.l + 1).setWidth 32),
      cur := some { c with held := c.held ++ [q] } }) with nextId := s.nextId + 1 }) ∧
  exec (.twait tl sa) s = .next (s.withArch g g.arch) ∧
  (∀ e ∈ ([(0, t.status), (2, t.c.setWidth 32), (3, t.bytes.setWidth 32), (4, t.l.setWidth 32)] : List (BitVec 3 × Word)),
    exec (.tstat sd tl e.1) s = .next (s.withArch g (g.arch.writeS sd.toNat e.2))) ∧
  exec (.tstat sd tl 1) s = .next (s.withArch g
    ((g.arch.writeS sd.toNat t.status).modTl tl.toNat fun t => { t with status := 0 }))

/-- The matrix words submit their operations (R237, R238, R239, R240, R241, R243, R246, R247, R248). -/
def Obligations.MatrixWords : Prop :=
  ∀ (s : State) (g : Group) (c : Cur) (b : Block), s.Issues g c → s.blockOf g = some b →
  (∀ (h : BitVec 4) (sa sd : BitVec 6) (int : Bool), g.arch.badS sa.toNat = false →
    let x := (g.arch.readS sa.toNat).toNat
    let m := x % 2 ^ 16
    let n := x / 2 ^ 16
    let shaped := m % 16 = 0 ∧ n % 16 = 0 ∧ 16 ≤ m ∧ m ≤ 128 ∧ 16 ≤ n ∧ n ≤ 192
    let fits := b.accUsed + 4 * m * n ≤ 1024 * b.accBudget
    let fails := fun k => s.Submits s (g.setS sd.toNat k) c (.acalloc h sa sd int) [] 1 (.none 0x64) 0
    (Store.find b.ach h.toNat ≠ none → fails 1) ∧ (Store.find b.ach h.toNat = none → ¬shaped → fails 3) ∧
    (Store.find b.ach h.toNat = none → shaped → ¬fits → fails 2) ∧
    (Store.find b.ach h.toNat = none → shaped → fits →
      s.Submits
        (({ s with nextId := s.nextId + 1 } : State).setBlock g.block
          { b with acs := Store.put b.acs s.nextId ⟨int, m, n, [], none, []⟩, ach := Store.put b.ach h.toNat s.nextId })
        (g.setS sd.toNat 0) (c.takesBack s.nextId [.acBind g.block h.toNat s.nextId])
        (.acalloc h sa sd int) [] 1 (.acc 0 s.nextId s.nextId 0 1 true) 0)) ∧
  (∀ (h : BitVec 4) (st : Nat) (a : Acc), b.acc h.toNat = some (st, a) →
    s.Submits (s.setBlock g.block { b with ach := b.ach.del h.toNat }) g
      (c.takesBack s.nextId [.acFree g.block h.toNat st]) (.acfree h) [] 1 (.none (0x64 + 128)) 0 ∧
    s.Submits s g c (.acz h) [] 1 (.acc 0 st st 0 0 true) 0 ∧
    (∀ (hs : BitVec 4) (st2 : Nat) (a2 : Acc), b.acc hs.toNat = some (st2, a2) →
      (a2.m = a.m → a2.n = a.n → a2.int = a.int → s.Submits s g c (.acadd h hs) [] 1 (.acc 1 st st2 0 0 true) 0) ∧
      (a2.m ≠ a.m ∨ a2.n ≠ a.n ∨ a2.int ≠ a.int → exec (.acadd h hs) s = .next (s.raise s.who g illegal))) ∧
    (∀ o : AcIo, o.h = h → g.arch.badUs (uRegs o.sa.toNat true) = false →
      let map := BitVec.ofNat 64 (g.arch.readS64 o.sa.toNat)
      let slot := b.slots.getD o.slot.toNat 0
      mapT map = false →
      mapOk map (rowBytes a.n (ioWidth slot o.raw) (if o.raw then 0 else slotScale slot)) = true →
      (o.raw = false → slotOk slot = true ∧ Fmt.ofCode (slotFmt slot) ≠ none) →
      ((o.raw = false → a.int = false ∧ slotFmt slot < 3 ∧ slotScale slot = 0) →
        s.Submits s g c (.acld o) [] 1 (.acc 2 st st map o.slot.toNat o.raw) 0) ∧
      ((o.raw = false → slotScale slot = 0 ∨ a.n % 32 = 0) →
        s.Submits s g c (.acst o) [] 1 (.acc 3 st st map o.slot.toNat o.raw) 0)) ∧
    (∀ (o : Mma) (k : BitVec 4) (sm : BitVec 6), o.h = h →
      g.arch.badUs (uRegs o.sa.toNat true ++ uRegs o.sb.toNat true) = false →
      let kk := 16 * (k.toNat + 1)
      let ma := BitVec.ofNat 64 (g.arch.readS64 o.sa.toNat)
      let mb := BitVec.ofNat 64 (g.arch.readS64 o.sb.toNat)
      let md := (g.arch.readS sm.toNat).toNat
      let slot := b.slots.getD o.slot.toNat 0
      (o.lit = k.setWidth 32 →
        (mmaFate s g slot a.int a.m a.n kk ma mb none = none →
          s.Submits s g c (.mma o) [] 1 (.mma st ma mb kk none o.slot.toNat o.z o.r) 0) ∧
        (mmaFate s g slot a.int (2 * a.m) (2 * a.n) kk ma mb none = none → (s.team g).length = 4 →
          s.Submits s g c (.mmaT o) [] 1 (.mmaT h.toNat st a.int a.m a.n ma mb kk o.slot.toNat o.z o.r) 0)) ∧
      (o.lit = (sm ++ k).setWidth 32 → g.arch.badS sm.toNat = false → mmaFate s g slot a.int a.m a.n kk ma mb (some md) = none →
        s.Submits s g c (.mmas o) [] 1 (.mma st ma mb kk (some md) o.slot.toNat o.z o.r) 0))) ∧
  (∀ (sa sb ss sd : BitVec 6) (skew : BitVec 2) (tr : Bool),
    let base := (g.arch.readS sa.toNat).toNat
    let pitch := (g.arch.readS sb.toNat).toNat
    let scl := (g.arch.readS ss.toNat).toNat
    let lit : Word := BitVec.ofNat 32 (sd.toNat + 64 * ss.toNat + 2 ^ 12 * skew.toNat + (if tr then 2 ^ 14 else 0))
    g.arch.badUs [sa.toNat, sb.toNat, ss.toNat] = false → sd.toNat % 2 = 0 → base < 2 ^ 21 → base % 16 = 0 →
    pitch < 2 ^ 21 → pitch % 16 = 0 → scl < 2 ^ 21 → scl % 4 = 0 → (skew ≠ 0 → pitch ≠ 0) →
    exec (.omap sa sb lit) s = .next (s.withArch g (g.arch.writeS64 sd.toNat
      (base + 2 ^ 21 * pitch + 2 ^ 42 * skew.toNat + (if tr then 2 ^ 44 else 0) + 2 ^ 45 * (scl / 4)))))

/-- The lookup words (R259, R262, R263, R264, R269, R272, R275, R278; the model's choices and readings: log 53). -/
def Obligations.LookupWords : Prop :=
  ∀ (s : State) (g : Group) (c : Cur) (b : Block), s.Issues g c → s.blockOf g = some b →
  (∀ (h : BitVec 4) (sa sd : BitVec 6) (slot : BitVec 3) (lit : Word), g.arch.badS sa.toNat = false →
    let x := (g.arch.readS sa.toNat).toNat
    let sl := b.slots.getD slot.toNat 0
    let rank := x / 2 ^ 25
    let cb := x / 2 ^ 24 % 2 == 1
    let y := x / 2 ^ 16 % 2 ^ 8
    let n := x % 2 ^ 16
    let shaped := 1 ≤ n ∧ n ≤ 4096 ∧ 1 ≤ y ∧ y ≤ 16 ∧ rank < 8
    let writes := fun k => exec (.tballoc h sa sd slot lit) s = .next (s.putGroup s.who (g.setS sd.toNat k))
    (b.tbh ≤ h.toNat ∨ tableSlotOk sl = false →
      exec (.tballoc h sa sd slot lit) s = .next (s.raise s.who g illegal)) ∧
    (h.toNat < b.tbh → tableSlotOk sl = true →
      (Store.find b.tbn h.toNat ≠ none → writes 1) ∧
      (Store.find b.tbn h.toNat = none →
        (¬shaped → writes 3) ∧
        (shaped → ∀ k, s.placeTable g.core b rank n (groupBytes cb y (entBytes sl)) = .error k → writes k) ∧
        (shaped → ∀ p, s.placeTable g.core b rank n (groupBytes cb y (entBytes sl)) = .ok p →
          let undo : List Undo := [.tbBind g.block h.toNat s.nextId, .tbHold g.block s.nextId s.nextId (p.spill.map Prod.fst)]
          ∃ t : State, exec (.tballoc h sa sd slot lit) s = .next t ∧
            t.group s.who = some { (g.setS sd.toNat 0) with cur := some (c.takesBack s.nextId undo) } ∧
            t.reqs = s.reqs ∧ t.mem = s.mem ∧
            ∃ b' tb, Store.find t.blocks g.block = some b' ∧ b'.tbl h.toNat = some (s.nextId, tb) ∧ tb.built = false ∧
              tb.valid = false ∧ tb.cb = cb ∧ tb.y = y ∧ tb.g = n ∧ tb.rank = rank ∧ tb.slot = slot.toNat ∧
              tb.handler = target c.hdr lit.toNat 32)))) ∧
  (∀ (h : BitVec 4) (sn : Nat) (t : Tbl), b.tbl h.toNat = some (sn, t) →
    (t.spilled = true → s.Submits (s.setBlock g.block { b with tbn := b.tbn.del h.toNat }) g
      (c.takesBack s.nextId [.tbFree g.block h.toNat sn]) (.tbfree h) [] 1 (.tbfree sn) 0) ∧
    (t.spilled = false → s.Submits
      (s.setBlock g.block (({ b with tbn := b.tbn.del h.toNat } : Block).modTbe t.st (·.hold t.res false))) g
      (c.takesBack s.nextId [.tbFree g.block h.toNat sn, .tbKeep g.block t.st t.res]) (.tbfree h) [] 1 (.tbfree sn) 0) ∧
    (∀ sd : BitVec 6, exec (.tbstat h sd) s = .next (s.putGroup s.who (g.setS sd.toNat
      (bit t.built 31 + bit t.valid 30 + bit t.lost 29 + bit t.spilled 28 + bit t.cb 27 + t.rank * 2 ^ 24 +
        t.cause / 2 ^ 28 * 2 ^ 20 + t.slot * 2 ^ 17 + t.gs)))) ∧
    (∀ (sa sd : BitVec 6), g.arch.badS sa.toNat = false →
      let off := (g.arch.readS sa.toNat).toNat
      let spill := { t with spilled := true, cause := causeWord 10 t.h 0 }
      (off % 64 = 0 → t.built = true → t.spilled = false → t.lost = false →
        s.Submits (({ s with nextId := s.nextId + 1 } : State).setBlock g.block (b.bindTbl h.toNat s.nextId spill))
          (g.setS sd.toNat 0) (c.takesBack s.nextId [.tbNew g.block h.toNat sn s.nextId []]) (.tbspill h sa sd) [] 1
          (.tbspill s.nextId off) 0) ∧
      (off % 64 = 0 → t.built = false ∨ t.spilled = true ∨ t.lost = true →
        s.Submits s (g.setS sd.toNat 6) c (.tbspill h sa sd) [] 1 (.none (0x6D + 128)) 0) ∧
      (t.spilled = false → t.lost = false →
        s.Submits s (g.setS sd.toNat 5) c (.tbfill h sa sd) [] 1 (.none (0x6D + 256)) 0) ∧
      (t.spilled = true ∨ t.lost = true → ∀ b1 t1 us, s.replaceTable g.core b t = some (b1, t1, us) →
        s.Submits (({ s with nextId := s.nextId + 1 } : State).setBlock g.block (b1.bindTbl h.toNat s.nextId t1))
          (g.setS sd.toNat 0) (c.takesBack s.nextId [.tbNew g.block h.toNat sn s.nextId us]) (.tbfill h sa sd) [] 1
          (.tbfill s.nextId off t.spilled) 0)) ∧
    (∀ (sa sd sc : BitVec 6) (k : Nat) (cb : Bool), (cb = true → 1 ≤ k ∧ k ≤ 16) → t.spilled = false → t.lost = false → t.cb = cb →
      g.arch.badUs (uRegs sa.toNat true ++ [sc.toNat]) = false → (cb = false → sc = 63 ∧ k = t.n) →
      let map := BitVec.ofNat 64 (g.arch.readS64 sa.toNat)
      let cent := (g.arch.readS sc.toNat).toNat
      let w := match Fmt.ofCode (slotFmt (b.slots.getD t.slot 0)) with | some f => f.width | none => 32
      let rb := rowBytes (4 * t.g) w 0
      let len := (t.y - 1) * mapPitch map + (if mapSkew map = 0 then rb else mapPitch map)
      mapT map = false → mapOk map rb = true → s.inOne g (mapBase map) len = true →
      (cb = true → s.inOne g cent ((4 * k * w + 7) / 8) = true) →
      let t1 := { t with built := true, valid := true, lo := mapBase map, hi := mapBase map + len - 1, armed := true,
                         armUid := g.uid, armId := s.nextId, cause := 0, n := k }
      let i := if cb then Instr.tbuildCb h sa sd (BitVec.ofNat 32 (sc.toNat + 64 * k)) else .tbuildBp h sa sd
      s.Submits (({ s with nextId := s.nextId + 1 } : State).setBlock g.block (b.bindTbl h.toNat s.nextId t1))
        (g.setS sd.toNat 0) (c.takesBack s.nextId [.tbNew g.block h.toNat sn s.nextId []]) i [] 1 (.tbuild s.nextId map cent) 0) ∧
    (∀ (o : Lmma) (sk : BitVec 6) (st : Nat) (a : Acc), o.tb = h → o.lit = sk.setWidth 32 → b.acc o.h.toNat = some (st, a) →
      s.ownWrites g b = [] → g.arch.badUs (uRegs o.sa.toNat true ++ [o.sb.toNat, sk.toNat]) = false →
      let map := BitVec.ofNat 64 (g.arch.readS64 o.sa.toNat)
      let sc := (g.arch.readS o.sb.toNat).toNat
      let x := (g.arch.readS sk.toNat).toNat
      let kg := x / 2 ^ 16
      let planes := o.planes.toNat + 1
      (t.cb = true → planes = 1) → a.int = decide (3 ≤ slotEnt (b.slots.getD t.slot 0)) → t.y ≤ a.m → mapT map = false →
      mapOk map ((kg % 2 ^ 13 + 1) / 2) = true → ¬(o.z = true ∧ o.r = true) → sc % 2 = 0 →
      (∀ r ∈ mapRanges map (planes * a.n) (kg % 2 ^ 13) 4 0 0, r.2 ≠ 0 → s.inOne g r.1 r.2 = true) →
      s.inOne g sc (2 * planes * a.n) = true →
      (t.usable = true → 1 ≤ kg → x % 2 ^ 16 + kg ≤ t.g → t.g < 2 ^ 13 →
        s.Submits s g c (.lmma o) [] 1 (.lmma st sn map sc x planes t.n o.z o.r) 0) ∧
      (t.usable = false → exec (.lmma o) s = .next (s.raise s.who g
        (.inGroup 7 t.handler (2 ^ 31 + t.h) (t.cause % 2 ^ 21) t.cause)))))

/-- The scratchpad allocation words (R187, R188, R190, R194, R195, R196, R197, R199; the model's choices and
readings: log 83). -/
def Obligations.AllocationWords : Prop :=
  ∀ (s : State) (g : Group) (c : Cur) (b : Block), s.Issues g c → s.blockOf g = some b →
  let writes := fun (i : Instr) (sd : BitVec 6) (k : Nat) => exec i s = .next (s.putGroup s.who (g.setS sd.toNat k))
  let holds := fun (i : Instr) (act : Act) (g1 : Group) => ∃ q : Req, q.act = act ∧ q.grp = g.uid ∧
    exec i s = .next { (s.putGroup s.who { g1 with cur := some { c with held := c.held ++ [q] } }) with
      nextId := s.nextId + 1 }
  (∀ (rank : BitVec 3) (sa sd : BitVec 6) (lit : Word), g.arch.badS sa.toNat = false →
    let i := Instr.salloc rank sa sd lit
    let n := (g.arch.readS sa.toNat).toNat
    let bs := s.banks g.core
    let size := n ≠ 0 ∧ n % 1024 = 0 ∧ n ≤ 1572864
    (¬size → writes i sd 0x80000004) ∧
    (size → 64 ≤ b.allocs.length ∨ b.freeBase (n / 1024) = none → writes i sd 0x80000003) ∧
    (size → b.allocs.length < 64 → ∀ base, b.freeBase (n / 1024) = some base →
      (rank = 0 → freeAnchors bs < n / 1024 → writes i sd 0x80000002) ∧
      ((rank = 0 → n / 1024 ≤ freeAnchors bs) → freeRows bs < n / 1024 → writes i sd 0x80000001) ∧
      ((rank = 0 → n / 1024 ≤ freeAnchors bs) → n / 1024 ≤ freeRows bs →
        ∀ rows, placeRows (n / 1024) rank.toNat bs = some rows →
          exec i s = .next ((({ s with nextId := s.nextId + 1 } : State).setBlock g.block
            (b.addAlloc s.nextId base (n / 1024) rank.toNat (target c.hdr lit.toNat 32) rows none (some (g.uid, s.nextId)))).putGroup s.who
              { (g.setS sd.toNat base) with cur := some (c.takesBack s.nextId [.alloc g.block s.nextId]) })))) ∧
  (∀ sa sd : BitVec 6, g.arch.badS sa.toNat = false →
    let off := (g.arch.readS sa.toNat).toNat
    writes (.squery sa sd) sd (queryWord (b.allocAt off) g.uid) ∧
    (b.allocAt off = none → exec (.sfree sa) s = .next (s.raise s.who g (.trap 4 4 noLane off)) ∧
      writes (.srestore sa sd) sd 4 ∧ writes (.srestoreDone sa sd) sd 4 ∧ ∀ rank, writes (.srank rank sa sd) sd 4) ∧
    (∀ a : Alloc, b.allocAt off = some a →
      holds (.sfree sa) (.sfree a.aid) g ∧
      (a.state = .live → writes (.srestore sa sd) sd 2) ∧
      (∀ o, a.state = .rebuilding o → writes (.srestore sa sd) sd (if o = g.uid then 2 else 1)) ∧
      (a.state = .lost → placeRows a.granules a.rank (s.banks g.core) = none → writes (.srestore sa sd) sd 3) ∧
      (a.state = .lost → ∀ rows, placeRows a.granules a.rank (s.banks g.core) = some rows →
        ∃ q : Req, q.act = .szero (1024 * a.granules) ∧ q.va = a.base ∧ q.grp = g.uid ∧ q.id = s.nextId ∧
          exec (.srestore sa sd) s = .next ((({ s with nextId := s.nextId + 1 } : State).setBlock g.block
            (b.setAlloc { a with state := .rebuilding g.uid, rows := rows, donePend := none,
                                 zeroed := some (g.uid, s.nextId) })).putGroup s.who
            { (g.setS sd.toNat 0) with
              cur := some (({ c with held := c.held ++ [q] } : Cur).takesBack s.nextId [.restore g.block s.nextId]) })) ∧
      (a.state = .rebuilding g.uid → a.donePend ≠ none → writes (.srestoreDone sa sd) sd 0) ∧
      (a.state = .rebuilding g.uid → a.donePend = none →
        let a1 := if s.writing g.uid s.nextId g.block a then { a with donePend := some s.nextId }
          else { a with state := .live, donePend := none }
        exec (.srestoreDone sa sd) s = .next ((({ s with nextId := s.nextId + 1 } : State).setBlock g.block
          (b.setAlloc a1)).putGroup s.who
          { (g.setS sd.toNat 0) with cur := some (c.takesBack s.nextId [.done g.block a.aid g.uid]) })) ∧
      (a.state ≠ .rebuilding g.uid → writes (.srestoreDone sa sd) sd 5) ∧
      (∀ rank : BitVec 3,
        (rank = 0 → (∃ r ∈ a.rows, 4 ≤ r.1) → writes (.srank rank sa sd) sd 1) ∧
        ((rank = 0 → ∀ r ∈ a.rows, r.1 < 4) → holds (.srank rank sa sd) (.srank a.aid rank.toNat) (g.setS sd.toNat 0))))) ∧
  (∀ sd : BitVec 6, writes (.squeryCnt sd) sd b.lostCount.toNat) ∧
  (g.arch.lhret ≠ [] →
    exec .lhret s = .next (s.putGroup s.who { g with cur := some { c with commit := true, lhret := true } })) ∧
  (g.arch.lhret = [] → exec .lhret s = .next (s.raise s.who g illegal))

/-- Decode, commit, retirement, strikes and the active set (R47, R48, R51, R54, R55, R57, R58, R59, R85, R100, R193,
R198). -/
def Obligations.ClauseSteps : Prop :=
  ∀ (s : State) (h : Nat) (g : Group), s.group h = some g →
  (∀ s1 c, g.atBoundary = true → g.deferred = [] → s.nextClause g = (s1, .go c) →
    exec (.clauseDecode h) s = .next (s1.putGroup h
      { g with cur := some c, waits := false, arch := g.arch.advance c.gang c.nextPc })) ∧
  (g.waits = true → s.canIssue g = true →
    exec (.waitSatisfied h) s = .next (s.putGroup h { g with waits := false, readySince := s.now })) ∧
  (∀ af, g.after = some af → af.commit = true → g.hold = .free → g.badRets = [] → g.allReturned = true → g.popped = false →
    let a := g.arch.pend.foldl (fun a p => a.commitPend g.rets p) g.arch
    exec (.commitPoint h) s = .next ((s.putGroup h
      (({ g with arch := { a with pend := [] }, after := some { af with commit := false } } : Group).pruneRets)).settleAfter h)) ∧
  (∀ r rest, g.unret = r :: rest → s.retirable g = true → g.hold = .free → g.done = false → g.ended = false →
    ((∀ q ∈ r.held, ∀ c, q.act ≠ .spawn c) → exec (.clauseRetire h) s = .next (s.putGroup h
      (({ g with unret := rest, outq := g.outq ++ r.held } : Group).pruneRets))) ∧
    (∀ q c, r.held = [q] → q.act = .spawn c → handle g.core c.ctx ≠ h →
      ∃ t g', exec (.clauseRetire h) s = .next t ∧ t.group (handle g.core c.ctx) = some g' ∧ g'.role = g.role ∧
        g'.block = g.block ∧ g'.team = g.team ∧ g'.hold = .free ∧ g'.vregs = c.vregs ∧
        g'.arch = Arch.placed c.slices c.entry c.params (s.core g.core).macros)) ∧
  (∀ core r rest, s.groups.filter (fun x => x.2.sorrel.isNone && x.2.core == core) = [(h, g)] → g.unret = r :: rest →
    g.hold = .free → g.cur = none → (∀ x ∈ g.unret, x.undo = []) →
    ∃ t g', exec (.strikeReport core) s = .next t ∧ t.group h = some g' ∧ g'.arch = r.snap ∧ g'.unret = [] ∧
      g'.strikes = g.strikes + 1 ∧ t.mem = s.mem ∧ t.blocks = s.blocks ∧ ∀ h', h' ≠ h → t.group h' = s.group h') ∧
  (∀ core, (s.core core).active.length < Config.activeMax → (∀ x ∈ s.activeGroups core, s.canIssue x.2 = true) →
    oldest (s.pending core) = some (h, g) →
    exec (.activeSetSwap core) s = .next (s.setCore core { s.core core with active := (s.core core).active ++ [h] })) ∧
  (∀ core y, oldest (s.urgent core) = some (h, g) → youngest (s.activeGroups core) = some y →
    (∃ z ∈ s.activeGroups core, z.2.cur = none) →
    exec (.urgentPromotion core) s = .next ((s.setCore core
      { s.core core with active := (s.core core).active.erase y.1 ++ [h] }).modGroup y.1 fun g => { g with readySince := s.now })) ∧
  (∀ d gang, g.atBoundary = true → g.unret = [] → g.deferred = [d] → g.arch.nextGang = some gang →
    s.deliverable g d = true → d.gang.any g.arch.liveSlices.contains = true → d.cls = 6 → d.restart = none →
    g.arch.lhret.length < 4 →
    ∃ t g', exec (.deferredFaultDelivery h) s = .next t ∧ t.group h = some g' ∧ g'.deferred = [] ∧
      g'.arch.lhret = g.restartPc :: g.arch.lhret ∧ g'.arch.lossid = BitVec.ofNat 32 d.obj ∧
      g'.arch.lossaddr = BitVec.ofNat 32 d.addr ∧
      (∀ j sl, g.arch.slices[j]? = some sl →
        g'.arch.slices[j]? = some (if gang.contains j && sl.live then { sl with pc := d.handler } else sl))) ∧
  (∀ q base handler r, s.reqs.filter (fun q => q.grp == g.uid) = [q] → q.lost = some (6, base, handler) →
    g.cur = none → g.hold = .free → g.unret = [r] → r.undo = [] → r.upto = q.id + 1 → r.snap.lhret.length < 4 →
    ∃ t g', exec (.lostLoadSignal h) s = .next t ∧ t.group h = some g' ∧ g'.unret = [] ∧
      g'.arch.lhret = q.hdr :: r.snap.lhret ∧ g'.arch.lossid = BitVec.ofNat 32 base ∧
      g'.arch.lossaddr = BitVec.ofNat 32 q.ea ∧ g'.arch.v = r.snap.v ∧ g'.arch.s = r.snap.s ∧ t.blocks = s.blocks ∧
      t.mem = s.mem ∧ (∀ j sl, r.snap.slices[j]? = some sl → q.gang.contains j = true → sl.live = true →
        g'.arch.slices[j]? = some { sl with pc := handler }))

/-- Steps of the copy, matrix and lookup engines (R203, R209, R211, R217, R219, R240, R245, R247, R249, R264, R270,
R277; the model's choices and readings: logs 5, 52, 78). -/
def Obligations.EngineSteps : Prop :=
  ∀ (s : State) (k : Nat) (op : Op) (h : Nat) (g : Group) (b : Block), s.Runs k op h g → Store.find s.blocks g.block = some b →
  s.CopyStepsOf k op h g b ∧ s.MatrixStepsOf k op h g b ∧ s.TableStepsOf k op g b ∧
  (∀ st tb map sc sk planes n z r a t, op.kind = .lmma st tb map sc sk planes n z r → op.started = true → op.ending = false →
    s.engineReady op.core true = some op → 8 * g.lmmaCycles s op (some (op.step + 1)) ≤ op.work →
    Store.find b.acs st = some a →
    Store.find b.tbs tb = some t → t.dark (b.tblData t.st) = false → (b.tblData t.st).gone = false →
    let g0 := sk % 2 ^ 13
    let kg := sk / 2 ^ 16 % 2 ^ 13
    let c := op.step / planes
    let p := op.step % planes
    let qs := (List.range (min 16 (kg - 16 * c))).map (16 * c + ·)
    let elem := fun j q => elemAt map 4 0 0 (p * a.n + j) q
    let weight := fun j => sc + 2 * (p * a.n + j)
    let offs := ((List.range a.n).map fun j =>
      weight j :: (weight j + 1) :: (qs.map fun q => (elem j q).reads).flatten).flatten
    op.step < (kg + 15) / 16 * planes → (∀ o ∈ offs, b.hit g.uid o 1 = .ok) →
    (∀ o, op.reading s.draws b offs = some o →
      ∃ u b', exec (.lookupEngineStep op.core) s = .next u ∧ Store.find u.blocks g.block = some b' ∧
        Store.find b'.acs st = some a ∧ b'.scr = b.scr ∧ u.mem = s.mem ∧ u.groups = s.groups ∧ u.op k = some o) ∧
    (op.reading s.draws b offs = none → let b1 := b.seen offs op.buf
      (t.cb = true → ∀ j q, j < a.n → q ∈ qs → (elem j q).code b1 4 < n) →
      ∃ u b' a', exec (.lookupEngineStep op.core) s = .next u ∧ Store.find u.blocks g.block = some b' ∧
        Store.find b'.acs st = some a' ∧ b'.scr = b.scr ∧ u.mem = s.mem ∧ u.groups = s.groups ∧
        ∀ i j, j < a.n → a'.get i j =
          if i < t.y then lmmaWord a.int (a.get i j)
            (qs.map fun q => look t n (b.tblData t.st) (entFmt (b.slots.getD t.slot 0)) (g0 + q) i ((elem j q).code b1 4))
            (b1.byte (weight j) + 256 * b1.byte (weight j + 1))
          else a.get i j)) ∧
  (∀ what st st2 map slot raw, op.kind = .acc what st st2 map slot raw → op.finished = true →
    s.headOp op.core false = some op →
    ∃ u g', exec (.matrixOpComplete op.core) s = .next u ∧ u.op k = none ∧ k ∉ (u.core op.core).matrixQ ∧
      u.group h = some g' ∧ g'.arch = g.arch.settleTl op.tl (·.opDone op) ∧ g'.slewcy = g.slewcy ∧ u.mem = s.mem) ∧
  (op.finished = true → op.ramps = false → s.headOp op.core true = some op →
    ∃ u g', exec (.lookupOpComplete op.core) s = .next u ∧ u.op k = none ∧ k ∉ (u.core op.core).lookupQ ∧
      u.group h = some g' ∧ g'.arch = g.arch.settleTl op.tl (·.opDone op) ∧ g'.slewcy = g.slewcy ∧ u.mem = s.mem) ∧
  (∀ cl e, e ∈ engines cl → s.requests e = true → (∀ e' ∈ engines cl, s.filler e' = false) →
    (∀ e' ∈ engines cl, e' ≠ e → s.requests e' = false) →
    let x := min ((s.cluster cl).inc + 1) (8 - s.engineLevel e)
    ∃ t, exec (.teleaselStepBoundary cl) s = .next t ∧ t.groups = s.groups ∧
      ∀ e', t.engineLevel e' = s.engineLevel e' + (if e' = e ∧ x ≤ (s.cluster cl).cap then x else 0))

/-- Page walks, fault records, replies, ordered sums and reducing copies (R49, R172, R177, R178, R179, R183, R184,
R219, R220, R341, R342; the model's choices and readings: logs 25, 55). -/
def Obligations.MemorySteps : Prop :=
  ∀ (s : State) (r : Nat) (q : Req), s.req r = some q → q.id = r →
  (∀ h g need p, q.act.need = some need → q.place = none → q.walk = none → q.reply = none →
    s.handleOf q.grp = some h → s.group h = some g → g.frozen = false → s.Maps g need q.va p →
    let s1 := if need = .directWrite then s.dropLines g.core p.tgt p.pa q.act.width else s
    exec (.pageWalkComplete r) s = .next (s1.putReq { q with place := some p })) ∧
  (∀ cl rec, (s.cluster cl).recs = [rec] → rec.kind ≠ 0 → rec.sent = false → (s.hq rec.part).room = true →
    let k := s.hq rec.part
    ∃ t, exec (.faultRecordForward cl rec.seq) s = .next t ∧ (t.cluster cl).recs = [{ rec with sent := true }] ∧
      t.hq rec.part = { k with tail := k.tail + 1 } ∧
      s.WroteBytes t 1 (k.base.toNat + 16 * (k.tail.toNat % 2 ^ k.log2size.toNat))
        (leBytes 8 (s.recordDwords cl rec).1 ++ leBytes 8 (s.recordDwords cl rec).2)) ∧
  (∀ cl rec g h, (s.cluster cl).recs = [rec] → rec.kind ≠ 0 → rec.waiters = [(1, h)] → s.group h = some g →
    (s.cluster cl).trapQ.length < 512 →
    ∃ t, exec (.faultAnswer cl rec.seq false) s = .next t ∧ (t.cluster cl).recs = [] ∧
      t.group h = some { g with parked := none, readySince := s.now } ∧
      ∃ e, (t.cluster cl).trapQ = (s.cluster cl).trapQ ++ [e] ∧ e.isTrap = false ∧ e.code = 1 ∧
        e.regs = [BitVec.ofNat 32 (rec.vpn * 2 ^ 16 + rec.asid), BitVec.ofNat 32 ((rec.vpn * 2 ^ 16 + rec.asid) / 2 ^ 32)]) ∧
  (∀ h g rs, q.reply = some rs → s.handleOf q.grp = some h → s.group h = some g → g.uid = q.grp → g.frozen = false →
    g.ended = false → (∀ x ∈ s.reqs, x.grp = q.grp → ∀ sc ord, x.act ≠ .fence sc ord) →
    let t := ({ s with reqs := s.reqs.filter (·.id != r) } : State).putGroup h
      (({ g with rets := g.rets ++ rs } : Group).pruneRets)
    let direct := (∃ w sx, q.act = .load .direct w sx) ∨ ∃ w d, q.act = .store .direct w d
    (¬direct → exec (.longLatencyReturn h r) s = .next t) ∧ (direct → exec (.directPathReply r) s = .next t)) ∧
  (∀ bf key v n p, q.act = .atomo bf key v n → q.place = some p → p.tgt = 0 → s.behindFence q = false →
    let c := s.cluster (homeCluster p.pa)
    c.osets = [] → (∀ h g, s.handleOf q.grp = some h → s.group h = some g → g.ended = false) → s.mayReach q p = true →
    (n ≠ 1 → ∃ t, exec (.atomoArrival r) s = .next t ∧ t.mem = s.mem ∧ t.host = s.host ∧ t.peer = s.peer ∧
      (t.cluster (homeCluster p.pa)).osets = [⟨p.pa, q.part, bf, n, [(key, v)], false⟩] ∧ t.reqs = s.reqs.filter (·.id != r)) ∧
    (n = 1 → let w := if bf then 2 else 4
      ∃ t, exec (.atomoArrival r) s = .next t ∧ (t.cluster (homeCluster p.pa)).osets = [] ∧
      s.WroteBytes t 0 p.pa (leBytes w (foldSet ⟨p.pa, q.part, bf, n, [(key, v)], false⟩ (leNat (s.readHome 0 p.pa w)))))) ∧
  (∀ cl, 4096 ≤ (s.cluster cl).bufferUse →
    ∃ t o, exec (.atomoEvict cl) s = .next t ∧ o ∈ (s.cluster cl).osets ∧ o.spilled = false ∧ o.items ≠ [] ∧
      (∀ x ∈ (s.cluster cl).osets, x.spilled = false → x.items.length ≤ o.items.length) ∧
      (t.cluster cl).osets = (s.cluster cl).osets.map (fun x => if x.addr = o.addr then { x with spilled := true } else x) ∧
      t.mem = s.mem ∧ t.groups = s.groups) ∧
  (∀ p o, q.act = .aflush → q.place = some p → p.tgt = 0 → s.canPerform q = true → s.mayReach q p = true →
    (∀ h g, s.handleOf q.grp = some h → s.group h = some g → g.ended = false) →
    (s.cluster (homeCluster p.pa)).osets = [o] → o.addr = p.pa → (o.part = 64 ∨ s.unitOk o.part p = true) →
    let w := if o.bf then 2 else 4
    ∃ t, exec (.aflushArrival r) s = .next t ∧ (t.cluster (homeCluster p.pa)).osets = [] ∧
      s.WroteBytes t 0 p.pa (leBytes w (foldSet o (leNat (s.readHome 0 p.pa w)))) ∧ t.reqs = s.reqs.filter (·.id != r)) ∧
  (∀ o ty v i p id w, q.act = .cprElem o ty v i → q.place = some p → p.tgt < 3 → (p.tgt = 2 → s.peerUp p = true) → q.pid = some id →
    (s.cluster (homeCluster p.pa)).windows = [w] → w.id = id → w.src = 0 → w.applied i = false →
    (∀ h g, s.handleOf q.grp = some h → s.group h = some g → g.ended = false) → s.mayReach q p = true →
    ∃ t, exec (.cprElementArrival r) s = .next t ∧ (t.cluster (homeCluster p.pa)).windows = [w.apply i] ∧
      s.WroteBytes t p.tgt p.pa (leBytes 4 (cprApply o ty (leNat (s.readHome p.tgt p.pa 4)) v)) ∧
      t.reqs = s.reqs.filter (·.id != r))

/-- The pool words hold their requests (R293, R296, R297, R299, R300, R302, R303, R304; the model's choices and
readings: log 54). -/
def Obligations.PoolWords : Prop :=
  ∀ (s : State) (g : Group) (c : Cur) (k : Block) (b : BitVec 3), s.Issues g c → s.blockOf g = some k →
  let pend := fun (reg n id : Nat) => { g with arch := { g.arch with pend := g.arch.pend ++
    [(⟨id, .uni, reg, false, ((List.range n).filter fun o => reg + o ≠ 63).map fun o => (0, o)⟩ : Pend)] } }
  (k.pools[b.toNat]? = none → let stops := fun i => exec i s = .next (s.raise s.who g illegal)
    stops (.pldrain b) ∧ (∀ sd w sel, stops (.plpop b sd w) ∧ stops (.plstat b sd sel)) ∧
    (∀ sa : BitVec 6, g.arch.badUs (uRegs sa.toNat true) = false → stops (.plcfg b sa) ∧
      ∀ (sb : BitVec 6) w lit, g.arch.badUs ((List.range 8).map (sb.toNat + ·)) = false → stops (.plpush b sa sb w lit))) ∧
  (∀ n, k.pools[b.toNat]? = some n →
    (∀ sa : BitVec 6, g.arch.badUs (uRegs sa.toNat true) = false →
      (k.poolAdm = true → s.Holds g c (.plcfg b sa) [.plcfg n (BitVec.ofNat 64 (g.arch.readS64 sa.toNat))] none g) ∧
      (k.poolAdm = false → exec (.plcfg b sa) s = .next (s.raise s.who g (.trap 3 3 noLane 0)))) ∧
    (∀ (sd : BitVec 6) (sel : BitVec 2),
      s.Holds g c (.plstat b sd sel) [.plstat n sel.toNat] (some s.nextId) (pend sd.toNat 1 s.nextId)) ∧
    (∀ (sd : BitVec 6) (w : Bool), s.Holds g c (.plpop b sd w) [.plpop n w] (some s.nextId) (pend sd.toNat 12 s.nextId)) ∧
    s.Holds g c (.pldrain b) [.pldrain n] none g ∧
    (∀ (sa sb sd : BitVec 6) (w : Bool), let pay := (List.range 8).map (sb.toNat + ·)
      g.arch.badUs (uRegs sa.toNat true ++ pay) = false →
      s.Holds g c (.plpush b sa sb w (sd.setWidth 32))
        [.fence 4 1, .plpush n (BitVec.ofNat 64 (g.arch.readS64 sa.toNat)) (pay.map g.arch.readS) w]
        (some (s.nextId + 1)) (pend sd.toNat 1 (s.nextId + 1))))

/-- Requests at a pool (R294, R297, R298, R299, R300, R301, R302, R304, R305; the model's choices and readings: logs
54, 85). -/
def Obligations.PoolSteps : Prop :=
  (∀ (s : State) (r : Nat) (q : Req) (n : Nat), s.Arrives r q n →
  let p := s.pool n
  let answered := fun (i : Instr) (p1 : Pool) (rets : List Ret) =>
    exec i s = .next { (s.setPool n { p1 with arrival := p.arrival + 1 }) with
      reqs := s.reqs.filter (·.id != r) ++ [{ q with reply := some rets }] }
  let changed := fun (i : Instr) (p1 : Pool) =>
    exec i s = .next { (s.setPool n { p1 with arrival := p.arrival + 1 }) with reqs := s.reqs.filter (·.id != r) }
  (∀ key ws w, q.act = .plpush n key ws w → q.pid ≠ none →
    let i := Instr.pushArrival r
    (p.state = 0 → answered i p (pushStatus q 4)) ∧ (p.state = 2 ∨ p.state = 3 → answered i p (pushStatus q 3)) ∧
    (p.state = 1 → p.pops = [] →
      (let merged := p.recs.map fun x => if x.key == key then x.merge (cfgOp p.cfg) (ws.take (cfgP p.cfg)) else x;
        (∃ x ∈ p.recs, x.key = key) → answered i { p with recs := merged } (pushStatus q 0)) ∧
      ((∀ x ∈ p.recs, x.key ≠ key) → p.recs.length < cfgCap p.cfg →
        answered i { p with recs := p.recs ++ [⟨key, ws.take (cfgP p.cfg), 1, false, p.arrival + 1, false⟩] } (pushStatus q 1)) ∧
      ((∀ x ∈ p.recs, x.key ≠ key) → cfgCap p.cfg ≤ p.recs.length → w = false → answered i p (pushStatus q 2)) ∧
      ((∀ x ∈ p.recs, x.key ≠ key) → cfgCap p.cfg ≤ p.recs.length → w = true →
        changed i { p with pushes := p.pushes ++ [⟨q, p.arrival + 1⟩] }))) ∧
  (∀ key ws w k rest m w', q.act = .plpush n key ws w → q.pid ≠ none → p.state = 1 → p.recs = [] → 0 < cfgCap p.cfg →
    p.pops = k :: rest → k.req.act = .plpop m w' → k.req.pid ≠ none → (s.handleOf k.req.grp).isSome = true → k.req.id ≠ r →
    (∀ y ∈ s.reqs, y.id ≠ k.req.id) →
    exec (.pushArrival r) s = .next { ((s.setPool n { p with pops := rest, arrival := p.arrival + 1 }).invalidate
        k.req.core none) with reqs := s.reqs.filter (·.id != r) ++ [{ q with reply := some (pushStatus q 1) },
          { k.req with reply := some (poolSnapshot k.req ⟨key, ws.take (cfgP p.cfg), 1, false, p.arrival + 1, false⟩) }] }) ∧
  (∀ w, q.act = .plpop n w → q.pid ≠ none →
    let i := Instr.popArrival r
    let left := fun (x : PoolRec) => p.recs.filter (·.key != x.key)
    let parked := fun (x : Req) => x.pid ≠ none ∧ (s.handleOf x.grp).isSome = true ∧ x.id ≠ r ∧ ∀ y ∈ s.reqs, y.id ≠ x.id
    (p.state = 2 → ∀ x, p.select = some x → left x = [] → (∀ k ∈ p.pops, parked k.req) → (p.pops.map (·.req.id)).Nodup →
      let rest := p.pops.map fun k => { k.req with reply := some (popStatus k.req 2) }
      exec i s = .next { ((s.setPool n { p with state := 3, recs := [], pops := [], arrival := p.arrival + 1 }).invalidate
          q.core none) with reqs := s.reqs.filter (·.id != r) ++ [{ q with reply := some (poolSnapshot q x) }] ++ rest }) ∧
    (∀ x k m key ws w', p.state = 1 → p.pushes = [k] → p.select = some x → (left x).length < cfgCap p.cfg →
      k.req.act = .plpush m key ws w' → parked k.req →
      let pay := ws.take (cfgP p.cfg)
      let there := (left x).any (·.key == key)
      let recs := if there then (left x).map fun y => if y.key == key then y.merge (cfgOp p.cfg) pay else y
        else left x ++ [⟨key, pay, 1, false, k.stamp, false⟩]
      exec i s = .next { ((s.setPool n { p with recs := recs, pushes := [], arrival := p.arrival + 1 }).invalidate
          q.core none) with reqs := s.reqs.filter (·.id != r) ++ [{ q with reply := some (poolSnapshot q x) },
            { k.req with reply := some (pushStatus k.req (if there then 0 else 1)) }] }) ∧
    (∀ x, p.state = 1 ∨ (p.state = 2 ∧ left x ≠ []) → p.pushes = [] → p.select = some x →
      exec i s = .next { ((s.setPool n { p with recs := p.recs.filter (·.key != x.key), arrival := p.arrival + 1 }).invalidate
          q.core none) with reqs := s.reqs.filter (·.id != r) ++ [{ q with reply := some (poolSnapshot q x) }] }) ∧
    (p.state = 1 → p.recs = [] → (w = false → answered i p (popStatus q 1)) ∧
      (w = true → changed i { p with pops := p.pops ++ [⟨q, p.arrival + 1⟩] })) ∧
    (p.state = 0 → answered i p (popStatus q 3)) ∧
    (p.state = 2 ∨ p.state = 3 → p.recs = [] → answered i p (popStatus q 2))) ∧
  (∀ cfg, q.act = .plcfg n cfg →
    (s.cfgReject n cfg = 0 → changed (.plcfgArrival r) { p with state := 1, cfg := cfg, rej := 0, recs := [] }) ∧
    (s.cfgReject n cfg ≠ 0 → changed (.plcfgArrival r) { p with rej := s.cfgReject n cfg })) ∧
  (∀ sel, q.act = .plstat n sel → q.pid ≠ none → answered (.plstatArrival r) p (poolStatus q 1 0 (p.stat sel)))) ∧
(∀ (s : State) (h : Nat) (g : Group), s.group h = some g → s.saving g.uid = true →
  ∃ t, exec (.poolWithdrawal h) s = .next t ∧ t.reqs = s.reqs ++ ((s.pools.map fun (x : Nat × Pool) =>
      (x.2.pushes ++ x.2.pops).filter fun k => k.req.grp == g.uid).flatten).map (·.req) ∧
    (∀ x ∈ t.pools, (∀ k ∈ x.2.pushes, k.req.grp ≠ g.uid) ∧ ∀ k ∈ x.2.pops, k.req.grp ≠ g.uid) ∧
    t.mem = s.mem ∧ t.groups = s.groups)

/-- PLDRAIN (R303). -/
def Obligations.PoolDrain : Prop :=
  (∀ (s : State) (r : Nat) (q : Req) (n : Nat), s.Arrives r q n → q.act = .pldrain n →
  let p := s.pool n
  (p.state = 1 → ∃ t, exec (.pldrainArrival r) s = .next t ∧ (t.pool n).state = (if p.recs = [] then 3 else 2) ∧
    (t.pool n).recs = p.recs ∧ (t.pool n).cfg = p.cfg ∧ (t.pool n).rej = p.rej ∧ (∀ m ≠ n, t.pool m = s.pool m) ∧
    t.mem = s.mem ∧ t.host = s.host ∧ t.peer = s.peer) ∧
  (p.state ≠ 1 → exec (.pldrainArrival r) s = .next { (s.setPool n { p with arrival := p.arrival + 1 }) with
    reqs := s.reqs.filter (·.id != r) })) ∧
(∀ (s : State) (g : Group) (c : Cur) (k : Block) (b : BitVec 3) (n : Nat), s.Issues g c → s.blockOf g = some k →
  k.pools[b.toNat]? = some n → s.Holds g c (.pldrain b) [.pldrain n] none g)

/-- The barrier, fence, bind and new-code words (R223, R225, R226, R228, R232, R233, R234). -/
def Obligations.SyncWords : Prop :=
  ∀ (s : State) (g : Group) (c : Cur) (b : Block), s.Issues g c → s.blockOf g = some b →
  (∀ o : Bar, let sc := o.sc.toNat
    let idx := o.idx.toNat
    let rec3 := g.arch.setBarRec sc idx (g.arch.barRec sc idx / 4 * 4 + 3)
    (b.barLimit sc ≤ idx → (∀ i ∈ [Instr.bara o, .barw o, .baraw o, .barq o], exec i s = .next (s.raise s.who g illegal)) ∧
      (g.arch.badS o.r.toNat = false → exec (.barcfg o) s = .next (s.raise s.who g illegal))) ∧
    (g.arch.badS o.r.toNat = true → exec (.barcfg o) s = .next (s.raise s.who g (poisoned noLane))) ∧
    (idx < b.barLimit sc →
      s.Holds g c (.bara o) [.arrive sc idx] none { g with arch := rec3 } ∧
      exec (.barw o) s = .next (s.putGroup s.who { g with cur := some { c with barw := some (sc, idx, o.r.toNat) } }) ∧
      s.Holds g { c with barw := some (sc, idx, o.r.toNat) } (.baraw o) [.arrive sc idx] none { g with arch := rec3 } ∧
      (∃ x, exec (.barq o) s = .next { (s.withArch g (g.arch.writeS o.r.toNat x)) with draws := s.draws + 1 } ∧
        (sc = 1 → let q := s.barrier 1 g.block idx
          x = BitVec.ofNat 32 (g.arch.barRec 1 idx % 2 * 2 ^ 31 + g.arch.barRec 1 idx / 2 % 2 * 2 ^ 30 +
            (if q.abandon then 2 ^ 29 else 0) + min q.count 4095 * 2 ^ 17 + q.e % 2 ^ 13 * 2 ^ 4 + q.phase.toNat % 16))) ∧
      (let w := g.arch.readS o.r.toNat
       let legal := w.toNat < 2 ^ 30 ∧ 1 ≤ barCfgE w.toNat ∧ barCfgE w.toNat ≤ 6144 ∧ barCfgP w.toNat ≤ 192 ∧
         barCfgD w.toNat ≤ 256
       g.arch.badS o.r.toNat = false → (legal → s.Holds g c (.barcfg o) [.barcfg sc idx w] none g) ∧
          (¬legal → exec (.barcfg o) s = .next (s.raise s.who g illegal))))) ∧
  (∀ (sc : BitVec 3) (ord : BitVec 2),
    (sc = 0 → exec (.fence sc ord) s = .next (s.withArch g g.arch)) ∧
    (sc ≠ 0 → ord = 1 → s.Holds g c (.fence sc ord) [.fence sc.toNat 1] none g) ∧
    (sc ≠ 0 → 2 ≤ ord.toNat → ∃ t rel acq, exec (.fence sc ord) s = .next t ∧
      t = { (s.putGroup s.who { g with cur := some { c with held := c.held ++ rel, commit := true } }) with
            reqs := s.reqs ++ [acq], nextId := t.nextId } ∧
      rel.map (·.act) = (if ord = 3 then [.fence sc.toNat 3] else []) ∧ acq.act = .fence sc.toNat ord.toNat ∧
      acq.grp = g.uid)) ∧
  (∀ (sc : BitVec 3) (sa : BitVec 6), let id := (g.arch.readS sa.toNat).toNat
    g.arch.badS sa.toNat = false →
    (1 ≤ id → id ≤ 4095 → s.Holds g c (.rel sc sa) [.rel sc.toNat id] none g ∧
      ∃ q : Req, q.act = .acq sc.toNat id ∧ q.grp = g.uid ∧ exec (.acq sc sa) s = .next
        { (s.putGroup s.who { g with cur := some { c with commit := true, parks := true } }) with
          reqs := s.reqs ++ [q], nextId := s.nextId + 1 }) ∧
    (id = 0 ∨ 4095 < id → ∀ i ∈ [Instr.rel sc sa, .acq sc sa], exec i s = .next (s.raise s.who g illegal))) ∧
  exec .ifence s = .next (s.putGroup s.who { g with cur := some { c with ifence := true } })

/-- Arrivals, releases and answers of barriers and bind ids (R224, R225, R227, R228, R229, R233; the model's choices
and readings: logs 16, 83). -/
def Obligations.SyncSteps : Prop :=
  (∀ (s : State) (r : Nat) (q : Req) (h : Nat) (g : Group), s.req r = some q →
  q.id = r → s.handleOf q.grp = some h → s.group h = some g → g.uid = q.grp → g.ended = false →
  (∀ idx b, q.act = .arrive 1 idx → s.barBehind q = false → Store.find s.blocks g.block = some b →
    let k := s.barrier 1 g.block idx
    let k1 := { k with count := k.count + 1, arrivers := k.arrivers ++ [(g.uid, g.core)] }
    ∃ t, exec (.barrierArrival r) s = .next t ∧ t.reqs = s.reqs.filter (·.id != r) ∧ t.groups = s.groups ∧ t.mem = s.mem ∧
      (k.e = 0 ∨ k.count + 1 < k.e → t.barrier 1 g.block idx = k1 ∧ t.releases = s.releases) ∧
      (k.e ≠ 0 → k.e ≤ k.count + 1 → t.barrier 1 g.block idx = k1.nextPhase ∧
        (t.barrier 1 g.block idx).count = 0 ∧ (t.barrier 1 g.block idx).phase = k.phase + 1 ∧
        ∃ rel, t.releases = s.releases ++ rel ∧ (∀ x ∈ k1.arrivers, ∃ y ∈ rel, x ∈ y.who ∧ y.stat = k.abandon))) ∧
  (∀ sc idx, sc = 2 ∨ sc = 4 → s.barBehind q = false → (sc = 4 → Store.find s.parts (g.barHome 4) ≠ none) →
    let bar := fun u : State => { u.barrier sc (g.barHome sc) idx with past := [] }
    let k := bar s
    (q.act = .arrive sc idx →
      let k1 := { k with count := k.count + 1, arrivers := k.arrivers ++ [(g.uid, g.core)] }
      ∃ t, exec (.barrierArrival r) s = .next t ∧ t.reqs = s.reqs.filter (·.id != r) ∧ t.groups = s.groups ∧ t.mem = s.mem ∧
        (k.e = 0 ∨ k.count + 1 < k.e → bar t = k1 ∧ t.releases = s.releases) ∧
        (k.e ≠ 0 → k.e ≤ k.count + 1 → bar t = k1.nextPhase ∧ (bar t).count = 0 ∧ (bar t).phase = k.phase + 1 ∧
          ∃ rel, t.releases = s.releases ++ rel ∧ ∀ x ∈ k1.arrivers, ∃ y ∈ rel, x ∈ y.who ∧ y.stat = k.abandon)) ∧
    (∀ w, q.act = .barcfg sc idx w →
      let k1 := { k with e := barCfgE w.toNat, p := barCfgP w.toNat, delta := barCfgD w.toNat, cfg := none }
      ∃ t, exec (.barcfgArrival r) s = .next t ∧ t.reqs = s.reqs.filter (·.id != r) ∧ t.groups = s.groups ∧ t.mem = s.mem ∧
        (k.count ≠ 0 → k.e ≠ 0 → bar t = { k with cfg := some w } ∧ t.releases = s.releases) ∧
        (k.count = 0 ∨ (k.e = 0 ∧ k.count < k1.e) → bar t = k1 ∧ t.releases = s.releases) ∧
        (k.count ≠ 0 → k.e = 0 → k1.e ≤ k.count → bar t = k1.nextPhase ∧
          ∃ rel, t.releases = s.releases ++ rel ∧ ∀ x ∈ k.arrivers, ∃ y ∈ rel, x ∈ y.who ∧ y.stat = k.abandon))) ∧
  (∀ sc id, q.act = .rel sc id → exec (.relArrival r) s = .next { s with reqs := s.reqs.filter (·.id != r) }) ∧
  (∀ sc id af, q.act = .acq sc id → g.after = some af → af.commit = false →
    (∀ x ∈ s.reqs, x.grp = q.grp → x.id ≠ r → ∀ sc' id', x.act ≠ .acq sc' id') →
    let s1 := (({ s with reqs := s.reqs.filter (·.id != r) } : State).invalidate q.core (some id)).refreshUnbound q.core
    exec (.acqAnswer r) s = .next ((s1.putGroup h { g with after := some { af with parks := false } }).settleAfter h) ∧
      ∀ l ∈ (s1.core q.core).lines, l.konst = true ∨
        (l.bind ≠ id ∧ (l.bind = 0 → l.data = s.readHome l.tgt (128 * l.addr) 128)))) ∧
(∀ (s : State) (h : Nat) (g : Group) (n : Nat) (y : Release), s.handleOf g.uid = some h → s.group h = some g →
  s.releases = [y] → y.id = n → y.who = [(g.uid, g.core)] → g.frozen = false → g.after = none →
  let s1 := { (s.putGroup h (g.async fun a => a.setBarRec y.scope y.idx (2 + (if y.stat then 4 else 0)))) with releases := [] }
  exec (.barrierReleaseDelivery n) s = .next (if y.scope = 1 then s1 else s1.invalidate g.core none))

/-- The privileged words (R315, R318, R320, R321, R322, R323, R327, R328, R334, R335, R337; the model's choices and
readings: logs 15, 20, 21, 83). -/
def Obligations.SystemWords : Prop :=
  ∀ (s : State) (g : Group) (c : Cur), s.Issues g c →
  (g.sorrel = none → ∀ (sa sb sd : BitVec 6) (lit : Word) (sc : BitVec 3) (mode : BitVec 2),
    ∀ i ∈ [Instr.cwrd sa sd lit, .cwwr sa sb lit, .mcswr sa sb, .winrd sa sd, .winwr sa sb, .gpark sa sd, .gresume sa sd,
      .tret, .tretHold, .tretEnd, .thaw sa sd, .thawEnd sa sd, .tlbinv sc mode sa sb, .ctxsv sa sb, .ctxld sa sb,
      .ctxldDiscard sa sb], exec i s = .next (s.raise s.who g (.trap 3 3 noLane 0))) ∧
  (∀ cl (sa sb sd : BitVec 6), g.sorrel = some cl →
    let x := fun (r : BitVec 6) => (g.arch.readS r.toNat).toNat
    let wr := fun (n : Nat) => { g with arch := g.arch.writeS sd.toNat (BitVec.ofNat 32 n) }
    let parks := { c with commit := true, parks := true }
    (∀ e ∈ [(Instr.tret, 0), (.tretHold, 1), (.tretEnd, 2)],
      exec e.1 s = .next (s.putGroup s.who { g with cur := some { c with tret := some e.2 } })) ∧
    (∀ (sc : BitVec 3) (mode : BitVec 2),
      g.arch.badUs ((if mode = 2 then uRegs sa.toNat true else []) ++ if mode = 0 then [] else [sb.toNat]) = false →
      s.Holds g parks (.tlbinv sc mode sa sb) [.sys 6 [sc.toNat, mode.toNat, if mode = 0 then 0 else x sb % 2 ^ 16,
        if mode = 2 then g.arch.readS64 sa.toNat else 0, cl]] none g) ∧
    (g.arch.badUs [sa.toNat] = false →
      (∀ lit : Word, cwInstance lit.toNat (x sa) cl = true →
        (lit ≠ 3 → exec (.cwrd sa sd lit) s = .next (s.putGroup s.who (wr (s.cwRead lit.toNat (x sa % 256))))) ∧
        (lit = 3 → ∃ (t : State) (n : Nat), exec (.cwrd sa sd lit) s = .next (State.putGroup t s.who (wr n)) ∧ n / 2 ^ 16 % 2 ^ 16 =
            (s.cluster cl).ue.toNat * 2 ^ 8 + (s.cluster cl).res.toNat ∧ t.groups = s.groups ∧ t.mem = s.mem)) ∧
      (∀ lit : Word, cwInstance lit.toNat (x sa) cl = false → exec (.cwrd sa sd lit) s = .next (s.raise s.who g illegal)) ∧
      (s.handleGroup cl (x sa) = none → exec (.gpark sa sd) s = .next (s.putGroup s.who (wr 1)) ∧
        exec (.gresume sa sd) s = .next (s.putGroup s.who (wr 1))) ∧
      (∀ t, s.handleGroup cl (x sa) = some t →
        (t.isHeld = true ∨ t.frozen = true ∨ t.halted = true → exec (.gpark sa sd) s = .next (s.putGroup s.who (wr 2))) ∧
        (t.isHeld = false → t.frozen = false → t.halted = false →
          s.Holds g parks (.gpark sa sd) [.sys 3 [t.uid]] none (wr 0)) ∧
        (t.halted = true → exec (.gresume sa sd) s = .next (s.putGroup s.who (wr 6))) ∧
        (t.halted = false →
          (t.isHeld = false → exec (.gresume sa sd) s = .next (s.putGroup s.who (wr 2))) ∧
          (t.isHeld = true → s.resuming (x sa) = false →
            (t.frozen = true → exec (.gresume sa sd) s = .next (s.putGroup s.who (wr 3))) ∧
            (t.frozen = false → (t.resumable = false → exec (.gresume sa sd) s = .next (s.putGroup s.who (wr 4))) ∧
              (t.resumable = true →
                (t.hold = .owned → s.served (x sa) = true → exec (.gresume sa sd) s = .next (s.putGroup s.who (wr 5))) ∧
                (t.hold ≠ .owned ∨ s.served (x sa) = false →
                  s.Holds g c (.gresume sa sd) [.sys 4 [x sa]] none (wr 0))))))) ∧
      (∀ e ∈ [(Instr.thaw sa sd, 0), (.thawEnd sa sd, 1)],
        (2 ^ 31 ≤ x sa → exec e.1 s = .next (s.raise s.who g illegal)) ∧
        let named := if x sa < 2 ^ 30 then s.handleGroup cl (x sa % 2 ^ 13) else s.handleContext cl (x sa % 2 ^ 13)
        (x sa < 2 ^ 31 → named = none → exec e.1 s = .next (s.putGroup s.who (wr 2))) ∧
        (x sa < 2 ^ 31 → ∀ t, named = some t →
          let frozen := if x sa < 2 ^ 30 then t.frozen else t.copyFrozen
          (frozen = false → exec e.1 s = .next (s.putGroup s.who (wr 1))) ∧
          (frozen = true → s.Holds g c e.1 [.sys 5 [x sa / 2 ^ 30, t.uid, e.2]] none (wr 0))))) ∧
    (g.arch.badUs [sa.toNat, sb.toNat] = false →
      (∀ lit : Word, cwInstance lit.toNat (x sa) cl = true → (lit = 4 → cl = Config.managerCluster % Config.clusters) →
        s.Holds g c (.cwwr sa sb lit) [.sys 1 [lit.toNat, x sa % 256, x sb]] none g) ∧
      (∀ lit : Word, cwInstance lit.toNat (x sa) cl = false →
        exec (.cwwr sa sb lit) s = .next (s.raise s.who g illegal)) ∧
      (x sa < 2 ^ 19 → x sa % 256 < Config.cores → clusterOf (x sa % 256) = cl → s.Holds g c (.mcswr sa sb)
        [.sys 7 [x sa % 256, x sa / 2 ^ 8 % 64 * 32 + x sa / 2 ^ 14, x sb]] none g)) ∧
    (g.arch.badUs (uRegs sa.toNat true ++ [sb.toNat]) = false →
      let off := (g.arch.readS (sa.toNat + 1)).toNat
      (∀ t, s.handleGroup cl (x sa) = some t → t.isHeld = true → off % 4 = 0 → off < 0x2000 + 132 * t.vregs →
        exec (.winrd sa sd) s = .next (s.putGroup s.who (wr (t.areaWord off))) ∧
        (t.halted = true → exec (.winwr sa sb) s = .next (s.putGroup s.who g)) ∧
        (t.halted = false → let v := g.arch.readS sb.toNat
          exec (.winwr sa sb) s = .next ((s.putGroup (x sa) (t.windowWrite off v)).putGroup s.who
            { g with cur := some (c.takesBack s.nextId [.window (x sa) t.uid (t.windowOld off) v]) }))) ∧
      ((s.handleGroup cl (x sa) = none ∨ off % 4 ≠ 0 ∨ ∃ t, s.handleGroup cl (x sa) = some t ∧
          (t.isHeld = false ∨ 0x2000 + 132 * t.vregs ≤ off)) → ∀ i ∈ [Instr.winrd sa sd, .winwr sa sb],
        exec i s = .next (s.raise s.who g illegal)) ∧
      (let area := g.arch.readS64 sa.toNat
       (area % 64 = 0 → area < Config.dramBytes →
        (x sb < 2 ^ 17 → x sb / 2 ^ 13 ≤ 8 →
          s.Holds g parks (.ctxsv sa sb) [.sys 8 [area, x sb / 2 ^ 13, x sb % 2 ^ 13, cl]] none g) ∧
        (2 ^ 17 ≤ x sb ∨ 8 < x sb / 2 ^ 13 → exec (.ctxsv sa sb) s = .next (s.raise s.who g illegal)) ∧
        s.Holds g parks (.ctxld sa sb) [.sys 9 [area, x sb]] none g ∧
        s.Holds g parks (.ctxldDiscard sa sb) [.sys 10 [area]] none g) ∧
       (∀ i ∈ [Instr.ctxsv sa sb, .ctxld sa sb, .ctxldDiscard sa sb],
        (area % 64 ≠ 0 → exec i s = .next (s.raise s.who g illegal)) ∧
        (area % 64 = 0 → Config.dramBytes ≤ area → exec i s = .next (s.raise s.who g (.trap 4 1 noLane area)))))))

/-- Taking an exception (R17, R59, R183, R185, R198, R316, R317, R319, R325, R327). -/
def Obligations.TakingAnException : Prop :=
  (∀ (s : State) (h : Nat) (g : Group) (c : Cur), s.group h = some g → g.cur = some c →
  (g.sorrel = none →
    (∀ (cls d addr : Nat) (lane : Word), ∀ e ∈ [(Fate.trap cls d lane addr, cls, false), (.freeze d lane addr, 2, true)],
      let tr : Trap := ⟨e.2.1, d, c.idx, lane, addr, c.hdr, false⟩
      ∃ g', (s.raise h g e.1).group h = some g' ∧ g'.cur = none ∧ g'.arch = c.snap ∧ g'.unret = g.unret ∧
        g'.frozen = (g.frozen || e.2.2) ∧ (s.raise h g e.1).mem = s.mem ∧
        (g.unret ≠ [] → g'.hold = .trapping tr) ∧
        (g.unret = [] → (s.cluster g.cluster).trapQ.length < 512 → g'.hold = .owned ∧
          ((s.raise h g e.1).cluster g.cluster).trapQ = (s.cluster g.cluster).trapQ ++ [⟨true, h, tr, 0, [], 0⟩]) ∧
        (g.unret = [] → 512 ≤ (s.cluster g.cluster).trapQ.length → g'.hold = .trapping tr)) ∧
    (∀ (d : Nat) (lane : Word), ∃ g', (s.raise h g (.halt d lane)).group h = some g' ∧ g'.halted = true ∧ g'.cur = none ∧
      g'.unret = [] ∧ g'.after = none ∧
      (∃ tr : Trap, tr.cls = 1 ∧ tr.detail = d ∧ tr.lane = lane ∧ tr.pc = ((g.unret.map (·.hdr)) ++ [c.hdr]).headD 0 ∧
        (g'.hold = .trapping tr ∨ (g'.hold = .owned ∧ (⟨true, h, tr, 0, [], 0⟩ : Event) ∈
          ((s.raise h g (.halt d lane)).cluster g.cluster).trapQ))) ∧
      ((s.raise h g (.halt d lane)).cluster g.cluster).ue =
        (if (s.cluster g.cluster).ue = 255 then 255 else (s.cluster g.cluster).ue + 1)) ∧
    (∀ (va kind : Nat) (lane : Word), ∃ g' seq, (s.raise h g (.page va kind lane)).group h = some g' ∧ g'.cur = none ∧
      g'.arch = c.snap ∧ g'.parked = some (g.cluster, seq) ∧ g'.hold = g.hold ∧
      ∃ r ∈ ((s.raise h g (.page va kind lane)).cluster g.cluster).recs, r.seq = seq ∧ r.asid = g.asid ∧ r.vpn = va / 65536 ∧
        r.kind ||| kind = r.kind ∧ (1, h) ∈ r.waiters) ∧
    (∀ (cls id off cause : Nat) (pc : Pc), let t := s.raise h g (.inGroup cls pc id off cause)
      (c.snap.lhret.length < 4 → ∃ g', t.group h = some g' ∧ g'.cur = none ∧ g'.hold = g.hold ∧
        g'.arch.lhret = c.hdr :: c.snap.lhret ∧ g'.arch.lossid = BitVec.ofNat 32 id ∧
        g'.arch.lossaddr = BitVec.ofNat 32 off ∧ (cls = 7 → g'.arch.tbcause = BitVec.ofNat 32 cause) ∧
        g'.arch.slices = (c.snap.moved c.gang fun _ sl => { sl with pc := pc }).slices) ∧
      (4 ≤ c.snap.lhret.length → let tr : Trap := ⟨cls, 15, c.idx, noLane, 0, c.hdr, false⟩
        ∃ g', t.group h = some g' ∧ g'.cur = none ∧ g'.arch = c.snap ∧ (g.unret ≠ [] → g'.hold = .trapping tr) ∧
          (g.unret = [] → (s.cluster g.cluster).trapQ.length < 512 → g'.hold = .owned ∧
            (t.cluster g.cluster).trapQ = (s.cluster g.cluster).trapQ ++ [⟨true, h, tr, 0, [], 0⟩])))) ∧
  (∀ cl f, g.sorrel = some cl →
    (∀ g', (s.raise h g f).group h = some g' → g'.ended = true ∧ g'.cur = none ∧ g'.unret = g.unret ∧ g'.outq = g.outq) ∧
    (g.unret = [] → g.outq = [] → (∀ r ∈ s.reqs, r.grp ≠ g.uid) → (∀ o ∈ s.ops, o.grp ≠ g.uid) →
      (s.raise h g f).group h = none) ∧ (s.raise h g f).mem = s.mem ∧
    (∃ r, ((s.raise h g f).cluster cl).recs.getLast? = some r ∧ r.kind = 0 ∧ r.waiters = []) ∧
    (∀ n h' t ws x, c.undo = [(n, .window h' t.uid ws x)] → s.group h' = some t → h' ≠ h → t.halted = false → t.hold = .held →
      (s.raise h g f).group h' = some (t.windowBack ws x)))) ∧
(∀ (s : State) (h : Nat) (g : Group) (d : Deferred) (gang : List Nat), s.group h = some g → g.atBoundary = true →
  g.unret = [] → g.deferred = [d] → g.arch.nextGang = some gang → s.deliverable g d = true →
  d.gang.any g.arch.liveSlices.contains = true → d.cls = 6 ∨ d.cls = 7 → d.restart = none → 4 ≤ g.arch.lhret.length →
  (s.cluster g.cluster).trapQ.length < 512 →
  ∃ t g', exec (.deferredFaultDelivery h) s = .next t ∧ t.group h = some g' ∧ g'.hold = .owned ∧ g'.arch = g.arch ∧
    (t.cluster g.cluster).trapQ = (s.cluster g.cluster).trapQ ++
      [⟨true, h, ⟨d.cls, 15, 15, noLane, 0, g.restartPc, false⟩, 0, [], 0⟩])

/-- Handler entry, the returns from exceptions, and class 10 (R82, R104, R198, R199, R315, R319, R322, R323, R336,
R341). -/
def Obligations.HandlersAndReturns : Prop :=
  (∀ (s : State) (cl ctx : Nat) (e : Event) (rest : List Event), cl < Config.clusters → ctx < 3 →
    (s.cluster cl).trapQ = e :: rest → e.isTrap = true → (s.group (sorrelKey cl ctx)).isSome = false →
    (∀ i < ctx, (s.group (sorrelKey cl i)).isSome = true) → (∀ x ∈ s.groups, ∀ tr, x.2.hold ≠ .trapping tr) →
    ∃ t g', exec (.trapHandlerEntry cl ctx) s = .next t ∧ t.group (sorrelKey cl ctx) = some g' ∧
      (t.cluster cl).trapQ = rest ∧ g'.sorrel = some cl ∧ g'.serves = some e.handle ∧ g'.cur = none ∧ g'.hold = .free ∧
      g'.arch.slices = [⟨BitVec.ofNat 52 ((s.cluster cl).svec.toNat * 4096 + 256 * e.trap.cls), 1, 14, [], 0, none⟩] ∧
      (∀ th, s.group e.handle = some th → g'.asid = if e.handle = 0 then 0 else th.asid) ∧
      (let addr := if e.trap.cls = 2 ∨ e.trap.cls = 4 ∨ e.trap.cls = 5 ∨ e.trap.cls = 10 then e.trap.addr else 0
       (List.range 7).map g'.arch.readS = [BitVec.ofNat 32 (e.trap.cls + e.trap.detail * 2 ^ 4 + e.trap.word * 2 ^ 12),
         BitVec.ofNat 32 e.handle, e.trap.pc.setWidth 32, (e.trap.pc >>> 32).setWidth 32, e.trap.lane, BitVec.ofNat 32 addr,
         if e.trap.cls = 10 then 0 else BitVec.ofNat 32 (addr / 2 ^ 32)]) ∧ t.mem = s.mem) ∧
(∀ (s : State) (h : Nat) (g : Group), s.group h = some g →
  (g.resumable = true → g.frozen = false →
    (s.resumeGroup h).group h = some { g.applyWindow with hold := .free, readySince := s.now }) ∧
  (g.resumable = false ∨ g.frozen = true → (s.resumeGroup h).group h = some { g with hold := .held })) ∧
(∀ (s : State) (h : Nat) (g : Group) (af : After), s.group h = some g → g.after = some af → af.commit = false →
  af.ifence = false → af.barw = none → af.tret = none → af.parks = false → af.yld = false → g.ended = false → (∃ sl ∈ g.arch.slices, sl.live = true) →
  (∀ r rest, af.lhret = true → af.trap = none → g.arch.lhret = r :: rest →
    s.settleAfter h = s.putGroup h { g with after := none, readySince := s.now, arch :=
      { g.arch.moved af.gang fun _ sl => { sl with pc := r } with
        lhret := rest, lossid := if rest = [] then 0xFFFFFFFF else g.arch.lossid } }) ∧
  (∀ d code w cl, af.trap = some (d, code, w) → g.sorrel = some cl →
    (∀ g', (s.settleAfter h).group h = some g' → g'.ended = true ∧ g'.cur = none ∧ g'.unret = g.unret ∧ g'.outq = g.outq) ∧
    (g.unret = [] → g.outq = [] → (∀ r ∈ s.reqs, r.grp ≠ g.uid) → (∀ o ∈ s.ops, o.grp ≠ g.uid) →
      (s.settleAfter h).group h = none)) ∧
  (∀ d code w, af.lhret = false → af.trap = some (d, code, w) → g.sorrel = none →
    let g' := { g with after := none, readySince := s.now, hold := .trapping ⟨10, d, w, noLane, code, g.restartPc, false⟩ }
    (g.unret ≠ [] → s.settleAfter h = s.putGroup h g') ∧
    (g.unret = [] → g.cur = none → (s.cluster g.cluster).trapQ.length < 512 →
      (s.settleAfter h).group h = some { g' with hold := .owned, gpark := false } ∧
      ((s.settleAfter h).cluster g.cluster).trapQ = (s.cluster g.cluster).trapQ ++
        [⟨true, h, ⟨10, d, w, noLane, code, g.restartPc, false⟩, 0, [], 0⟩])))

/-- Launch queues, the grant of a launch and its save (R72, R283, R284, R286, R287, R288, R289, R291, R328, R329,
R330, R340; the model's choices and readings: logs 12, 18, 19, 37, 83, 86). -/
def Obligations.QueueAndLaunchSteps : Prop :=
  ∀ (s : State) (q : Nat), let k := s.queue q
  (∀ (fn : Nat) (v : DWord) (bits : Word), q < 256 →
    (s.hostMay fn (s.ownsQueue fn q) = true →
      exec (.qtailWrite fn q v) s = .next (s.setQueue q { k with
        qtail := BitVec.ofNat 64 (max k.qtail.toNat v.toNat), polled := true }) ∧
      exec (.queueStatusClear fn q bits) s = .next (s.setQueue q { k with
        preerr := k.preerr && !bits.getLsbD 3, parterr := k.parterr && !bits.getLsbD 2,
        xlate := k.xlate && !bits.getLsbD 1, badrec := k.badrec && !bits.getLsbD 0 }) ∧
      (k.en = false → exec (.registerWrite fn (0x10000 + 64 * q) v) s = .next (s.setQueue q { k with qbase := v }) ∧
        exec (.registerWrite fn (0x10000 + 64 * q + 0x10) v) s = .next (s.setQueue q { k with qwidx := v })) ∧
      (k.en = true → exec (.registerWrite fn (0x10000 + 64 * q) v) s = .next (s.setQueue q k) ∧
        exec (.registerWrite fn (0x10000 + 64 * q + 0x10) v) s = .next (s.setQueue q k)) ∧
      (∀ size, size = (if k.en then k.log2size else BitVec.ofNat 5 (v.toNat / 2 ^ 33)) →
        exec (.registerWrite fn (0x10000 + 64 * q + 0x08) v) s = .next (s.setQueue q { k with
          qasid := BitVec.ofNat 16 (v.toNat / 2 ^ 48), prio := BitVec.ofNat 2 (v.toNat / 2 ^ 38), log2size := size,
          en := v.getLsbD 40 && (decide (1 ≤ size.toNat) && decide (size.toNat ≤ 16)), polled := true })) ∧
      exec (.registerWrite fn (0x10000 + 64 * q + 0x18) v) s = exec (.qtailWrite fn q v) s ∧
      exec (.registerWrite fn (0x10000 + 64 * q + 0x28) v) s = exec (.queueStatusClear fn q (v.setWidth 32)) s ∧
      exec (.registerWrite fn (0x10000 + 64 * q + 0x38) v) s = exec (.qpreempt fn q v) s ∧
      ((∀ l ∈ s.launches, ¬(l.2.queue = q ∧ l.2.resident = true ∧ l.2.slot % 2 ^ 16 = v.toNat % 2 ^ 16)) →
        exec (.qpreempt fn q v) s = .next (s.setQueue q { k with preerr := true })) ∧
      (∀ l la h g, s.launches = [(l, la)] → la.queue = q → la.resident = true → la.slot % 2 ^ 16 = v.toNat % 2 ^ 16 →
        s.preempting l = false → v.toNat / 2 ^ 20 % 16 ≤ 8 →
        (let sv : Save := ⟨0, l, v.toNat / 2 ^ 24 * 64, v.toNat / 2 ^ 20 % 16, []⟩;
          s.inUnits k.part sv.area (areaBytes s sv la (s.saveBlocks sv la)).length = true) →
        s.firstGroup l (la.cores.headD 0) = some (h, g) → (s.cluster (clusterOf (la.cores.headD 0))).preemptQ.length < 64 →
        ∃ t e, exec (.qpreempt fn q v) s = .next t ∧ t.launches = s.launches ∧ t.preempting l = true ∧
          (t.cluster (clusterOf (la.cores.headD 0))).preemptQ = (s.cluster (clusterOf (la.cores.headD 0))).preemptQ ++ [e] ∧
          e.isTrap = false ∧ e.code = 3 ∧ e.handle = h ∧ e.of = l ∧ e.regs = [BitVec.ofNat 32 (v.toNat / 2 ^ 24 * 64),
            BitVec.ofNat 32 (v.toNat / 2 ^ 24 * 64 / 2 ^ 32), BitVec.ofNat 32 (v.toNat / 2 ^ 20 % 16)] ∧
          t.groups = s.groups ∧ t.mem = s.mem)) ∧
    (s.bootfail = false → s.fnExists fn = true → s.frozenFns.contains fn = false → fn ≠ 0 → s.ownsQueue fn q = false →
      ∀ i ∈ [Instr.qtailWrite fn q v, .queueStatusClear fn q bits, .qpreempt fn q v, .registerWrite fn (0x10000 + 64 * q) v],
        exec i s = .next { s with frozenFns := NSet.insert s.frozenFns fn })) ∧
  (k.en = true → k.pending = none → k.qhead < k.qtail →
    exec (.queuePoll q) s = .next (s.setQueue q { k with polled := true }) ∧
    (k.polled = true → let i := k.qhead.toNat
      let a := s.readVa k.qasid.toNat k.part 2 (k.seqVa i) 8
      let rd := a.1.readVa k.qasid.toNat k.part 2 (k.slotVa i) 256
      (a.2.map leNat ≠ some (i + 1) →
        exec (.slotConsume q) s = .next (a.1.setQueue q { k with polled := false })) ∧
      (a.2.map leNat = some (i + 1) →
        let atEnd := { k with qhead := k.qhead + 1, ridx := BitVec.ofNat 32 i }
        (rd.2 = none → exec (.slotConsume q) s = .next (rd.1.setQueue q { atEnd with xlate := true })) ∧
        (∀ r, rd.2 = some r →
          let mt := if recMacro r = 0 then (rd.1, some []) else rd.1.readVa (recAsid r) k.part 3 (recMacro r) 8192
          let bad := { atEnd with badrec := k.badrec || !recOk r k.admin, parterr := k.parterr || !s.recInPart k.part r }
          (mt.2 = none → exec (.slotConsume q) s = .next (mt.1.setQueue q { bad with xlate := true })) ∧
          (∀ m, mt.2 = some m →
            (recOk r k.admin = true → s.recInPart k.part r = true → exec (.slotConsume q) s =
              .next (mt.1.setQueue q { k with qhead := k.qhead + 1, pending := some (r ++ m, i) })) ∧
            (recOk r k.admin = false ∨ s.recInPart k.part r = false →
              exec (.slotConsume q) s = .next (mt.1.setQueue q bad))))))) ∧
  (∀ cores bytes slot, s.nextGrant = some (q, cores) → k.pending = some (bytes, slot) →
    ∃ t la, exec (.launchGrant q) s = .next t ∧ (t.queue q).pending = none ∧ Store.find t.launches s.nextId = some la ∧
      la.queue = q ∧ la.slot = slot ∧ la.cores = cores ∧ la.resident = true ∧ la.prio = k.prio.toNat ∧
      la.recd = bytes.take 256 ∧ t.mem = s.mem ∧ t.host = s.host ∧ t.peer = s.peer ∧
      ∀ i core, cores[i]? = some core →
        (recMacro (bytes.take 256) ≠ 0 → (t.core core).table = recMacro (bytes.take 256) ∧
          ∃ n ≤ 64, (t.core core).macros = loadMacros (bytes.drop 256) n) ∧
        ∀ x ∈ recSeats (bytes.take 256), ∃ y ∈ t.groups, y.2.core = core ∧ y.2.team = i ∧ y.2.launch = s.nextId ∧
        y.2.role = x.1 ∧ y.2.index = x.2.1 ∧ y.2.vregs = x.2.2.vregs ∧ y.2.part = k.part ∧
        y.2.asid = recAsid (bytes.take 256) ∧ y.2.cur = none ∧ y.2.hold = .free ∧ y.2.strikes = 0 ∧
        y.2.arch.slices = List.replicate x.2.2.slices ⟨BitVec.ofNat 52 x.2.2.entry, 15, 0, [], 0, none⟩ ∧
        y.2.arch.s = [] ∧ y.2.arch.v = [] ∧ y.2.arch.p = [] ∧ y.2.arch.fpflags = 0) ∧
  (∀ h cx sv la, s.group h = some cx → s.saves.find? (·.issuer == cx.uid) = some sv → Store.find s.launches sv.launch = some la →
    (cx.sorrel ≠ none → s.launchGroups sv.launch ≠ [] → (∀ x ∈ s.launchGroups sv.launch, Group.ghost x.2 x.1 = true ∧ s.stoppedGroup x.2 = true ∧ x.2.halted = false) →
      ∃ t, exec (.ctxsvComplete h) s = .next t ∧ Store.find t.launches sv.launch = some la ∧ (∀ x ∈ t.saves, x.issuer ≠ cx.uid) ∧
        s.WroteBytes t 0 (sv.area + 4) (leBytes 4 (s.word (sv.area + 4) / 2 ^ 28 * 2 ^ 28 + 1))) ∧
    ((∃ x ∈ s.launchGroups sv.launch, Group.ghost x.2 x.1 = false) → la.recd.length = 256 →
    (∀ x ∈ s.launchGroups sv.launch, s.stoppedGroup x.2 = true ∧ x.2.halted = false ∧ x.2.core ∈ la.cores ∧
      (Store.find s.blocks (sv.launch * 256 + x.2.core)).isSome = true) →
    ∃ t bs, exec (.ctxsvComplete h) s = .next t ∧ s.WroteBytes t 0 sv.area bs ∧
      bs.take 20 = leBytes 4 1 ++ leBytes 4 (2 ^ 28) ++ leBytes 4 bs.length ++
        leBytes 4 ((if recTeam la.recd then 1 else 0) + sv.floor * 2 + la.prio * 2 ^ 5) ++
        leBytes 4 (la.asid + la.part * 2 ^ 16) ∧
      (bs.drop 256).take 256 = la.recd ∧ (∀ x ∈ t.groups, x.2.launch = sv.launch → x.2.sorrel = none → Group.ghost x.2 x.1 = true) ∧
      (∀ x ∈ s.launchGroups sv.launch, Group.ghost x.2 x.1 = false → ∃ y ∈ t.saved, y.uid = x.2.uid ∧ y.area = sv.area) ∧
      (∀ x ∈ t.saves, x.issuer ≠ cx.uid)))

/-- The host, partitions, meters, Cheuk ports, boot and attestation (R5, R339, R340, R341, R344, R345, R346, R347,
R348, R349, R350, R351; the model's choices and readings: logs 2, 8, 24, 26, 38, 59, 84). -/
def Obligations.HostSteps : Prop :=
  (∀ (s : State) (c : Command), s.bootfail = false → s.ready = true → s.mailbox.busy = false →
  let m := s.mailbox
  let old := (Store.find s.parts c.part).getD .none
  let verified := Config.verifies s.ownerKey c.body c.sig
  let status := fun (n : Nat) => { s with mailbox := { m with status := if verified then n else 1 } }
  let done := { m with status := 0, ctr := c.counter }
  let all := [(Instr.create c, 1), (.resize c, 2), (.destroy c, 3), (.setrate c, 4), (.thawhost c, 5)]
  let has := fun (t : State) => t.mailbox = done ∧ ∃ p, Store.find t.parts c.part = some p ∧ p.cores = c.cores ∧
    p.units = c.units ∧ p.asids = c.asids ∧ p.pools = c.pools ∧ p.queues = c.queues ∧ p.cbars = c.cbars ∧
    (∀ u ∈ c.units, u ∉ old.units → Store.get t.units u 0 = c.part + 1) ∧
    (∀ u ∈ old.units, u ∉ c.units → Store.get t.units u 0 = 0 ∧ u ∈ t.scrubbing) ∧
    (∀ q ∈ c.queues, q ∉ old.queues → (t.queue q).part = c.part ∧ (t.queue q).en = false ∧ (t.queue q).qtail = 0) ∧
    (∀ x ∈ c.pools, x ∉ old.pools → t.pool x = Pool.reset) ∧
    (∀ k, k ≠ c.part → Store.find t.parts k = Store.find s.parts k) ∧ t.groups = s.groups
  (∀ e ∈ all, Command.opens c e.2 = true → c.counter ≠ m.ctr + 1 → exec e.1 s = .next (status 2)) ∧
  (c.counter = m.ctr + 1 →
    (∀ e ∈ all, Command.opens c e.2 = true → s.malformed e.2 c = true → exec e.1 s = .next (status 4)) ∧
    (∀ e ∈ [(Instr.create c, 1), (.resize c, 2)], Command.opens c e.2 = true → s.malformed e.2 c = false →
      (s.heldElsewhere c = true → exec e.1 s = .next (status 5)) ∧
      (s.heldElsewhere c = false → (e.2 = 2 → s.poolsBusy old c.pools = false) → s.commandWaits e.2 c = false →
        ∃ t, exec e.1 s = .next (if verified then t else status 1) ∧ (e.2 = 1 → Store.find s.parts c.part = none) ∧ has t) ∧
      (s.heldElsewhere c = false → (e.2 = 2 → s.poolsBusy old c.pools = false) → s.commandWaits e.2 c = true →
        ∃ t, exec e.1 s = .next (if verified then t else status 1) ∧
          t.mailbox = { m with busy := true, cmd := some (e.2, c) } ∧ t.mem = s.mem ∧ t.groups = s.groups)) ∧
    (Command.opens c 3 = true → s.malformed 3 c = false →
      (s.poolsBusy old [] = true → exec (.destroy c) s = .next (status 3)) ∧
      (s.poolsBusy old [] = false → s.commandWaits 3 c = false →
        ∃ t, exec (.destroy c) s = .next (if verified then t else status 1) ∧ t.mailbox = done ∧
          Store.find t.parts c.part = none ∧ (∀ u ∈ old.units, Store.get t.units u 0 = 0 ∧ u ∈ t.scrubbing) ∧
          (∀ q ∈ old.queues, t.queue q = Queue.reset) ∧ (∀ x ∈ old.pools, t.pool x = Pool.reset) ∧
          t.frozenFns = s.frozenFns ∧ t.groups = s.groups)) ∧
    (Command.opens c 4 = true → s.malformed 4 c = false → exec (.setrate c) s = .next (if verified then
      let k := c.meter * 65536 + c.asid
      { s with mailbox := done, meters := Store.put s.meters k ⟨c.asid, c.rate, c.burst,
          min (Store.get s.meters k Meter.reset).tokens (1024 * c.burst)⟩ } else status 1)) ∧
    (Command.opens c 5 = true → s.malformed 5 c = false → exec (.thawhost c) s = .next (if verified then
      { s with mailbox := done, frozenFns := s.frozenFns.filter (· != c.fn) } else status 1)))) ∧
(∀ (s : State) (op : Nat) (c : Command), s.mailbox.cmd = some (op, c) →
  (s.commandWaits op c = true → exec (.resizeComplete c.part) s = .next s) ∧
  (s.commandWaits op c = false → ∃ t, exec (.resizeComplete c.part) s = .next t ∧
    t.mailbox = { busy := false, status := 0, ctr := c.counter, cmd := none } ∧ t.groups = s.groups ∧
    (op = 3 → Store.find t.parts c.part = none) ∧
    (op = 1 ∨ op = 2 → ∃ p, Store.find t.parts c.part = some p ∧ p.cores = c.cores ∧ p.units = c.units ∧ p.queues = c.queues))) ∧
(∀ (s : State) (u : Nat), u ∈ s.scrubbing → ∃ t, exec (.memoryScrubComplete u) s = .next t ∧ u ∉ t.scrubbing ∧
  (∀ a, t.mem.read a = if a / 2 ^ 30 = u then 0 else s.mem.read a) ∧ t.host = s.host ∧ t.peer = s.peer ∧ t.groups = s.groups) ∧
(∀ (s : State) (fn : Nat),
  (∀ addr bytes, bytes ≠ [] → addr + bytes.length ≤ Config.dramBytes → let own := s.inUnits (fn - 1) addr bytes.length
    let read := (List.range bytes.length).map fun i =>
      if s.badMem 0 (addr + i) 1 then none else some (s.mem.read (addr + i))
    (s.hostMay fn own = true → exec (.hostMemoryAccess fn false addr bytes) s = .next { s with answered := read } ∧
      ∃ t, exec (.hostMemoryAccess fn true addr bytes) s = .next t ∧ s.WroteBytes t 0 addr bytes ∧ t.groups = s.groups ∧
        t.blocks = s.blocks) ∧
    (s.bootfail = false → s.fnExists fn = true → s.frozenFns.contains fn = false → fn ≠ 0 → own = false → ∀ w,
      exec (.hostMemoryAccess fn w addr bytes) s = .next { s with frozenFns := NSet.insert s.frozenFns fn })) ∧
  (fn ≠ 0 → s.fnExists fn = true →
    exec (.hostIsolationViolation fn) s = .next { s with frozenFns := NSet.insert s.frozenFns fn }) ∧
  (∀ p v, p < 64 → s.hostMay fn (fn == p + 1) = true →
    exec (.registerWrite fn (0x20000 + 64 * p) v) s = .next (s.setHq p { s.hq p with base := v })) ∧
  (∀ off, s.fnExists fn = true → s.bootfail = false → off < 2 ^ 26 →
    (s.frozenFns.contains fn = true → s.hostRead fn off = { s with answered := List.replicate 8 (some 0xFF) }) ∧
    (s.frozenFns.contains fn = false → fn = 0 ∨ s.ownsOffset fn (off / 8 * 8) = true →
      s.hostRead fn off = { s with answered := (leBytes 8 (s.windowRead fn (off / 8 * 8))).map some })) ∧
  (∀ q < 256, let k := 0x10000 + 64 * q
    s.windowRead fn (k + 0x18) = (s.queue q).qtail.toNat ∧ s.windowRead fn (k + 0x20) = (s.queue q).qhead.toNat ∧
    s.windowRead fn (k + 0x30) = (s.queue q).qdone.toNat ∧ s.windowRead fn (k + 0x38) = 0) ∧
  s.windowRead fn 0x30000 = 0 ∧ s.windowRead fn 0x30010 = s.mailbox.ctr) ∧
(∀ (s : State) (port : Nat), port < 16 → let p := s.port port
  (∀ f : Flit, p.up = true → s.bootfail = false → s.flitWaits port f = false →
    (f.crcOk = false ∨ p.rxSeq < f.seq → exec (.cheukFlit port f) s =
      .next (s.setPort port { p with out := p.out ++ [⟨0, true, .resend, p.rxSeq, []⟩] })) ∧
    (f.crcOk = true → f.seq ≤ p.rxSeq → f.kind = .resend → exec (.cheukFlit port f) s =
      .next (s.setPort port { p with out := p.out ++ p.replay.filter (f.addr ≤ ·.seq) })) ∧
    (f.crcOk = true → f.kind ≠ .resend →
      (f.seq < p.rxSeq → exec (.cheukFlit port f) s = .next s) ∧
      (f.seq = p.rxSeq → ∃ t, exec (.cheukFlit port f) s = .next t ∧ (t.port port).rxSeq = p.rxSeq + 1 ∧ t.groups = s.groups ∧
        (∀ n, f.kind = .read n → f.addr + n ≤ Config.dramBytes → Config.peerAdmits f.addr = true →
          t.mem = s.mem ∧ (t.port port).out = p.out ++ [⟨p.txSeq, true, if s.badMem 0 f.addr n then .poisoned else .reply,
            f.addr, s.mem.readN f.addr n⟩]) ∧
        (f.kind = .write → f.addr + f.bytes.length ≤ Config.dramBytes →
          s.WroteBytes t 0 f.addr (if Config.peerAdmits f.addr then f.bytes else []))))) ∧
  (∀ f : Flit, p.up = false ∨ s.bootfail = true → exec (.cheukFlit port f) s = .next s) ∧
  (∃ t, exec (.cheukPortDown port) s = .next t ∧ (t.port port).up = false ∧ t.mem = s.mem ∧ t.reqs = s.reqs ∧ t.groups = s.groups)) ∧
(∀ (s : State) (r : Nat) (q : Req) (p : Place) (h : Nat) (g : Group) (m : Meter), s.req r = some q → q.place = some p →
  s.handleOf q.grp = some h → s.group h = some g →
  let k := (if p.tgt = 2 then 8 + Config.peerPort (p.pa / 2 ^ 44) % 16 else p.pa / 2 ^ 36 % 8) * 65536 + g.asid
  Store.find s.meters k = some m → ∃ n, exec (.meterRelease r) s = .next { s with
      draws := s.draws + 1, meters := Store.put s.meters k { m with tokens := n } } ∧
    (q.act.width ≤ m.tokens → n = m.tokens - q.act.width) ∧ (m.tokens ≤ 1024 * m.burst → n ≤ 1024 * m.burst)) ∧
(∀ (s : State) (b : BootImage), ∃ t, exec (.powerUp b) s = .next t ∧ t.groups = [] ∧ t.blocks = [] ∧ t.launches = [] ∧
  t.reqs = [] ∧ t.ops = [] ∧ t.mem = [] ∧ t.host = s.host ∧ t.peer = s.peer ∧ t.now = 0 ∧ t.frozenFns = [] ∧
  t.ready = !t.bootfail ∧ t.bootfail = !(Config.verifies Config.romKey b.firmware b.fwSig && b.helperOk &&
    Config.verifies b.ownerKey b.config b.cfgSig)) ∧
(∀ (s : State) (nonce : List Byte), s.mailbox.busy = false → s.ready = true → nonce.length = 32 →
  ∃ body, exec (.attestationReport nonce) s = .next { s with report := body ++ Config.signature body } ∧ body.length = 200 ∧
    body.take 48 = leBytes 4 1 ++ leBytes 4 s.fwVersion ++ leBytes 8 s.cfgVersion ++ nonce ∧
    body.drop 192 = leBytes 8 s.mailbox.ctr)

/-- Banks, temperature and power (R188, R191, R201, R255, R352, R353; the model's choices and readings: log 27). -/
def Obligations.BankAndPowerSteps : Prop :=
  ∀ (s : State),
  (∀ core, let c := s.core core
    let cl := s.cluster (clusterOf core)
    (∀ t, core < Config.cores → let x := min (max t 4) 48
      (c.hold = false → exec (.litTargetChange core t) s = .next (s.setCore core { c with target := x })) ∧
      (c.hold = true → cl.throt = false → cl.cool = false → exec (.litTargetChange core t) s = .next s) ∧
      (c.hold = true → cl.throt = true ∨ cl.cool = true →
        exec (.litTargetChange core t) s = .next (s.setCore core { c with target := min c.target x }))) ∧
    (c.lit.length ≤ c.target → exec (.bankDarken core) s = .next s) ∧
    (∀ b, c.target < c.lit.length → s.darkest core = some b → ∃ t, exec (.bankDarken core) s = .next t ∧
      4 ≤ b.idx ∧ b ∈ s.banks core ∧
      (∀ y ∈ s.banks core, 4 ≤ y.idx → b.rank.elim 0 (· + 1) ≤ y.rank.elim 0 (· + 1)) ∧ (t.core core).lit = c.lit.filter (· != b.idx) ∧ t.mem = s.mem ∧ t.groups = s.groups ∧
      (∀ x ∈ t.blocks, x.2.core = core → ∀ a ∈ x.2.allocs, ∀ r ∈ a.rows, r.1 ≠ b.idx)) ∧
    (c.target ≤ c.lit.length → exec (.bankRelight core) s = .next s) ∧
    (∀ i, c.lit.length < c.target → i < 48 → i ∉ c.lit → (∀ j < i, j ∈ c.lit) →
      exec (.bankRelight core) s = .next (s.setCore core { c with lit := NSet.insert c.lit i }))) ∧
  (let dwelt := ∀ i < Config.clusters, ∀ t0, (s.cluster i).thrSince = some t0 → t0 + 2000000 ≤ s.now
   (∀ cl temp, cl < Config.clusters → ∃ t, exec (.thermalAlarm cl temp) s = .next t ∧ (t.cluster cl).temp = temp ∧
      ((s.cluster cl).throt = true ∨ ¬dwelt → t = ({ s with draws := s.draws + 1 } : State).setCluster cl
        { (s.cluster cl) with temp := temp, under := temp.toNat + 2 ≤ (s.cluster cl).thresh.toNat }) ∧
      ((s.cluster cl).thresh ≤ temp → (s.cluster cl).throt = false → dwelt → ∀ i < Config.clusters,
        (t.cluster i).throt = true ∧ (t.cluster i).hot = true ∧ (t.cluster i).sprint = false ∧
        (t.cluster i).thrSince = some s.now ∧ ((s.cluster i).sprint = true → (t.cluster i).cool = true ∧
          (t.cluster i).since = s.now))) ∧
   (let cool := ∀ i < Config.clusters, (s.cluster i).under = true
    (¬cool ∨ ¬dwelt → exec .throttleRelease s = .next s) ∧
    (cool → dwelt → (∃ i < Config.clusters, (s.cluster i).throt = true) → ∃ t, exec .throttleRelease s = .next t ∧
      t.mem = s.mem ∧ t.groups = s.groups ∧ ∀ i < Config.clusters, (t.cluster i).throt = false ∧ (t.cluster i).hot = false ∧
        (t.cluster i).thrSince = some s.now))) ∧
  (∀ cl, cl < Config.clusters → let c := s.cluster cl
    let set := fun (i : Instr) (c1 : Cluster) => exec i s = .next (s.setCluster cl c1)
    let stop := { c with sprint := false, cool := true, since := s.now }
    let n := Config.coresPerCluster
    let turn := fun i => n * cl + (n - 1 - (c.lever + i) % n)
    let down := Instr.powerBudgetAdjust cl true
    let up := Instr.powerBudgetAdjust cl false
    (c.sprint = true → set down stop) ∧
    (c.sprint = false → c.passreq = 0 → set down { c with passreq := 1 }) ∧
    (c.sprint = false → c.passreq ≠ 0 → (s.lowerable cl = [] → set down { c with passreq := 2 }) ∧
      (∀ i < n, turn i ∈ s.lowerable cl → (∀ j < i, turn j ∉ s.lowerable cl) →
        exec down s = .next ((s.setCluster cl { c with lever := (c.lever + i) % n + 1 }).setTarget (turn i)
          ((s.core (turn i)).target - 1)))) ∧
    (2 ≤ c.passreq → set up { c with passreq := 1 }) ∧
    (c.passreq < 2 → ∀ i < n, turn i ∈ s.raisable cl → (∀ j < n, i < j → turn j ∉ s.raisable cl) →
      exec up s = .next ((s.setCluster cl { c with lever := (c.lever + i) % n }).setTarget (turn i)
        ((s.core (turn i)).target + 1))) ∧
    (s.raisable cl = [] → c.passreq = 1 → set up { c with passreq := 0 }) ∧
    (s.raisable cl = [] → c.passreq = 0 → c.sprint = false → c.cool = false → c.throt = false →
      (c.det && s.collective cl) = false → set up { c with sprint := true, since := s.now }) ∧
    (c.sprint = true → c.since + 40000000 ≤ s.now → set (.sprintEnd cl) stop) ∧
    (c.cool = true → c.since + 160000000 ≤ s.now → set (.coolDownEnd cl) { c with cool := false }) ∧
    (c.sprint = false ∨ s.now < c.since + 40000000 → exec (.sprintEnd cl) s = .next s) ∧
    (c.cool = false ∨ s.now < c.since + 160000000 → exec (.coolDownEnd cl) s = .next s))

/-- The issue of a word changes no byte of memory (R46, R53, R59). -/
def Obligations.IssueLeavesMemory : Prop :=
  ∀ (i : Instr) (s t : State), i.isWord = true → exec i s = .next t →
  t.mem = s.mem ∧ t.host = s.host ∧ t.peer = s.peer ∧ t.poison = s.poison ∧ t.saved = s.saved ∧ t.mailbox = s.mailbox ∧
  t.meters = s.meters
end

