-- ==== Sys2Proof/Laws/Decode.lean ====
section
/-! SUPPORT. The fields of encoded words, shape by shape, and what the decoder reads from them. -/

set_option linter.unusedSimpArgs false

namespace Sys2Proof

/-! A field of two parts put together. -/

theorem fld_cat_low (hi k lo a n : Nat) (h : a + n ≤ k) : fld (cat hi k lo) a n = fld lo a n := by
  unfold fld cat
  have h1 : (2 : Nat) ^ k = 2 ^ a * 2 ^ n * 2 ^ (k - a - n) := by
    rw [← Nat.pow_add, ← Nat.pow_add]; congr 1; omega
  have h2 : hi * 2 ^ k + lo % 2 ^ k = lo % 2 ^ k + (2 ^ a * 2 ^ n) * (hi * 2 ^ (k - a - n)) := by
    rw [h1]; rw [Nat.add_comm]; congr 1; simp only [Nat.mul_assoc, Nat.mul_left_comm]
  rw [h2, Nat.mul_assoc (2 ^ a), Nat.add_mul_div_left _ _ (Nat.two_pow_pos a), Nat.add_mul_mod_self_left]
  rw [h1, Nat.mul_assoc (2 ^ a)]
  rw [Nat.mod_mul_right_div_self, Nat.mod_mul_right_mod]

theorem fld_cat_high (hi k lo a n : Nat) (h : k ≤ a) : fld (cat hi k lo) a n = fld hi (a - k) n := by
  unfold fld cat
  have h1 : (2 : Nat) ^ a = 2 ^ k * 2 ^ (a - k) := by rw [← Nat.pow_add]; congr 1; omega
  rw [h1, ← Nat.div_div_eq_div_mul]
  congr 2
  rw [Nat.mul_comm, Nat.mul_add_div (Nat.two_pow_pos k), Nat.div_eq_of_lt (Nat.mod_lt _ (Nat.two_pow_pos k))]; rfl

/-- A field that takes in the lower part whole and some of the upper. -/
theorem fld_cat_both (hi k lo n : Nat) (h : k ≤ n) : fld (cat hi k lo) 0 n = cat (fld hi 0 (n - k)) k lo := by
  unfold fld cat
  simp only [Nat.pow_zero, Nat.div_one]
  have h1 : (2 : Nat) ^ n = 2 ^ k * 2 ^ (n - k) := by rw [← Nat.pow_add]; congr 1; omega
  rw [h1, Nat.mod_mul, Nat.mul_comm hi, Nat.mul_add_mod, Nat.mod_mod, Nat.mul_add_div (Nat.two_pow_pos k),
    Nat.div_eq_of_lt (Nat.mod_lt _ (Nat.two_pow_pos k))]
  rw [Nat.add_zero, Nat.add_comm, Nat.mul_comm]

theorem fld_small (x n : Nat) (h : x < 2 ^ n) : fld x 0 n = x := by
  simp only [fld, Nat.pow_zero, Nat.div_one]; exact Nat.mod_eq_of_lt h
theorem fld_toNat {m : Nat} (x : BitVec m) (n : Nat) (h : m ≤ n) : fld x.toNat 0 n = x.toNat :=
  fld_small _ _ (Nat.lt_of_lt_of_le x.isLt (Nat.pow_le_pow_right (by decide) h))
theorem fld_bool (b : Bool) : fld b.toNat 0 1 = b.toNat := by cases b <;> rfl
theorem fld_zero (a n : Nat) : fld 0 a n = 0 := by simp [fld]
theorem bool_beq_one (b : Bool) : (b.toNat == 1) = b := by cases b <;> rfl
theorem ofNat_toNat_self {n : Nat} (x : BitVec n) : BitVec.ofNat n x.toNat = x := by simp

/-- An opcode of a table row. -/
theorem fld_op (op : Nat) (h : op < 128) : fld op 0 7 = op := fld_small op 7 h

/-! What the decoder answers, from its parts. -/

theorem decode_of (w : Nat) (l : List Nat) (i : Instr) (hu : unassignedOp (opOf w) = false)
    (hl : litsFit w l = true) (hr : decodeRaw w l = some i) (hw : i.wf = true) : decode w l = .ok i := by
  simp [decode, hu, hl, hr, hw]

/-- The round trip of one instruction. -/
def RoundTrips (i : Instr) : Prop := i.isWord = true ∧ i.wf = true → ∃ w l, encode i = w :: l ∧ decode w l = .ok i

theorem roundTrips_of (i : Instr) (w : Nat) (l : List Nat) (op : Nat) (he : encode i = w :: l) (ho : opOf w = op)
    (hu : unassignedOp op = false) (hl : litsFit w l = true) (hr : decodeRaw w l = some i) : RoundTrips i :=
  fun h => ⟨w, l, he, decode_of w l i (ho ▸ hu) hl hr h.2⟩

/-! The extension word. -/

theorem extOf_encExt (e : Ext) : extOf (encExt e) = some e := by
  obtain ⟨ty, c, bu, rm⟩ := e
  simp (disch := omega) only [extOf, encExt, fld_cat_low, fld_cat_high, fld_toNat, fld_bool, fld_zero, bfld, tst,
    Nat.reduceSub, Nat.sub_self, bool_beq_one, ofNat_toNat_self, beq_self_eq_true, Bool.and_self, req, if_true]

theorem extWord_enc (e : Option Ext) : extWord (encExtOpt e) = some e := by
  cases e with
  | none => rfl
  | some e => simp [encExtOpt, extWord, extOf_encExt]

theorem encExtOpt_short (e : Option Ext) : (encExtOpt e).length < 2 := by cases e <;> simp [encExtOpt]

/-- An extensible primary. -/
theorem litsFit_ext (w op : Nat) (l : List Nat) (ho : opOf w = op) (h : extensible op = true) (hl : l.length < 2) :
    litsFit w l = true := by simp [litsFit, ho, h, hl]
theorem litsFit_count (w op : Nat) (l : List Nat) (ho : opOf w = op) (h : extensible op = false)
    (hl : litCount w = l.length) : litsFit w l = true := by simp [litsFit, ho, h, hl]

/-! Shape VV. -/

theorem opOf_VV (op : Nat) (h : op < 128) (o : VV) (w : Nat) (l : List Nat) (he : encVV op o = w :: l) : opOf w = op := by
  simp only [encVV, List.cons.injEq] at he
  obtain ⟨rfl, rfl⟩ := he
  simp (disch := omega) only [opOf, encPred, fld_cat_high, Nat.reduceSub, fld_op]

theorem mkVV_enc (f : VV → Instr) (op : Nat) (o : VV) (w : Nat) (l : List Nat) (he : encVV op o = w :: l) :
    mkVV f w l = some (f o) := by
  simp only [encVV, List.cons.injEq] at he
  obtain ⟨rfl, rfl⟩ := he
  obtain ⟨⟨pn, pi⟩, d, a, b, e⟩ := o
  simp (disch := omega) only [mkVV, extWord_enc, Option.map_some, predOf, tst, bfld, encPred, fld_cat_low, fld_cat_high,
    fld_toNat, fld_bool, bool_beq_one, ofNat_toNat_self, Nat.reduceSub, Nat.sub_self]

theorem roundTrips_VV (f : VV → Instr) (op : Nat) (he : ∀ o, encode (f o) = encVV op o) (hx : extensible op = true)
    (hr : ∀ w l, opOf w = op → decodeRaw w l = mkVV f w l) (hu : unassignedOp op = false) (o : VV) : RoundTrips (f o) := by
  have h7 : op < 128 := by simp [extensible] at hx; omega
  have hw := opOf_VV op h7 o _ _ rfl
  exact roundTrips_of _ _ _ op (he o) hw hu (litsFit_ext _ op _ hw hx (encExtOpt_short o.ext))
    ((hr _ _ hw).trans (mkVV_enc f op o _ _ rfl))

/-! Shape VU. -/

theorem opOf_VUw (op : Nat) (h : op < 128) (p : Pred) (d a : BitVec 7) (fn : Nat) : opOf (encVUw op p d a fn) = op := by
  simp (disch := omega) only [opOf, encVUw, encPred, fld_cat_high, Nat.reduceSub, fld_op]

/-- A field of FN. -/
theorem fld_VUw_fn (op : Nat) (p : Pred) (d a : BitVec 7) (fn lo n : Nat) (h : lo + n ≤ 7) :
    fld (encVUw op p d a fn) lo n = fld fn lo n := by
  simp (disch := omega) only [encVUw, fld_cat_low]

theorem fld_VUw_a (op : Nat) (p : Pred) (d a : BitVec 7) (fn : Nat) : fld (encVUw op p d a fn) 7 7 = a.toNat := by
  simp (disch := omega) only [encVUw, fld_cat_low, fld_cat_high, Nat.sub_self, fld_toNat]
theorem fld_VUw_d (op : Nat) (p : Pred) (d a : BitVec 7) (fn : Nat) : fld (encVUw op p d a fn) 14 7 = d.toNat := by
  simp (disch := omega) only [encVUw, fld_cat_low, fld_cat_high, Nat.sub_self, Nat.reduceSub, fld_toNat]
theorem VUw_a (op : Nat) (p : Pred) (d a : BitVec 7) (fn : Nat) : bfld 7 (encVUw op p d a fn) 7 = a := by
  simp (disch := omega) only [bfld, encVUw, fld_cat_low, fld_cat_high, Nat.sub_self, fld_toNat, ofNat_toNat_self]
theorem VUw_d (op : Nat) (p : Pred) (d a : BitVec 7) (fn : Nat) : bfld 7 (encVUw op p d a fn) 14 = d := by
  simp (disch := omega) only [bfld, encVUw, fld_cat_low, fld_cat_high, Nat.sub_self, Nat.reduceSub, fld_toNat,
    ofNat_toNat_self]
theorem VUw_p (op : Nat) (p : Pred) (d a : BitVec 7) (fn : Nat) : predOf (encVUw op p d a fn) = p := by
  obtain ⟨pn, pi⟩ := p
  simp (disch := omega) only [predOf, bfld, tst, encVUw, encPred, fld_cat_low, fld_cat_high, Nat.sub_self,
    Nat.reduceSub, fld_toNat, fld_bool, bool_beq_one, ofNat_toNat_self]

theorem mkVU_enc (f : VU → Instr) (op fn : Nat) (o : VU) : mkVU f (encVUw op o.p o.d o.a fn) (encExtOpt o.ext) = some (f o) := by
  simp only [mkVU, extWord_enc, Option.map_some, VUw_p, VUw_d, VUw_a]

theorem roundTrips_VU (f : VU → Instr) (op fn : Nat) (o : VU) (he : encode (f o) = encVU op fn o)
    (hx : extensible op = true) (hu : unassignedOp op = false)
    (hr : ∀ w l, opOf w = op → (∀ lo n, lo + n ≤ 7 → fld w lo n = fld fn lo n) →
      mkVU f w l = some (f o) → decodeRaw w l = some (f o)) : RoundTrips (f o) := by
  have h7 : op < 128 := by simp [extensible] at hx; omega
  have hw := opOf_VUw op h7 o.p o.d o.a fn
  exact roundTrips_of _ _ _ op he hw hu (litsFit_ext _ op _ hw hx (encExtOpt_short o.ext))
    (hr _ _ hw (fun lo n h => fld_VUw_fn op o.p o.d o.a fn lo n h) (mkVU_enc f op fn o))

/-! Shape VP and the predicate forms. -/

theorem roundTrips_VP (f : VP → Instr) (op : Nat) (he : ∀ o, encode (f o) = encVP op o) (hx : extensible op = true)
    (hr : ∀ w l, opOf w = op → decodeRaw w l = mkVP f w l) (hu : unassignedOp op = false) (o : VP) : RoundTrips (f o) := by
  have h7 : op < 128 := by simp [extensible] at hx; omega
  obtain ⟨⟨pn, pi⟩, cnd, pd, a, b, e⟩ := o
  have hw : opOf (cat (cat (cat (cat (cat (encPred op ⟨pn, pi⟩) 1 0) 3 cnd.toNat) 3 pd.toNat) 7 a.toNat) 7 b.toNat) = op := by
    simp (disch := omega) only [opOf, encPred, fld_cat_high, Nat.reduceSub, fld_op]
  refine roundTrips_of _ _ _ op (he _) hw hu (litsFit_ext _ op _ hw hx (encExtOpt_short e)) ?_
  rw [hr _ _ hw]
  simp (disch := omega) only [mkVP, extWord_enc, Option.map_some, predOf, tst, bfld, encPred, fld_cat_low, fld_cat_high,
    fld_toNat, fld_bool, fld_zero, bool_beq_one, ofNat_toNat_self, Nat.reduceSub, Nat.sub_self, req, beq_self_eq_true, if_true]

theorem roundTrips_PP (f : PP → Instr) (fn : Nat) (hf : fn < 128) (he : ∀ o, encode (f o) = encPP fn o)
    (hr : ∀ w l, opOf w = 0x17 → fld w 0 7 = fn → decodeRaw w l = mkPP f w l) (o : PP) : RoundTrips (f o) := by
  obtain ⟨⟨pn, pi⟩, pd, pa, pb, cl⟩ := o
  have hw : opOf (cat (cat (cat (cat (cat (cat (encPred 0x17 ⟨pn, pi⟩) 4 0) 3 pd.toNat) 1 0) 3 pb.toNat) 3 pa.toNat) 7 fn) = 0x17 := by
    simp (disch := omega) only [opOf, encPred, fld_cat_high, Nat.reduceSub, fld_op]
  have hn : fld (cat (cat (cat (cat (cat (cat (encPred 0x17 ⟨pn, pi⟩) 4 0) 3 pd.toNat) 1 0) 3 pb.toNat) 3 pa.toNat) 7 fn) 0 7 = fn := by
    simp (disch := omega) only [fld_cat_low, fld_op]
  refine roundTrips_of _ _ _ 0x17 (he _) hw rfl (litsFit_ext _ 0x17 _ hw rfl (by cases cl <;> simp)) ?_
  rw [hr _ _ hw hn]
  have hc : claimed (if cl = true then [0] else []) 0 = some cl := by cases cl <;> rfl
  simp (disch := omega) only [mkPP, hc, Option.map_some, predOf, tst, bfld, encPred, fld_cat_low, fld_cat_high,
    fld_toNat, fld_bool, fld_zero, bool_beq_one, ofNat_toNat_self, Nat.reduceSub, Nat.sub_self, req, beq_self_eq_true,
    Bool.and_self, if_true]

/-! Shape SS. -/

theorem opOf_SS (op : Nat) (h : op < 128) (cx : Nat) (o : SS) : opOf (encSS op cx o) = op := by
  simp (disch := omega) only [opOf, encSS, fld_cat_high, Nat.reduceSub, fld_op]
theorem fld_SS_cx (op cx : Nat) (o : SS) (lo n : Nat) (h : lo + n ≤ 4) : fld (encSS op cx o) (21 + lo) n = fld cx lo n := by
  have h1 : 21 + lo - 6 - 6 - 6 - 2 - 1 = lo := by omega
  simp (disch := omega) only [encSS, fld_cat_low, fld_cat_high, h1]
theorem ssOf_enc (op cx : Nat) (o : SS) : ssOf (encSS op cx o) = o := by
  obtain ⟨ty, ib, d, a, b⟩ := o
  simp (disch := omega) only [ssOf, encSS, bfld, tst, fld_cat_low, fld_cat_high, fld_toNat, fld_bool, bool_beq_one,
    ofNat_toNat_self, Nat.reduceSub, Nat.sub_self]

theorem roundTrips_SS (f : SS → Instr) (op : Nat) (h7 : op < 128) (he : ∀ o, encode (f o) = [encSS op 0 o])
    (hx : extensible op = false) (hu : unassignedOp op = false) (hc : ∀ w, opOf w = op → litCount w = 0)
    (hr : ∀ w l, opOf w = op → decodeRaw w l = mkSS f w l) (o : SS) : RoundTrips (f o) := by
  have hw := opOf_SS op h7 0 o
  refine roundTrips_of _ _ _ op (he o) hw hu (litsFit_count _ op _ hw hx (hc _ hw)) ?_
  have h0 : fld (encSS op 0 o) 21 4 = 0 := (fld_SS_cx op 0 o 0 4 (by decide)).trans (fld_zero _ _)
  simp [hr _ _ hw, mkSS, h0, req, lit0, ssOf_enc]

theorem encOff_length (x : Option Word) : (encOff x).length < 2 := by cases x <;> simp [encOff]
theorem litOpt_enc (x : Option Word) : litOpt (encOff x) = x := by cases x <;> simp [encOff, litOpt]

theorem roundTrips_SSX (f : SS → Option Word → Instr) (op : Nat) (h7 : op < 128)
    (he : ∀ o x, encode (f o x) = encSS op (encOff x).length o :: encOff x)
    (hx : extensible op = false) (hu : unassignedOp op = false) (hc : ∀ w, opOf w = op → litCount w = fld w 21 1)
    (hr : ∀ w l, opOf w = op → decodeRaw w l = mkSSX f w l) (o : SS) (x : Option Word) : RoundTrips (f o x) := by
  have hw := opOf_SS op h7 (encOff x).length o
  have hl := encOff_length x
  have h1 : fld (encSS op (encOff x).length o) 21 1 = (encOff x).length :=
    (fld_SS_cx op _ o 0 1 (by decide)).trans (fld_small _ _ hl)
  have h2 : fld (encSS op (encOff x).length o) 22 3 = 0 := by
    rw [fld_SS_cx op _ o 1 3 (by decide)]
    have : (encOff x).length / 2 = 0 := by omega
    simp [fld, this]
  refine roundTrips_of _ _ _ op (he o x) hw hu (litsFit_count _ op _ hw hx ((hc _ hw).trans h1)) ?_
  simp [hr _ _ hw, mkSSX, h2, req, litOpt_enc, ssOf_enc]

/-! Uniform memory forms. -/

theorem roundTrips_UMem (f : UMem → Instr) (op : Nat) (load : Bool) (h7 : op < 128) (he : ∀ m, encode (f m) = encUMem op load m)
    (hx : extensible op = false) (hu : unassignedOp op = false) (hc : ∀ w, opOf w = op → litCount w = fld w 24 1)
    (hr : ∀ w l, opOf w = op → decodeRaw w l = mkUMem f load w l) (m : UMem) : RoundTrips (f m) := by
  obtain ⟨r, a, sz, sx, l2, off⟩ := m
  have hl := encOff_length off
  obtain ⟨w, hwd⟩ : ∃ w, w = cat (cat (cat (cat (cat (cat (cat (cat (cat op 1 (encOff off).length) 1 0) 2 sz.toNat) 1 0) 1
    sx.toNat) 1 l2.toNat) 6 (if load then r.toNat else 0)) 6 a.toNat) 6 (if load then 0 else r.toNat) := ⟨_, rfl⟩
  have hw : opOf w = op := by
    subst hwd
    simp (disch := omega) only [opOf, fld_cat_high, Nat.reduceSub, fld_op]
  have hlit : fld w 24 1 = (encOff off).length := by
    subst hwd
    simp (disch := omega) only [fld_cat_low, fld_cat_high, Nat.reduceSub, Nat.sub_self, fld_small]
  refine roundTrips_of _ w (encOff off) op ((he _).trans (by rw [hwd]; rfl)) hw hu
    (litsFit_count _ op _ hw hx ((hc _ hw).trans hlit)) ?_
  rw [hr _ _ hw]
  subst hwd
  cases load <;>
    simp (disch := omega) [mkUMem, req, bfld, tst, litOpt_enc, fld_cat_low, fld_cat_high, fld_toNat, fld_bool, fld_zero,
      bool_beq_one]

/-! Shape EN. -/

section
variable (op sec slot h sa sb fl : Nat)

theorem opOf_EN (h7 : op < 128) : opOf (encEN op sec slot h sa sb fl) = op := by
  simp (disch := omega) only [opOf, encEN, fld_cat_high, Nat.reduceSub, fld_op]
theorem EN_sec : fld (encEN op sec slot h sa sb fl) 21 4 = fld sec 0 4 := by
  simp (disch := omega) only [encEN, fld_cat_low, fld_cat_high, Nat.reduceSub, Nat.sub_self]
theorem EN_slot : fld (encEN op sec slot h sa sb fl) 18 3 = fld slot 0 3 := by
  simp (disch := omega) only [encEN, fld_cat_low, fld_cat_high, Nat.reduceSub, Nat.sub_self]
theorem EN_slot_low : fld (encEN op sec slot h sa sb fl) 18 2 = fld slot 0 2 := by
  simp (disch := omega) only [encEN, fld_cat_low, fld_cat_high, Nat.reduceSub, Nat.sub_self]
theorem EN_slot_top : fld (encEN op sec slot h sa sb fl) 20 1 = fld slot 2 1 := by
  simp (disch := omega) only [encEN, fld_cat_low, fld_cat_high, Nat.reduceSub, Nat.sub_self]
theorem EN_h : fld (encEN op sec slot h sa sb fl) 14 4 = fld h 0 4 := by
  simp (disch := omega) only [encEN, fld_cat_low, fld_cat_high, Nat.reduceSub, Nat.sub_self]
theorem EN_sa : fld (encEN op sec slot h sa sb fl) 8 6 = fld sa 0 6 := by
  simp (disch := omega) only [encEN, fld_cat_low, fld_cat_high, Nat.reduceSub, Nat.sub_self]
theorem EN_sb : fld (encEN op sec slot h sa sb fl) 2 6 = fld sb 0 6 := by
  simp (disch := omega) only [encEN, fld_cat_low, fld_cat_high, Nat.reduceSub, Nat.sub_self]
theorem EN_sb_low : fld (encEN op sec slot h sa sb fl) 2 4 = fld sb 0 4 := by
  simp (disch := omega) only [encEN, fld_cat_low, fld_cat_high, Nat.reduceSub, Nat.sub_self]
theorem EN_sb_top : fld (encEN op sec slot h sa sb fl) 6 2 = fld sb 4 2 := by
  simp (disch := omega) only [encEN, fld_cat_low, fld_cat_high, Nat.reduceSub, Nat.sub_self]
theorem EN_fl : fld (encEN op sec slot h sa sb fl) 0 2 = fld fl 0 2 := by
  simp (disch := omega) only [encEN, fld_cat_low]
theorem EN_fl0 : fld (encEN op sec slot h sa sb fl) 0 1 = fld fl 0 1 := by
  simp (disch := omega) only [encEN, fld_cat_low]
theorem EN_fl1 : fld (encEN op sec slot h sa sb fl) 1 1 = fld fl 1 1 := by
  simp (disch := omega) only [encEN, fld_cat_low]
end

theorem fld_bool_top (b : Bool) : fld b.toNat 1 1 = 0 := by cases b <;> rfl
theorem fld_of_lt (x k n : Nat) (h : x < 2 ^ k) : fld x k n = 0 := by
  simp [fld, Nat.div_eq_of_lt h]
theorem fld_top {m : Nat} (x : BitVec m) (k n : Nat) (h : m ≤ k) : fld x.toNat k n = 0 :=
  fld_of_lt _ _ _ (Nat.lt_of_lt_of_le x.isLt (Nat.pow_le_pow_right (by decide) h))

/-! Shape SY. -/

section
variable (op sec sc ord idx sa sb : Nat)

theorem opOf_SY (h7 : op < 128) : opOf (encSY op sec sc ord idx sa sb) = op := by
  simp (disch := omega) only [opOf, encSY, fld_cat_high, Nat.reduceSub, fld_op]
theorem SY_sec : fld (encSY op sec sc ord idx sa sb) 21 4 = fld sec 0 4 := by
  simp (disch := omega) only [encSY, fld_cat_low, fld_cat_high, Nat.reduceSub, Nat.sub_self]
theorem SY_sc : fld (encSY op sec sc ord idx sa sb) 18 3 = fld sc 0 3 := by
  simp (disch := omega) only [encSY, fld_cat_low, fld_cat_high, Nat.reduceSub, Nat.sub_self]
theorem SY_ord : fld (encSY op sec sc ord idx sa sb) 16 2 = fld ord 0 2 := by
  simp (disch := omega) only [encSY, fld_cat_low, fld_cat_high, Nat.reduceSub, Nat.sub_self]
theorem SY_idx : fld (encSY op sec sc ord idx sa sb) 12 4 = fld idx 0 4 := by
  simp (disch := omega) only [encSY, fld_cat_low, fld_cat_high, Nat.reduceSub, Nat.sub_self]
theorem SY_idx0 : fld (encSY op sec sc ord idx sa sb) 12 1 = fld idx 0 1 := by
  simp (disch := omega) only [encSY, fld_cat_low, fld_cat_high, Nat.reduceSub, Nat.sub_self]
theorem SY_idx2 : fld (encSY op sec sc ord idx sa sb) 12 2 = fld idx 0 2 := by
  simp (disch := omega) only [encSY, fld_cat_low, fld_cat_high, Nat.reduceSub, Nat.sub_self]
theorem SY_idx13 : fld (encSY op sec sc ord idx sa sb) 13 3 = fld idx 1 3 := by
  simp (disch := omega) only [encSY, fld_cat_low, fld_cat_high, Nat.reduceSub, Nat.sub_self]
theorem SY_idx14 : fld (encSY op sec sc ord idx sa sb) 14 2 = fld idx 2 2 := by
  simp (disch := omega) only [encSY, fld_cat_low, fld_cat_high, Nat.reduceSub, Nat.sub_self]
theorem SY_sa : fld (encSY op sec sc ord idx sa sb) 6 6 = fld sa 0 6 := by
  simp (disch := omega) only [encSY, fld_cat_low, fld_cat_high, Nat.sub_self]
theorem SY_sb : fld (encSY op sec sc ord idx sa sb) 0 6 = fld sb 0 6 := by
  simp (disch := omega) only [encSY, fld_cat_low]
end

/-! Shape CT. -/

section
variable (op : Nat) (p : Pred) (sec off : Nat)

theorem opOf_CT (h7 : op < 128) : opOf (encCT op p sec off) = op := by
  simp (disch := omega) only [opOf, encCT, encPred, fld_cat_high, Nat.reduceSub, fld_op]
theorem CT_sec : fld (encCT op p sec off) 18 3 = fld sec 0 3 := by
  simp (disch := omega) only [encCT, fld_cat_low, fld_cat_high, Nat.sub_self]
theorem CT_pred : predOf (encCT op p sec off) = p := by
  obtain ⟨pn, pi⟩ := p
  simp (disch := omega) only [predOf, bfld, tst, encCT, encPred, fld_cat_low, fld_cat_high, Nat.sub_self,
    Nat.reduceSub, fld_toNat, fld_bool, bool_beq_one, ofNat_toNat_self]
theorem CT_noPred : noPred (encCT op noP sec off) = true := by
  simp (disch := omega) only [noPred, encCT, encPred, noP, fld_cat_high, Nat.reduceSub]
  simp (disch := omega) only [fld_cat_both, Nat.reduceSub]
  simp [fld, cat, Nat.mod_one]
theorem CT_off (lo n : Nat) (h : lo + n ≤ 18) : fld (encCT op p sec off) lo n = fld off lo n := by
  simp (disch := omega) only [encCT, fld_cat_low]
end

end Sys2Proof
end

