-- ==== Sys2Proof/Laws/Store.lean ====
section
/-! SUPPORT. The laws of maps and of memory: what a read gives after a write, and that a write keeps the
canonical form. -/

namespace Sys2Proof.Machine

variable {α : Type}

/-! Reads after writes in a canonical map. -/

theorem Store.get_put_same (m : Store α) (k : Nat) (v d : α) : Store.get (Store.put m k v) k d = v := by
  induction m with
  | nil => simp [Store.put, Store.get]
  | cons x r ih =>
    obtain ⟨k', w⟩ := x
    simp only [Store.put]
    split
    · simp [Store.get]
    · split
      · simp [Store.get]
      · simp_all [Store.get]

theorem Store.get_put_other (m : Store α) (k j : Nat) (v d : α) (h : j ≠ k) :
    Store.get (Store.put m k v) j d = Store.get m j d := by
  induction m with
  | nil => simp [Store.put, Store.get, Ne.symm h]
  | cons x r ih =>
    obtain ⟨k', w⟩ := x
    simp only [Store.put]
    split
    · simp [Store.get, Ne.symm h]
    · split
      · simp_all [Store.get, Ne.symm h]
      · simp [Store.get, ih]

theorem Store.find_put_same (m : Store α) (k : Nat) (v : α) : Store.find (Store.put m k v) k = some v := by
  induction m with
  | nil => simp [Store.put, Store.find]
  | cons x r ih =>
    obtain ⟨k', w⟩ := x
    simp only [Store.put]
    split
    · simp [Store.find]
    · split
      · simp [Store.find]
      · simp_all [Store.find]

theorem Store.find_put_other (m : Store α) (k j : Nat) (v : α) (h : j ≠ k) :
    Store.find (Store.put m k v) j = Store.find m j := by
  induction m with
  | nil => simp [Store.put, Store.find, Ne.symm h]
  | cons x r ih =>
    obtain ⟨k', w⟩ := x
    simp only [Store.put]
    split
    · simp [Store.find, Ne.symm h]
    · split
      · simp_all [Store.find, Ne.symm h]
      · simp [Store.find, ih]

theorem Store.get_del_other (m : Store α) (k j : Nat) (d : α) (h : j ≠ k) :
    Store.get (Store.del m k) j d = Store.get m j d := by
  induction m with
  | nil => rfl
  | cons x r ih =>
    obtain ⟨k', w⟩ := x
    simp only [Store.del]
    split
    · simp_all [Store.get, Ne.symm h]
    · simp [Store.get, ih]

theorem Store.get_del_same (m : Store α) (k : Nat) (d : α) : Store.get (Store.del m k) k d = d := by
  induction m with
  | nil => rfl
  | cons x r ih =>
    obtain ⟨k', w⟩ := x
    simp only [Store.del]
    split
    · exact ih
    · next he => simp [Store.get, he, ih]

variable [DecidableEq α]

/-- What a set key reads as. -/
theorem Store.get_set_same (m : Store α) (k : Nat) (v d : α) : Store.get (Store.set m k v d) k d = v := by
  unfold Store.set
  split
  · next h => rw [h]; exact Store.get_del_same m k d
  · exact Store.get_put_same m k v d

theorem Store.get_set_other (m : Store α) (k j : Nat) (v d : α) (h : j ≠ k) :
    Store.get (Store.set m k v d) j d = Store.get m j d := by
  unfold Store.set
  split
  · exact Store.get_del_other m k j d h
  · exact Store.get_put_other m k j v d h

/-! The canonical form is kept. -/

theorem Store.wfFrom_mono (d : α) (lo lo' : Nat) (m : Store α) (h : lo' ≤ lo) (hm : Store.wfFrom d lo m = true) :
    Store.wfFrom d lo' m = true := by
  cases m with
  | nil => rfl
  | cons x r =>
    simp only [Store.wfFrom, Bool.and_eq_true, decide_eq_true_eq] at hm ⊢
    exact ⟨⟨by omega, hm.1.2⟩, hm.2⟩

theorem Store.wfFrom_del (d : α) (lo k : Nat) (m : Store α) (hm : Store.wfFrom d lo m = true) :
    Store.wfFrom d lo (Store.del m k) = true := by
  induction m generalizing lo with
  | nil => rfl
  | cons x r ih =>
    obtain ⟨k', w⟩ := x
    simp only [Store.wfFrom, Bool.and_eq_true, decide_eq_true_eq] at hm
    simp only [Store.del]
    split
    · exact Store.wfFrom_mono d (k' + 1) lo _ (by omega) (ih (k' + 1) hm.2)
    · simp only [Store.wfFrom, Bool.and_eq_true, decide_eq_true_eq]
      exact ⟨hm.1, ih (k' + 1) hm.2⟩

theorem Store.wfFrom_put (d v : α) (lo k : Nat) (m : Store α) (hv : v ≠ d) (hk : lo ≤ k)
    (hm : Store.wfFrom d lo m = true) : Store.wfFrom d lo (Store.put m k v) = true := by
  induction m generalizing lo with
  | nil => simp [Store.put, Store.wfFrom, hv, hk]
  | cons x r ih =>
    obtain ⟨k', w⟩ := x
    simp only [Store.wfFrom, Bool.and_eq_true, decide_eq_true_eq] at hm
    simp only [Store.put]
    split
    · next h =>
      simp only [Store.wfFrom, Bool.and_eq_true, decide_eq_true_eq]
      exact ⟨⟨hk, by simp [hv]⟩, ⟨by omega, hm.1.2⟩, hm.2⟩
    · split
      · next h =>
        simp only [beq_iff_eq] at h
        simp only [Store.wfFrom, Bool.and_eq_true, decide_eq_true_eq]
        exact ⟨⟨hk, by simp [hv]⟩, by rw [← h]; exact hm.2⟩
      · next h1 h2 =>
        simp only [beq_iff_eq] at h2
        simp only [Store.wfFrom, Bool.and_eq_true, decide_eq_true_eq]
        exact ⟨hm.1, ih (k' + 1) (by omega) hm.2⟩

/-- Setting a key keeps the canonical form. -/
theorem Store.wf_set (d v : α) (k : Nat) (m : Store α) (hm : Store.wf d m = true) :
    Store.wf d (Store.set m k v d) = true := by
  unfold Store.set
  split
  · exact Store.wfFrom_del d 0 k m hm
  · next h => exact Store.wfFrom_put d v 0 k m h (Nat.zero_le k) hm

/-- Dropping entries keeps the canonical form. -/
theorem Store.wfFrom_filter (d : α) (lo : Nat) (f : Nat × α → Bool) (m : Store α) (hm : Store.wfFrom d lo m = true) :
    Store.wfFrom d lo (m.filter f) = true := by
  induction m generalizing lo with
  | nil => rfl
  | cons x r ih =>
    simp only [Store.wfFrom, Bool.and_eq_true, decide_eq_true_eq] at hm
    simp only [List.filter]
    split
    · simp only [Store.wfFrom, Bool.and_eq_true, decide_eq_true_eq]
      exact ⟨hm.1, ih (x.1 + 1) hm.2⟩
    · exact Store.wfFrom_mono d (x.1 + 1) lo _ (by omega) (ih (x.1 + 1) hm.2)

/-! Memory. -/

@[simp] theorem Memory.read_write_same (m : Memory) (a : Nat) (b : Byte) : (m.write a b).read a = b :=
  Store.get_set_same m a b Memory.unlisted

@[simp] theorem Memory.read_write_other (m : Memory) (a c : Nat) (b : Byte) (h : c ≠ a) :
    (m.write a b).read c = m.read c := Store.get_set_other m a c b Memory.unlisted h

theorem Memory.wf_write (m : Memory) (a : Nat) (b : Byte) (hm : m.wf = true) : (m.write a b).wf = true :=
  Store.wf_set Memory.unlisted b a m hm

theorem Memory.wf_writeN (m : Memory) (a : Nat) (bs : List Byte) (hm : m.wf = true) : (m.writeN a bs).wf = true := by
  induction bs generalizing m a with
  | nil => exact hm
  | cons b r ih => exact ih (m.write a b) (a + 1) (Memory.wf_write m a b hm)

theorem Memory.wf_filter (m : Memory) (f : Host.Cell → Bool) (hm : m.wf = true) : Memory.wf (m.filter f) = true :=
  Store.wfFrom_filter Memory.unlisted 0 f m hm

/-- A byte outside the bytes written reads as before. -/
theorem Memory.read_writeN_other (m : Memory) (a c : Nat) (bs : List Byte) (h : c < a ∨ a + bs.length ≤ c) :
    (m.writeN a bs).read c = m.read c := by
  induction bs generalizing m a with
  | nil => rfl
  | cons b r ih =>
    simp only [List.length_cons] at h
    have h1 : c ≠ a := by omega
    have h2 := ih (m.write a b) (a + 1) (by omega)
    simp only [Memory.writeN]
    rw [h2, Memory.read_write_other m a c b h1]

/-- A byte written reads as what was written. -/
theorem Memory.read_writeN_same (m : Memory) (a i : Nat) (bs : List Byte) (h : i < bs.length) :
    (m.writeN a bs).read (a + i) = bs.getD i 0 := by
  induction bs generalizing m a i with
  | nil => simp at h
  | cons b r ih =>
    simp only [Memory.writeN]
    cases i with
    | zero =>
      rw [Memory.read_writeN_other (m.write a b) (a + 1) (a + 0) r (by omega)]
      simp
    | succ j =>
      have := ih (m.write a b) (a + 1) j (by simpa using h)
      rw [show a + 1 + j = a + (j + 1) by omega] at this
      simpa using this

end Sys2Proof.Machine
end

