-- ==== Sys2Proof/Laws/State.lean ====
section
/-! SUPPORT. One lemma for each field and each update of the state, of a group and of its registers: what an
update leaves alone. -/

namespace Sys2Proof.Machine

/-! State.putGroup. -/
@[simp] theorem State.putGroup_turn (s : State) (h : Nat) (x : Group) : (s.putGroup h x).turn = s.turn := rfl
@[simp] theorem State.putGroup_who (s : State) (h : Nat) (x : Group) : (s.putGroup h x).who = s.who := rfl
@[simp] theorem State.putGroup_draws (s : State) (h : Nat) (x : Group) : (s.putGroup h x).draws = s.draws := rfl
@[simp] theorem State.putGroup_now (s : State) (h : Nat) (x : Group) : (s.putGroup h x).now = s.now := rfl
@[simp] theorem State.putGroup_nextId (s : State) (h : Nat) (x : Group) : (s.putGroup h x).nextId = s.nextId := rfl
@[simp] theorem State.putGroup_inputs (s : State) (h : Nat) (x : Group) : (s.putGroup h x).inputs = s.inputs := rfl
@[simp] theorem State.putGroup_blocks (s : State) (h : Nat) (x : Group) : (s.putGroup h x).blocks = s.blocks := rfl
@[simp] theorem State.putGroup_cores (s : State) (h : Nat) (x : Group) : (s.putGroup h x).cores = s.cores := rfl
@[simp] theorem State.putGroup_clusters (s : State) (h : Nat) (x : Group) : (s.putGroup h x).clusters = s.clusters := rfl
@[simp] theorem State.putGroup_launches (s : State) (h : Nat) (x : Group) : (s.putGroup h x).launches = s.launches := rfl
@[simp] theorem State.putGroup_parts (s : State) (h : Nat) (x : Group) : (s.putGroup h x).parts = s.parts := rfl
@[simp] theorem State.putGroup_queues (s : State) (h : Nat) (x : Group) : (s.putGroup h x).queues = s.queues := rfl
@[simp] theorem State.putGroup_pools (s : State) (h : Nat) (x : Group) : (s.putGroup h x).pools = s.pools := rfl
@[simp] theorem State.putGroup_reqs (s : State) (h : Nat) (x : Group) : (s.putGroup h x).reqs = s.reqs := rfl
@[simp] theorem State.putGroup_ops (s : State) (h : Nat) (x : Group) : (s.putGroup h x).ops = s.ops := rfl
@[simp] theorem State.putGroup_releases (s : State) (h : Nat) (x : Group) : (s.putGroup h x).releases = s.releases := rfl
@[simp] theorem State.putGroup_saves (s : State) (h : Nat) (x : Group) : (s.putGroup h x).saves = s.saves := rfl
@[simp] theorem State.putGroup_saved (s : State) (h : Nat) (x : Group) : (s.putGroup h x).saved = s.saved := rfl
@[simp] theorem State.putGroup_savedBlocks (s : State) (h : Nat) (x : Group) : (s.putGroup h x).savedBlocks = s.savedBlocks := rfl
@[simp] theorem State.putGroup_mem (s : State) (h : Nat) (x : Group) : (s.putGroup h x).mem = s.mem := rfl
@[simp] theorem State.putGroup_host (s : State) (h : Nat) (x : Group) : (s.putGroup h x).host = s.host := rfl
@[simp] theorem State.putGroup_peer (s : State) (h : Nat) (x : Group) : (s.putGroup h x).peer = s.peer := rfl
@[simp] theorem State.putGroup_poison (s : State) (h : Nat) (x : Group) : (s.putGroup h x).poison = s.poison := rfl
@[simp] theorem State.putGroup_units (s : State) (h : Nat) (x : Group) : (s.putGroup h x).units = s.units := rfl
@[simp] theorem State.putGroup_scrubbing (s : State) (h : Nat) (x : Group) : (s.putGroup h x).scrubbing = s.scrubbing := rfl
@[simp] theorem State.putGroup_asidtab (s : State) (h : Nat) (x : Group) : (s.putGroup h x).asidtab = s.asidtab := rfl
@[simp] theorem State.putGroup_asids (s : State) (h : Nat) (x : Group) : (s.putGroup h x).asids = s.asids := rfl
@[simp] theorem State.putGroup_mailbox (s : State) (h : Nat) (x : Group) : (s.putGroup h x).mailbox = s.mailbox := rfl
@[simp] theorem State.putGroup_frozenFns (s : State) (h : Nat) (x : Group) : (s.putGroup h x).frozenFns = s.frozenFns := rfl
@[simp] theorem State.putGroup_meters (s : State) (h : Nat) (x : Group) : (s.putGroup h x).meters = s.meters := rfl
@[simp] theorem State.putGroup_ports (s : State) (h : Nat) (x : Group) : (s.putGroup h x).ports = s.ports := rfl
@[simp] theorem State.putGroup_fqs (s : State) (h : Nat) (x : Group) : (s.putGroup h x).fqs = s.fqs := rfl
@[simp] theorem State.putGroup_answered (s : State) (h : Nat) (x : Group) : (s.putGroup h x).answered = s.answered := rfl
@[simp] theorem State.putGroup_bootfail (s : State) (h : Nat) (x : Group) : (s.putGroup h x).bootfail = s.bootfail := rfl
@[simp] theorem State.putGroup_ready (s : State) (h : Nat) (x : Group) : (s.putGroup h x).ready = s.ready := rfl
@[simp] theorem State.putGroup_cfgVersion (s : State) (h : Nat) (x : Group) : (s.putGroup h x).cfgVersion = s.cfgVersion := rfl
@[simp] theorem State.putGroup_fwVersion (s : State) (h : Nat) (x : Group) : (s.putGroup h x).fwVersion = s.fwVersion := rfl
@[simp] theorem State.putGroup_ownerKey (s : State) (h : Nat) (x : Group) : (s.putGroup h x).ownerKey = s.ownerKey := rfl
@[simp] theorem State.putGroup_fwDigest (s : State) (h : Nat) (x : Group) : (s.putGroup h x).fwDigest = s.fwDigest := rfl
@[simp] theorem State.putGroup_cfgDigest (s : State) (h : Nat) (x : Group) : (s.putGroup h x).cfgDigest = s.cfgDigest := rfl
@[simp] theorem State.putGroup_report (s : State) (h : Nat) (x : Group) : (s.putGroup h x).report = s.report := rfl

/-! State.setCore. -/
@[simp] theorem State.setCore_turn (s : State) (h : Nat) (x : Core) : (s.setCore h x).turn = s.turn := rfl
@[simp] theorem State.setCore_who (s : State) (h : Nat) (x : Core) : (s.setCore h x).who = s.who := rfl
@[simp] theorem State.setCore_draws (s : State) (h : Nat) (x : Core) : (s.setCore h x).draws = s.draws := rfl
@[simp] theorem State.setCore_now (s : State) (h : Nat) (x : Core) : (s.setCore h x).now = s.now := rfl
@[simp] theorem State.setCore_nextId (s : State) (h : Nat) (x : Core) : (s.setCore h x).nextId = s.nextId := rfl
@[simp] theorem State.setCore_inputs (s : State) (h : Nat) (x : Core) : (s.setCore h x).inputs = s.inputs := rfl
@[simp] theorem State.setCore_groups (s : State) (h : Nat) (x : Core) : (s.setCore h x).groups = s.groups := rfl
@[simp] theorem State.setCore_blocks (s : State) (h : Nat) (x : Core) : (s.setCore h x).blocks = s.blocks := rfl
@[simp] theorem State.setCore_clusters (s : State) (h : Nat) (x : Core) : (s.setCore h x).clusters = s.clusters := rfl
@[simp] theorem State.setCore_launches (s : State) (h : Nat) (x : Core) : (s.setCore h x).launches = s.launches := rfl
@[simp] theorem State.setCore_parts (s : State) (h : Nat) (x : Core) : (s.setCore h x).parts = s.parts := rfl
@[simp] theorem State.setCore_queues (s : State) (h : Nat) (x : Core) : (s.setCore h x).queues = s.queues := rfl
@[simp] theorem State.setCore_pools (s : State) (h : Nat) (x : Core) : (s.setCore h x).pools = s.pools := rfl
@[simp] theorem State.setCore_reqs (s : State) (h : Nat) (x : Core) : (s.setCore h x).reqs = s.reqs := rfl
@[simp] theorem State.setCore_ops (s : State) (h : Nat) (x : Core) : (s.setCore h x).ops = s.ops := rfl
@[simp] theorem State.setCore_releases (s : State) (h : Nat) (x : Core) : (s.setCore h x).releases = s.releases := rfl
@[simp] theorem State.setCore_saves (s : State) (h : Nat) (x : Core) : (s.setCore h x).saves = s.saves := rfl
@[simp] theorem State.setCore_saved (s : State) (h : Nat) (x : Core) : (s.setCore h x).saved = s.saved := rfl
@[simp] theorem State.setCore_savedBlocks (s : State) (h : Nat) (x : Core) : (s.setCore h x).savedBlocks = s.savedBlocks := rfl
@[simp] theorem State.setCore_mem (s : State) (h : Nat) (x : Core) : (s.setCore h x).mem = s.mem := rfl
@[simp] theorem State.setCore_host (s : State) (h : Nat) (x : Core) : (s.setCore h x).host = s.host := rfl
@[simp] theorem State.setCore_peer (s : State) (h : Nat) (x : Core) : (s.setCore h x).peer = s.peer := rfl
@[simp] theorem State.setCore_poison (s : State) (h : Nat) (x : Core) : (s.setCore h x).poison = s.poison := rfl
@[simp] theorem State.setCore_units (s : State) (h : Nat) (x : Core) : (s.setCore h x).units = s.units := rfl
@[simp] theorem State.setCore_scrubbing (s : State) (h : Nat) (x : Core) : (s.setCore h x).scrubbing = s.scrubbing := rfl
@[simp] theorem State.setCore_asidtab (s : State) (h : Nat) (x : Core) : (s.setCore h x).asidtab = s.asidtab := rfl
@[simp] theorem State.setCore_asids (s : State) (h : Nat) (x : Core) : (s.setCore h x).asids = s.asids := rfl
@[simp] theorem State.setCore_mailbox (s : State) (h : Nat) (x : Core) : (s.setCore h x).mailbox = s.mailbox := rfl
@[simp] theorem State.setCore_frozenFns (s : State) (h : Nat) (x : Core) : (s.setCore h x).frozenFns = s.frozenFns := rfl
@[simp] theorem State.setCore_meters (s : State) (h : Nat) (x : Core) : (s.setCore h x).meters = s.meters := rfl
@[simp] theorem State.setCore_ports (s : State) (h : Nat) (x : Core) : (s.setCore h x).ports = s.ports := rfl
@[simp] theorem State.setCore_fqs (s : State) (h : Nat) (x : Core) : (s.setCore h x).fqs = s.fqs := rfl
@[simp] theorem State.setCore_answered (s : State) (h : Nat) (x : Core) : (s.setCore h x).answered = s.answered := rfl
@[simp] theorem State.setCore_bootfail (s : State) (h : Nat) (x : Core) : (s.setCore h x).bootfail = s.bootfail := rfl
@[simp] theorem State.setCore_ready (s : State) (h : Nat) (x : Core) : (s.setCore h x).ready = s.ready := rfl
@[simp] theorem State.setCore_cfgVersion (s : State) (h : Nat) (x : Core) : (s.setCore h x).cfgVersion = s.cfgVersion := rfl
@[simp] theorem State.setCore_fwVersion (s : State) (h : Nat) (x : Core) : (s.setCore h x).fwVersion = s.fwVersion := rfl
@[simp] theorem State.setCore_ownerKey (s : State) (h : Nat) (x : Core) : (s.setCore h x).ownerKey = s.ownerKey := rfl
@[simp] theorem State.setCore_fwDigest (s : State) (h : Nat) (x : Core) : (s.setCore h x).fwDigest = s.fwDigest := rfl
@[simp] theorem State.setCore_cfgDigest (s : State) (h : Nat) (x : Core) : (s.setCore h x).cfgDigest = s.cfgDigest := rfl
@[simp] theorem State.setCore_report (s : State) (h : Nat) (x : Core) : (s.setCore h x).report = s.report := rfl

/-! State.setCluster. -/
@[simp] theorem State.setCluster_turn (s : State) (h : Nat) (x : Cluster) : (s.setCluster h x).turn = s.turn := rfl
@[simp] theorem State.setCluster_who (s : State) (h : Nat) (x : Cluster) : (s.setCluster h x).who = s.who := rfl
@[simp] theorem State.setCluster_draws (s : State) (h : Nat) (x : Cluster) : (s.setCluster h x).draws = s.draws := rfl
@[simp] theorem State.setCluster_now (s : State) (h : Nat) (x : Cluster) : (s.setCluster h x).now = s.now := rfl
@[simp] theorem State.setCluster_nextId (s : State) (h : Nat) (x : Cluster) : (s.setCluster h x).nextId = s.nextId := rfl
@[simp] theorem State.setCluster_inputs (s : State) (h : Nat) (x : Cluster) : (s.setCluster h x).inputs = s.inputs := rfl
@[simp] theorem State.setCluster_groups (s : State) (h : Nat) (x : Cluster) : (s.setCluster h x).groups = s.groups := rfl
@[simp] theorem State.setCluster_blocks (s : State) (h : Nat) (x : Cluster) : (s.setCluster h x).blocks = s.blocks := rfl
@[simp] theorem State.setCluster_cores (s : State) (h : Nat) (x : Cluster) : (s.setCluster h x).cores = s.cores := rfl
@[simp] theorem State.setCluster_launches (s : State) (h : Nat) (x : Cluster) : (s.setCluster h x).launches = s.launches := rfl
@[simp] theorem State.setCluster_parts (s : State) (h : Nat) (x : Cluster) : (s.setCluster h x).parts = s.parts := rfl
@[simp] theorem State.setCluster_queues (s : State) (h : Nat) (x : Cluster) : (s.setCluster h x).queues = s.queues := rfl
@[simp] theorem State.setCluster_pools (s : State) (h : Nat) (x : Cluster) : (s.setCluster h x).pools = s.pools := rfl
@[simp] theorem State.setCluster_reqs (s : State) (h : Nat) (x : Cluster) : (s.setCluster h x).reqs = s.reqs := rfl
@[simp] theorem State.setCluster_ops (s : State) (h : Nat) (x : Cluster) : (s.setCluster h x).ops = s.ops := rfl
@[simp] theorem State.setCluster_releases (s : State) (h : Nat) (x : Cluster) : (s.setCluster h x).releases = s.releases := rfl
@[simp] theorem State.setCluster_saves (s : State) (h : Nat) (x : Cluster) : (s.setCluster h x).saves = s.saves := rfl
@[simp] theorem State.setCluster_saved (s : State) (h : Nat) (x : Cluster) : (s.setCluster h x).saved = s.saved := rfl
@[simp] theorem State.setCluster_savedBlocks (s : State) (h : Nat) (x : Cluster) : (s.setCluster h x).savedBlocks = s.savedBlocks := rfl
@[simp] theorem State.setCluster_mem (s : State) (h : Nat) (x : Cluster) : (s.setCluster h x).mem = s.mem := rfl
@[simp] theorem State.setCluster_host (s : State) (h : Nat) (x : Cluster) : (s.setCluster h x).host = s.host := rfl
@[simp] theorem State.setCluster_peer (s : State) (h : Nat) (x : Cluster) : (s.setCluster h x).peer = s.peer := rfl
@[simp] theorem State.setCluster_poison (s : State) (h : Nat) (x : Cluster) : (s.setCluster h x).poison = s.poison := rfl
@[simp] theorem State.setCluster_units (s : State) (h : Nat) (x : Cluster) : (s.setCluster h x).units = s.units := rfl
@[simp] theorem State.setCluster_scrubbing (s : State) (h : Nat) (x : Cluster) : (s.setCluster h x).scrubbing = s.scrubbing := rfl
@[simp] theorem State.setCluster_asidtab (s : State) (h : Nat) (x : Cluster) : (s.setCluster h x).asidtab = s.asidtab := rfl
@[simp] theorem State.setCluster_asids (s : State) (h : Nat) (x : Cluster) : (s.setCluster h x).asids = s.asids := rfl
@[simp] theorem State.setCluster_mailbox (s : State) (h : Nat) (x : Cluster) : (s.setCluster h x).mailbox = s.mailbox := rfl
@[simp] theorem State.setCluster_frozenFns (s : State) (h : Nat) (x : Cluster) : (s.setCluster h x).frozenFns = s.frozenFns := rfl
@[simp] theorem State.setCluster_meters (s : State) (h : Nat) (x : Cluster) : (s.setCluster h x).meters = s.meters := rfl
@[simp] theorem State.setCluster_ports (s : State) (h : Nat) (x : Cluster) : (s.setCluster h x).ports = s.ports := rfl
@[simp] theorem State.setCluster_fqs (s : State) (h : Nat) (x : Cluster) : (s.setCluster h x).fqs = s.fqs := rfl
@[simp] theorem State.setCluster_answered (s : State) (h : Nat) (x : Cluster) : (s.setCluster h x).answered = s.answered := rfl
@[simp] theorem State.setCluster_bootfail (s : State) (h : Nat) (x : Cluster) : (s.setCluster h x).bootfail = s.bootfail := rfl
@[simp] theorem State.setCluster_ready (s : State) (h : Nat) (x : Cluster) : (s.setCluster h x).ready = s.ready := rfl
@[simp] theorem State.setCluster_cfgVersion (s : State) (h : Nat) (x : Cluster) : (s.setCluster h x).cfgVersion = s.cfgVersion := rfl
@[simp] theorem State.setCluster_fwVersion (s : State) (h : Nat) (x : Cluster) : (s.setCluster h x).fwVersion = s.fwVersion := rfl
@[simp] theorem State.setCluster_ownerKey (s : State) (h : Nat) (x : Cluster) : (s.setCluster h x).ownerKey = s.ownerKey := rfl
@[simp] theorem State.setCluster_fwDigest (s : State) (h : Nat) (x : Cluster) : (s.setCluster h x).fwDigest = s.fwDigest := rfl
@[simp] theorem State.setCluster_cfgDigest (s : State) (h : Nat) (x : Cluster) : (s.setCluster h x).cfgDigest = s.cfgDigest := rfl
@[simp] theorem State.setCluster_report (s : State) (h : Nat) (x : Cluster) : (s.setCluster h x).report = s.report := rfl

/-! State.setBlock. -/
@[simp] theorem State.setBlock_turn (s : State) (h : Nat) (x : Block) : (s.setBlock h x).turn = s.turn := rfl
@[simp] theorem State.setBlock_who (s : State) (h : Nat) (x : Block) : (s.setBlock h x).who = s.who := rfl
@[simp] theorem State.setBlock_draws (s : State) (h : Nat) (x : Block) : (s.setBlock h x).draws = s.draws := rfl
@[simp] theorem State.setBlock_now (s : State) (h : Nat) (x : Block) : (s.setBlock h x).now = s.now := rfl
@[simp] theorem State.setBlock_nextId (s : State) (h : Nat) (x : Block) : (s.setBlock h x).nextId = s.nextId := rfl
@[simp] theorem State.setBlock_inputs (s : State) (h : Nat) (x : Block) : (s.setBlock h x).inputs = s.inputs := rfl
@[simp] theorem State.setBlock_groups (s : State) (h : Nat) (x : Block) : (s.setBlock h x).groups = s.groups := rfl
@[simp] theorem State.setBlock_cores (s : State) (h : Nat) (x : Block) : (s.setBlock h x).cores = s.cores := rfl
@[simp] theorem State.setBlock_clusters (s : State) (h : Nat) (x : Block) : (s.setBlock h x).clusters = s.clusters := rfl
@[simp] theorem State.setBlock_launches (s : State) (h : Nat) (x : Block) : (s.setBlock h x).launches = s.launches := rfl
@[simp] theorem State.setBlock_parts (s : State) (h : Nat) (x : Block) : (s.setBlock h x).parts = s.parts := rfl
@[simp] theorem State.setBlock_queues (s : State) (h : Nat) (x : Block) : (s.setBlock h x).queues = s.queues := rfl
@[simp] theorem State.setBlock_pools (s : State) (h : Nat) (x : Block) : (s.setBlock h x).pools = s.pools := rfl
@[simp] theorem State.setBlock_reqs (s : State) (h : Nat) (x : Block) : (s.setBlock h x).reqs = s.reqs := rfl
@[simp] theorem State.setBlock_ops (s : State) (h : Nat) (x : Block) : (s.setBlock h x).ops = s.ops := rfl
@[simp] theorem State.setBlock_releases (s : State) (h : Nat) (x : Block) : (s.setBlock h x).releases = s.releases := rfl
@[simp] theorem State.setBlock_saves (s : State) (h : Nat) (x : Block) : (s.setBlock h x).saves = s.saves := rfl
@[simp] theorem State.setBlock_saved (s : State) (h : Nat) (x : Block) : (s.setBlock h x).saved = s.saved := rfl
@[simp] theorem State.setBlock_savedBlocks (s : State) (h : Nat) (x : Block) : (s.setBlock h x).savedBlocks = s.savedBlocks := rfl
@[simp] theorem State.setBlock_mem (s : State) (h : Nat) (x : Block) : (s.setBlock h x).mem = s.mem := rfl
@[simp] theorem State.setBlock_host (s : State) (h : Nat) (x : Block) : (s.setBlock h x).host = s.host := rfl
@[simp] theorem State.setBlock_peer (s : State) (h : Nat) (x : Block) : (s.setBlock h x).peer = s.peer := rfl
@[simp] theorem State.setBlock_poison (s : State) (h : Nat) (x : Block) : (s.setBlock h x).poison = s.poison := rfl
@[simp] theorem State.setBlock_units (s : State) (h : Nat) (x : Block) : (s.setBlock h x).units = s.units := rfl
@[simp] theorem State.setBlock_scrubbing (s : State) (h : Nat) (x : Block) : (s.setBlock h x).scrubbing = s.scrubbing := rfl
@[simp] theorem State.setBlock_asidtab (s : State) (h : Nat) (x : Block) : (s.setBlock h x).asidtab = s.asidtab := rfl
@[simp] theorem State.setBlock_asids (s : State) (h : Nat) (x : Block) : (s.setBlock h x).asids = s.asids := rfl
@[simp] theorem State.setBlock_mailbox (s : State) (h : Nat) (x : Block) : (s.setBlock h x).mailbox = s.mailbox := rfl
@[simp] theorem State.setBlock_frozenFns (s : State) (h : Nat) (x : Block) : (s.setBlock h x).frozenFns = s.frozenFns := rfl
@[simp] theorem State.setBlock_meters (s : State) (h : Nat) (x : Block) : (s.setBlock h x).meters = s.meters := rfl
@[simp] theorem State.setBlock_ports (s : State) (h : Nat) (x : Block) : (s.setBlock h x).ports = s.ports := rfl
@[simp] theorem State.setBlock_fqs (s : State) (h : Nat) (x : Block) : (s.setBlock h x).fqs = s.fqs := rfl
@[simp] theorem State.setBlock_answered (s : State) (h : Nat) (x : Block) : (s.setBlock h x).answered = s.answered := rfl
@[simp] theorem State.setBlock_bootfail (s : State) (h : Nat) (x : Block) : (s.setBlock h x).bootfail = s.bootfail := rfl
@[simp] theorem State.setBlock_ready (s : State) (h : Nat) (x : Block) : (s.setBlock h x).ready = s.ready := rfl
@[simp] theorem State.setBlock_cfgVersion (s : State) (h : Nat) (x : Block) : (s.setBlock h x).cfgVersion = s.cfgVersion := rfl
@[simp] theorem State.setBlock_fwVersion (s : State) (h : Nat) (x : Block) : (s.setBlock h x).fwVersion = s.fwVersion := rfl
@[simp] theorem State.setBlock_ownerKey (s : State) (h : Nat) (x : Block) : (s.setBlock h x).ownerKey = s.ownerKey := rfl
@[simp] theorem State.setBlock_fwDigest (s : State) (h : Nat) (x : Block) : (s.setBlock h x).fwDigest = s.fwDigest := rfl
@[simp] theorem State.setBlock_cfgDigest (s : State) (h : Nat) (x : Block) : (s.setBlock h x).cfgDigest = s.cfgDigest := rfl
@[simp] theorem State.setBlock_report (s : State) (h : Nat) (x : Block) : (s.setBlock h x).report = s.report := rfl

/-! State.setPart. -/
@[simp] theorem State.setPart_turn (s : State) (h : Nat) (x : Part) : (s.setPart h x).turn = s.turn := rfl
@[simp] theorem State.setPart_who (s : State) (h : Nat) (x : Part) : (s.setPart h x).who = s.who := rfl
@[simp] theorem State.setPart_draws (s : State) (h : Nat) (x : Part) : (s.setPart h x).draws = s.draws := rfl
@[simp] theorem State.setPart_now (s : State) (h : Nat) (x : Part) : (s.setPart h x).now = s.now := rfl
@[simp] theorem State.setPart_nextId (s : State) (h : Nat) (x : Part) : (s.setPart h x).nextId = s.nextId := rfl
@[simp] theorem State.setPart_inputs (s : State) (h : Nat) (x : Part) : (s.setPart h x).inputs = s.inputs := rfl
@[simp] theorem State.setPart_groups (s : State) (h : Nat) (x : Part) : (s.setPart h x).groups = s.groups := rfl
@[simp] theorem State.setPart_blocks (s : State) (h : Nat) (x : Part) : (s.setPart h x).blocks = s.blocks := rfl
@[simp] theorem State.setPart_cores (s : State) (h : Nat) (x : Part) : (s.setPart h x).cores = s.cores := rfl
@[simp] theorem State.setPart_clusters (s : State) (h : Nat) (x : Part) : (s.setPart h x).clusters = s.clusters := rfl
@[simp] theorem State.setPart_launches (s : State) (h : Nat) (x : Part) : (s.setPart h x).launches = s.launches := rfl
@[simp] theorem State.setPart_queues (s : State) (h : Nat) (x : Part) : (s.setPart h x).queues = s.queues := rfl
@[simp] theorem State.setPart_pools (s : State) (h : Nat) (x : Part) : (s.setPart h x).pools = s.pools := rfl
@[simp] theorem State.setPart_reqs (s : State) (h : Nat) (x : Part) : (s.setPart h x).reqs = s.reqs := rfl
@[simp] theorem State.setPart_ops (s : State) (h : Nat) (x : Part) : (s.setPart h x).ops = s.ops := rfl
@[simp] theorem State.setPart_releases (s : State) (h : Nat) (x : Part) : (s.setPart h x).releases = s.releases := rfl
@[simp] theorem State.setPart_saves (s : State) (h : Nat) (x : Part) : (s.setPart h x).saves = s.saves := rfl
@[simp] theorem State.setPart_saved (s : State) (h : Nat) (x : Part) : (s.setPart h x).saved = s.saved := rfl
@[simp] theorem State.setPart_savedBlocks (s : State) (h : Nat) (x : Part) : (s.setPart h x).savedBlocks = s.savedBlocks := rfl
@[simp] theorem State.setPart_mem (s : State) (h : Nat) (x : Part) : (s.setPart h x).mem = s.mem := rfl
@[simp] theorem State.setPart_host (s : State) (h : Nat) (x : Part) : (s.setPart h x).host = s.host := rfl
@[simp] theorem State.setPart_peer (s : State) (h : Nat) (x : Part) : (s.setPart h x).peer = s.peer := rfl
@[simp] theorem State.setPart_poison (s : State) (h : Nat) (x : Part) : (s.setPart h x).poison = s.poison := rfl
@[simp] theorem State.setPart_units (s : State) (h : Nat) (x : Part) : (s.setPart h x).units = s.units := rfl
@[simp] theorem State.setPart_scrubbing (s : State) (h : Nat) (x : Part) : (s.setPart h x).scrubbing = s.scrubbing := rfl
@[simp] theorem State.setPart_asidtab (s : State) (h : Nat) (x : Part) : (s.setPart h x).asidtab = s.asidtab := rfl
@[simp] theorem State.setPart_asids (s : State) (h : Nat) (x : Part) : (s.setPart h x).asids = s.asids := rfl
@[simp] theorem State.setPart_mailbox (s : State) (h : Nat) (x : Part) : (s.setPart h x).mailbox = s.mailbox := rfl
@[simp] theorem State.setPart_frozenFns (s : State) (h : Nat) (x : Part) : (s.setPart h x).frozenFns = s.frozenFns := rfl
@[simp] theorem State.setPart_meters (s : State) (h : Nat) (x : Part) : (s.setPart h x).meters = s.meters := rfl
@[simp] theorem State.setPart_ports (s : State) (h : Nat) (x : Part) : (s.setPart h x).ports = s.ports := rfl
@[simp] theorem State.setPart_fqs (s : State) (h : Nat) (x : Part) : (s.setPart h x).fqs = s.fqs := rfl
@[simp] theorem State.setPart_answered (s : State) (h : Nat) (x : Part) : (s.setPart h x).answered = s.answered := rfl
@[simp] theorem State.setPart_bootfail (s : State) (h : Nat) (x : Part) : (s.setPart h x).bootfail = s.bootfail := rfl
@[simp] theorem State.setPart_ready (s : State) (h : Nat) (x : Part) : (s.setPart h x).ready = s.ready := rfl
@[simp] theorem State.setPart_cfgVersion (s : State) (h : Nat) (x : Part) : (s.setPart h x).cfgVersion = s.cfgVersion := rfl
@[simp] theorem State.setPart_fwVersion (s : State) (h : Nat) (x : Part) : (s.setPart h x).fwVersion = s.fwVersion := rfl
@[simp] theorem State.setPart_ownerKey (s : State) (h : Nat) (x : Part) : (s.setPart h x).ownerKey = s.ownerKey := rfl
@[simp] theorem State.setPart_fwDigest (s : State) (h : Nat) (x : Part) : (s.setPart h x).fwDigest = s.fwDigest := rfl
@[simp] theorem State.setPart_cfgDigest (s : State) (h : Nat) (x : Part) : (s.setPart h x).cfgDigest = s.cfgDigest := rfl
@[simp] theorem State.setPart_report (s : State) (h : Nat) (x : Part) : (s.setPart h x).report = s.report := rfl

/-! State.setPool. -/
@[simp] theorem State.setPool_turn (s : State) (h : Nat) (x : Pool) : (s.setPool h x).turn = s.turn := rfl
@[simp] theorem State.setPool_who (s : State) (h : Nat) (x : Pool) : (s.setPool h x).who = s.who := rfl
@[simp] theorem State.setPool_draws (s : State) (h : Nat) (x : Pool) : (s.setPool h x).draws = s.draws := rfl
@[simp] theorem State.setPool_now (s : State) (h : Nat) (x : Pool) : (s.setPool h x).now = s.now := rfl
@[simp] theorem State.setPool_nextId (s : State) (h : Nat) (x : Pool) : (s.setPool h x).nextId = s.nextId := rfl
@[simp] theorem State.setPool_inputs (s : State) (h : Nat) (x : Pool) : (s.setPool h x).inputs = s.inputs := rfl
@[simp] theorem State.setPool_groups (s : State) (h : Nat) (x : Pool) : (s.setPool h x).groups = s.groups := rfl
@[simp] theorem State.setPool_blocks (s : State) (h : Nat) (x : Pool) : (s.setPool h x).blocks = s.blocks := rfl
@[simp] theorem State.setPool_cores (s : State) (h : Nat) (x : Pool) : (s.setPool h x).cores = s.cores := rfl
@[simp] theorem State.setPool_clusters (s : State) (h : Nat) (x : Pool) : (s.setPool h x).clusters = s.clusters := rfl
@[simp] theorem State.setPool_launches (s : State) (h : Nat) (x : Pool) : (s.setPool h x).launches = s.launches := rfl
@[simp] theorem State.setPool_parts (s : State) (h : Nat) (x : Pool) : (s.setPool h x).parts = s.parts := rfl
@[simp] theorem State.setPool_queues (s : State) (h : Nat) (x : Pool) : (s.setPool h x).queues = s.queues := rfl
@[simp] theorem State.setPool_reqs (s : State) (h : Nat) (x : Pool) : (s.setPool h x).reqs = s.reqs := rfl
@[simp] theorem State.setPool_ops (s : State) (h : Nat) (x : Pool) : (s.setPool h x).ops = s.ops := rfl
@[simp] theorem State.setPool_releases (s : State) (h : Nat) (x : Pool) : (s.setPool h x).releases = s.releases := rfl
@[simp] theorem State.setPool_saves (s : State) (h : Nat) (x : Pool) : (s.setPool h x).saves = s.saves := rfl
@[simp] theorem State.setPool_saved (s : State) (h : Nat) (x : Pool) : (s.setPool h x).saved = s.saved := rfl
@[simp] theorem State.setPool_savedBlocks (s : State) (h : Nat) (x : Pool) : (s.setPool h x).savedBlocks = s.savedBlocks := rfl
@[simp] theorem State.setPool_mem (s : State) (h : Nat) (x : Pool) : (s.setPool h x).mem = s.mem := rfl
@[simp] theorem State.setPool_host (s : State) (h : Nat) (x : Pool) : (s.setPool h x).host = s.host := rfl
@[simp] theorem State.setPool_peer (s : State) (h : Nat) (x : Pool) : (s.setPool h x).peer = s.peer := rfl
@[simp] theorem State.setPool_poison (s : State) (h : Nat) (x : Pool) : (s.setPool h x).poison = s.poison := rfl
@[simp] theorem State.setPool_units (s : State) (h : Nat) (x : Pool) : (s.setPool h x).units = s.units := rfl
@[simp] theorem State.setPool_scrubbing (s : State) (h : Nat) (x : Pool) : (s.setPool h x).scrubbing = s.scrubbing := rfl
@[simp] theorem State.setPool_asidtab (s : State) (h : Nat) (x : Pool) : (s.setPool h x).asidtab = s.asidtab := rfl
@[simp] theorem State.setPool_asids (s : State) (h : Nat) (x : Pool) : (s.setPool h x).asids = s.asids := rfl
@[simp] theorem State.setPool_mailbox (s : State) (h : Nat) (x : Pool) : (s.setPool h x).mailbox = s.mailbox := rfl
@[simp] theorem State.setPool_frozenFns (s : State) (h : Nat) (x : Pool) : (s.setPool h x).frozenFns = s.frozenFns := rfl
@[simp] theorem State.setPool_meters (s : State) (h : Nat) (x : Pool) : (s.setPool h x).meters = s.meters := rfl
@[simp] theorem State.setPool_ports (s : State) (h : Nat) (x : Pool) : (s.setPool h x).ports = s.ports := rfl
@[simp] theorem State.setPool_fqs (s : State) (h : Nat) (x : Pool) : (s.setPool h x).fqs = s.fqs := rfl
@[simp] theorem State.setPool_answered (s : State) (h : Nat) (x : Pool) : (s.setPool h x).answered = s.answered := rfl
@[simp] theorem State.setPool_bootfail (s : State) (h : Nat) (x : Pool) : (s.setPool h x).bootfail = s.bootfail := rfl
@[simp] theorem State.setPool_ready (s : State) (h : Nat) (x : Pool) : (s.setPool h x).ready = s.ready := rfl
@[simp] theorem State.setPool_cfgVersion (s : State) (h : Nat) (x : Pool) : (s.setPool h x).cfgVersion = s.cfgVersion := rfl
@[simp] theorem State.setPool_fwVersion (s : State) (h : Nat) (x : Pool) : (s.setPool h x).fwVersion = s.fwVersion := rfl
@[simp] theorem State.setPool_ownerKey (s : State) (h : Nat) (x : Pool) : (s.setPool h x).ownerKey = s.ownerKey := rfl
@[simp] theorem State.setPool_fwDigest (s : State) (h : Nat) (x : Pool) : (s.setPool h x).fwDigest = s.fwDigest := rfl
@[simp] theorem State.setPool_cfgDigest (s : State) (h : Nat) (x : Pool) : (s.setPool h x).cfgDigest = s.cfgDigest := rfl
@[simp] theorem State.setPool_report (s : State) (h : Nat) (x : Pool) : (s.setPool h x).report = s.report := rfl

/-! State.setQueue. -/
@[simp] theorem State.setQueue_turn (s : State) (h : Nat) (x : Queue) : (s.setQueue h x).turn = s.turn := rfl
@[simp] theorem State.setQueue_who (s : State) (h : Nat) (x : Queue) : (s.setQueue h x).who = s.who := rfl
@[simp] theorem State.setQueue_draws (s : State) (h : Nat) (x : Queue) : (s.setQueue h x).draws = s.draws := rfl
@[simp] theorem State.setQueue_now (s : State) (h : Nat) (x : Queue) : (s.setQueue h x).now = s.now := rfl
@[simp] theorem State.setQueue_nextId (s : State) (h : Nat) (x : Queue) : (s.setQueue h x).nextId = s.nextId := rfl
@[simp] theorem State.setQueue_inputs (s : State) (h : Nat) (x : Queue) : (s.setQueue h x).inputs = s.inputs := rfl
@[simp] theorem State.setQueue_groups (s : State) (h : Nat) (x : Queue) : (s.setQueue h x).groups = s.groups := rfl
@[simp] theorem State.setQueue_blocks (s : State) (h : Nat) (x : Queue) : (s.setQueue h x).blocks = s.blocks := rfl
@[simp] theorem State.setQueue_cores (s : State) (h : Nat) (x : Queue) : (s.setQueue h x).cores = s.cores := rfl
@[simp] theorem State.setQueue_clusters (s : State) (h : Nat) (x : Queue) : (s.setQueue h x).clusters = s.clusters := rfl
@[simp] theorem State.setQueue_launches (s : State) (h : Nat) (x : Queue) : (s.setQueue h x).launches = s.launches := rfl
@[simp] theorem State.setQueue_parts (s : State) (h : Nat) (x : Queue) : (s.setQueue h x).parts = s.parts := rfl
@[simp] theorem State.setQueue_pools (s : State) (h : Nat) (x : Queue) : (s.setQueue h x).pools = s.pools := rfl
@[simp] theorem State.setQueue_reqs (s : State) (h : Nat) (x : Queue) : (s.setQueue h x).reqs = s.reqs := rfl
@[simp] theorem State.setQueue_ops (s : State) (h : Nat) (x : Queue) : (s.setQueue h x).ops = s.ops := rfl
@[simp] theorem State.setQueue_releases (s : State) (h : Nat) (x : Queue) : (s.setQueue h x).releases = s.releases := rfl
@[simp] theorem State.setQueue_saves (s : State) (h : Nat) (x : Queue) : (s.setQueue h x).saves = s.saves := rfl
@[simp] theorem State.setQueue_saved (s : State) (h : Nat) (x : Queue) : (s.setQueue h x).saved = s.saved := rfl
@[simp] theorem State.setQueue_savedBlocks (s : State) (h : Nat) (x : Queue) : (s.setQueue h x).savedBlocks = s.savedBlocks := rfl
@[simp] theorem State.setQueue_mem (s : State) (h : Nat) (x : Queue) : (s.setQueue h x).mem = s.mem := rfl
@[simp] theorem State.setQueue_host (s : State) (h : Nat) (x : Queue) : (s.setQueue h x).host = s.host := rfl
@[simp] theorem State.setQueue_peer (s : State) (h : Nat) (x : Queue) : (s.setQueue h x).peer = s.peer := rfl
@[simp] theorem State.setQueue_poison (s : State) (h : Nat) (x : Queue) : (s.setQueue h x).poison = s.poison := rfl
@[simp] theorem State.setQueue_units (s : State) (h : Nat) (x : Queue) : (s.setQueue h x).units = s.units := rfl
@[simp] theorem State.setQueue_scrubbing (s : State) (h : Nat) (x : Queue) : (s.setQueue h x).scrubbing = s.scrubbing := rfl
@[simp] theorem State.setQueue_asidtab (s : State) (h : Nat) (x : Queue) : (s.setQueue h x).asidtab = s.asidtab := rfl
@[simp] theorem State.setQueue_asids (s : State) (h : Nat) (x : Queue) : (s.setQueue h x).asids = s.asids := rfl
@[simp] theorem State.setQueue_mailbox (s : State) (h : Nat) (x : Queue) : (s.setQueue h x).mailbox = s.mailbox := rfl
@[simp] theorem State.setQueue_frozenFns (s : State) (h : Nat) (x : Queue) : (s.setQueue h x).frozenFns = s.frozenFns := rfl
@[simp] theorem State.setQueue_meters (s : State) (h : Nat) (x : Queue) : (s.setQueue h x).meters = s.meters := rfl
@[simp] theorem State.setQueue_ports (s : State) (h : Nat) (x : Queue) : (s.setQueue h x).ports = s.ports := rfl
@[simp] theorem State.setQueue_fqs (s : State) (h : Nat) (x : Queue) : (s.setQueue h x).fqs = s.fqs := rfl
@[simp] theorem State.setQueue_answered (s : State) (h : Nat) (x : Queue) : (s.setQueue h x).answered = s.answered := rfl
@[simp] theorem State.setQueue_bootfail (s : State) (h : Nat) (x : Queue) : (s.setQueue h x).bootfail = s.bootfail := rfl
@[simp] theorem State.setQueue_ready (s : State) (h : Nat) (x : Queue) : (s.setQueue h x).ready = s.ready := rfl
@[simp] theorem State.setQueue_cfgVersion (s : State) (h : Nat) (x : Queue) : (s.setQueue h x).cfgVersion = s.cfgVersion := rfl
@[simp] theorem State.setQueue_fwVersion (s : State) (h : Nat) (x : Queue) : (s.setQueue h x).fwVersion = s.fwVersion := rfl
@[simp] theorem State.setQueue_ownerKey (s : State) (h : Nat) (x : Queue) : (s.setQueue h x).ownerKey = s.ownerKey := rfl
@[simp] theorem State.setQueue_fwDigest (s : State) (h : Nat) (x : Queue) : (s.setQueue h x).fwDigest = s.fwDigest := rfl
@[simp] theorem State.setQueue_cfgDigest (s : State) (h : Nat) (x : Queue) : (s.setQueue h x).cfgDigest = s.cfgDigest := rfl
@[simp] theorem State.setQueue_report (s : State) (h : Nat) (x : Queue) : (s.setQueue h x).report = s.report := rfl

/-! State.setHq. -/
@[simp] theorem State.setHq_turn (s : State) (h : Nat) (x : HostQueue) : (s.setHq h x).turn = s.turn := rfl
@[simp] theorem State.setHq_who (s : State) (h : Nat) (x : HostQueue) : (s.setHq h x).who = s.who := rfl
@[simp] theorem State.setHq_draws (s : State) (h : Nat) (x : HostQueue) : (s.setHq h x).draws = s.draws := rfl
@[simp] theorem State.setHq_now (s : State) (h : Nat) (x : HostQueue) : (s.setHq h x).now = s.now := rfl
@[simp] theorem State.setHq_nextId (s : State) (h : Nat) (x : HostQueue) : (s.setHq h x).nextId = s.nextId := rfl
@[simp] theorem State.setHq_inputs (s : State) (h : Nat) (x : HostQueue) : (s.setHq h x).inputs = s.inputs := rfl
@[simp] theorem State.setHq_groups (s : State) (h : Nat) (x : HostQueue) : (s.setHq h x).groups = s.groups := rfl
@[simp] theorem State.setHq_blocks (s : State) (h : Nat) (x : HostQueue) : (s.setHq h x).blocks = s.blocks := rfl
@[simp] theorem State.setHq_cores (s : State) (h : Nat) (x : HostQueue) : (s.setHq h x).cores = s.cores := rfl
@[simp] theorem State.setHq_clusters (s : State) (h : Nat) (x : HostQueue) : (s.setHq h x).clusters = s.clusters := rfl
@[simp] theorem State.setHq_launches (s : State) (h : Nat) (x : HostQueue) : (s.setHq h x).launches = s.launches := rfl
@[simp] theorem State.setHq_parts (s : State) (h : Nat) (x : HostQueue) : (s.setHq h x).parts = s.parts := rfl
@[simp] theorem State.setHq_queues (s : State) (h : Nat) (x : HostQueue) : (s.setHq h x).queues = s.queues := rfl
@[simp] theorem State.setHq_pools (s : State) (h : Nat) (x : HostQueue) : (s.setHq h x).pools = s.pools := rfl
@[simp] theorem State.setHq_reqs (s : State) (h : Nat) (x : HostQueue) : (s.setHq h x).reqs = s.reqs := rfl
@[simp] theorem State.setHq_ops (s : State) (h : Nat) (x : HostQueue) : (s.setHq h x).ops = s.ops := rfl
@[simp] theorem State.setHq_releases (s : State) (h : Nat) (x : HostQueue) : (s.setHq h x).releases = s.releases := rfl
@[simp] theorem State.setHq_saves (s : State) (h : Nat) (x : HostQueue) : (s.setHq h x).saves = s.saves := rfl
@[simp] theorem State.setHq_saved (s : State) (h : Nat) (x : HostQueue) : (s.setHq h x).saved = s.saved := rfl
@[simp] theorem State.setHq_savedBlocks (s : State) (h : Nat) (x : HostQueue) : (s.setHq h x).savedBlocks = s.savedBlocks := rfl
@[simp] theorem State.setHq_mem (s : State) (h : Nat) (x : HostQueue) : (s.setHq h x).mem = s.mem := rfl
@[simp] theorem State.setHq_host (s : State) (h : Nat) (x : HostQueue) : (s.setHq h x).host = s.host := rfl
@[simp] theorem State.setHq_peer (s : State) (h : Nat) (x : HostQueue) : (s.setHq h x).peer = s.peer := rfl
@[simp] theorem State.setHq_poison (s : State) (h : Nat) (x : HostQueue) : (s.setHq h x).poison = s.poison := rfl
@[simp] theorem State.setHq_units (s : State) (h : Nat) (x : HostQueue) : (s.setHq h x).units = s.units := rfl
@[simp] theorem State.setHq_scrubbing (s : State) (h : Nat) (x : HostQueue) : (s.setHq h x).scrubbing = s.scrubbing := rfl
@[simp] theorem State.setHq_asidtab (s : State) (h : Nat) (x : HostQueue) : (s.setHq h x).asidtab = s.asidtab := rfl
@[simp] theorem State.setHq_asids (s : State) (h : Nat) (x : HostQueue) : (s.setHq h x).asids = s.asids := rfl
@[simp] theorem State.setHq_mailbox (s : State) (h : Nat) (x : HostQueue) : (s.setHq h x).mailbox = s.mailbox := rfl
@[simp] theorem State.setHq_frozenFns (s : State) (h : Nat) (x : HostQueue) : (s.setHq h x).frozenFns = s.frozenFns := rfl
@[simp] theorem State.setHq_meters (s : State) (h : Nat) (x : HostQueue) : (s.setHq h x).meters = s.meters := rfl
@[simp] theorem State.setHq_ports (s : State) (h : Nat) (x : HostQueue) : (s.setHq h x).ports = s.ports := rfl
@[simp] theorem State.setHq_answered (s : State) (h : Nat) (x : HostQueue) : (s.setHq h x).answered = s.answered := rfl
@[simp] theorem State.setHq_bootfail (s : State) (h : Nat) (x : HostQueue) : (s.setHq h x).bootfail = s.bootfail := rfl
@[simp] theorem State.setHq_ready (s : State) (h : Nat) (x : HostQueue) : (s.setHq h x).ready = s.ready := rfl
@[simp] theorem State.setHq_cfgVersion (s : State) (h : Nat) (x : HostQueue) : (s.setHq h x).cfgVersion = s.cfgVersion := rfl
@[simp] theorem State.setHq_fwVersion (s : State) (h : Nat) (x : HostQueue) : (s.setHq h x).fwVersion = s.fwVersion := rfl
@[simp] theorem State.setHq_ownerKey (s : State) (h : Nat) (x : HostQueue) : (s.setHq h x).ownerKey = s.ownerKey := rfl
@[simp] theorem State.setHq_fwDigest (s : State) (h : Nat) (x : HostQueue) : (s.setHq h x).fwDigest = s.fwDigest := rfl
@[simp] theorem State.setHq_cfgDigest (s : State) (h : Nat) (x : HostQueue) : (s.setHq h x).cfgDigest = s.cfgDigest := rfl
@[simp] theorem State.setHq_report (s : State) (h : Nat) (x : HostQueue) : (s.setHq h x).report = s.report := rfl

/-! State.setPort. -/
@[simp] theorem State.setPort_turn (s : State) (h : Nat) (x : Port) : (s.setPort h x).turn = s.turn := rfl
@[simp] theorem State.setPort_who (s : State) (h : Nat) (x : Port) : (s.setPort h x).who = s.who := rfl
@[simp] theorem State.setPort_draws (s : State) (h : Nat) (x : Port) : (s.setPort h x).draws = s.draws := rfl
@[simp] theorem State.setPort_now (s : State) (h : Nat) (x : Port) : (s.setPort h x).now = s.now := rfl
@[simp] theorem State.setPort_nextId (s : State) (h : Nat) (x : Port) : (s.setPort h x).nextId = s.nextId := rfl
@[simp] theorem State.setPort_inputs (s : State) (h : Nat) (x : Port) : (s.setPort h x).inputs = s.inputs := rfl
@[simp] theorem State.setPort_groups (s : State) (h : Nat) (x : Port) : (s.setPort h x).groups = s.groups := rfl
@[simp] theorem State.setPort_blocks (s : State) (h : Nat) (x : Port) : (s.setPort h x).blocks = s.blocks := rfl
@[simp] theorem State.setPort_cores (s : State) (h : Nat) (x : Port) : (s.setPort h x).cores = s.cores := rfl
@[simp] theorem State.setPort_clusters (s : State) (h : Nat) (x : Port) : (s.setPort h x).clusters = s.clusters := rfl
@[simp] theorem State.setPort_launches (s : State) (h : Nat) (x : Port) : (s.setPort h x).launches = s.launches := rfl
@[simp] theorem State.setPort_parts (s : State) (h : Nat) (x : Port) : (s.setPort h x).parts = s.parts := rfl
@[simp] theorem State.setPort_queues (s : State) (h : Nat) (x : Port) : (s.setPort h x).queues = s.queues := rfl
@[simp] theorem State.setPort_pools (s : State) (h : Nat) (x : Port) : (s.setPort h x).pools = s.pools := rfl
@[simp] theorem State.setPort_reqs (s : State) (h : Nat) (x : Port) : (s.setPort h x).reqs = s.reqs := rfl
@[simp] theorem State.setPort_ops (s : State) (h : Nat) (x : Port) : (s.setPort h x).ops = s.ops := rfl
@[simp] theorem State.setPort_releases (s : State) (h : Nat) (x : Port) : (s.setPort h x).releases = s.releases := rfl
@[simp] theorem State.setPort_saves (s : State) (h : Nat) (x : Port) : (s.setPort h x).saves = s.saves := rfl
@[simp] theorem State.setPort_saved (s : State) (h : Nat) (x : Port) : (s.setPort h x).saved = s.saved := rfl
@[simp] theorem State.setPort_savedBlocks (s : State) (h : Nat) (x : Port) : (s.setPort h x).savedBlocks = s.savedBlocks := rfl
@[simp] theorem State.setPort_mem (s : State) (h : Nat) (x : Port) : (s.setPort h x).mem = s.mem := rfl
@[simp] theorem State.setPort_host (s : State) (h : Nat) (x : Port) : (s.setPort h x).host = s.host := rfl
@[simp] theorem State.setPort_peer (s : State) (h : Nat) (x : Port) : (s.setPort h x).peer = s.peer := rfl
@[simp] theorem State.setPort_poison (s : State) (h : Nat) (x : Port) : (s.setPort h x).poison = s.poison := rfl
@[simp] theorem State.setPort_units (s : State) (h : Nat) (x : Port) : (s.setPort h x).units = s.units := rfl
@[simp] theorem State.setPort_scrubbing (s : State) (h : Nat) (x : Port) : (s.setPort h x).scrubbing = s.scrubbing := rfl
@[simp] theorem State.setPort_asidtab (s : State) (h : Nat) (x : Port) : (s.setPort h x).asidtab = s.asidtab := rfl
@[simp] theorem State.setPort_asids (s : State) (h : Nat) (x : Port) : (s.setPort h x).asids = s.asids := rfl
@[simp] theorem State.setPort_mailbox (s : State) (h : Nat) (x : Port) : (s.setPort h x).mailbox = s.mailbox := rfl
@[simp] theorem State.setPort_frozenFns (s : State) (h : Nat) (x : Port) : (s.setPort h x).frozenFns = s.frozenFns := rfl
@[simp] theorem State.setPort_meters (s : State) (h : Nat) (x : Port) : (s.setPort h x).meters = s.meters := rfl
@[simp] theorem State.setPort_fqs (s : State) (h : Nat) (x : Port) : (s.setPort h x).fqs = s.fqs := rfl
@[simp] theorem State.setPort_answered (s : State) (h : Nat) (x : Port) : (s.setPort h x).answered = s.answered := rfl
@[simp] theorem State.setPort_bootfail (s : State) (h : Nat) (x : Port) : (s.setPort h x).bootfail = s.bootfail := rfl
@[simp] theorem State.setPort_ready (s : State) (h : Nat) (x : Port) : (s.setPort h x).ready = s.ready := rfl
@[simp] theorem State.setPort_cfgVersion (s : State) (h : Nat) (x : Port) : (s.setPort h x).cfgVersion = s.cfgVersion := rfl
@[simp] theorem State.setPort_fwVersion (s : State) (h : Nat) (x : Port) : (s.setPort h x).fwVersion = s.fwVersion := rfl
@[simp] theorem State.setPort_ownerKey (s : State) (h : Nat) (x : Port) : (s.setPort h x).ownerKey = s.ownerKey := rfl
@[simp] theorem State.setPort_fwDigest (s : State) (h : Nat) (x : Port) : (s.setPort h x).fwDigest = s.fwDigest := rfl
@[simp] theorem State.setPort_cfgDigest (s : State) (h : Nat) (x : Port) : (s.setPort h x).cfgDigest = s.cfgDigest := rfl
@[simp] theorem State.setPort_report (s : State) (h : Nat) (x : Port) : (s.setPort h x).report = s.report := rfl

/-! Arch.writeLane. -/
@[simp] theorem Arch.writeLane_b (a : Arch) (n l : Nat) (x : Word) : (a.writeLane n l x).b = a.b := rfl
@[simp] theorem Arch.writeLane_s (a : Arch) (n l : Nat) (x : Word) : (a.writeLane n l x).s = a.s := rfl
@[simp] theorem Arch.writeLane_p (a : Arch) (n l : Nat) (x : Word) : (a.writeLane n l x).p = a.p := rfl
@[simp] theorem Arch.writeLane_bpoison (a : Arch) (n l : Nat) (x : Word) : (a.writeLane n l x).bpoison = a.bpoison := rfl
@[simp] theorem Arch.writeLane_spoison (a : Arch) (n l : Nat) (x : Word) : (a.writeLane n l x).spoison = a.spoison := rfl
@[simp] theorem Arch.writeLane_slices (a : Arch) (n l : Nat) (x : Word) : (a.writeLane n l x).slices = a.slices := rfl
@[simp] theorem Arch.writeLane_last (a : Arch) (n l : Nat) (x : Word) : (a.writeLane n l x).last = a.last := rfl
@[simp] theorem Arch.writeLane_pend (a : Arch) (n l : Nat) (x : Word) : (a.writeLane n l x).pend = a.pend := rfl
@[simp] theorem Arch.writeLane_fpflags (a : Arch) (n l : Nat) (x : Word) : (a.writeLane n l x).fpflags = a.fpflags := rfl
@[simp] theorem Arch.writeLane_lhret (a : Arch) (n l : Nat) (x : Word) : (a.writeLane n l x).lhret = a.lhret := rfl
@[simp] theorem Arch.writeLane_lossid (a : Arch) (n l : Nat) (x : Word) : (a.writeLane n l x).lossid = a.lossid := rfl
@[simp] theorem Arch.writeLane_lossaddr (a : Arch) (n l : Nat) (x : Word) : (a.writeLane n l x).lossaddr = a.lossaddr := rfl
@[simp] theorem Arch.writeLane_tbcause (a : Arch) (n l : Nat) (x : Word) : (a.writeLane n l x).tbcause = a.tbcause := rfl
@[simp] theorem Arch.writeLane_tls (a : Arch) (n l : Nat) (x : Word) : (a.writeLane n l x).tls = a.tls := rfl
@[simp] theorem Arch.writeLane_bars (a : Arch) (n l : Nat) (x : Word) : (a.writeLane n l x).bars = a.bars := rfl
@[simp] theorem Arch.writeLane_macros (a : Arch) (n l : Nat) (x : Word) : (a.writeLane n l x).macros = a.macros := rfl

/-! Arch.writeBand. -/
@[simp] theorem Arch.writeBand_v (a : Arch) (n k : Nat) (x : Byte) : (a.writeBand n k x).v = a.v := rfl
@[simp] theorem Arch.writeBand_s (a : Arch) (n k : Nat) (x : Byte) : (a.writeBand n k x).s = a.s := rfl
@[simp] theorem Arch.writeBand_p (a : Arch) (n k : Nat) (x : Byte) : (a.writeBand n k x).p = a.p := rfl
@[simp] theorem Arch.writeBand_vpoison (a : Arch) (n k : Nat) (x : Byte) : (a.writeBand n k x).vpoison = a.vpoison := rfl
@[simp] theorem Arch.writeBand_spoison (a : Arch) (n k : Nat) (x : Byte) : (a.writeBand n k x).spoison = a.spoison := rfl
@[simp] theorem Arch.writeBand_slices (a : Arch) (n k : Nat) (x : Byte) : (a.writeBand n k x).slices = a.slices := rfl
@[simp] theorem Arch.writeBand_last (a : Arch) (n k : Nat) (x : Byte) : (a.writeBand n k x).last = a.last := rfl
@[simp] theorem Arch.writeBand_pend (a : Arch) (n k : Nat) (x : Byte) : (a.writeBand n k x).pend = a.pend := rfl
@[simp] theorem Arch.writeBand_fpflags (a : Arch) (n k : Nat) (x : Byte) : (a.writeBand n k x).fpflags = a.fpflags := rfl
@[simp] theorem Arch.writeBand_lhret (a : Arch) (n k : Nat) (x : Byte) : (a.writeBand n k x).lhret = a.lhret := rfl
@[simp] theorem Arch.writeBand_lossid (a : Arch) (n k : Nat) (x : Byte) : (a.writeBand n k x).lossid = a.lossid := rfl
@[simp] theorem Arch.writeBand_lossaddr (a : Arch) (n k : Nat) (x : Byte) : (a.writeBand n k x).lossaddr = a.lossaddr := rfl
@[simp] theorem Arch.writeBand_tbcause (a : Arch) (n k : Nat) (x : Byte) : (a.writeBand n k x).tbcause = a.tbcause := rfl
@[simp] theorem Arch.writeBand_tls (a : Arch) (n k : Nat) (x : Byte) : (a.writeBand n k x).tls = a.tls := rfl
@[simp] theorem Arch.writeBand_bars (a : Arch) (n k : Nat) (x : Byte) : (a.writeBand n k x).bars = a.bars := rfl
@[simp] theorem Arch.writeBand_macros (a : Arch) (n k : Nat) (x : Byte) : (a.writeBand n k x).macros = a.macros := rfl

/-! Arch.writeS. -/
@[simp] theorem Arch.writeS_v (a : Arch) (n : Nat) (x : Word) : (a.writeS n x).v = a.v := by unfold Arch.writeS; split <;> rfl
@[simp] theorem Arch.writeS_b (a : Arch) (n : Nat) (x : Word) : (a.writeS n x).b = a.b := by unfold Arch.writeS; split <;> rfl
@[simp] theorem Arch.writeS_p (a : Arch) (n : Nat) (x : Word) : (a.writeS n x).p = a.p := by unfold Arch.writeS; split <;> rfl
@[simp] theorem Arch.writeS_vpoison (a : Arch) (n : Nat) (x : Word) : (a.writeS n x).vpoison = a.vpoison := by unfold Arch.writeS; split <;> rfl
@[simp] theorem Arch.writeS_bpoison (a : Arch) (n : Nat) (x : Word) : (a.writeS n x).bpoison = a.bpoison := by unfold Arch.writeS; split <;> rfl
@[simp] theorem Arch.writeS_slices (a : Arch) (n : Nat) (x : Word) : (a.writeS n x).slices = a.slices := by unfold Arch.writeS; split <;> rfl
@[simp] theorem Arch.writeS_last (a : Arch) (n : Nat) (x : Word) : (a.writeS n x).last = a.last := by unfold Arch.writeS; split <;> rfl
@[simp] theorem Arch.writeS_pend (a : Arch) (n : Nat) (x : Word) : (a.writeS n x).pend = a.pend := by unfold Arch.writeS; split <;> rfl
@[simp] theorem Arch.writeS_fpflags (a : Arch) (n : Nat) (x : Word) : (a.writeS n x).fpflags = a.fpflags := by unfold Arch.writeS; split <;> rfl
@[simp] theorem Arch.writeS_lhret (a : Arch) (n : Nat) (x : Word) : (a.writeS n x).lhret = a.lhret := by unfold Arch.writeS; split <;> rfl
@[simp] theorem Arch.writeS_lossid (a : Arch) (n : Nat) (x : Word) : (a.writeS n x).lossid = a.lossid := by unfold Arch.writeS; split <;> rfl
@[simp] theorem Arch.writeS_lossaddr (a : Arch) (n : Nat) (x : Word) : (a.writeS n x).lossaddr = a.lossaddr := by unfold Arch.writeS; split <;> rfl
@[simp] theorem Arch.writeS_tbcause (a : Arch) (n : Nat) (x : Word) : (a.writeS n x).tbcause = a.tbcause := by unfold Arch.writeS; split <;> rfl
@[simp] theorem Arch.writeS_tls (a : Arch) (n : Nat) (x : Word) : (a.writeS n x).tls = a.tls := by unfold Arch.writeS; split <;> rfl
@[simp] theorem Arch.writeS_bars (a : Arch) (n : Nat) (x : Word) : (a.writeS n x).bars = a.bars := by unfold Arch.writeS; split <;> rfl
@[simp] theorem Arch.writeS_macros (a : Arch) (n : Nat) (x : Word) : (a.writeS n x).macros = a.macros := by unfold Arch.writeS; split <;> rfl

/-! Arch.writeP. -/
@[simp] theorem Arch.writeP_v (a : Arch) (n l : Nat) (x : Bool) : (a.writeP n l x).v = a.v := by unfold Arch.writeP; split <;> rfl
@[simp] theorem Arch.writeP_b (a : Arch) (n l : Nat) (x : Bool) : (a.writeP n l x).b = a.b := by unfold Arch.writeP; split <;> rfl
@[simp] theorem Arch.writeP_s (a : Arch) (n l : Nat) (x : Bool) : (a.writeP n l x).s = a.s := by unfold Arch.writeP; split <;> rfl
@[simp] theorem Arch.writeP_vpoison (a : Arch) (n l : Nat) (x : Bool) : (a.writeP n l x).vpoison = a.vpoison := by unfold Arch.writeP; split <;> rfl
@[simp] theorem Arch.writeP_bpoison (a : Arch) (n l : Nat) (x : Bool) : (a.writeP n l x).bpoison = a.bpoison := by unfold Arch.writeP; split <;> rfl
@[simp] theorem Arch.writeP_spoison (a : Arch) (n l : Nat) (x : Bool) : (a.writeP n l x).spoison = a.spoison := by unfold Arch.writeP; split <;> rfl
@[simp] theorem Arch.writeP_slices (a : Arch) (n l : Nat) (x : Bool) : (a.writeP n l x).slices = a.slices := by unfold Arch.writeP; split <;> rfl
@[simp] theorem Arch.writeP_last (a : Arch) (n l : Nat) (x : Bool) : (a.writeP n l x).last = a.last := by unfold Arch.writeP; split <;> rfl
@[simp] theorem Arch.writeP_pend (a : Arch) (n l : Nat) (x : Bool) : (a.writeP n l x).pend = a.pend := by unfold Arch.writeP; split <;> rfl
@[simp] theorem Arch.writeP_fpflags (a : Arch) (n l : Nat) (x : Bool) : (a.writeP n l x).fpflags = a.fpflags := by unfold Arch.writeP; split <;> rfl
@[simp] theorem Arch.writeP_lhret (a : Arch) (n l : Nat) (x : Bool) : (a.writeP n l x).lhret = a.lhret := by unfold Arch.writeP; split <;> rfl
@[simp] theorem Arch.writeP_lossid (a : Arch) (n l : Nat) (x : Bool) : (a.writeP n l x).lossid = a.lossid := by unfold Arch.writeP; split <;> rfl
@[simp] theorem Arch.writeP_lossaddr (a : Arch) (n l : Nat) (x : Bool) : (a.writeP n l x).lossaddr = a.lossaddr := by unfold Arch.writeP; split <;> rfl
@[simp] theorem Arch.writeP_tbcause (a : Arch) (n l : Nat) (x : Bool) : (a.writeP n l x).tbcause = a.tbcause := by unfold Arch.writeP; split <;> rfl
@[simp] theorem Arch.writeP_tls (a : Arch) (n l : Nat) (x : Bool) : (a.writeP n l x).tls = a.tls := by unfold Arch.writeP; split <;> rfl
@[simp] theorem Arch.writeP_bars (a : Arch) (n l : Nat) (x : Bool) : (a.writeP n l x).bars = a.bars := by unfold Arch.writeP; split <;> rfl
@[simp] theorem Arch.writeP_macros (a : Arch) (n l : Nat) (x : Bool) : (a.writeP n l x).macros = a.macros := by unfold Arch.writeP; split <;> rfl

/-! Arch.writeLanes. -/
@[simp] theorem Arch.writeLanes_b (a : Arch) (n : Nat) (vs : List (Nat × Word)) : (a.writeLanes n vs).b = a.b := by
  unfold Arch.writeLanes
  induction vs generalizing a with
  | nil => rfl
  | cons x r ih => rw [List.foldl_cons, ih]; exact Arch.writeLane_b ..
@[simp] theorem Arch.writeLanes_s (a : Arch) (n : Nat) (vs : List (Nat × Word)) : (a.writeLanes n vs).s = a.s := by
  unfold Arch.writeLanes
  induction vs generalizing a with
  | nil => rfl
  | cons x r ih => rw [List.foldl_cons, ih]; exact Arch.writeLane_s ..
@[simp] theorem Arch.writeLanes_p (a : Arch) (n : Nat) (vs : List (Nat × Word)) : (a.writeLanes n vs).p = a.p := by
  unfold Arch.writeLanes
  induction vs generalizing a with
  | nil => rfl
  | cons x r ih => rw [List.foldl_cons, ih]; exact Arch.writeLane_p ..
@[simp] theorem Arch.writeLanes_bpoison (a : Arch) (n : Nat) (vs : List (Nat × Word)) : (a.writeLanes n vs).bpoison = a.bpoison := by
  unfold Arch.writeLanes
  induction vs generalizing a with
  | nil => rfl
  | cons x r ih => rw [List.foldl_cons, ih]; exact Arch.writeLane_bpoison ..
@[simp] theorem Arch.writeLanes_spoison (a : Arch) (n : Nat) (vs : List (Nat × Word)) : (a.writeLanes n vs).spoison = a.spoison := by
  unfold Arch.writeLanes
  induction vs generalizing a with
  | nil => rfl
  | cons x r ih => rw [List.foldl_cons, ih]; exact Arch.writeLane_spoison ..
@[simp] theorem Arch.writeLanes_slices (a : Arch) (n : Nat) (vs : List (Nat × Word)) : (a.writeLanes n vs).slices = a.slices := by
  unfold Arch.writeLanes
  induction vs generalizing a with
  | nil => rfl
  | cons x r ih => rw [List.foldl_cons, ih]; exact Arch.writeLane_slices ..
@[simp] theorem Arch.writeLanes_last (a : Arch) (n : Nat) (vs : List (Nat × Word)) : (a.writeLanes n vs).last = a.last := by
  unfold Arch.writeLanes
  induction vs generalizing a with
  | nil => rfl
  | cons x r ih => rw [List.foldl_cons, ih]; exact Arch.writeLane_last ..
@[simp] theorem Arch.writeLanes_pend (a : Arch) (n : Nat) (vs : List (Nat × Word)) : (a.writeLanes n vs).pend = a.pend := by
  unfold Arch.writeLanes
  induction vs generalizing a with
  | nil => rfl
  | cons x r ih => rw [List.foldl_cons, ih]; exact Arch.writeLane_pend ..
@[simp] theorem Arch.writeLanes_fpflags (a : Arch) (n : Nat) (vs : List (Nat × Word)) : (a.writeLanes n vs).fpflags = a.fpflags := by
  unfold Arch.writeLanes
  induction vs generalizing a with
  | nil => rfl
  | cons x r ih => rw [List.foldl_cons, ih]; exact Arch.writeLane_fpflags ..
@[simp] theorem Arch.writeLanes_lhret (a : Arch) (n : Nat) (vs : List (Nat × Word)) : (a.writeLanes n vs).lhret = a.lhret := by
  unfold Arch.writeLanes
  induction vs generalizing a with
  | nil => rfl
  | cons x r ih => rw [List.foldl_cons, ih]; exact Arch.writeLane_lhret ..
@[simp] theorem Arch.writeLanes_lossid (a : Arch) (n : Nat) (vs : List (Nat × Word)) : (a.writeLanes n vs).lossid = a.lossid := by
  unfold Arch.writeLanes
  induction vs generalizing a with
  | nil => rfl
  | cons x r ih => rw [List.foldl_cons, ih]; exact Arch.writeLane_lossid ..
@[simp] theorem Arch.writeLanes_lossaddr (a : Arch) (n : Nat) (vs : List (Nat × Word)) : (a.writeLanes n vs).lossaddr = a.lossaddr := by
  unfold Arch.writeLanes
  induction vs generalizing a with
  | nil => rfl
  | cons x r ih => rw [List.foldl_cons, ih]; exact Arch.writeLane_lossaddr ..
@[simp] theorem Arch.writeLanes_tbcause (a : Arch) (n : Nat) (vs : List (Nat × Word)) : (a.writeLanes n vs).tbcause = a.tbcause := by
  unfold Arch.writeLanes
  induction vs generalizing a with
  | nil => rfl
  | cons x r ih => rw [List.foldl_cons, ih]; exact Arch.writeLane_tbcause ..
@[simp] theorem Arch.writeLanes_tls (a : Arch) (n : Nat) (vs : List (Nat × Word)) : (a.writeLanes n vs).tls = a.tls := by
  unfold Arch.writeLanes
  induction vs generalizing a with
  | nil => rfl
  | cons x r ih => rw [List.foldl_cons, ih]; exact Arch.writeLane_tls ..
@[simp] theorem Arch.writeLanes_bars (a : Arch) (n : Nat) (vs : List (Nat × Word)) : (a.writeLanes n vs).bars = a.bars := by
  unfold Arch.writeLanes
  induction vs generalizing a with
  | nil => rfl
  | cons x r ih => rw [List.foldl_cons, ih]; exact Arch.writeLane_bars ..
@[simp] theorem Arch.writeLanes_macros (a : Arch) (n : Nat) (vs : List (Nat × Word)) : (a.writeLanes n vs).macros = a.macros := by
  unfold Arch.writeLanes
  induction vs generalizing a with
  | nil => rfl
  | cons x r ih => rw [List.foldl_cons, ih]; exact Arch.writeLane_macros ..

/-! Arch.writePs. -/
@[simp] theorem Arch.writePs_v (a : Arch) (n : Nat) (vs : List (Nat × Bool)) : (a.writePs n vs).v = a.v := by
  unfold Arch.writePs
  induction vs generalizing a with
  | nil => rfl
  | cons x r ih => rw [List.foldl_cons, ih]; exact Arch.writeP_v ..
@[simp] theorem Arch.writePs_b (a : Arch) (n : Nat) (vs : List (Nat × Bool)) : (a.writePs n vs).b = a.b := by
  unfold Arch.writePs
  induction vs generalizing a with
  | nil => rfl
  | cons x r ih => rw [List.foldl_cons, ih]; exact Arch.writeP_b ..
@[simp] theorem Arch.writePs_s (a : Arch) (n : Nat) (vs : List (Nat × Bool)) : (a.writePs n vs).s = a.s := by
  unfold Arch.writePs
  induction vs generalizing a with
  | nil => rfl
  | cons x r ih => rw [List.foldl_cons, ih]; exact Arch.writeP_s ..
@[simp] theorem Arch.writePs_vpoison (a : Arch) (n : Nat) (vs : List (Nat × Bool)) : (a.writePs n vs).vpoison = a.vpoison := by
  unfold Arch.writePs
  induction vs generalizing a with
  | nil => rfl
  | cons x r ih => rw [List.foldl_cons, ih]; exact Arch.writeP_vpoison ..
@[simp] theorem Arch.writePs_bpoison (a : Arch) (n : Nat) (vs : List (Nat × Bool)) : (a.writePs n vs).bpoison = a.bpoison := by
  unfold Arch.writePs
  induction vs generalizing a with
  | nil => rfl
  | cons x r ih => rw [List.foldl_cons, ih]; exact Arch.writeP_bpoison ..
@[simp] theorem Arch.writePs_spoison (a : Arch) (n : Nat) (vs : List (Nat × Bool)) : (a.writePs n vs).spoison = a.spoison := by
  unfold Arch.writePs
  induction vs generalizing a with
  | nil => rfl
  | cons x r ih => rw [List.foldl_cons, ih]; exact Arch.writeP_spoison ..
@[simp] theorem Arch.writePs_slices (a : Arch) (n : Nat) (vs : List (Nat × Bool)) : (a.writePs n vs).slices = a.slices := by
  unfold Arch.writePs
  induction vs generalizing a with
  | nil => rfl
  | cons x r ih => rw [List.foldl_cons, ih]; exact Arch.writeP_slices ..
@[simp] theorem Arch.writePs_last (a : Arch) (n : Nat) (vs : List (Nat × Bool)) : (a.writePs n vs).last = a.last := by
  unfold Arch.writePs
  induction vs generalizing a with
  | nil => rfl
  | cons x r ih => rw [List.foldl_cons, ih]; exact Arch.writeP_last ..
@[simp] theorem Arch.writePs_pend (a : Arch) (n : Nat) (vs : List (Nat × Bool)) : (a.writePs n vs).pend = a.pend := by
  unfold Arch.writePs
  induction vs generalizing a with
  | nil => rfl
  | cons x r ih => rw [List.foldl_cons, ih]; exact Arch.writeP_pend ..
@[simp] theorem Arch.writePs_fpflags (a : Arch) (n : Nat) (vs : List (Nat × Bool)) : (a.writePs n vs).fpflags = a.fpflags := by
  unfold Arch.writePs
  induction vs generalizing a with
  | nil => rfl
  | cons x r ih => rw [List.foldl_cons, ih]; exact Arch.writeP_fpflags ..
@[simp] theorem Arch.writePs_lhret (a : Arch) (n : Nat) (vs : List (Nat × Bool)) : (a.writePs n vs).lhret = a.lhret := by
  unfold Arch.writePs
  induction vs generalizing a with
  | nil => rfl
  | cons x r ih => rw [List.foldl_cons, ih]; exact Arch.writeP_lhret ..
@[simp] theorem Arch.writePs_lossid (a : Arch) (n : Nat) (vs : List (Nat × Bool)) : (a.writePs n vs).lossid = a.lossid := by
  unfold Arch.writePs
  induction vs generalizing a with
  | nil => rfl
  | cons x r ih => rw [List.foldl_cons, ih]; exact Arch.writeP_lossid ..
@[simp] theorem Arch.writePs_lossaddr (a : Arch) (n : Nat) (vs : List (Nat × Bool)) : (a.writePs n vs).lossaddr = a.lossaddr := by
  unfold Arch.writePs
  induction vs generalizing a with
  | nil => rfl
  | cons x r ih => rw [List.foldl_cons, ih]; exact Arch.writeP_lossaddr ..
@[simp] theorem Arch.writePs_tbcause (a : Arch) (n : Nat) (vs : List (Nat × Bool)) : (a.writePs n vs).tbcause = a.tbcause := by
  unfold Arch.writePs
  induction vs generalizing a with
  | nil => rfl
  | cons x r ih => rw [List.foldl_cons, ih]; exact Arch.writeP_tbcause ..
@[simp] theorem Arch.writePs_tls (a : Arch) (n : Nat) (vs : List (Nat × Bool)) : (a.writePs n vs).tls = a.tls := by
  unfold Arch.writePs
  induction vs generalizing a with
  | nil => rfl
  | cons x r ih => rw [List.foldl_cons, ih]; exact Arch.writeP_tls ..
@[simp] theorem Arch.writePs_bars (a : Arch) (n : Nat) (vs : List (Nat × Bool)) : (a.writePs n vs).bars = a.bars := by
  unfold Arch.writePs
  induction vs generalizing a with
  | nil => rfl
  | cons x r ih => rw [List.foldl_cons, ih]; exact Arch.writeP_bars ..
@[simp] theorem Arch.writePs_macros (a : Arch) (n : Nat) (vs : List (Nat × Bool)) : (a.writePs n vs).macros = a.macros := by
  unfold Arch.writePs
  induction vs generalizing a with
  | nil => rfl
  | cons x r ih => rw [List.foldl_cons, ih]; exact Arch.writeP_macros ..

/-! Arch.bandRule and Arch.writeV. -/
@[simp] theorem Arch.bandRule_v (a : Arch) (n : Nat) (ls : List Nat) : (a.bandRule n ls).v = a.v := by
  unfold Arch.bandRule
  induction granulesOf ls generalizing a with
  | nil => rfl
  | cons x r ih => rw [List.foldl_cons, ih]; rfl
@[simp] theorem Arch.bandRule_s (a : Arch) (n : Nat) (ls : List Nat) : (a.bandRule n ls).s = a.s := by
  unfold Arch.bandRule
  induction granulesOf ls generalizing a with
  | nil => rfl
  | cons x r ih => rw [List.foldl_cons, ih]; rfl
@[simp] theorem Arch.bandRule_p (a : Arch) (n : Nat) (ls : List Nat) : (a.bandRule n ls).p = a.p := by
  unfold Arch.bandRule
  induction granulesOf ls generalizing a with
  | nil => rfl
  | cons x r ih => rw [List.foldl_cons, ih]; rfl
@[simp] theorem Arch.bandRule_vpoison (a : Arch) (n : Nat) (ls : List Nat) : (a.bandRule n ls).vpoison = a.vpoison := by
  unfold Arch.bandRule
  induction granulesOf ls generalizing a with
  | nil => rfl
  | cons x r ih => rw [List.foldl_cons, ih]; rfl
@[simp] theorem Arch.bandRule_spoison (a : Arch) (n : Nat) (ls : List Nat) : (a.bandRule n ls).spoison = a.spoison := by
  unfold Arch.bandRule
  induction granulesOf ls generalizing a with
  | nil => rfl
  | cons x r ih => rw [List.foldl_cons, ih]; rfl
@[simp] theorem Arch.bandRule_slices (a : Arch) (n : Nat) (ls : List Nat) : (a.bandRule n ls).slices = a.slices := by
  unfold Arch.bandRule
  induction granulesOf ls generalizing a with
  | nil => rfl
  | cons x r ih => rw [List.foldl_cons, ih]; rfl
@[simp] theorem Arch.bandRule_last (a : Arch) (n : Nat) (ls : List Nat) : (a.bandRule n ls).last = a.last := by
  unfold Arch.bandRule
  induction granulesOf ls generalizing a with
  | nil => rfl
  | cons x r ih => rw [List.foldl_cons, ih]; rfl
@[simp] theorem Arch.bandRule_pend (a : Arch) (n : Nat) (ls : List Nat) : (a.bandRule n ls).pend = a.pend := by
  unfold Arch.bandRule
  induction granulesOf ls generalizing a with
  | nil => rfl
  | cons x r ih => rw [List.foldl_cons, ih]; rfl
@[simp] theorem Arch.bandRule_fpflags (a : Arch) (n : Nat) (ls : List Nat) : (a.bandRule n ls).fpflags = a.fpflags := by
  unfold Arch.bandRule
  induction granulesOf ls generalizing a with
  | nil => rfl
  | cons x r ih => rw [List.foldl_cons, ih]; rfl
@[simp] theorem Arch.bandRule_lhret (a : Arch) (n : Nat) (ls : List Nat) : (a.bandRule n ls).lhret = a.lhret := by
  unfold Arch.bandRule
  induction granulesOf ls generalizing a with
  | nil => rfl
  | cons x r ih => rw [List.foldl_cons, ih]; rfl
@[simp] theorem Arch.bandRule_lossid (a : Arch) (n : Nat) (ls : List Nat) : (a.bandRule n ls).lossid = a.lossid := by
  unfold Arch.bandRule
  induction granulesOf ls generalizing a with
  | nil => rfl
  | cons x r ih => rw [List.foldl_cons, ih]; rfl
@[simp] theorem Arch.bandRule_lossaddr (a : Arch) (n : Nat) (ls : List Nat) : (a.bandRule n ls).lossaddr = a.lossaddr := by
  unfold Arch.bandRule
  induction granulesOf ls generalizing a with
  | nil => rfl
  | cons x r ih => rw [List.foldl_cons, ih]; rfl
@[simp] theorem Arch.bandRule_tbcause (a : Arch) (n : Nat) (ls : List Nat) : (a.bandRule n ls).tbcause = a.tbcause := by
  unfold Arch.bandRule
  induction granulesOf ls generalizing a with
  | nil => rfl
  | cons x r ih => rw [List.foldl_cons, ih]; rfl
@[simp] theorem Arch.bandRule_tls (a : Arch) (n : Nat) (ls : List Nat) : (a.bandRule n ls).tls = a.tls := by
  unfold Arch.bandRule
  induction granulesOf ls generalizing a with
  | nil => rfl
  | cons x r ih => rw [List.foldl_cons, ih]; rfl
@[simp] theorem Arch.bandRule_bars (a : Arch) (n : Nat) (ls : List Nat) : (a.bandRule n ls).bars = a.bars := by
  unfold Arch.bandRule
  induction granulesOf ls generalizing a with
  | nil => rfl
  | cons x r ih => rw [List.foldl_cons, ih]; rfl
@[simp] theorem Arch.bandRule_macros (a : Arch) (n : Nat) (ls : List Nat) : (a.bandRule n ls).macros = a.macros := by
  unfold Arch.bandRule
  induction granulesOf ls generalizing a with
  | nil => rfl
  | cons x r ih => rw [List.foldl_cons, ih]; rfl
@[simp] theorem Arch.writeV_s (a : Arch) (n : Nat) (vs : List (Nat × Word)) : (a.writeV n vs).s = a.s := by
  simp [Arch.writeV]
@[simp] theorem Arch.writeV_p (a : Arch) (n : Nat) (vs : List (Nat × Word)) : (a.writeV n vs).p = a.p := by
  simp [Arch.writeV]
@[simp] theorem Arch.writeV_spoison (a : Arch) (n : Nat) (vs : List (Nat × Word)) : (a.writeV n vs).spoison = a.spoison := by
  simp [Arch.writeV]
@[simp] theorem Arch.writeV_slices (a : Arch) (n : Nat) (vs : List (Nat × Word)) : (a.writeV n vs).slices = a.slices := by
  simp [Arch.writeV]
@[simp] theorem Arch.writeV_last (a : Arch) (n : Nat) (vs : List (Nat × Word)) : (a.writeV n vs).last = a.last := by
  simp [Arch.writeV]
@[simp] theorem Arch.writeV_pend (a : Arch) (n : Nat) (vs : List (Nat × Word)) : (a.writeV n vs).pend = a.pend := by
  simp [Arch.writeV]
@[simp] theorem Arch.writeV_fpflags (a : Arch) (n : Nat) (vs : List (Nat × Word)) : (a.writeV n vs).fpflags = a.fpflags := by
  simp [Arch.writeV]
@[simp] theorem Arch.writeV_lhret (a : Arch) (n : Nat) (vs : List (Nat × Word)) : (a.writeV n vs).lhret = a.lhret := by
  simp [Arch.writeV]
@[simp] theorem Arch.writeV_lossid (a : Arch) (n : Nat) (vs : List (Nat × Word)) : (a.writeV n vs).lossid = a.lossid := by
  simp [Arch.writeV]
@[simp] theorem Arch.writeV_lossaddr (a : Arch) (n : Nat) (vs : List (Nat × Word)) : (a.writeV n vs).lossaddr = a.lossaddr := by
  simp [Arch.writeV]
@[simp] theorem Arch.writeV_tbcause (a : Arch) (n : Nat) (vs : List (Nat × Word)) : (a.writeV n vs).tbcause = a.tbcause := by
  simp [Arch.writeV]
@[simp] theorem Arch.writeV_tls (a : Arch) (n : Nat) (vs : List (Nat × Word)) : (a.writeV n vs).tls = a.tls := by
  simp [Arch.writeV]
@[simp] theorem Arch.writeV_bars (a : Arch) (n : Nat) (vs : List (Nat × Word)) : (a.writeV n vs).bars = a.bars := by
  simp [Arch.writeV]
@[simp] theorem Arch.writeV_macros (a : Arch) (n : Nat) (vs : List (Nat × Word)) : (a.writeV n vs).macros = a.macros := by
  simp [Arch.writeV]

/-! What a state reads after an update. -/

@[simp] theorem State.group_putGroup (s : State) (h : Nat) (g : Group) : (s.putGroup h g).group h = some g :=
  Store.find_put_same s.groups h g
@[simp] theorem State.group_putGroup_other (s : State) (h k : Nat) (g : Group) (n : k ≠ h) :
    (s.putGroup h g).group k = s.group k := Store.find_put_other s.groups h k g n
@[simp] theorem State.find_setBlock (s : State) (k : Nat) (b : Block) :
    Store.find (s.setBlock k b).blocks k = some b := Store.find_put_same s.blocks k b

/-! Registers after a write. -/

/-- s63 reads 0 (R75). -/
@[simp] theorem Arch.readS_zero (a : Arch) : a.readS 63 = 0 := rfl
/-- s63 ignores writes (R75). -/
@[simp] theorem Arch.writeS_zero (a : Arch) (x : Word) : a.writeS 63 x = a := rfl
/-- p7 reads true (R75). -/
@[simp] theorem Arch.readP_true (a : Arch) (l : Nat) : a.readP 7 l = true := rfl
/-- p7 ignores writes (R75). -/
@[simp] theorem Arch.writeP_true (a : Arch) (l : Nat) (b : Bool) : a.writeP 7 l b = a := rfl

/-- Another uniform register keeps its value. -/
theorem Arch.readS_writeS_other (a : Arch) (n m : Nat) (x : Word) (h : m ≠ n) :
    (a.writeS n x).readS m = a.readS m := by
  unfold Arch.writeS Arch.readS
  split
  · rfl
  · split
    · rfl
    · exact Store.get_set_other _ _ _ _ _ h

/-- A uniform register written reads as written. -/
theorem Arch.readS_writeS (a : Arch) (n : Nat) (x : Word) (h : n ≠ 63) :
    (a.writeS n x).readS n = x := by
  have h1 : (n == 63) = false := by simpa using h
  simp only [Arch.writeS, Arch.readS, h1, Bool.false_eq_true, if_false]
  exact Store.get_set_same a.s n x 0

/-- A lane word of another register or lane keeps its value. -/
theorem Arch.readV_writeLane_other (a : Arch) (n l m k : Nat) (x : Word) (h : 32 * m + k ≠ 32 * n + l) :
    (a.writeLane n l x).readV m k = a.readV m k := Store.get_set_other _ _ _ _ _ h

/-- A lane word written reads as written. -/
theorem Arch.readV_writeLane (a : Arch) (n l : Nat) (x : Word) :
    (a.writeLane n l x).readV n l = x := Store.get_set_same a.v (32 * n + l) x 0

/-- A predicate bit of another register keeps its value. -/
theorem Arch.readP_writeP_other (a : Arch) (n l m k : Nat) (b : Bool) (h : m ≠ n) :
    (a.writeP n l b).readP m k = a.readP m k := by
  unfold Arch.writeP Arch.readP
  split
  · rfl
  · split
    · rfl
    · dsimp only
      rw [Store.get_set_other _ _ _ _ _ h]

/-! Memories. -/

theorem State.setMem_host (s : State) (m : Memory) : s.setMem 1 m = { s with host := m } := rfl
theorem State.setMem_device (s : State) (m : Memory) : s.setMem 0 m = { s with mem := m } := rfl

theorem State.reset_memoriesCanonical : State.reset.memoriesCanonical = true := rfl

/-- A write at a home keeps the canonical form. -/
theorem State.writeHome_memoriesCanonical (s : State) (tgt a : Nat) (bs : List Byte) (bad : Bool)
    (h : s.memoriesCanonical = true) : (s.writeHome tgt a bs bad).memoriesCanonical = true := by
  simp only [State.memoriesCanonical, Bool.and_eq_true] at h
  obtain ⟨⟨h0, h1⟩, h2⟩ := h
  match tgt with
  | 0 => simp [State.writeHome, State.setMem, State.memOf, State.memoriesCanonical, Memory.wf_writeN, h0, h1, h2]
  | 1 => simp [State.writeHome, State.setMem, State.memOf, State.memoriesCanonical, Memory.wf_writeN, h0, h1, h2]
  | n + 2 => simp [State.writeHome, State.setMem, State.memOf, State.memoriesCanonical, Memory.wf_writeN, h0, h1, h2]

end Sys2Proof.Machine
end

