-- ==== Sys2Proof/Laws/Ops.lean ====
section
/-! SUPPORT. What the frame of an instruction word can do: the shared issue operations. -/

set_option Elab.async false

namespace Sys2Proof.Machine

/-- A word that is well answers the state and the group it gives. -/
theorem issue_ok (s : State) (f : State → Group → Cur → Except Fate (State × Group)) (g : Group) (c : Cur) (s' : State)
    (g' : Group) (hg : s.group s.who = some g) (hc : g.cur = some c) (hf : f s g c = .ok (s', g')) :
    issue s f = .next (s'.putGroup s.who g') := by
  simp [issue, hg, hc, hf]

/-- A word that meets a fault takes the exception. -/
theorem issue_error (s : State) (f : State → Group → Cur → Except Fate (State × Group)) (g : Group) (c : Cur) (e : Fate)
    (hg : s.group s.who = some g) (hc : g.cur = some c) (hf : f s g c = .error e) :
    issue s f = .next (s.raise s.who g e) := by
  simp [issue, hg, hc, hf]

/-- Everything a word can do: it completes, takes an exception, or has no issuing group. -/
theorem issue_cases (s : State) (f : State → Group → Cur → Except Fate (State × Group)) :
    (∃ g c s' g', s.group s.who = some g ∧ g.cur = some c ∧ f s g c = .ok (s', g') ∧
      issue s f = .next (s'.putGroup s.who g')) ∨
    (∃ g c e, s.group s.who = some g ∧ g.cur = some c ∧ f s g c = .error e ∧ issue s f = .next (s.raise s.who g e)) ∨
    issue s f = .fault .noIssuer := by
  unfold issue
  split
  · exact .inr (.inr rfl)
  · rename_i g hg
    split
    · exact .inr (.inr rfl)
    · rename_i c hc
      split
      · rename_i s' g' hf
        exact .inl ⟨g, c, s', g', hg, hc, hf, rfl⟩
      · rename_i e hf
        exact .inr (.inl ⟨g, c, e, hg, hc, hf, rfl⟩)

theorem issueArch_ok (s : State) (f : Group → Cur → Except Fate Arch) (g : Group) (c : Cur) (a : Arch)
    (hg : s.group s.who = some g) (hc : g.cur = some c) (hf : f g c = .ok a) :
    issueArch s f = .next (s.putGroup s.who { g with arch := a }) :=
  issue_ok s _ g c s { g with arch := a } hg hc (by simp [hf])

theorem issueArch_error (s : State) (f : Group → Cur → Except Fate Arch) (g : Group) (c : Cur) (e : Fate)
    (hg : s.group s.who = some g) (hc : g.cur = some c) (hf : f g c = .error e) :
    issueArch s f = .next (s.raise s.who g e) :=
  issue_error s _ g c e hg hc (by simp [hf])

theorem issueHeld_ok (s : State) (f : Group → Cur → Except Fate Act) (g : Group) (c : Cur) (act : Act)
    (hg : s.group s.who = some g) (hc : g.cur = some c) (hf : f g c = .ok act) :
    issueHeld s f = .next (({ s with nextId := s.nextId + 1 } : State).putGroup s.who
      { g with cur := some (c.hold (mkReq g c s.nextId act)) }) :=
  issue_ok s _ g c _ _ hg hc (by simp [hf])

/-- The lanes a predicate selects are lanes of the group. -/
theorem Arch.lanes_lt (a : Arch) (gang : List Nat) (p : Pred) (l : Nat) (h : l ∈ a.lanes gang p) : l < 32 := by
  simp only [Arch.lanes, List.mem_filter, List.mem_range] at h
  exact h.1

theorem Arch.lanes_nodup (a : Arch) (gang : List Nat) (p : Pred) : (a.lanes gang p).Nodup :=
  List.Pairwise.filter _ List.nodup_range

/-- No executing lane has a poisoned source. -/
theorem Arch.badLane_none (a : Arch) (regs lanes : List Nat) (h : ∀ l ∈ lanes, ∀ r ∈ regs, a.badV r l = false) :
    a.badLane regs lanes = none := by
  simp only [Arch.badLane, List.find?_eq_none, List.any_eq_true, not_exists, not_and, Bool.not_eq_true]
  exact fun l hl r hr => h l hl r hr


end Sys2Proof.Machine
end

