-- ==== Sys2Proof/Laws/PerInstr.lean ====
section
/-! SUPPORT. One lemma for each instruction: its words decode to it again. -/

set_option linter.unusedSimpArgs false
set_option Elab.async false

namespace Sys2Proof.Laws.RoundTrip

/-- Decoding the words of a well-formed instruction gives it back. -/
def Statement (i : Instr) : Prop := RoundTrips i

theorem vadd (o : VV) : Statement (.vadd o) := roundTrips_VV .vadd 0x00 (fun _ => rfl) rfl
  (fun w l h => by simp [decodeRaw, h, rawVecInt]) rfl o
theorem vsub (o : VV) : Statement (.vsub o) := roundTrips_VV .vsub 0x01 (fun _ => rfl) rfl
  (fun w l h => by simp [decodeRaw, h, rawVecInt]) rfl o
theorem vadds (o : VV) : Statement (.vadds o) := roundTrips_VV .vadds 0x02 (fun _ => rfl) rfl
  (fun w l h => by simp [decodeRaw, h, rawVecInt]) rfl o
theorem vsubs (o : VV) : Statement (.vsubs o) := roundTrips_VV .vsubs 0x03 (fun _ => rfl) rfl
  (fun w l h => by simp [decodeRaw, h, rawVecInt]) rfl o
theorem vmul (o : VV) : Statement (.vmul o) := roundTrips_VV .vmul 0x04 (fun _ => rfl) rfl
  (fun w l h => by simp [decodeRaw, h, rawVecInt]) rfl o
theorem vmulh (o : VV) : Statement (.vmulh o) := roundTrips_VV .vmulh 0x05 (fun _ => rfl) rfl
  (fun w l h => by simp [decodeRaw, h, rawVecInt]) rfl o
theorem vmad (o : VV) : Statement (.vmad o) := roundTrips_VV .vmad 0x06 (fun _ => rfl) rfl
  (fun w l h => by simp [decodeRaw, h, rawVecInt]) rfl o
theorem vmadw (o : VV) : Statement (.vmadw o) := roundTrips_VV .vmadw 0x07 (fun _ => rfl) rfl
  (fun w l h => by simp [decodeRaw, h, rawVecInt]) rfl o
theorem vmin (o : VV) : Statement (.vmin o) := roundTrips_VV .vmin 0x08 (fun _ => rfl) rfl
  (fun w l h => by simp [decodeRaw, h, rawVecInt]) rfl o
theorem vmax (o : VV) : Statement (.vmax o) := roundTrips_VV .vmax 0x09 (fun _ => rfl) rfl
  (fun w l h => by simp [decodeRaw, h, rawVecInt]) rfl o
theorem vand (o : VV) : Statement (.vand o) := roundTrips_VV .vand 0x0A (fun _ => rfl) rfl
  (fun w l h => by simp [decodeRaw, h, rawVecInt]) rfl o
theorem vor (o : VV) : Statement (.vor o) := roundTrips_VV .vor 0x0B (fun _ => rfl) rfl
  (fun w l h => by simp [decodeRaw, h, rawVecInt]) rfl o
theorem vxor (o : VV) : Statement (.vxor o) := roundTrips_VV .vxor 0x0C (fun _ => rfl) rfl
  (fun w l h => by simp [decodeRaw, h, rawVecInt]) rfl o
theorem vshl (o : VV) : Statement (.vshl o) := roundTrips_VV .vshl 0x0D (fun _ => rfl) rfl
  (fun w l h => by simp [decodeRaw, h, rawVecInt]) rfl o
theorem vshr (o : VV) : Statement (.vshr o) := roundTrips_VV .vshr 0x0E (fun _ => rfl) rfl
  (fun w l h => by simp [decodeRaw, h, rawVecInt]) rfl o
theorem vsra (o : VV) : Statement (.vsra o) := roundTrips_VV .vsra 0x0F (fun _ => rfl) rfl
  (fun w l h => by simp [decodeRaw, h, rawVecInt]) rfl o
theorem vrot (o : VV) : Statement (.vrot o) := roundTrips_VV .vrot 0x10 (fun _ => rfl) rfl
  (fun w l h => by simp [decodeRaw, h, rawVecInt]) rfl o
theorem vbfe (o : VV) : Statement (.vbfe o) := roundTrips_VV .vbfe 0x11 (fun _ => rfl) rfl
  (fun w l h => by simp [decodeRaw, h, rawVecInt]) rfl o
theorem vbfi (o : VV) : Statement (.vbfi o) := roundTrips_VV .vbfi 0x12 (fun _ => rfl) rfl
  (fun w l h => by simp [decodeRaw, h, rawVecInt]) rfl o
theorem vsel (o : VV) : Statement (.vsel o) := roundTrips_VV .vsel 0x13 (fun _ => rfl) rfl
  (fun w l h => by simp [decodeRaw, h, rawVecInt]) rfl o
theorem vcmp (o : VP) : Statement (.vcmp o) := roundTrips_VP .vcmp 0x14 (fun _ => rfl) rfl
  (fun w l h => by simp [decodeRaw, h, rawVecInt]) rfl o
theorem vdot4 (o : VV) : Statement (.vdot4 o) := roundTrips_VV .vdot4 0x15 (fun _ => rfl) rfl
  (fun w l h => by simp [decodeRaw, h, rawVecInt]) rfl o
theorem vlea (o : VV) : Statement (.vlea o) := roundTrips_VV .vlea 0x16 (fun _ => rfl) rfl
  (fun w l h => by simp [decodeRaw, h, rawVecInt]) rfl o
theorem vmov (o : VU) : Statement (.vmov o) := roundTrips_VU .vmov 0x17 (0x00) o rfl rfl rfl (by
    intro w l h hf hm
    have h0 : fld w 0 7 = 0x00 := hf 0 7 (by decide)
    simpa [decodeRaw, h, rawVecUnary, h0] using hm)
theorem vbcst (o : VU) : Statement (.vbcst o) := roundTrips_VU .vbcst 0x17 (0x01) o rfl rfl rfl (by
    intro w l h hf hm
    have h0 : fld w 0 7 = 0x01 := hf 0 7 (by decide)
    simpa [decodeRaw, h, rawVecUnary, h0] using hm)
theorem vlane (o : VU) : Statement (.vlane o) := roundTrips_VU .vlane 0x17 (0x02) o rfl rfl rfl (by
    intro w l h hf hm
    have h0 : fld w 0 7 = 0x02 := hf 0 7 (by decide)
    simpa [decodeRaw, h, rawVecUnary, h0] using hm)
theorem vabs (o : VU) : Statement (.vabs o) := roundTrips_VU .vabs 0x17 (0x03) o rfl rfl rfl (by
    intro w l h hf hm
    have h0 : fld w 0 7 = 0x03 := hf 0 7 (by decide)
    simpa [decodeRaw, h, rawVecUnary, h0] using hm)
theorem vneg (o : VU) : Statement (.vneg o) := roundTrips_VU .vneg 0x17 (0x04) o rfl rfl rfl (by
    intro w l h hf hm
    have h0 : fld w 0 7 = 0x04 := hf 0 7 (by decide)
    simpa [decodeRaw, h, rawVecUnary, h0] using hm)
theorem vnot (o : VU) : Statement (.vnot o) := roundTrips_VU .vnot 0x17 (0x05) o rfl rfl rfl (by
    intro w l h hf hm
    have h0 : fld w 0 7 = 0x05 := hf 0 7 (by decide)
    simpa [decodeRaw, h, rawVecUnary, h0] using hm)
theorem vclz (o : VU) : Statement (.vclz o) := roundTrips_VU .vclz 0x17 (0x06) o rfl rfl rfl (by
    intro w l h hf hm
    have h0 : fld w 0 7 = 0x06 := hf 0 7 (by decide)
    simpa [decodeRaw, h, rawVecUnary, h0] using hm)
theorem vpopc (o : VU) : Statement (.vpopc o) := roundTrips_VU .vpopc 0x17 (0x07) o rfl rfl rfl (by
    intro w l h hf hm
    have h0 : fld w 0 7 = 0x07 := hf 0 7 (by decide)
    simpa [decodeRaw, h, rawVecUnary, h0] using hm)
theorem vmovSpecial (o : VU) : Statement (.vmovSpecial o) := roundTrips_VU .vmovSpecial 0x17 (0x08) o rfl rfl rfl (by
    intro w l h hf hm
    have h0 : fld w 0 7 = 0x08 := hf 0 7 (by decide)
    simpa [decodeRaw, h, rawVecUnary, h0] using hm)
theorem pand (o : PP) : Statement (.pand o) := roundTrips_PP .pand 0x10 (by decide) (fun _ => rfl)
  (fun w l h h0 => by simp [decodeRaw, h, rawVecUnary, h0]) o
theorem por (o : PP) : Statement (.por o) := roundTrips_PP .por 0x11 (by decide) (fun _ => rfl)
  (fun w l h h0 => by simp [decodeRaw, h, rawVecUnary, h0]) o
theorem pxor (o : PP) : Statement (.pxor o) := roundTrips_PP .pxor 0x12 (by decide) (fun _ => rfl)
  (fun w l h h0 => by simp [decodeRaw, h, rawVecUnary, h0]) o
theorem pnot (o : PP) : Statement (.pnot o) := roundTrips_PP .pnot 0x13 (by decide) (fun _ => rfl)
  (fun w l h h0 => by simp [decodeRaw, h, rawVecUnary, h0]) o
theorem pmov (o : PP) : Statement (.pmov o) := roundTrips_PP .pmov 0x14 (by decide) (fun _ => rfl)
  (fun w l h h0 => by simp [decodeRaw, h, rawVecUnary, h0]) o
theorem vfadd (o : VV) : Statement (.vfadd o) := roundTrips_VV .vfadd 0x18 (fun _ => rfl) rfl
  (fun w l h => by simp [decodeRaw, h, rawFloat]) rfl o
theorem vfsub (o : VV) : Statement (.vfsub o) := roundTrips_VV .vfsub 0x19 (fun _ => rfl) rfl
  (fun w l h => by simp [decodeRaw, h, rawFloat]) rfl o
theorem vfmul (o : VV) : Statement (.vfmul o) := roundTrips_VV .vfmul 0x1A (fun _ => rfl) rfl
  (fun w l h => by simp [decodeRaw, h, rawFloat]) rfl o
theorem vfma (o : VV) : Statement (.vfma o) := roundTrips_VV .vfma 0x1B (fun _ => rfl) rfl
  (fun w l h => by simp [decodeRaw, h, rawFloat]) rfl o
theorem vfmin (o : VV) : Statement (.vfmin o) := roundTrips_VV .vfmin 0x1C (fun _ => rfl) rfl
  (fun w l h => by simp [decodeRaw, h, rawFloat]) rfl o
theorem vfmax (o : VV) : Statement (.vfmax o) := roundTrips_VV .vfmax 0x1D (fun _ => rfl) rfl
  (fun w l h => by simp [decodeRaw, h, rawFloat]) rfl o
theorem vfcmp (o : VP) : Statement (.vfcmp o) := roundTrips_VP .vfcmp 0x1E (fun _ => rfl) rfl
  (fun w l h => by simp [decodeRaw, h, rawFloat]) rfl o
theorem vfscale (o : VV) : Statement (.vfscale o) := roundTrips_VV .vfscale 0x1F (fun _ => rfl) rfl
  (fun w l h => by simp [decodeRaw, h, rawFloat]) rfl o
theorem vfabs (o : VU) : Statement (.vfabs o) := roundTrips_VU .vfabs 0x20 (0x00) o rfl rfl rfl (by
    intro w l h hf hm
    have h0 : fld w 0 7 = 0x00 := hf 0 7 (by decide)
    simpa [decodeRaw, h, rawFloat, rawFltUnary, h0] using hm)
theorem vfneg (o : VU) : Statement (.vfneg o) := roundTrips_VU .vfneg 0x20 (0x01) o rfl rfl rfl (by
    intro w l h hf hm
    have h0 : fld w 0 7 = 0x01 := hf 0 7 (by decide)
    simpa [decodeRaw, h, rawFloat, rawFltUnary, h0] using hm)
theorem vfclass (o : VU) : Statement (.vfclass o) := roundTrips_VU .vfclass 0x20 (0x02) o rfl rfl rfl (by
    intro w l h hf hm
    have h0 : fld w 0 7 = 0x02 := hf 0 7 (by decide)
    simpa [decodeRaw, h, rawFloat, rawFltUnary, h0] using hm)
theorem vfrint (o : VU) : Statement (.vfrint o) := roundTrips_VU .vfrint 0x20 (0x03) o rfl rfl rfl (by
    intro w l h hf hm
    have h0 : fld w 0 7 = 0x03 := hf 0 7 (by decide)
    simpa [decodeRaw, h, rawFloat, rawFltUnary, h0] using hm)
theorem vffrac (o : VU) : Statement (.vffrac o) := roundTrips_VU .vffrac 0x20 (0x04) o rfl rfl rfl (by
    intro w l h hf hm
    have h0 : fld w 0 7 = 0x04 := hf 0 7 (by decide)
    simpa [decodeRaw, h, rawFloat, rawFltUnary, h0] using hm)
theorem vfclassFlags (sd : BitVec 6) (claimed : Bool) : Statement (.vfclassFlags sd claimed) := by
  have ho : opOf (cat (cat (cat (cat (encPred 0x20 noP) 1 0) 6 sd.toNat) 7 0) 7 5) = 0x20 := by
    simp (disch := omega) [opOf, encPred, fld_cat_high, fld_small]
  have hn : noPred (cat (cat (cat (cat (encPred 0x20 noP) 1 0) 6 sd.toNat) 7 0) 7 5) = true := by
    simp (disch := omega) only [noPred, encPred, noP, fld_cat_high, Nat.reduceSub]
    simp (disch := omega) only [fld_cat_both, Nat.reduceSub]
    simp [fld, cat, Nat.mod_one]
  have h5 : fld 5 0 7 = 5 := rfl
  refine roundTrips_of _ _ _ 0x20 rfl ho rfl (litsFit_ext _ 0x20 _ ho rfl (by cases claimed <;> simp)) ?_
  cases claimed <;>
    simp (disch := omega) [decodeRaw, ho, rawFloat, rawFltUnary, req, bfld, hn, Sys2Proof.claimed, h5, fld_cat_low, fld_cat_high,
      fld_toNat, fld_zero]
theorem vfrcp (o : VU) : Statement (.vfrcp o) := roundTrips_VU .vfrcp 0x21 (0x00) o rfl rfl rfl (by
    intro w l h hf hm
    have h0 : fld w 0 7 = 0x00 := hf 0 7 (by decide)
    simpa [decodeRaw, h, rawFloat, rawSpecial, h0] using hm)
theorem vfrsq (o : VU) : Statement (.vfrsq o) := roundTrips_VU .vfrsq 0x21 (0x01) o rfl rfl rfl (by
    intro w l h hf hm
    have h0 : fld w 0 7 = 0x01 := hf 0 7 (by decide)
    simpa [decodeRaw, h, rawFloat, rawSpecial, h0] using hm)
theorem vfsqrt (o : VU) : Statement (.vfsqrt o) := roundTrips_VU .vfsqrt 0x21 (0x02) o rfl rfl rfl (by
    intro w l h hf hm
    have h0 : fld w 0 7 = 0x02 := hf 0 7 (by decide)
    simpa [decodeRaw, h, rawFloat, rawSpecial, h0] using hm)
theorem vfexp2 (o : VU) : Statement (.vfexp2 o) := roundTrips_VU .vfexp2 0x21 (0x03) o rfl rfl rfl (by
    intro w l h hf hm
    have h0 : fld w 0 7 = 0x03 := hf 0 7 (by decide)
    simpa [decodeRaw, h, rawFloat, rawSpecial, h0] using hm)
theorem vflog2 (o : VU) : Statement (.vflog2 o) := roundTrips_VU .vflog2 0x21 (0x04) o rfl rfl rfl (by
    intro w l h hf hm
    have h0 : fld w 0 7 = 0x04 := hf 0 7 (by decide)
    simpa [decodeRaw, h, rawFloat, rawSpecial, h0] using hm)
theorem vfsin (o : VU) : Statement (.vfsin o) := roundTrips_VU .vfsin 0x21 (0x05) o rfl rfl rfl (by
    intro w l h hf hm
    have h0 : fld w 0 7 = 0x05 := hf 0 7 (by decide)
    simpa [decodeRaw, h, rawFloat, rawSpecial, h0] using hm)
theorem vfcos (o : VU) : Statement (.vfcos o) := roundTrips_VU .vfcos 0x21 (0x06) o rfl rfl rfl (by
    intro w l h hf hm
    have h0 : fld w 0 7 = 0x06 := hf 0 7 (by decide)
    simpa [decodeRaw, h, rawFloat, rawSpecial, h0] using hm)
theorem vfcvt (o : VU) (src : BitVec 2) (h : Bool) : Statement (.vfcvt o src h) := roundTrips_VU (Instr.vfcvt · src h) 0x22 ((cat (cat src.toNat 1 h.toNat) 4 0)) o rfl rfl rfl (by
    intro w l h hf hm
    simpa (disch := omega) [decodeRaw, h, rawFloat, req, hf, bfld, tst, fld_cat_low, fld_cat_high, fld_toNat, fld_bool, fld_zero, fld_top, fld_bool_top, bool_beq_one] using hm)
theorem vicvt (o : VU) (dir : Bool) (uns : Bool) (h : Bool) : Statement (.vicvt o dir uns h) := roundTrips_VU (Instr.vicvt · dir uns h) 0x23 ((cat (cat (cat (cat dir.toNat 1 0) 1 uns.toNat) 1 h.toNat) 3 0)) o rfl rfl rfl (by
    intro w l h hf hm
    simpa (disch := omega) [decodeRaw, h, rawFloat, req, hf, bfld, tst, fld_cat_low, fld_cat_high, fld_toNat, fld_bool, fld_zero, fld_top, fld_bool_top, bool_beq_one] using hm)
theorem vqnt (o : VU) (k : BitVec 2) (slot : BitVec 3) : Statement (.vqnt o k slot) := roundTrips_VU (Instr.vqnt · k slot) 0x24 ((cat k.toNat 3 slot.toNat)) o rfl rfl rfl (by
    intro w l h hf hm
    simpa (disch := omega) [decodeRaw, h, rawFloat, req, hf, bfld, tst, fld_cat_low, fld_cat_high, fld_toNat, fld_bool, fld_zero, fld_top, fld_bool_top, bool_beq_one] using hm)
theorem vdqnt (o : VU) (k : BitVec 2) (slot : BitVec 3) : Statement (.vdqnt o k slot) := roundTrips_VU (Instr.vdqnt · k slot) 0x25 ((cat k.toNat 3 slot.toNat)) o rfl rfl rfl (by
    intro w l h hf hm
    simpa (disch := omega) [decodeRaw, h, rawFloat, req, hf, bfld, tst, fld_cat_low, fld_cat_high, fld_toNat, fld_bool, fld_zero, fld_top, fld_bool_top, bool_beq_one] using hm)
theorem vbandr (o : VU) : Statement (.vbandr o) := roundTrips_VU .vbandr 0x26 (0) o rfl rfl rfl (by
    intro w l h hf hm
    have h0 : fld w 0 7 = 0 := hf 0 7 (by decide)
    simpa [decodeRaw, h, rawFloat, h0, req] using hm)
theorem vbandw (o : VU) : Statement (.vbandw o) := roundTrips_VU .vbandw 0x27 (0) o rfl rfl rfl (by
    intro w l h hf hm
    have h0 : fld w 0 7 = 0 := hf 0 7 (by decide)
    simpa [decodeRaw, h, rawFloat, h0, req] using hm)
theorem vred (o : VU) (op : BitVec 3) : Statement (.vred o op) := roundTrips_VU (Instr.vred · op) 0x30 (op.toNat) o rfl rfl rfl (by
    intro w l h hf hm
    simpa (disch := omega) [decodeRaw, h, rawFloat, req, hf, bfld, tst, fld_cat_low, fld_cat_high, fld_toNat, fld_bool, fld_zero, fld_top, fld_bool_top, bool_beq_one] using hm)
theorem vscan (o : VU) (excl : Bool) (op : BitVec 3) : Statement (.vscan o excl op) := roundTrips_VU (Instr.vscan · excl op) 0x31 ((cat excl.toNat 3 op.toNat)) o rfl rfl rfl (by
    intro w l h hf hm
    cases excl <;> simpa (disch := omega) [decodeRaw, h, rawFloat, req, hf, bfld, tst, fld_cat_low, fld_cat_high, fld_toNat, fld_bool, fld_zero, fld_small, fld_of_lt, fld_top, fld_bool_top, bool_beq_one] using hm)
theorem vshfl (o : VU) (mode : BitVec 2) (cnt : BitVec 5) : Statement (.vshfl o mode cnt) := roundTrips_VU (Instr.vshfl · mode cnt) 0x32 ((cat mode.toNat 5 cnt.toNat)) o rfl rfl rfl (by
    intro w l h hf hm
    simpa (disch := omega) [decodeRaw, h, rawFloat, req, hf, bfld, tst, fld_cat_low, fld_cat_high, fld_toNat, fld_bool, fld_zero, fld_top, fld_bool_top, bool_beq_one] using hm)
theorem vvote (o : VU) (mode : BitVec 2) : Statement (.vvote o mode) := roundTrips_VU (Instr.vvote · mode) 0x33 (mode.toNat) o rfl rfl rfl (by
    intro w l h hf hm
    simpa (disch := omega) [decodeRaw, h, rawFloat, req, hf, bfld, tst, fld_cat_low, fld_cat_high, fld_toNat, fld_bool, fld_zero, fld_top, fld_bool_top, bool_beq_one] using hm)
theorem vmatch (o : VU) : Statement (.vmatch o) := roundTrips_VU .vmatch 0x34 (0) o rfl rfl rfl (by
    intro w l h hf hm
    have h0 : fld w 0 7 = 0 := hf 0 7 (by decide)
    simpa [decodeRaw, h, rawFloat, h0, req] using hm)
theorem smov (o : SS) : Statement (.smov o) := roundTrips_SS .smov 0x38 (by decide) (fun _ => rfl) rfl rfl
  (fun w h => by simp [litCount, h]) (fun w l h => by simp [decodeRaw, h, rawUniform]) o
theorem sli (d : BitVec 6) (imm : BitVec 18) : Statement (.sli d imm) := by
  have ho : opOf (cat (cat (cat 0x39 6 d.toNat) 1 0) 18 imm.toNat) = 0x39 := by
    simp (disch := omega) [opOf, encPred, fld_cat_high, fld_small]
  refine roundTrips_of _ _ _ 0x39 rfl ho rfl (litsFit_count _ 0x39 _ ho rfl (by simp [litCount, ho])) ?_
  simp (disch := omega) [decodeRaw, ho, rawUniform, req, lit0, bfld, tst, encPred, fld_cat_low, fld_cat_high, fld_small, fld_of_lt, fld_toNat, fld_bool, fld_bool_top, fld_zero, fld_top, bool_beq_one, ofNat_toNat_self]
theorem sliHi (d : BitVec 6) (imm : BitVec 16) : Statement (.sliHi d imm) := by
  have ho : opOf (cat (cat (cat (cat 0x39 6 d.toNat) 1 1) 2 0) 16 imm.toNat) = 0x39 := by
    simp (disch := omega) [opOf, encPred, fld_cat_high, fld_small]
  refine roundTrips_of _ _ _ 0x39 rfl ho rfl (litsFit_count _ 0x39 _ ho rfl (by simp [litCount, ho])) ?_
  simp (disch := omega) [decodeRaw, ho, rawUniform, req, lit0, bfld, tst, encPred, fld_cat_low, fld_cat_high, fld_small, fld_of_lt, fld_toNat, fld_bool, fld_bool_top, fld_zero, fld_top, bool_beq_one, ofNat_toNat_self]
theorem sadd (o : SS) : Statement (.sadd o) := roundTrips_SS .sadd 0x3A (by decide) (fun _ => rfl) rfl rfl
  (fun w h => by simp [litCount, h]) (fun w l h => by simp [decodeRaw, h, rawUniform]) o
theorem ssub (o : SS) : Statement (.ssub o) := roundTrips_SS .ssub 0x3B (by decide) (fun _ => rfl) rfl rfl
  (fun w h => by simp [litCount, h]) (fun w l h => by simp [decodeRaw, h, rawUniform]) o
theorem smul (o : SS) : Statement (.smul o) := roundTrips_SS .smul 0x3C (by decide) (fun _ => rfl) rfl rfl
  (fun w h => by simp [litCount, h]) (fun w l h => by simp [decodeRaw, h, rawUniform]) o
theorem smulh (o : SS) : Statement (.smulh o) := roundTrips_SS .smulh 0x3D (by decide) (fun _ => rfl) rfl rfl
  (fun w h => by simp [litCount, h]) (fun w l h => by simp [decodeRaw, h, rawUniform]) o
theorem smad (o : SS) (xl : Option Word) : Statement (.smad o xl) := roundTrips_SSX .smad 0x3E (by decide) (fun _ _ => rfl) rfl rfl
  (fun w h => by simp [litCount, h]) (fun w l h => by simp [decodeRaw, h, rawUniform]) o xl
theorem sand (o : SS) : Statement (.sand o) := roundTrips_SS .sand 0x3F (by decide) (fun _ => rfl) rfl rfl
  (fun w h => by simp [litCount, h]) (fun w l h => by simp [decodeRaw, h, rawUniform]) o
theorem sor (o : SS) : Statement (.sor o) := roundTrips_SS .sor 0x40 (by decide) (fun _ => rfl) rfl rfl
  (fun w h => by simp [litCount, h]) (fun w l h => by simp [decodeRaw, h, rawUniform]) o
theorem sxor (o : SS) : Statement (.sxor o) := roundTrips_SS .sxor 0x41 (by decide) (fun _ => rfl) rfl rfl
  (fun w h => by simp [litCount, h]) (fun w l h => by simp [decodeRaw, h, rawUniform]) o
theorem sshl (o : SS) : Statement (.sshl o) := roundTrips_SS .sshl 0x42 (by decide) (fun _ => rfl) rfl rfl
  (fun w h => by simp [litCount, h]) (fun w l h => by simp [decodeRaw, h, rawUniform]) o
theorem sshr (o : SS) : Statement (.sshr o) := roundTrips_SS .sshr 0x43 (by decide) (fun _ => rfl) rfl rfl
  (fun w h => by simp [litCount, h]) (fun w l h => by simp [decodeRaw, h, rawUniform]) o
theorem ssra (o : SS) : Statement (.ssra o) := roundTrips_SS .ssra 0x44 (by decide) (fun _ => rfl) rfl rfl
  (fun w h => by simp [litCount, h]) (fun w l h => by simp [decodeRaw, h, rawUniform]) o
theorem smin (o : SS) : Statement (.smin o) := roundTrips_SS .smin 0x45 (by decide) (fun _ => rfl) rfl rfl
  (fun w h => by simp [litCount, h]) (fun w l h => by simp [decodeRaw, h, rawUniform]) o
theorem smax (o : SS) : Statement (.smax o) := roundTrips_SS .smax 0x46 (by decide) (fun _ => rfl) rfl rfl
  (fun w h => by simp [litCount, h]) (fun w l h => by simp [decodeRaw, h, rawUniform]) o
theorem scmp (o : SS) (cc : BitVec 3) : Statement (.scmp o cc) := by
  have h0 : fld (encSS 0x47 cc.toNat o) 24 1 = 0 :=
    (fld_SS_cx 0x47 cc.toNat o 3 1 (by decide)).trans (fld_top cc 3 1 (by decide))
  have h1 : fld (encSS 0x47 cc.toNat o) 21 3 = cc.toNat :=
    (fld_SS_cx 0x47 cc.toNat o 0 3 (by decide)).trans (fld_toNat cc 3 (by decide))
  refine roundTrips_of _ _ _ 0x47 rfl (opOf_SS 0x47 (by decide) _ o) rfl
    (litsFit_count _ 0x47 _ (opOf_SS 0x47 (by decide) _ o) rfl (by simp [litCount, opOf_SS])) ?_
  simp [decodeRaw, opOf_SS, rawUniform, req, lit0, bfld, h0, h1, ssOf_enc]
theorem ssel (o : SS) (xl : Option Word) : Statement (.ssel o xl) := roundTrips_SSX .ssel 0x48 (by decide) (fun _ _ => rfl) rfl rfl
  (fun w h => by simp [litCount, h]) (fun w l h => by simp [decodeRaw, h, rawUniform]) o xl
theorem sclz (o : SS) : Statement (.sclz o) := roundTrips_SS .sclz 0x49 (by decide) (fun _ => rfl) rfl rfl
  (fun w h => by simp [litCount, h]) (fun w l h => by simp [decodeRaw, h, rawUniform]) o
theorem spopc (o : SS) : Statement (.spopc o) := roundTrips_SS .spopc 0x4A (by decide) (fun _ => rfl) rfl rfl
  (fun w h => by simp [litCount, h]) (fun w l h => by simp [decodeRaw, h, rawUniform]) o
theorem sbfe (o : SS) : Statement (.sbfe o) := roundTrips_SS .sbfe 0x4B (by decide) (fun _ => rfl) rfl rfl
  (fun w h => by simp [litCount, h]) (fun w l h => by simp [decodeRaw, h, rawUniform]) o
theorem sbfi (o : SS) : Statement (.sbfi o) := roundTrips_SS .sbfi 0x4C (by decide) (fun _ => rfl) rfl rfl
  (fun w h => by simp [litCount, h]) (fun w l h => by simp [decodeRaw, h, rawUniform]) o
theorem slea (o : SS) (k : BitVec 3) : Statement (.slea o k) := by
  have h0 : fld (encSS 0x4D k.toNat o) 24 1 = 0 :=
    (fld_SS_cx 0x4D k.toNat o 3 1 (by decide)).trans (fld_top k 3 1 (by decide))
  have h1 : fld (encSS 0x4D k.toNat o) 21 3 = k.toNat :=
    (fld_SS_cx 0x4D k.toNat o 0 3 (by decide)).trans (fld_toNat k 3 (by decide))
  refine roundTrips_of _ _ _ 0x4D rfl (opOf_SS 0x4D (by decide) _ o) rfl
    (litsFit_count _ 0x4D _ (opOf_SS 0x4D (by decide) _ o) rfl (by simp [litCount, opOf_SS])) ?_
  simp [decodeRaw, opOf_SS, rawUniform, req, lit0, bfld, h0, h1, ssOf_enc]
theorem srdsp (d : BitVec 6) (idx : BitVec 7) : Statement (.srdsp d idx) := by
  have ho : opOf (cat (cat (cat 0x4E 7 idx.toNat) 6 d.toNat) 12 0) = 0x4E := by
    simp (disch := omega) [opOf, encPred, fld_cat_high, fld_small]
  refine roundTrips_of _ _ _ 0x4E rfl ho rfl (litsFit_count _ 0x4E _ ho rfl (by simp [litCount, ho])) ?_
  simp (disch := omega) [decodeRaw, ho, rawUniform, req, lit0, bfld, tst, encPred, fld_cat_low, fld_cat_high, fld_small, fld_of_lt, fld_toNat, fld_bool, fld_bool_top, fld_zero, fld_top, bool_beq_one, ofNat_toNat_self]
theorem lds (m : VMem) : Statement (.lds m) := by
  obtain ⟨p, r, a, sz, ub, sx, l2, off⟩ := m
  have hl := encOff_length off
  refine roundTrips_of _ _ _ 0x50 rfl (opOf_VUw 0x50 (by decide) _ _ _ _) rfl
    (litsFit_count _ 0x50 _ (opOf_VUw 0x50 (by decide) _ _ _ _) rfl ?_) ?_
  · simp (disch := omega) [litCount, opOf_VUw, fld_VUw_fn, fld_cat_low, fld_cat_high, fld_small, fld_of_lt, fld_toNat, fld_bool, fld_bool_top, fld_zero, fld_top, bool_beq_one, ofNat_toNat_self]
  · simp (disch := omega) [decodeRaw, opOf_VUw, rawMem, vmemOf, VUw_p, fld_VUw_d, fld_VUw_a, bfld, tst, fld_VUw_fn, litOpt_enc, fld_cat_low, fld_cat_high, fld_small, fld_of_lt, fld_toNat, fld_bool, fld_bool_top, fld_zero, fld_top, bool_beq_one, ofNat_toNat_self]
theorem sts (m : VMem) : Statement (.sts m) := by
  obtain ⟨p, r, a, sz, ub, sx, l2, off⟩ := m
  have hl := encOff_length off
  refine roundTrips_of _ _ _ 0x51 rfl (opOf_VUw 0x51 (by decide) _ _ _ _) rfl
    (litsFit_count _ 0x51 _ (opOf_VUw 0x51 (by decide) _ _ _ _) rfl ?_) ?_
  · simp (disch := omega) [litCount, opOf_VUw, fld_VUw_fn, fld_cat_low, fld_cat_high, fld_small, fld_of_lt, fld_toNat, fld_bool, fld_bool_top, fld_zero, fld_top, bool_beq_one, ofNat_toNat_self]
  · simp (disch := omega) [decodeRaw, opOf_VUw, rawMem, vmemOf, VUw_p, fld_VUw_d, fld_VUw_a, bfld, tst, fld_VUw_fn, litOpt_enc, fld_cat_low, fld_cat_high, fld_small, fld_of_lt, fld_toNat, fld_bool, fld_bool_top, fld_zero, fld_top, bool_beq_one, ofNat_toNat_self]
theorem slds (m : UMem) : Statement (.slds m) := roundTrips_UMem .slds 0x52 true (by decide) (fun _ => rfl) rfl rfl
  (fun w h => by simp [litCount, h]) (fun w l h => by simp [decodeRaw, h, rawMem]) m
theorem ssts (m : UMem) : Statement (.ssts m) := roundTrips_UMem .ssts 0x53 false (by decide) (fun _ => rfl) rfl rfl
  (fun w h => by simp [litCount, h]) (fun w l h => by simp [decodeRaw, h, rawMem]) m
theorem ldg (m : VMem) : Statement (.ldg m) := by
  obtain ⟨p, r, a, sz, ub, sx, l2, off⟩ := m
  have hl := encOff_length off
  refine roundTrips_of _ _ _ 0x54 rfl (opOf_VUw 0x54 (by decide) _ _ _ _) rfl
    (litsFit_count _ 0x54 _ (opOf_VUw 0x54 (by decide) _ _ _ _) rfl ?_) ?_
  · simp (disch := omega) [litCount, opOf_VUw, fld_VUw_fn, fld_cat_low, fld_cat_high, fld_small, fld_of_lt, fld_toNat, fld_bool, fld_bool_top, fld_zero, fld_top, bool_beq_one, ofNat_toNat_self]
  · simp (disch := omega) [decodeRaw, opOf_VUw, rawMem, vmemOf, VUw_p, fld_VUw_d, fld_VUw_a, bfld, tst, fld_VUw_fn, litOpt_enc, fld_cat_low, fld_cat_high, fld_small, fld_of_lt, fld_toNat, fld_bool, fld_bool_top, fld_zero, fld_top, bool_beq_one, ofNat_toNat_self]
theorem stg (m : VMem) : Statement (.stg m) := by
  obtain ⟨p, r, a, sz, ub, sx, l2, off⟩ := m
  have hl := encOff_length off
  refine roundTrips_of _ _ _ 0x55 rfl (opOf_VUw 0x55 (by decide) _ _ _ _) rfl
    (litsFit_count _ 0x55 _ (opOf_VUw 0x55 (by decide) _ _ _ _) rfl ?_) ?_
  · simp (disch := omega) [litCount, opOf_VUw, fld_VUw_fn, fld_cat_low, fld_cat_high, fld_small, fld_of_lt, fld_toNat, fld_bool, fld_bool_top, fld_zero, fld_top, bool_beq_one, ofNat_toNat_self]
  · simp (disch := omega) [decodeRaw, opOf_VUw, rawMem, vmemOf, VUw_p, fld_VUw_d, fld_VUw_a, bfld, tst, fld_VUw_fn, litOpt_enc, fld_cat_low, fld_cat_high, fld_small, fld_of_lt, fld_toNat, fld_bool, fld_bool_top, fld_zero, fld_top, bool_beq_one, ofNat_toNat_self]
theorem sldg (m : UMem) : Statement (.sldg m) := roundTrips_UMem .sldg 0x56 true (by decide) (fun _ => rfl) rfl rfl
  (fun w h => by simp [litCount, h]) (fun w l h => by simp [decodeRaw, h, rawMem]) m
theorem sstg (m : UMem) : Statement (.sstg m) := roundTrips_UMem .sstg 0x57 false (by decide) (fun _ => rfl) rfl rfl
  (fun w h => by simp [litCount, h]) (fun w l h => by simp [decodeRaw, h, rawMem]) m
theorem ldd (m : VMem) : Statement (.ldd m) := by
  obtain ⟨p, r, a, sz, ub, sx, l2, off⟩ := m
  intro hw
  have h2 : l2 = false := by
    have := hw.2
    simp only [Instr.wf, wfVMem, Bool.and_eq_true, Bool.or_eq_true, Bool.false_eq_true, false_or, Bool.not_eq_true'] at this
    exact this.1.1.1.1.1.2
  subst h2
  have hl := encOff_length off
  refine roundTrips_of _ _ _ 0x58 rfl (opOf_VUw 0x58 (by decide) _ _ _ _) rfl
    (litsFit_count _ 0x58 _ (opOf_VUw 0x58 (by decide) _ _ _ _) rfl ?_) ?_ hw
  · simp (disch := omega) [litCount, opOf_VUw, fld_VUw_fn, fld_cat_low, fld_cat_high, fld_small, fld_of_lt, fld_toNat, fld_bool, fld_bool_top, fld_zero, fld_top, bool_beq_one, ofNat_toNat_self]
  · simp (disch := omega) [decodeRaw, opOf_VUw, rawMem, vmemOf, VUw_p, fld_VUw_d, fld_VUw_a, bfld, tst, fld_VUw_fn, litOpt_enc, fld_cat_low, fld_cat_high, fld_small, fld_of_lt, fld_toNat, fld_bool, fld_bool_top, fld_zero, fld_top, bool_beq_one, ofNat_toNat_self]
theorem std (m : VMem) : Statement (.std m) := by
  obtain ⟨p, r, a, sz, ub, sx, l2, off⟩ := m
  intro hw
  have h2 : l2 = false := by
    have := hw.2
    simp only [Instr.wf, wfVMem, Bool.and_eq_true, Bool.or_eq_true, Bool.false_eq_true, false_or, Bool.not_eq_true'] at this
    exact this.1.1.1.1.1.2
  subst h2
  have hl := encOff_length off
  refine roundTrips_of _ _ _ 0x58 rfl (opOf_VUw 0x58 (by decide) _ _ _ _) rfl
    (litsFit_count _ 0x58 _ (opOf_VUw 0x58 (by decide) _ _ _ _) rfl ?_) ?_ hw
  · simp (disch := omega) [litCount, opOf_VUw, fld_VUw_fn, fld_cat_low, fld_cat_high, fld_small, fld_of_lt, fld_toNat, fld_bool, fld_bool_top, fld_zero, fld_top, bool_beq_one, ofNat_toNat_self]
  · simp (disch := omega) [decodeRaw, opOf_VUw, rawMem, vmemOf, VUw_p, fld_VUw_d, fld_VUw_a, bfld, tst, fld_VUw_fn, litOpt_enc, fld_cat_low, fld_cat_high, fld_small, fld_of_lt, fld_toNat, fld_bool, fld_bool_top, fld_zero, fld_top, bool_beq_one, ofNat_toNat_self]
theorem ldc (m : VMem) : Statement (.ldc m) := by
  obtain ⟨p, r, a, sz, ub, sx, l2, off⟩ := m
  intro hw
  have h2 : l2 = false := by
    have := hw.2
    simp only [Instr.wf, wfVMem, Bool.and_eq_true, Bool.or_eq_true, Bool.false_eq_true, false_or, Bool.not_eq_true'] at this
    exact this.1.1.1.1.1.2
  subst h2
  have hl := encOff_length off
  refine roundTrips_of _ _ _ 0x59 rfl (opOf_VUw 0x59 (by decide) _ _ _ _) rfl
    (litsFit_count _ 0x59 _ (opOf_VUw 0x59 (by decide) _ _ _ _) rfl ?_) ?_ hw
  · simp (disch := omega) [litCount, opOf_VUw, fld_VUw_fn, fld_cat_low, fld_cat_high, fld_small, fld_of_lt, fld_toNat, fld_bool, fld_bool_top, fld_zero, fld_top, bool_beq_one, ofNat_toNat_self]
  · simp (disch := omega) [decodeRaw, opOf_VUw, rawMem, vmemOf, VUw_p, fld_VUw_d, fld_VUw_a, bfld, tst, fld_VUw_fn, litOpt_enc, fld_cat_low, fld_cat_high, fld_small, fld_of_lt, fld_toNat, fld_bool, fld_bool_top, fld_zero, fld_top, bool_beq_one, ofNat_toNat_self]
theorem prfg (p : Pred) (a : BitVec 7) (ub : Bool) (f1 : Bool) (off : Option Word) : Statement (.prfg p a ub f1 off) := by
  have hl := encOff_length off
  refine roundTrips_of _ _ _ 0x59 rfl (opOf_VUw 0x59 (by decide) _ _ _ _) rfl
    (litsFit_count _ 0x59 _ (opOf_VUw 0x59 (by decide) _ _ _ _) rfl ?_) ?_
  · simp (disch := omega) [litCount, opOf_VUw, fld_VUw_fn, fld_cat_low, fld_cat_high, fld_small, fld_of_lt, fld_toNat, fld_bool, fld_bool_top, fld_zero, fld_top, bool_beq_one, ofNat_toNat_self]
  · simp (disch := omega) [decodeRaw, opOf_VUw, rawMem, fld_VUw_d, req, VUw_p, fld_VUw_a, bfld, tst, fld_VUw_fn, litOpt_enc, fld_cat_low, fld_cat_high, fld_small, fld_of_lt, fld_toNat, fld_bool, fld_bool_top, fld_zero, fld_top, bool_beq_one, ofNat_toNat_self]
theorem atoms (o : Atomic) : Statement (.atoms o) := by
  obtain ⟨p, d, a, op, ty, lit⟩ := o
  refine roundTrips_of _ _ _ 0x5A rfl (opOf_VUw 0x5A (by decide) _ _ _ _) rfl
    (litsFit_count _ 0x5A _ (opOf_VUw 0x5A (by decide) _ _ _ _) rfl (by simp [litCount, opOf_VUw])) ?_
  simp (disch := omega) [decodeRaw, opOf_VUw, rawMem, mkAtomic, lit1, req, VUw_p, fld_VUw_d, fld_VUw_a, bfld, tst, fld_VUw_fn, fld_cat_low, fld_cat_high, fld_small, fld_of_lt, fld_toNat, fld_bool, fld_bool_top, fld_zero, fld_top, bool_beq_one, ofNat_toNat_self]
theorem atomg (o : Atomic) : Statement (.atomg o) := by
  obtain ⟨p, d, a, op, ty, lit⟩ := o
  refine roundTrips_of _ _ _ 0x5A rfl (opOf_VUw 0x5A (by decide) _ _ _ _) rfl
    (litsFit_count _ 0x5A _ (opOf_VUw 0x5A (by decide) _ _ _ _) rfl (by simp [litCount, opOf_VUw])) ?_
  simp (disch := omega) [decodeRaw, opOf_VUw, rawMem, mkAtomic, lit1, req, VUw_p, fld_VUw_d, fld_VUw_a, bfld, tst, fld_VUw_fn, fld_cat_low, fld_cat_high, fld_small, fld_of_lt, fld_toNat, fld_bool, fld_bool_top, fld_zero, fld_top, bool_beq_one, ofNat_toNat_self]
theorem atomo (p : Pred) (a : BitVec 7) (lit : Word) : Statement (.atomo p a lit) := by
  refine roundTrips_of _ _ _ 0x5B rfl (opOf_VUw 0x5B (by decide) _ _ _ _) rfl
    (litsFit_count _ 0x5B _ (opOf_VUw 0x5B (by decide) _ _ _ _) rfl ?_) ?_
  · simp (disch := omega) [litCount, opOf_VUw, fld_VUw_fn, fld_zero]
  · simp (disch := omega) [decodeRaw, opOf_VUw, rawMem, fld_VUw_d, req, lit1, VUw_p, fld_VUw_a, bfld, tst, fld_VUw_fn, fld_zero]
theorem aflush (sa : BitVec 6) : Statement (.aflush sa) := by
  have ho : opOf (cat (cat (cat (cat (encPred 0x5B noP) 7 0) 1 0) 6 sa.toNat) 7 0x40) = 0x5B := by
    simp (disch := omega) [opOf, encPred, fld_cat_high, fld_small]
  have hn : noPred (cat (cat (cat (cat (encPred 0x5B noP) 7 0) 1 0) 6 sa.toNat) 7 0x40) = true := by
    simp (disch := omega) only [noPred, encPred, noP, fld_cat_high, Nat.reduceSub]
    simp (disch := omega) only [fld_cat_both, Nat.reduceSub]
    simp [fld, cat, Nat.mod_one]
  have h6 : fld 0x40 6 1 = 1 := rfl
  have h0 : fld 0x40 0 6 = 0 := rfl
  refine roundTrips_of _ _ _ 0x5B rfl ho rfl (litsFit_count _ 0x5B _ ho rfl ?_) ?_
  · simp (disch := omega) [litCount, ho, fld_cat_low, h6]
  · simp (disch := omega) [decodeRaw, ho, rawMem, req, lit0, bfld, tst, hn, fld_cat_low, fld_cat_high, fld_toNat, fld_zero, h6, h0]
theorem cpl (p : Pred) (d : BitVec 7) (a : BitVec 7) (dir : BitVec 2) (sz : BitVec 2) (cl : Bool) : Statement (.cpl p d a dir sz cl) := by
  refine roundTrips_of _ _ _ 0x5C rfl (opOf_VUw 0x5C (by decide) _ _ _ _) rfl
    (litsFit_count _ 0x5C _ (opOf_VUw 0x5C (by decide) _ _ _ _) rfl (by simp [litCount, opOf_VUw])) ?_
  simp (disch := omega) [decodeRaw, opOf_VUw, rawCopy, lit0, req, VUw_p, fld_VUw_d, fld_VUw_a, bfld, tst, fld_VUw_fn, fld_cat_low, fld_cat_high, fld_small, fld_of_lt, fld_toNat, fld_bool, fld_bool_top, fld_zero, fld_top, bool_beq_one, ofNat_toNat_self]
theorem cptLd (o : Cpt) : Statement (.cptLd o) := by
  obtain ⟨sr, sd, sc, cl⟩ := o
  have ho : opOf (encCpt 0x5D ⟨sr, sd, sc, cl⟩) = 0x5D := by
    simp (disch := omega) [opOf, encCpt, fld_cat_high, fld_small]
  refine roundTrips_of _ _ _ 0x5D rfl ho rfl (litsFit_count _ 0x5D _ ho rfl (by simp [litCount, ho])) ?_
  simp only [decodeRaw, ho, rawCopy]
  simp (disch := omega) [req, lit0, bfld, tst, cptOf, enSA, enSB, zSEC, zFL, encCpt, fld_cat_low, fld_cat_high, fld_small, fld_of_lt, fld_toNat, fld_bool, fld_bool_top, fld_zero, fld_top, bool_beq_one, ofNat_toNat_self]
theorem cptSt (o : Cpt) : Statement (.cptSt o) := by
  obtain ⟨sr, sd, sc, cl⟩ := o
  have ho : opOf (encCpt 0x5E ⟨sr, sd, sc, cl⟩) = 0x5E := by
    simp (disch := omega) [opOf, encCpt, fld_cat_high, fld_small]
  refine roundTrips_of _ _ _ 0x5E rfl ho rfl (litsFit_count _ 0x5E _ ho rfl (by simp [litCount, ho])) ?_
  simp only [decodeRaw, ho, rawCopy]
  simp (disch := omega) [req, lit0, bfld, tst, cptOf, enSA, enSB, zSEC, zFL, encCpt, fld_cat_low, fld_cat_high, fld_small, fld_of_lt, fld_toNat, fld_bool, fld_bool_top, fld_zero, fld_top, bool_beq_one, ofNat_toNat_self]
theorem cpr (sa : BitVec 6) (sb : BitVec 6) (lit : Word) : Statement (.cpr sa sb lit) := by
  refine roundTrips_of _ _ _ 0x5F rfl (opOf_EN 0x5F _ _ _ _ _ _ (by decide)) rfl
    (litsFit_count _ 0x5F _ (opOf_EN 0x5F _ _ _ _ _ _ (by decide)) rfl ?_) ?_
  · simp (disch := omega) [litCount, opOf_EN, EN_sec, fld_zero, fld_small]
  · simp (disch := omega) [decodeRaw, opOf_EN, rawCopy, req, lit0, lit1, bfld, tst, fld_cat_low, fld_cat_high, enSA, enSB, enH, enSlot, zSEC, zSLOT, zH, zSA, zSB, zFL, EN_sec, EN_slot, EN_slot_low, EN_slot_top, EN_h, EN_sa, EN_sb, EN_sb_low, EN_sb_top, EN_fl, EN_fl0, EN_fl1, acIoOf, mmaOf, fld_small, fld_of_lt, fld_toNat, fld_bool, fld_bool_top, fld_zero, fld_top, bool_beq_one, ofNat_toNat_self]
theorem cpm (o : Cpt) (lit : Word) : Statement (.cpm o lit) := by
  obtain ⟨sr, sd, sc, cl⟩ := o
  intro hw
  have h2 : cl = false := by
    have := hw.2
    simp only [Instr.wf, Bool.and_eq_true, Bool.not_eq_true'] at this
    exact this.2
  subst h2
  have ho : opOf (encCpt 0x60 ⟨sr, sd, sc, false⟩) = 0x60 := by
    simp (disch := omega) [opOf, encCpt, fld_cat_high, fld_small]
  refine roundTrips_of _ _ _ 0x60 rfl ho rfl (litsFit_count _ 0x60 _ ho rfl (by simp [litCount, ho])) ?_ hw
  simp only [decodeRaw, ho, rawCopy]
  simp (disch := omega) [req, lit1, bfld, tst, cptOf, enSA, enSB, zSEC, zFL, encCpt, fld_cat_low, fld_cat_high, fld_small, fld_of_lt, fld_toNat, fld_bool, fld_bool_top, fld_zero, fld_top, bool_beq_one, ofNat_toNat_self]
  simp (disch := omega) only [fld_cat_both]
  simp [fld, cat, Nat.mod_one]
theorem tclose (sd : BitVec 6) (tl : BitVec 2) : Statement (.tclose sd tl) := by
  refine roundTrips_of _ _ _ 0x61 rfl (opOf_EN 0x61 _ _ _ _ _ _ (by decide)) rfl
    (litsFit_count _ 0x61 _ (opOf_EN 0x61 _ _ _ _ _ _ (by decide)) rfl ?_) ?_
  · simp (disch := omega) [litCount, opOf_EN, EN_sec, fld_zero, fld_small]
  · simp (disch := omega) [decodeRaw, opOf_EN, rawCopy, req, lit0, lit1, bfld, tst, fld_cat_low, fld_cat_high, enSA, enSB, enH, enSlot, zSEC, zSLOT, zH, zSA, zSB, zFL, EN_sec, EN_slot, EN_slot_low, EN_slot_top, EN_h, EN_sa, EN_sb, EN_sb_low, EN_sb_top, EN_fl, EN_fl0, EN_fl1, acIoOf, mmaOf, fld_small, fld_of_lt, fld_toNat, fld_bool, fld_bool_top, fld_zero, fld_top, bool_beq_one, ofNat_toNat_self]
theorem twait (tl : BitVec 2) (sa : BitVec 6) : Statement (.twait tl sa) := by
  refine roundTrips_of _ _ _ 0x62 rfl (opOf_EN 0x62 _ _ _ _ _ _ (by decide)) rfl
    (litsFit_count _ 0x62 _ (opOf_EN 0x62 _ _ _ _ _ _ (by decide)) rfl ?_) ?_
  · simp (disch := omega) [litCount, opOf_EN, EN_sec, fld_zero, fld_small]
  · simp (disch := omega) [decodeRaw, opOf_EN, rawCopy, req, lit0, lit1, bfld, tst, fld_cat_low, fld_cat_high, enSA, enSB, enH, enSlot, zSEC, zSLOT, zH, zSA, zSB, zFL, EN_sec, EN_slot, EN_slot_low, EN_slot_top, EN_h, EN_sa, EN_sb, EN_sb_low, EN_sb_top, EN_fl, EN_fl0, EN_fl1, acIoOf, mmaOf, fld_small, fld_of_lt, fld_toNat, fld_bool, fld_bool_top, fld_zero, fld_top, bool_beq_one, ofNat_toNat_self]
theorem tstat (sd : BitVec 6) (tl : BitVec 2) (sel : BitVec 3) : Statement (.tstat sd tl sel) := by
  refine roundTrips_of _ _ _ 0x63 rfl (opOf_EN 0x63 _ _ _ _ _ _ (by decide)) rfl
    (litsFit_count _ 0x63 _ (opOf_EN 0x63 _ _ _ _ _ _ (by decide)) rfl ?_) ?_
  · simp (disch := omega) [litCount, opOf_EN, EN_sec, fld_zero, fld_small]
  · simp (disch := omega) [decodeRaw, opOf_EN, rawCopy, req, lit0, lit1, bfld, tst, fld_cat_low, fld_cat_high, enSA, enSB, enH, enSlot, zSEC, zSLOT, zH, zSA, zSB, zFL, EN_sec, EN_slot, EN_slot_low, EN_slot_top, EN_h, EN_sa, EN_sb, EN_sb_low, EN_sb_top, EN_fl, EN_fl0, EN_fl1, acIoOf, mmaOf, fld_small, fld_of_lt, fld_toNat, fld_bool, fld_bool_top, fld_zero, fld_top, bool_beq_one, ofNat_toNat_self]
theorem acalloc (h : BitVec 4) (sa : BitVec 6) (sd : BitVec 6) (int : Bool) : Statement (.acalloc h sa sd int) := by
  refine roundTrips_of _ _ _ 0x64 rfl (opOf_EN 0x64 _ _ _ _ _ _ (by decide)) rfl
    (litsFit_count _ 0x64 _ (opOf_EN 0x64 _ _ _ _ _ _ (by decide)) rfl ?_) ?_
  · simp (disch := omega) [litCount, opOf_EN, EN_sec, fld_zero, fld_small]
  · simp (disch := omega) [decodeRaw, opOf_EN, rawMatrix, req, lit0, lit1, bfld, tst, fld_cat_low, fld_cat_high, enSA, enSB, enH, enSlot, zSEC, zSLOT, zH, zSA, zSB, zFL, EN_sec, EN_slot, EN_slot_low, EN_slot_top, EN_h, EN_sa, EN_sb, EN_sb_low, EN_sb_top, EN_fl, EN_fl0, EN_fl1, acIoOf, mmaOf, fld_small, fld_of_lt, fld_toNat, fld_bool, fld_bool_top, fld_zero, fld_top, bool_beq_one, ofNat_toNat_self]
theorem acfree (h : BitVec 4) : Statement (.acfree h) := by
  refine roundTrips_of _ _ _ 0x64 rfl (opOf_EN 0x64 _ _ _ _ _ _ (by decide)) rfl
    (litsFit_count _ 0x64 _ (opOf_EN 0x64 _ _ _ _ _ _ (by decide)) rfl ?_) ?_
  · simp (disch := omega) [litCount, opOf_EN, EN_sec, fld_zero, fld_small]
  · simp (disch := omega) [decodeRaw, opOf_EN, rawMatrix, req, lit0, lit1, bfld, tst, fld_cat_low, fld_cat_high, enSA, enSB, enH, enSlot, zSEC, zSLOT, zH, zSA, zSB, zFL, EN_sec, EN_slot, EN_slot_low, EN_slot_top, EN_h, EN_sa, EN_sb, EN_sb_low, EN_sb_top, EN_fl, EN_fl0, EN_fl1, acIoOf, mmaOf, fld_small, fld_of_lt, fld_toNat, fld_bool, fld_bool_top, fld_zero, fld_top, bool_beq_one, ofNat_toNat_self]
theorem acz (h : BitVec 4) : Statement (.acz h) := by
  refine roundTrips_of _ _ _ 0x65 rfl (opOf_EN 0x65 _ _ _ _ _ _ (by decide)) rfl
    (litsFit_count _ 0x65 _ (opOf_EN 0x65 _ _ _ _ _ _ (by decide)) rfl ?_) ?_
  · simp (disch := omega) [litCount, opOf_EN, EN_sec, fld_zero, fld_small]
  · simp (disch := omega) [decodeRaw, opOf_EN, rawMatrix, req, lit0, lit1, bfld, tst, fld_cat_low, fld_cat_high, enSA, enSB, enH, enSlot, zSEC, zSLOT, zH, zSA, zSB, zFL, EN_sec, EN_slot, EN_slot_low, EN_slot_top, EN_h, EN_sa, EN_sb, EN_sb_low, EN_sb_top, EN_fl, EN_fl0, EN_fl1, acIoOf, mmaOf, fld_small, fld_of_lt, fld_toNat, fld_bool, fld_bool_top, fld_zero, fld_top, bool_beq_one, ofNat_toNat_self]
theorem acadd (h : BitVec 4) (hs : BitVec 4) : Statement (.acadd h hs) := by
  refine roundTrips_of _ _ _ 0x65 rfl (opOf_EN 0x65 _ _ _ _ _ _ (by decide)) rfl
    (litsFit_count _ 0x65 _ (opOf_EN 0x65 _ _ _ _ _ _ (by decide)) rfl ?_) ?_
  · simp (disch := omega) [litCount, opOf_EN, EN_sec, fld_zero, fld_small]
  · simp (disch := omega) [decodeRaw, opOf_EN, rawMatrix, req, lit0, lit1, bfld, tst, fld_cat_low, fld_cat_high, enSA, enSB, enH, enSlot, zSEC, zSLOT, zH, zSA, zSB, zFL, EN_sec, EN_slot, EN_slot_low, EN_slot_top, EN_h, EN_sa, EN_sb, EN_sb_low, EN_sb_top, EN_fl, EN_fl0, EN_fl1, acIoOf, mmaOf, fld_small, fld_of_lt, fld_toNat, fld_bool, fld_bool_top, fld_zero, fld_top, bool_beq_one, ofNat_toNat_self]
theorem acld (o : AcIo) : Statement (.acld o) := by
  obtain ⟨h, sa, slot, raw⟩ := o
  refine roundTrips_of _ _ _ 0x66 rfl (opOf_EN 0x66 _ _ _ _ _ _ (by decide)) rfl
    (litsFit_count _ 0x66 _ (opOf_EN 0x66 _ _ _ _ _ _ (by decide)) rfl ?_) ?_
  · simp (disch := omega) [litCount, opOf_EN, EN_sec, fld_zero, fld_small]
  · simp (disch := omega) [decodeRaw, opOf_EN, rawMatrix, req, lit0, lit1, bfld, tst, fld_cat_low, fld_cat_high, enSA, enSB, enH, enSlot, zSEC, zSLOT, zH, zSA, zSB, zFL, EN_sec, EN_slot, EN_slot_low, EN_slot_top, EN_h, EN_sa, EN_sb, EN_sb_low, EN_sb_top, EN_fl, EN_fl0, EN_fl1, acIoOf, mmaOf, fld_small, fld_of_lt, fld_toNat, fld_bool, fld_bool_top, fld_zero, fld_top, bool_beq_one, ofNat_toNat_self]
theorem acst (o : AcIo) : Statement (.acst o) := by
  obtain ⟨h, sa, slot, raw⟩ := o
  refine roundTrips_of _ _ _ 0x66 rfl (opOf_EN 0x66 _ _ _ _ _ _ (by decide)) rfl
    (litsFit_count _ 0x66 _ (opOf_EN 0x66 _ _ _ _ _ _ (by decide)) rfl ?_) ?_
  · simp (disch := omega) [litCount, opOf_EN, EN_sec, fld_zero, fld_small]
  · simp (disch := omega) [decodeRaw, opOf_EN, rawMatrix, req, lit0, lit1, bfld, tst, fld_cat_low, fld_cat_high, enSA, enSB, enH, enSlot, zSEC, zSLOT, zH, zSA, zSB, zFL, EN_sec, EN_slot, EN_slot_low, EN_slot_top, EN_h, EN_sa, EN_sb, EN_sb_low, EN_sb_top, EN_fl, EN_fl0, EN_fl1, acIoOf, mmaOf, fld_small, fld_of_lt, fld_toNat, fld_bool, fld_bool_top, fld_zero, fld_top, bool_beq_one, ofNat_toNat_self]
theorem mma (o : Mma) : Statement (.mma o) := by
  obtain ⟨h, sa, sb, slot, z, r, lit⟩ := o
  refine roundTrips_of _ _ _ 0x67 rfl (opOf_EN 0x67 _ _ _ _ _ _ (by decide)) rfl
    (litsFit_count _ 0x67 _ (opOf_EN 0x67 _ _ _ _ _ _ (by decide)) rfl ?_) ?_
  · simp (disch := omega) [litCount, opOf_EN, EN_sec, fld_zero, fld_small]
  · simp (disch := omega) [decodeRaw, opOf_EN, rawMatrix, req, lit0, lit1, bfld, tst, fld_cat_low, fld_cat_high, enSA, enSB, enH, enSlot, zSEC, zSLOT, zH, zSA, zSB, zFL, EN_sec, EN_slot, EN_slot_low, EN_slot_top, EN_h, EN_sa, EN_sb, EN_sb_low, EN_sb_top, EN_fl, EN_fl0, EN_fl1, acIoOf, mmaOf, fld_small, fld_of_lt, fld_toNat, fld_bool, fld_bool_top, fld_zero, fld_top, bool_beq_one, ofNat_toNat_self]
theorem mmaT (o : Mma) : Statement (.mmaT o) := by
  obtain ⟨h, sa, sb, slot, z, r, lit⟩ := o
  refine roundTrips_of _ _ _ 0x67 rfl (opOf_EN 0x67 _ _ _ _ _ _ (by decide)) rfl
    (litsFit_count _ 0x67 _ (opOf_EN 0x67 _ _ _ _ _ _ (by decide)) rfl ?_) ?_
  · simp (disch := omega) [litCount, opOf_EN, EN_sec, fld_zero, fld_small]
  · simp (disch := omega) [decodeRaw, opOf_EN, rawMatrix, req, lit0, lit1, bfld, tst, fld_cat_low, fld_cat_high, enSA, enSB, enH, enSlot, zSEC, zSLOT, zH, zSA, zSB, zFL, EN_sec, EN_slot, EN_slot_low, EN_slot_top, EN_h, EN_sa, EN_sb, EN_sb_low, EN_sb_top, EN_fl, EN_fl0, EN_fl1, acIoOf, mmaOf, fld_small, fld_of_lt, fld_toNat, fld_bool, fld_bool_top, fld_zero, fld_top, bool_beq_one, ofNat_toNat_self]
theorem mmas (o : Mma) : Statement (.mmas o) := by
  obtain ⟨h, sa, sb, slot, z, r, lit⟩ := o
  refine roundTrips_of _ _ _ 0x68 rfl (opOf_EN 0x68 _ _ _ _ _ _ (by decide)) rfl
    (litsFit_count _ 0x68 _ (opOf_EN 0x68 _ _ _ _ _ _ (by decide)) rfl ?_) ?_
  · simp (disch := omega) [litCount, opOf_EN, EN_sec, fld_zero, fld_small]
  · simp (disch := omega) [decodeRaw, opOf_EN, rawMatrix, req, lit0, lit1, bfld, tst, fld_cat_low, fld_cat_high, enSA, enSB, enH, enSlot, zSEC, zSLOT, zH, zSA, zSB, zFL, EN_sec, EN_slot, EN_slot_low, EN_slot_top, EN_h, EN_sa, EN_sb, EN_sb_low, EN_sb_top, EN_fl, EN_fl0, EN_fl1, acIoOf, mmaOf, fld_small, fld_of_lt, fld_toNat, fld_bool, fld_bool_top, fld_zero, fld_top, bool_beq_one, ofNat_toNat_self]
theorem omap (sa : BitVec 6) (sb : BitVec 6) (lit : Word) : Statement (.omap sa sb lit) := by
  refine roundTrips_of _ _ _ 0x69 rfl (opOf_EN 0x69 _ _ _ _ _ _ (by decide)) rfl
    (litsFit_count _ 0x69 _ (opOf_EN 0x69 _ _ _ _ _ _ (by decide)) rfl ?_) ?_
  · simp (disch := omega) [litCount, opOf_EN, EN_sec, fld_zero, fld_small]
  · simp (disch := omega) [decodeRaw, opOf_EN, rawMatrix, req, lit0, lit1, bfld, tst, fld_cat_low, fld_cat_high, enSA, enSB, enH, enSlot, zSEC, zSLOT, zH, zSA, zSB, zFL, EN_sec, EN_slot, EN_slot_low, EN_slot_top, EN_h, EN_sa, EN_sb, EN_sb_low, EN_sb_top, EN_fl, EN_fl0, EN_fl1, acIoOf, mmaOf, fld_small, fld_of_lt, fld_toNat, fld_bool, fld_bool_top, fld_zero, fld_top, bool_beq_one, ofNat_toNat_self]
theorem tballoc (h : BitVec 4) (sa : BitVec 6) (sd : BitVec 6) (slot : BitVec 3) (lit : Word) : Statement (.tballoc h sa sd slot lit) := by
  refine roundTrips_of _ _ _ 0x6A rfl (opOf_EN 0x6A _ _ _ _ _ _ (by decide)) rfl
    (litsFit_count _ 0x6A _ (opOf_EN 0x6A _ _ _ _ _ _ (by decide)) rfl ?_) ?_
  · simp (disch := omega) [litCount, opOf_EN, EN_sec, fld_zero, fld_small]
  · simp (disch := omega) [decodeRaw, opOf_EN, rawLookup, req, lit0, lit1, bfld, tst, fld_cat_low, fld_cat_high, enSA, enSB, enH, enSlot, zSEC, zSLOT, zH, zSA, zSB, zFL, EN_sec, EN_slot, EN_slot_low, EN_slot_top, EN_h, EN_sa, EN_sb, EN_sb_low, EN_sb_top, EN_fl, EN_fl0, EN_fl1, acIoOf, mmaOf, fld_small, fld_of_lt, fld_toNat, fld_bool, fld_bool_top, fld_zero, fld_top, bool_beq_one, ofNat_toNat_self]
theorem tbfree (h : BitVec 4) : Statement (.tbfree h) := by
  refine roundTrips_of _ _ _ 0x6A rfl (opOf_EN 0x6A _ _ _ _ _ _ (by decide)) rfl
    (litsFit_count _ 0x6A _ (opOf_EN 0x6A _ _ _ _ _ _ (by decide)) rfl ?_) ?_
  · simp (disch := omega) [litCount, opOf_EN, EN_sec, fld_zero, fld_small]
  · simp (disch := omega) [decodeRaw, opOf_EN, rawLookup, req, lit0, lit1, bfld, tst, fld_cat_low, fld_cat_high, enSA, enSB, enH, enSlot, zSEC, zSLOT, zH, zSA, zSB, zFL, EN_sec, EN_slot, EN_slot_low, EN_slot_top, EN_h, EN_sa, EN_sb, EN_sb_low, EN_sb_top, EN_fl, EN_fl0, EN_fl1, acIoOf, mmaOf, fld_small, fld_of_lt, fld_toNat, fld_bool, fld_bool_top, fld_zero, fld_top, bool_beq_one, ofNat_toNat_self]
theorem tbuildBp (h : BitVec 4) (sa : BitVec 6) (sd : BitVec 6) : Statement (.tbuildBp h sa sd) := by
  refine roundTrips_of _ _ _ 0x6B rfl (opOf_EN 0x6B _ _ _ _ _ _ (by decide)) rfl
    (litsFit_count _ 0x6B _ (opOf_EN 0x6B _ _ _ _ _ _ (by decide)) rfl ?_) ?_
  · simp (disch := omega) [litCount, opOf_EN, EN_sec, fld_zero, fld_small]
  · simp (disch := omega) [decodeRaw, opOf_EN, rawLookup, req, lit0, lit1, bfld, tst, fld_cat_low, fld_cat_high, enSA, enSB, enH, enSlot, zSEC, zSLOT, zH, zSA, zSB, zFL, EN_sec, EN_slot, EN_slot_low, EN_slot_top, EN_h, EN_sa, EN_sb, EN_sb_low, EN_sb_top, EN_fl, EN_fl0, EN_fl1, acIoOf, mmaOf, fld_small, fld_of_lt, fld_toNat, fld_bool, fld_bool_top, fld_zero, fld_top, bool_beq_one, ofNat_toNat_self]
theorem tbuildCb (h : BitVec 4) (sa : BitVec 6) (sd : BitVec 6) (lit : Word) : Statement (.tbuildCb h sa sd lit) := by
  refine roundTrips_of _ _ _ 0x6B rfl (opOf_EN 0x6B _ _ _ _ _ _ (by decide)) rfl
    (litsFit_count _ 0x6B _ (opOf_EN 0x6B _ _ _ _ _ _ (by decide)) rfl ?_) ?_
  · simp (disch := omega) [litCount, opOf_EN, EN_sec, fld_zero, fld_small]
  · simp (disch := omega) [decodeRaw, opOf_EN, rawLookup, req, lit0, lit1, bfld, tst, fld_cat_low, fld_cat_high, enSA, enSB, enH, enSlot, zSEC, zSLOT, zH, zSA, zSB, zFL, EN_sec, EN_slot, EN_slot_low, EN_slot_top, EN_h, EN_sa, EN_sb, EN_sb_low, EN_sb_top, EN_fl, EN_fl0, EN_fl1, acIoOf, mmaOf, fld_small, fld_of_lt, fld_toNat, fld_bool, fld_bool_top, fld_zero, fld_top, bool_beq_one, ofNat_toNat_self]
theorem lmma (o : Lmma) : Statement (.lmma o) := by
  obtain ⟨h, tb, sa, sb, planes, z, r, lit⟩ := o
  refine roundTrips_of _ _ _ 0x6C rfl (opOf_EN 0x6C _ _ _ _ _ _ (by decide)) rfl
    (litsFit_count _ 0x6C _ (opOf_EN 0x6C _ _ _ _ _ _ (by decide)) rfl ?_) ?_
  · simp (disch := omega) [litCount, opOf_EN, EN_sec, fld_zero, fld_small]
  · simp (disch := omega) [decodeRaw, opOf_EN, rawLookup, req, lit0, lit1, bfld, tst, fld_cat_low, fld_cat_high, enSA, enSB, enH, enSlot, zSEC, zSLOT, zH, zSA, zSB, zFL, EN_sec, EN_slot, EN_slot_low, EN_slot_top, EN_h, EN_sa, EN_sb, EN_sb_low, EN_sb_top, EN_fl, EN_fl0, EN_fl1, acIoOf, mmaOf, fld_small, fld_of_lt, fld_toNat, fld_bool, fld_bool_top, fld_zero, fld_top, bool_beq_one, ofNat_toNat_self]
theorem tbstat (h : BitVec 4) (sd : BitVec 6) : Statement (.tbstat h sd) := by
  refine roundTrips_of _ _ _ 0x6D rfl (opOf_EN 0x6D _ _ _ _ _ _ (by decide)) rfl
    (litsFit_count _ 0x6D _ (opOf_EN 0x6D _ _ _ _ _ _ (by decide)) rfl ?_) ?_
  · simp (disch := omega) [litCount, opOf_EN, EN_sec, fld_zero, fld_small]
  · simp (disch := omega) [decodeRaw, opOf_EN, rawLookup, req, lit0, lit1, bfld, tst, fld_cat_low, fld_cat_high, enSA, enSB, enH, enSlot, zSEC, zSLOT, zH, zSA, zSB, zFL, EN_sec, EN_slot, EN_slot_low, EN_slot_top, EN_h, EN_sa, EN_sb, EN_sb_low, EN_sb_top, EN_fl, EN_fl0, EN_fl1, acIoOf, mmaOf, fld_small, fld_of_lt, fld_toNat, fld_bool, fld_bool_top, fld_zero, fld_top, bool_beq_one, ofNat_toNat_self]
theorem tbspill (h : BitVec 4) (sa : BitVec 6) (sd : BitVec 6) : Statement (.tbspill h sa sd) := by
  refine roundTrips_of _ _ _ 0x6D rfl (opOf_EN 0x6D _ _ _ _ _ _ (by decide)) rfl
    (litsFit_count _ 0x6D _ (opOf_EN 0x6D _ _ _ _ _ _ (by decide)) rfl ?_) ?_
  · simp (disch := omega) [litCount, opOf_EN, EN_sec, fld_zero, fld_small]
  · simp (disch := omega) [decodeRaw, opOf_EN, rawLookup, req, lit0, lit1, bfld, tst, fld_cat_low, fld_cat_high, enSA, enSB, enH, enSlot, zSEC, zSLOT, zH, zSA, zSB, zFL, EN_sec, EN_slot, EN_slot_low, EN_slot_top, EN_h, EN_sa, EN_sb, EN_sb_low, EN_sb_top, EN_fl, EN_fl0, EN_fl1, acIoOf, mmaOf, fld_small, fld_of_lt, fld_toNat, fld_bool, fld_bool_top, fld_zero, fld_top, bool_beq_one, ofNat_toNat_self]
theorem tbfill (h : BitVec 4) (sa : BitVec 6) (sd : BitVec 6) : Statement (.tbfill h sa sd) := by
  refine roundTrips_of _ _ _ 0x6D rfl (opOf_EN 0x6D _ _ _ _ _ _ (by decide)) rfl
    (litsFit_count _ 0x6D _ (opOf_EN 0x6D _ _ _ _ _ _ (by decide)) rfl ?_) ?_
  · simp (disch := omega) [litCount, opOf_EN, EN_sec, fld_zero, fld_small]
  · simp (disch := omega) [decodeRaw, opOf_EN, rawLookup, req, lit0, lit1, bfld, tst, fld_cat_low, fld_cat_high, enSA, enSB, enH, enSlot, zSEC, zSLOT, zH, zSA, zSB, zFL, EN_sec, EN_slot, EN_slot_low, EN_slot_top, EN_h, EN_sa, EN_sb, EN_sb_low, EN_sb_top, EN_fl, EN_fl0, EN_fl1, acIoOf, mmaOf, fld_small, fld_of_lt, fld_toNat, fld_bool, fld_bool_top, fld_zero, fld_top, bool_beq_one, ofNat_toNat_self]
theorem plcfg (b : BitVec 3) (sa : BitVec 6) : Statement (.plcfg b sa) := by
  refine roundTrips_of _ _ _ 0x6E rfl (opOf_EN 0x6E _ _ _ _ _ _ (by decide)) rfl
    (litsFit_count _ 0x6E _ (opOf_EN 0x6E _ _ _ _ _ _ (by decide)) rfl ?_) ?_
  · simp (disch := omega) [litCount, opOf_EN, EN_sec, fld_zero, fld_small]
  · simp (disch := omega) [decodeRaw, opOf_EN, rawPool, req, lit0, lit1, bfld, tst, fld_cat_low, fld_cat_high, enSA, enSB, enH, enSlot, zSEC, zSLOT, zH, zSA, zSB, zFL, EN_sec, EN_slot, EN_slot_low, EN_slot_top, EN_h, EN_sa, EN_sb, EN_sb_low, EN_sb_top, EN_fl, EN_fl0, EN_fl1, acIoOf, mmaOf, fld_small, fld_of_lt, fld_toNat, fld_bool, fld_bool_top, fld_zero, fld_top, bool_beq_one, ofNat_toNat_self]
theorem plstat (b : BitVec 3) (sd : BitVec 6) (sel : BitVec 2) : Statement (.plstat b sd sel) := by
  refine roundTrips_of _ _ _ 0x6E rfl (opOf_EN 0x6E _ _ _ _ _ _ (by decide)) rfl
    (litsFit_count _ 0x6E _ (opOf_EN 0x6E _ _ _ _ _ _ (by decide)) rfl ?_) ?_
  · simp (disch := omega) [litCount, opOf_EN, EN_sec, fld_zero, fld_small]
  · simp (disch := omega) [decodeRaw, opOf_EN, rawPool, req, lit0, lit1, bfld, tst, fld_cat_low, fld_cat_high, enSA, enSB, enH, enSlot, zSEC, zSLOT, zH, zSA, zSB, zFL, EN_sec, EN_slot, EN_slot_low, EN_slot_top, EN_h, EN_sa, EN_sb, EN_sb_low, EN_sb_top, EN_fl, EN_fl0, EN_fl1, acIoOf, mmaOf, fld_small, fld_of_lt, fld_toNat, fld_bool, fld_bool_top, fld_zero, fld_top, bool_beq_one, ofNat_toNat_self]
theorem plpush (b : BitVec 3) (sa : BitVec 6) (sb : BitVec 6) (w : Bool) (lit : Word) : Statement (.plpush b sa sb w lit) := by
  refine roundTrips_of _ _ _ 0x6F rfl (opOf_EN 0x6F _ _ _ _ _ _ (by decide)) rfl
    (litsFit_count _ 0x6F _ (opOf_EN 0x6F _ _ _ _ _ _ (by decide)) rfl ?_) ?_
  · simp (disch := omega) [litCount, opOf_EN, EN_sec, fld_zero, fld_small]
  · simp (disch := omega) [decodeRaw, opOf_EN, rawPool, req, lit0, lit1, bfld, tst, fld_cat_low, fld_cat_high, enSA, enSB, enH, enSlot, zSEC, zSLOT, zH, zSA, zSB, zFL, EN_sec, EN_slot, EN_slot_low, EN_slot_top, EN_h, EN_sa, EN_sb, EN_sb_low, EN_sb_top, EN_fl, EN_fl0, EN_fl1, acIoOf, mmaOf, fld_small, fld_of_lt, fld_toNat, fld_bool, fld_bool_top, fld_zero, fld_top, bool_beq_one, ofNat_toNat_self]
theorem plpop (b : BitVec 3) (sd : BitVec 6) (w : Bool) : Statement (.plpop b sd w) := by
  refine roundTrips_of _ _ _ 0x70 rfl (opOf_EN 0x70 _ _ _ _ _ _ (by decide)) rfl
    (litsFit_count _ 0x70 _ (opOf_EN 0x70 _ _ _ _ _ _ (by decide)) rfl ?_) ?_
  · simp (disch := omega) [litCount, opOf_EN, EN_sec, fld_zero, fld_small]
  · simp (disch := omega) [decodeRaw, opOf_EN, rawPool, req, lit0, lit1, bfld, tst, fld_cat_low, fld_cat_high, enSA, enSB, enH, enSlot, zSEC, zSLOT, zH, zSA, zSB, zFL, EN_sec, EN_slot, EN_slot_low, EN_slot_top, EN_h, EN_sa, EN_sb, EN_sb_low, EN_sb_top, EN_fl, EN_fl0, EN_fl1, acIoOf, mmaOf, fld_small, fld_of_lt, fld_toNat, fld_bool, fld_bool_top, fld_zero, fld_top, bool_beq_one, ofNat_toNat_self]
theorem pldrain (b : BitVec 3) : Statement (.pldrain b) := by
  refine roundTrips_of _ _ _ 0x70 rfl (opOf_EN 0x70 _ _ _ _ _ _ (by decide)) rfl
    (litsFit_count _ 0x70 _ (opOf_EN 0x70 _ _ _ _ _ _ (by decide)) rfl ?_) ?_
  · simp (disch := omega) [litCount, opOf_EN, EN_sec, fld_zero, fld_small]
  · simp (disch := omega) [decodeRaw, opOf_EN, rawPool, req, lit0, lit1, bfld, tst, fld_cat_low, fld_cat_high, enSA, enSB, enH, enSlot, zSEC, zSLOT, zH, zSA, zSB, zFL, EN_sec, EN_slot, EN_slot_low, EN_slot_top, EN_h, EN_sa, EN_sb, EN_sb_low, EN_sb_top, EN_fl, EN_fl0, EN_fl1, acIoOf, mmaOf, fld_small, fld_of_lt, fld_toNat, fld_bool, fld_bool_top, fld_zero, fld_top, bool_beq_one, ofNat_toNat_self]
theorem lnch (sa : BitVec 6) (sb : BitVec 6) : Statement (.lnch sa sb) := by
  refine roundTrips_of _ _ _ 0x71 rfl (opOf_EN 0x71 _ _ _ _ _ _ (by decide)) rfl
    (litsFit_count _ 0x71 _ (opOf_EN 0x71 _ _ _ _ _ _ (by decide)) rfl ?_) ?_
  · simp (disch := omega) [litCount, opOf_EN, EN_sec, fld_zero, fld_small]
  · simp (disch := omega) [decodeRaw, opOf_EN, rawPool, req, lit0, lit1, bfld, tst, fld_cat_low, fld_cat_high, enSA, enSB, enH, enSlot, zSEC, zSLOT, zH, zSA, zSB, zFL, EN_sec, EN_slot, EN_slot_low, EN_slot_top, EN_h, EN_sa, EN_sb, EN_sb_low, EN_sb_top, EN_fl, EN_fl0, EN_fl1, acIoOf, mmaOf, fld_small, fld_of_lt, fld_toNat, fld_bool, fld_bool_top, fld_zero, fld_top, bool_beq_one, ofNat_toNat_self]
theorem salloc (rank : BitVec 3) (sa : BitVec 6) (sd : BitVec 6) (lit : Word) : Statement (.salloc rank sa sd lit) := by
  refine roundTrips_of _ _ _ 0x72 rfl (opOf_EN 0x72 _ _ _ _ _ _ (by decide)) rfl
    (litsFit_count _ 0x72 _ (opOf_EN 0x72 _ _ _ _ _ _ (by decide)) rfl ?_) ?_
  · simp (disch := omega) [litCount, opOf_EN, EN_sec, fld_zero, fld_small]
  · simp (disch := omega) [decodeRaw, opOf_EN, rawPool, req, lit0, lit1, bfld, tst, fld_cat_low, fld_cat_high, enSA, enSB, enH, enSlot, zSEC, zSLOT, zH, zSA, zSB, zFL, EN_sec, EN_slot, EN_slot_low, EN_slot_top, EN_h, EN_sa, EN_sb, EN_sb_low, EN_sb_top, EN_fl, EN_fl0, EN_fl1, acIoOf, mmaOf, fld_small, fld_of_lt, fld_toNat, fld_bool, fld_bool_top, fld_zero, fld_top, bool_beq_one, ofNat_toNat_self]
theorem sfree (sa : BitVec 6) : Statement (.sfree sa) := by
  refine roundTrips_of _ _ _ 0x72 rfl (opOf_EN 0x72 _ _ _ _ _ _ (by decide)) rfl
    (litsFit_count _ 0x72 _ (opOf_EN 0x72 _ _ _ _ _ _ (by decide)) rfl ?_) ?_
  · simp (disch := omega) [litCount, opOf_EN, EN_sec, fld_zero, fld_small]
  · simp (disch := omega) [decodeRaw, opOf_EN, rawPool, req, lit0, lit1, bfld, tst, fld_cat_low, fld_cat_high, enSA, enSB, enH, enSlot, zSEC, zSLOT, zH, zSA, zSB, zFL, EN_sec, EN_slot, EN_slot_low, EN_slot_top, EN_h, EN_sa, EN_sb, EN_sb_low, EN_sb_top, EN_fl, EN_fl0, EN_fl1, acIoOf, mmaOf, fld_small, fld_of_lt, fld_toNat, fld_bool, fld_bool_top, fld_zero, fld_top, bool_beq_one, ofNat_toNat_self]
theorem srestore (sa : BitVec 6) (sd : BitVec 6) : Statement (.srestore sa sd) := by
  refine roundTrips_of _ _ _ 0x72 rfl (opOf_EN 0x72 _ _ _ _ _ _ (by decide)) rfl
    (litsFit_count _ 0x72 _ (opOf_EN 0x72 _ _ _ _ _ _ (by decide)) rfl ?_) ?_
  · simp (disch := omega) [litCount, opOf_EN, EN_sec, fld_zero, fld_small]
  · simp (disch := omega) [decodeRaw, opOf_EN, rawPool, req, lit0, lit1, bfld, tst, fld_cat_low, fld_cat_high, enSA, enSB, enH, enSlot, zSEC, zSLOT, zH, zSA, zSB, zFL, EN_sec, EN_slot, EN_slot_low, EN_slot_top, EN_h, EN_sa, EN_sb, EN_sb_low, EN_sb_top, EN_fl, EN_fl0, EN_fl1, acIoOf, mmaOf, fld_small, fld_of_lt, fld_toNat, fld_bool, fld_bool_top, fld_zero, fld_top, bool_beq_one, ofNat_toNat_self]
theorem srestoreDone (sa : BitVec 6) (sd : BitVec 6) : Statement (.srestoreDone sa sd) := by
  refine roundTrips_of _ _ _ 0x72 rfl (opOf_EN 0x72 _ _ _ _ _ _ (by decide)) rfl
    (litsFit_count _ 0x72 _ (opOf_EN 0x72 _ _ _ _ _ _ (by decide)) rfl ?_) ?_
  · simp (disch := omega) [litCount, opOf_EN, EN_sec, fld_zero, fld_small]
  · simp (disch := omega) [decodeRaw, opOf_EN, rawPool, req, lit0, lit1, bfld, tst, fld_cat_low, fld_cat_high, enSA, enSB, enH, enSlot, zSEC, zSLOT, zH, zSA, zSB, zFL, EN_sec, EN_slot, EN_slot_low, EN_slot_top, EN_h, EN_sa, EN_sb, EN_sb_low, EN_sb_top, EN_fl, EN_fl0, EN_fl1, acIoOf, mmaOf, fld_small, fld_of_lt, fld_toNat, fld_bool, fld_bool_top, fld_zero, fld_top, bool_beq_one, ofNat_toNat_self]
theorem srank (rank : BitVec 3) (sa : BitVec 6) (sd : BitVec 6) : Statement (.srank rank sa sd) := by
  refine roundTrips_of _ _ _ 0x73 rfl (opOf_EN 0x73 _ _ _ _ _ _ (by decide)) rfl
    (litsFit_count _ 0x73 _ (opOf_EN 0x73 _ _ _ _ _ _ (by decide)) rfl ?_) ?_
  · simp (disch := omega) [litCount, opOf_EN, EN_sec, fld_zero, fld_small]
  · simp (disch := omega) [decodeRaw, opOf_EN, rawPool, req, lit0, lit1, bfld, tst, fld_cat_low, fld_cat_high, enSA, enSB, enH, enSlot, zSEC, zSLOT, zH, zSA, zSB, zFL, EN_sec, EN_slot, EN_slot_low, EN_slot_top, EN_h, EN_sa, EN_sb, EN_sb_low, EN_sb_top, EN_fl, EN_fl0, EN_fl1, acIoOf, mmaOf, fld_small, fld_of_lt, fld_toNat, fld_bool, fld_bool_top, fld_zero, fld_top, bool_beq_one, ofNat_toNat_self]
theorem squery (sa : BitVec 6) (sd : BitVec 6) : Statement (.squery sa sd) := by
  refine roundTrips_of _ _ _ 0x73 rfl (opOf_EN 0x73 _ _ _ _ _ _ (by decide)) rfl
    (litsFit_count _ 0x73 _ (opOf_EN 0x73 _ _ _ _ _ _ (by decide)) rfl ?_) ?_
  · simp (disch := omega) [litCount, opOf_EN, EN_sec, fld_zero, fld_small]
  · simp (disch := omega) [decodeRaw, opOf_EN, rawPool, req, lit0, lit1, bfld, tst, fld_cat_low, fld_cat_high, enSA, enSB, enH, enSlot, zSEC, zSLOT, zH, zSA, zSB, zFL, EN_sec, EN_slot, EN_slot_low, EN_slot_top, EN_h, EN_sa, EN_sb, EN_sb_low, EN_sb_top, EN_fl, EN_fl0, EN_fl1, acIoOf, mmaOf, fld_small, fld_of_lt, fld_toNat, fld_bool, fld_bool_top, fld_zero, fld_top, bool_beq_one, ofNat_toNat_self]
theorem squeryCnt (sd : BitVec 6) : Statement (.squeryCnt sd) := by
  refine roundTrips_of _ _ _ 0x73 rfl (opOf_EN 0x73 _ _ _ _ _ _ (by decide)) rfl
    (litsFit_count _ 0x73 _ (opOf_EN 0x73 _ _ _ _ _ _ (by decide)) rfl ?_) ?_
  · simp (disch := omega) [litCount, opOf_EN, EN_sec, fld_zero, fld_small]
  · simp (disch := omega) [decodeRaw, opOf_EN, rawPool, req, lit0, lit1, bfld, tst, fld_cat_low, fld_cat_high, enSA, enSB, enH, enSlot, zSEC, zSLOT, zH, zSA, zSB, zFL, EN_sec, EN_slot, EN_slot_low, EN_slot_top, EN_h, EN_sa, EN_sb, EN_sb_low, EN_sb_top, EN_fl, EN_fl0, EN_fl1, acIoOf, mmaOf, fld_small, fld_of_lt, fld_toNat, fld_bool, fld_bool_top, fld_zero, fld_top, bool_beq_one, ofNat_toNat_self]
theorem lhret : Statement (.lhret) := by
  refine roundTrips_of _ _ _ 0x73 rfl (opOf_EN 0x73 _ _ _ _ _ _ (by decide)) rfl
    (litsFit_count _ 0x73 _ (opOf_EN 0x73 _ _ _ _ _ _ (by decide)) rfl ?_) ?_
  · simp (disch := omega) [litCount, opOf_EN, EN_sec, fld_zero, fld_small]
  · simp (disch := omega) [decodeRaw, opOf_EN, rawPool, req, lit0, lit1, bfld, tst, fld_cat_low, fld_cat_high, enSA, enSB, enH, enSlot, zSEC, zSLOT, zH, zSA, zSB, zFL, EN_sec, EN_slot, EN_slot_low, EN_slot_top, EN_h, EN_sa, EN_sb, EN_sb_low, EN_sb_top, EN_fl, EN_fl0, EN_fl1, acIoOf, mmaOf, fld_small, fld_of_lt, fld_toNat, fld_bool, fld_bool_top, fld_zero, fld_top, bool_beq_one, ofNat_toNat_self]
theorem bkpt (code : BitVec 16) : Statement (.bkpt code) := by
  refine roundTrips_of _ _ _ 0x74 rfl (opOf_CT 0x74 _ _ _ (by decide)) rfl
    (litsFit_count _ 0x74 _ (opOf_CT 0x74 _ _ _ (by decide)) rfl ?_) ?_
  · simp (disch := omega) [litCount, opOf_CT, CT_sec, fld_zero, fld_small]
  · simp (disch := omega) [decodeRaw, opOf_CT, rawControl, req, lit0, lit1, bfld, tst, fld_cat_low, fld_cat_high, CT_sec, CT_pred, CT_noPred, CT_off, fld_small, fld_of_lt, fld_toNat, fld_bool, fld_bool_top, fld_zero, fld_top, bool_beq_one, ofNat_toNat_self]
theorem trapu (code : BitVec 16) : Statement (.trapu code) := by
  refine roundTrips_of _ _ _ 0x74 rfl (opOf_CT 0x74 _ _ _ (by decide)) rfl
    (litsFit_count _ 0x74 _ (opOf_CT 0x74 _ _ _ (by decide)) rfl ?_) ?_
  · simp (disch := omega) [litCount, opOf_CT, CT_sec, fld_zero, fld_small]
  · simp (disch := omega) [decodeRaw, opOf_CT, rawControl, req, lit0, lit1, bfld, tst, fld_cat_low, fld_cat_high, CT_sec, CT_pred, CT_noPred, CT_off, fld_small, fld_of_lt, fld_toNat, fld_bool, fld_bool_top, fld_zero, fld_top, bool_beq_one, ofNat_toNat_self]
theorem bra (off : BitVec 18) : Statement (.bra off) := by
  refine roundTrips_of _ _ _ 0x75 rfl (opOf_CT 0x75 _ _ _ (by decide)) rfl
    (litsFit_count _ 0x75 _ (opOf_CT 0x75 _ _ _ (by decide)) rfl ?_) ?_
  · simp (disch := omega) [litCount, opOf_CT, CT_sec, fld_zero, fld_small]
  · simp (disch := omega) [decodeRaw, opOf_CT, rawControl, req, lit0, lit1, bfld, tst, fld_cat_low, fld_cat_high, CT_sec, CT_pred, CT_noPred, CT_off, fld_small, fld_of_lt, fld_toNat, fld_bool, fld_bool_top, fld_zero, fld_top, bool_beq_one, ofNat_toNat_self]
theorem call (off : BitVec 18) : Statement (.call off) := by
  refine roundTrips_of _ _ _ 0x75 rfl (opOf_CT 0x75 _ _ _ (by decide)) rfl
    (litsFit_count _ 0x75 _ (opOf_CT 0x75 _ _ _ (by decide)) rfl ?_) ?_
  · simp (disch := omega) [litCount, opOf_CT, CT_sec, fld_zero, fld_small]
  · simp (disch := omega) [decodeRaw, opOf_CT, rawControl, req, lit0, lit1, bfld, tst, fld_cat_low, fld_cat_high, CT_sec, CT_pred, CT_noPred, CT_off, fld_small, fld_of_lt, fld_toNat, fld_bool, fld_bool_top, fld_zero, fld_top, bool_beq_one, ofNat_toNat_self]
theorem brcAny (p : Pred) (off : BitVec 18) : Statement (.brcAny p off) := by
  refine roundTrips_of _ _ _ 0x76 rfl (opOf_CT 0x76 _ _ _ (by decide)) rfl
    (litsFit_count _ 0x76 _ (opOf_CT 0x76 _ _ _ (by decide)) rfl ?_) ?_
  · simp (disch := omega) [litCount, opOf_CT, CT_sec, fld_zero, fld_small]
  · simp (disch := omega) [decodeRaw, opOf_CT, rawControl, req, lit0, lit1, bfld, tst, fld_cat_low, fld_cat_high, CT_sec, CT_pred, CT_noPred, CT_off, fld_small, fld_of_lt, fld_toNat, fld_bool, fld_bool_top, fld_zero, fld_top, bool_beq_one, ofNat_toNat_self]
theorem brcAll (p : Pred) (off : BitVec 18) : Statement (.brcAll p off) := by
  refine roundTrips_of _ _ _ 0x76 rfl (opOf_CT 0x76 _ _ _ (by decide)) rfl
    (litsFit_count _ 0x76 _ (opOf_CT 0x76 _ _ _ (by decide)) rfl ?_) ?_
  · simp (disch := omega) [litCount, opOf_CT, CT_sec, fld_zero, fld_small]
  · simp (disch := omega) [decodeRaw, opOf_CT, rawControl, req, lit0, lit1, bfld, tst, fld_cat_low, fld_cat_high, CT_sec, CT_pred, CT_noPred, CT_off, fld_small, fld_of_lt, fld_toNat, fld_bool, fld_bool_top, fld_zero, fld_top, bool_beq_one, ofNat_toNat_self]
theorem brx (sa : BitVec 6) : Statement (.brx sa) := by
  refine roundTrips_of _ _ _ 0x76 rfl (opOf_CT 0x76 _ _ _ (by decide)) rfl
    (litsFit_count _ 0x76 _ (opOf_CT 0x76 _ _ _ (by decide)) rfl ?_) ?_
  · simp (disch := omega) [litCount, opOf_CT, CT_sec, fld_zero, fld_small]
  · simp (disch := omega) [decodeRaw, opOf_CT, rawControl, req, lit0, lit1, bfld, tst, fld_cat_low, fld_cat_high, CT_sec, CT_pred, CT_noPred, CT_off, fld_small, fld_of_lt, fld_toNat, fld_bool, fld_bool_top, fld_zero, fld_top, bool_beq_one, ofNat_toNat_self]
theorem ifI (p : Pred) (off : BitVec 18) (join : Word) : Statement (.ifI p off join) := by
  refine roundTrips_of _ _ _ 0x77 rfl (opOf_CT 0x77 _ _ _ (by decide)) rfl
    (litsFit_count _ 0x77 _ (opOf_CT 0x77 _ _ _ (by decide)) rfl ?_) ?_
  · simp (disch := omega) [litCount, opOf_CT, CT_sec, fld_zero, fld_small]
  · simp (disch := omega) [decodeRaw, opOf_CT, rawControl, req, lit0, lit1, bfld, tst, fld_cat_low, fld_cat_high, CT_sec, CT_pred, CT_noPred, CT_off, fld_small, fld_of_lt, fld_toNat, fld_bool, fld_bool_top, fld_zero, fld_top, bool_beq_one, ofNat_toNat_self]
theorem loop (off : BitVec 18) : Statement (.loop off) := by
  refine roundTrips_of _ _ _ 0x77 rfl (opOf_CT 0x77 _ _ _ (by decide)) rfl
    (litsFit_count _ 0x77 _ (opOf_CT 0x77 _ _ _ (by decide)) rfl ?_) ?_
  · simp (disch := omega) [litCount, opOf_CT, CT_sec, fld_zero, fld_small]
  · simp (disch := omega) [decodeRaw, opOf_CT, rawControl, req, lit0, lit1, bfld, tst, fld_cat_low, fld_cat_high, CT_sec, CT_pred, CT_noPred, CT_off, fld_small, fld_of_lt, fld_toNat, fld_bool, fld_bool_top, fld_zero, fld_top, bool_beq_one, ofNat_toNat_self]
theorem brk (p : Pred) : Statement (.brk p) := by
  refine roundTrips_of _ _ _ 0x77 rfl (opOf_CT 0x77 _ _ _ (by decide)) rfl
    (litsFit_count _ 0x77 _ (opOf_CT 0x77 _ _ _ (by decide)) rfl ?_) ?_
  · simp (disch := omega) [litCount, opOf_CT, CT_sec, fld_zero, fld_small]
  · simp (disch := omega) [decodeRaw, opOf_CT, rawControl, req, lit0, lit1, bfld, tst, fld_cat_low, fld_cat_high, CT_sec, CT_pred, CT_noPred, CT_off, fld_small, fld_of_lt, fld_toNat, fld_bool, fld_bool_top, fld_zero, fld_top, bool_beq_one, ofNat_toNat_self]
theorem next : Statement (.next) := by
  refine roundTrips_of _ _ _ 0x77 rfl (opOf_CT 0x77 _ _ _ (by decide)) rfl
    (litsFit_count _ 0x77 _ (opOf_CT 0x77 _ _ _ (by decide)) rfl ?_) ?_
  · simp (disch := omega) [litCount, opOf_CT, CT_sec, fld_zero, fld_small]
  · simp (disch := omega) [decodeRaw, opOf_CT, rawControl, req, lit0, lit1, bfld, tst, fld_cat_low, fld_cat_high, CT_sec, CT_pred, CT_noPred, CT_off, fld_small, fld_of_lt, fld_toNat, fld_bool, fld_bool_top, fld_zero, fld_top, bool_beq_one, ofNat_toNat_self]
theorem ret : Statement (.ret) := by
  refine roundTrips_of _ _ _ 0x78 rfl (opOf_CT 0x78 _ _ _ (by decide)) rfl
    (litsFit_count _ 0x78 _ (opOf_CT 0x78 _ _ _ (by decide)) rfl ?_) ?_
  · simp (disch := omega) [litCount, opOf_CT, CT_sec, fld_zero, fld_small]
  · simp (disch := omega) [decodeRaw, opOf_CT, rawControl, req, lit0, lit1, bfld, tst, fld_cat_low, fld_cat_high, CT_sec, CT_pred, CT_noPred, CT_off, fld_small, fld_of_lt, fld_toNat, fld_bool, fld_bool_top, fld_zero, fld_top, bool_beq_one, ofNat_toNat_self]
theorem exit : Statement (.exit) := by
  refine roundTrips_of _ _ _ 0x78 rfl (opOf_CT 0x78 _ _ _ (by decide)) rfl
    (litsFit_count _ 0x78 _ (opOf_CT 0x78 _ _ _ (by decide)) rfl ?_) ?_
  · simp (disch := omega) [litCount, opOf_CT, CT_sec, fld_zero, fld_small]
  · simp (disch := omega) [decodeRaw, opOf_CT, rawControl, req, lit0, lit1, bfld, tst, fld_cat_low, fld_cat_high, CT_sec, CT_pred, CT_noPred, CT_off, fld_small, fld_of_lt, fld_toNat, fld_bool, fld_bool_top, fld_zero, fld_top, bool_beq_one, ofNat_toNat_self]
theorem regang (id : BitVec 8) : Statement (.regang id) := by
  refine roundTrips_of _ _ _ 0x78 rfl (opOf_CT 0x78 _ _ _ (by decide)) rfl
    (litsFit_count _ 0x78 _ (opOf_CT 0x78 _ _ _ (by decide)) rfl ?_) ?_
  · simp (disch := omega) [litCount, opOf_CT, CT_sec, fld_zero, fld_small]
  · simp (disch := omega) [decodeRaw, opOf_CT, rawControl, req, lit0, lit1, bfld, tst, fld_cat_low, fld_cat_high, CT_sec, CT_pred, CT_noPred, CT_off, fld_small, fld_of_lt, fld_toNat, fld_bool, fld_bool_top, fld_zero, fld_top, bool_beq_one, ofNat_toNat_self]
theorem spawn (off : BitVec 18) (w1 : Word) (w2 : Word) (w3 : Word) : Statement (.spawn off w1 w2 w3) := by
  refine roundTrips_of _ _ _ 0x79 rfl (opOf_CT 0x79 _ _ _ (by decide)) rfl
    (litsFit_count _ 0x79 _ (opOf_CT 0x79 _ _ _ (by decide)) rfl ?_) ?_
  · simp (disch := omega) [litCount, opOf_CT, CT_sec, fld_zero, fld_small]
  · simp (disch := omega) [decodeRaw, opOf_CT, rawControl, req, lit0, lit1, bfld, tst, fld_cat_low, fld_cat_high, CT_sec, CT_pred, CT_noPred, CT_off, fld_small, fld_of_lt, fld_toNat, fld_bool, fld_bool_top, fld_zero, fld_top, bool_beq_one, ofNat_toNat_self]
theorem mcall (m : BitVec 6) (w1 : Word) (w2 : Word) : Statement (.mcall m w1 w2) := by
  refine roundTrips_of _ _ _ 0x79 rfl (opOf_CT 0x79 _ _ _ (by decide)) rfl
    (litsFit_count _ 0x79 _ (opOf_CT 0x79 _ _ _ (by decide)) rfl ?_) ?_
  · simp (disch := omega) [litCount, opOf_CT, CT_sec, fld_zero, fld_small]
  · simp (disch := omega) [decodeRaw, opOf_CT, rawControl, req, lit0, lit1, bfld, tst, fld_cat_low, fld_cat_high, CT_sec, CT_pred, CT_noPred, CT_off, fld_small, fld_of_lt, fld_toNat, fld_bool, fld_bool_top, fld_zero, fld_top, bool_beq_one, ofNat_toNat_self]
theorem bara (o : Bar) : Statement (.bara o) := by
  obtain ⟨sc, idx, r⟩ := o
  refine roundTrips_of _ _ _ 0x7A rfl (opOf_SY 0x7A _ _ _ _ _ _ (by decide)) rfl
    (litsFit_count _ 0x7A _ (opOf_SY 0x7A _ _ _ _ _ _ (by decide)) rfl ?_) ?_
  · simp (disch := omega) [litCount, opOf_SY, SY_sec, fld_zero, fld_small]
  · simp (disch := omega) [decodeRaw, opOf_SY, rawSync, req, lit0, lit1, bfld, tst, fld_cat_low, fld_cat_high, sySA, sySB, sySC, zSC, zORD, zIDX, zYA, zYB, barOf, SY_sec, SY_sc, SY_ord, SY_idx, SY_idx0, SY_idx2, SY_idx13, SY_idx14, SY_sa, SY_sb, fld_small, fld_of_lt, fld_toNat, fld_bool, fld_bool_top, fld_zero, fld_top, bool_beq_one, ofNat_toNat_self]
theorem barw (o : Bar) : Statement (.barw o) := by
  obtain ⟨sc, idx, r⟩ := o
  refine roundTrips_of _ _ _ 0x7A rfl (opOf_SY 0x7A _ _ _ _ _ _ (by decide)) rfl
    (litsFit_count _ 0x7A _ (opOf_SY 0x7A _ _ _ _ _ _ (by decide)) rfl ?_) ?_
  · simp (disch := omega) [litCount, opOf_SY, SY_sec, fld_zero, fld_small]
  · simp (disch := omega) [decodeRaw, opOf_SY, rawSync, req, lit0, lit1, bfld, tst, fld_cat_low, fld_cat_high, sySA, sySB, sySC, zSC, zORD, zIDX, zYA, zYB, barOf, SY_sec, SY_sc, SY_ord, SY_idx, SY_idx0, SY_idx2, SY_idx13, SY_idx14, SY_sa, SY_sb, fld_small, fld_of_lt, fld_toNat, fld_bool, fld_bool_top, fld_zero, fld_top, bool_beq_one, ofNat_toNat_self]
theorem baraw (o : Bar) : Statement (.baraw o) := by
  obtain ⟨sc, idx, r⟩ := o
  refine roundTrips_of _ _ _ 0x7A rfl (opOf_SY 0x7A _ _ _ _ _ _ (by decide)) rfl
    (litsFit_count _ 0x7A _ (opOf_SY 0x7A _ _ _ _ _ _ (by decide)) rfl ?_) ?_
  · simp (disch := omega) [litCount, opOf_SY, SY_sec, fld_zero, fld_small]
  · simp (disch := omega) [decodeRaw, opOf_SY, rawSync, req, lit0, lit1, bfld, tst, fld_cat_low, fld_cat_high, sySA, sySB, sySC, zSC, zORD, zIDX, zYA, zYB, barOf, SY_sec, SY_sc, SY_ord, SY_idx, SY_idx0, SY_idx2, SY_idx13, SY_idx14, SY_sa, SY_sb, fld_small, fld_of_lt, fld_toNat, fld_bool, fld_bool_top, fld_zero, fld_top, bool_beq_one, ofNat_toNat_self]
theorem barq (o : Bar) : Statement (.barq o) := by
  obtain ⟨sc, idx, r⟩ := o
  refine roundTrips_of _ _ _ 0x7A rfl (opOf_SY 0x7A _ _ _ _ _ _ (by decide)) rfl
    (litsFit_count _ 0x7A _ (opOf_SY 0x7A _ _ _ _ _ _ (by decide)) rfl ?_) ?_
  · simp (disch := omega) [litCount, opOf_SY, SY_sec, fld_zero, fld_small]
  · simp (disch := omega) [decodeRaw, opOf_SY, rawSync, req, lit0, lit1, bfld, tst, fld_cat_low, fld_cat_high, sySA, sySB, sySC, zSC, zORD, zIDX, zYA, zYB, barOf, SY_sec, SY_sc, SY_ord, SY_idx, SY_idx0, SY_idx2, SY_idx13, SY_idx14, SY_sa, SY_sb, fld_small, fld_of_lt, fld_toNat, fld_bool, fld_bool_top, fld_zero, fld_top, bool_beq_one, ofNat_toNat_self]
theorem barcfg (o : Bar) : Statement (.barcfg o) := by
  obtain ⟨sc, idx, r⟩ := o
  refine roundTrips_of _ _ _ 0x7A rfl (opOf_SY 0x7A _ _ _ _ _ _ (by decide)) rfl
    (litsFit_count _ 0x7A _ (opOf_SY 0x7A _ _ _ _ _ _ (by decide)) rfl ?_) ?_
  · simp (disch := omega) [litCount, opOf_SY, SY_sec, fld_zero, fld_small]
  · simp (disch := omega) [decodeRaw, opOf_SY, rawSync, req, lit0, lit1, bfld, tst, fld_cat_low, fld_cat_high, sySA, sySB, sySC, zSC, zORD, zIDX, zYA, zYB, barOf, SY_sec, SY_sc, SY_ord, SY_idx, SY_idx0, SY_idx2, SY_idx13, SY_idx14, SY_sa, SY_sb, fld_small, fld_of_lt, fld_toNat, fld_bool, fld_bool_top, fld_zero, fld_top, bool_beq_one, ofNat_toNat_self]
theorem fence (sc : BitVec 3) (ord : BitVec 2) : Statement (.fence sc ord) := by
  refine roundTrips_of _ _ _ 0x7B rfl (opOf_SY 0x7B _ _ _ _ _ _ (by decide)) rfl
    (litsFit_count _ 0x7B _ (opOf_SY 0x7B _ _ _ _ _ _ (by decide)) rfl ?_) ?_
  · simp (disch := omega) [litCount, opOf_SY, SY_sec, fld_zero, fld_small]
  · simp (disch := omega) [decodeRaw, opOf_SY, rawSync, req, lit0, lit1, bfld, tst, fld_cat_low, fld_cat_high, sySA, sySB, sySC, zSC, zORD, zIDX, zYA, zYB, barOf, SY_sec, SY_sc, SY_ord, SY_idx, SY_idx0, SY_idx2, SY_idx13, SY_idx14, SY_sa, SY_sb, fld_small, fld_of_lt, fld_toNat, fld_bool, fld_bool_top, fld_zero, fld_top, bool_beq_one, ofNat_toNat_self]
theorem acq (sc : BitVec 3) (sa : BitVec 6) : Statement (.acq sc sa) := by
  refine roundTrips_of _ _ _ 0x7B rfl (opOf_SY 0x7B _ _ _ _ _ _ (by decide)) rfl
    (litsFit_count _ 0x7B _ (opOf_SY 0x7B _ _ _ _ _ _ (by decide)) rfl ?_) ?_
  · simp (disch := omega) [litCount, opOf_SY, SY_sec, fld_zero, fld_small]
  · simp (disch := omega) [decodeRaw, opOf_SY, rawSync, req, lit0, lit1, bfld, tst, fld_cat_low, fld_cat_high, sySA, sySB, sySC, zSC, zORD, zIDX, zYA, zYB, barOf, SY_sec, SY_sc, SY_ord, SY_idx, SY_idx0, SY_idx2, SY_idx13, SY_idx14, SY_sa, SY_sb, fld_small, fld_of_lt, fld_toNat, fld_bool, fld_bool_top, fld_zero, fld_top, bool_beq_one, ofNat_toNat_self]
theorem rel (sc : BitVec 3) (sa : BitVec 6) : Statement (.rel sc sa) := by
  refine roundTrips_of _ _ _ 0x7B rfl (opOf_SY 0x7B _ _ _ _ _ _ (by decide)) rfl
    (litsFit_count _ 0x7B _ (opOf_SY 0x7B _ _ _ _ _ _ (by decide)) rfl ?_) ?_
  · simp (disch := omega) [litCount, opOf_SY, SY_sec, fld_zero, fld_small]
  · simp (disch := omega) [decodeRaw, opOf_SY, rawSync, req, lit0, lit1, bfld, tst, fld_cat_low, fld_cat_high, sySA, sySB, sySC, zSC, zORD, zIDX, zYA, zYB, barOf, SY_sec, SY_sc, SY_ord, SY_idx, SY_idx0, SY_idx2, SY_idx13, SY_idx14, SY_sa, SY_sb, fld_small, fld_of_lt, fld_toNat, fld_bool, fld_bool_top, fld_zero, fld_top, bool_beq_one, ofNat_toNat_self]
theorem ifence : Statement (.ifence) := by
  refine roundTrips_of _ _ _ 0x7B rfl (opOf_SY 0x7B _ _ _ _ _ _ (by decide)) rfl
    (litsFit_count _ 0x7B _ (opOf_SY 0x7B _ _ _ _ _ _ (by decide)) rfl ?_) ?_
  · simp (disch := omega) [litCount, opOf_SY, SY_sec, fld_zero, fld_small]
  · simp (disch := omega) [decodeRaw, opOf_SY, rawSync, req, lit0, lit1, bfld, tst, fld_cat_low, fld_cat_high, sySA, sySB, sySC, zSC, zORD, zIDX, zYA, zYB, barOf, SY_sec, SY_sc, SY_ord, SY_idx, SY_idx0, SY_idx2, SY_idx13, SY_idx14, SY_sa, SY_sb, fld_small, fld_of_lt, fld_toNat, fld_bool, fld_bool_top, fld_zero, fld_top, bool_beq_one, ofNat_toNat_self]
theorem cwrd (sa : BitVec 6) (sd : BitVec 6) (lit : Word) : Statement (.cwrd sa sd lit) := by
  refine roundTrips_of _ _ _ 0x7C rfl (opOf_SY 0x7C _ _ _ _ _ _ (by decide)) rfl
    (litsFit_count _ 0x7C _ (opOf_SY 0x7C _ _ _ _ _ _ (by decide)) rfl ?_) ?_
  · simp (disch := omega) [litCount, opOf_SY, SY_sec, fld_zero, fld_small]
  · simp (disch := omega) [decodeRaw, opOf_SY, rawSystem, req, lit0, lit1, bfld, tst, fld_cat_low, fld_cat_high, sySA, sySB, sySC, zSC, zORD, zIDX, zYA, zYB, barOf, SY_sec, SY_sc, SY_ord, SY_idx, SY_idx0, SY_idx2, SY_idx13, SY_idx14, SY_sa, SY_sb, fld_small, fld_of_lt, fld_toNat, fld_bool, fld_bool_top, fld_zero, fld_top, bool_beq_one, ofNat_toNat_self]
theorem cwwr (sa : BitVec 6) (sb : BitVec 6) (lit : Word) : Statement (.cwwr sa sb lit) := by
  refine roundTrips_of _ _ _ 0x7C rfl (opOf_SY 0x7C _ _ _ _ _ _ (by decide)) rfl
    (litsFit_count _ 0x7C _ (opOf_SY 0x7C _ _ _ _ _ _ (by decide)) rfl ?_) ?_
  · simp (disch := omega) [litCount, opOf_SY, SY_sec, fld_zero, fld_small]
  · simp (disch := omega) [decodeRaw, opOf_SY, rawSystem, req, lit0, lit1, bfld, tst, fld_cat_low, fld_cat_high, sySA, sySB, sySC, zSC, zORD, zIDX, zYA, zYB, barOf, SY_sec, SY_sc, SY_ord, SY_idx, SY_idx0, SY_idx2, SY_idx13, SY_idx14, SY_sa, SY_sb, fld_small, fld_of_lt, fld_toNat, fld_bool, fld_bool_top, fld_zero, fld_top, bool_beq_one, ofNat_toNat_self]
theorem winrd (sa : BitVec 6) (sd : BitVec 6) : Statement (.winrd sa sd) := by
  refine roundTrips_of _ _ _ 0x7C rfl (opOf_SY 0x7C _ _ _ _ _ _ (by decide)) rfl
    (litsFit_count _ 0x7C _ (opOf_SY 0x7C _ _ _ _ _ _ (by decide)) rfl ?_) ?_
  · simp (disch := omega) [litCount, opOf_SY, SY_sec, fld_zero, fld_small]
  · simp (disch := omega) [decodeRaw, opOf_SY, rawSystem, req, lit0, lit1, bfld, tst, fld_cat_low, fld_cat_high, sySA, sySB, sySC, zSC, zORD, zIDX, zYA, zYB, barOf, SY_sec, SY_sc, SY_ord, SY_idx, SY_idx0, SY_idx2, SY_idx13, SY_idx14, SY_sa, SY_sb, fld_small, fld_of_lt, fld_toNat, fld_bool, fld_bool_top, fld_zero, fld_top, bool_beq_one, ofNat_toNat_self]
theorem winwr (sa : BitVec 6) (sb : BitVec 6) : Statement (.winwr sa sb) := by
  refine roundTrips_of _ _ _ 0x7C rfl (opOf_SY 0x7C _ _ _ _ _ _ (by decide)) rfl
    (litsFit_count _ 0x7C _ (opOf_SY 0x7C _ _ _ _ _ _ (by decide)) rfl ?_) ?_
  · simp (disch := omega) [litCount, opOf_SY, SY_sec, fld_zero, fld_small]
  · simp (disch := omega) [decodeRaw, opOf_SY, rawSystem, req, lit0, lit1, bfld, tst, fld_cat_low, fld_cat_high, sySA, sySB, sySC, zSC, zORD, zIDX, zYA, zYB, barOf, SY_sec, SY_sc, SY_ord, SY_idx, SY_idx0, SY_idx2, SY_idx13, SY_idx14, SY_sa, SY_sb, fld_small, fld_of_lt, fld_toNat, fld_bool, fld_bool_top, fld_zero, fld_top, bool_beq_one, ofNat_toNat_self]
theorem gpark (sa : BitVec 6) (sd : BitVec 6) : Statement (.gpark sa sd) := by
  refine roundTrips_of _ _ _ 0x7D rfl (opOf_SY 0x7D _ _ _ _ _ _ (by decide)) rfl
    (litsFit_count _ 0x7D _ (opOf_SY 0x7D _ _ _ _ _ _ (by decide)) rfl ?_) ?_
  · simp (disch := omega) [litCount, opOf_SY, SY_sec, fld_zero, fld_small]
  · simp (disch := omega) [decodeRaw, opOf_SY, rawSystem, req, lit0, lit1, bfld, tst, fld_cat_low, fld_cat_high, sySA, sySB, sySC, zSC, zORD, zIDX, zYA, zYB, barOf, SY_sec, SY_sc, SY_ord, SY_idx, SY_idx0, SY_idx2, SY_idx13, SY_idx14, SY_sa, SY_sb, fld_small, fld_of_lt, fld_toNat, fld_bool, fld_bool_top, fld_zero, fld_top, bool_beq_one, ofNat_toNat_self]
theorem gresume (sa : BitVec 6) (sd : BitVec 6) : Statement (.gresume sa sd) := by
  refine roundTrips_of _ _ _ 0x7D rfl (opOf_SY 0x7D _ _ _ _ _ _ (by decide)) rfl
    (litsFit_count _ 0x7D _ (opOf_SY 0x7D _ _ _ _ _ _ (by decide)) rfl ?_) ?_
  · simp (disch := omega) [litCount, opOf_SY, SY_sec, fld_zero, fld_small]
  · simp (disch := omega) [decodeRaw, opOf_SY, rawSystem, req, lit0, lit1, bfld, tst, fld_cat_low, fld_cat_high, sySA, sySB, sySC, zSC, zORD, zIDX, zYA, zYB, barOf, SY_sec, SY_sc, SY_ord, SY_idx, SY_idx0, SY_idx2, SY_idx13, SY_idx14, SY_sa, SY_sb, fld_small, fld_of_lt, fld_toNat, fld_bool, fld_bool_top, fld_zero, fld_top, bool_beq_one, ofNat_toNat_self]
theorem tret : Statement (.tret) := by
  refine roundTrips_of _ _ _ 0x7D rfl (opOf_SY 0x7D _ _ _ _ _ _ (by decide)) rfl
    (litsFit_count _ 0x7D _ (opOf_SY 0x7D _ _ _ _ _ _ (by decide)) rfl ?_) ?_
  · simp (disch := omega) [litCount, opOf_SY, SY_sec, fld_zero, fld_small]
  · simp (disch := omega) [decodeRaw, opOf_SY, rawSystem, req, lit0, lit1, bfld, tst, fld_cat_low, fld_cat_high, sySA, sySB, sySC, zSC, zORD, zIDX, zYA, zYB, barOf, SY_sec, SY_sc, SY_ord, SY_idx, SY_idx0, SY_idx2, SY_idx13, SY_idx14, SY_sa, SY_sb, fld_small, fld_of_lt, fld_toNat, fld_bool, fld_bool_top, fld_zero, fld_top, bool_beq_one, ofNat_toNat_self]
theorem tretHold : Statement (.tretHold) := by
  refine roundTrips_of _ _ _ 0x7D rfl (opOf_SY 0x7D _ _ _ _ _ _ (by decide)) rfl
    (litsFit_count _ 0x7D _ (opOf_SY 0x7D _ _ _ _ _ _ (by decide)) rfl ?_) ?_
  · simp (disch := omega) [litCount, opOf_SY, SY_sec, fld_zero, fld_small]
  · simp (disch := omega) [decodeRaw, opOf_SY, rawSystem, req, lit0, lit1, bfld, tst, fld_cat_low, fld_cat_high, sySA, sySB, sySC, zSC, zORD, zIDX, zYA, zYB, barOf, SY_sec, SY_sc, SY_ord, SY_idx, SY_idx0, SY_idx2, SY_idx13, SY_idx14, SY_sa, SY_sb, fld_small, fld_of_lt, fld_toNat, fld_bool, fld_bool_top, fld_zero, fld_top, bool_beq_one, ofNat_toNat_self]
theorem tretEnd : Statement (.tretEnd) := by
  refine roundTrips_of _ _ _ 0x7D rfl (opOf_SY 0x7D _ _ _ _ _ _ (by decide)) rfl
    (litsFit_count _ 0x7D _ (opOf_SY 0x7D _ _ _ _ _ _ (by decide)) rfl ?_) ?_
  · simp (disch := omega) [litCount, opOf_SY, SY_sec, fld_zero, fld_small]
  · simp (disch := omega) [decodeRaw, opOf_SY, rawSystem, req, lit0, lit1, bfld, tst, fld_cat_low, fld_cat_high, sySA, sySB, sySC, zSC, zORD, zIDX, zYA, zYB, barOf, SY_sec, SY_sc, SY_ord, SY_idx, SY_idx0, SY_idx2, SY_idx13, SY_idx14, SY_sa, SY_sb, fld_small, fld_of_lt, fld_toNat, fld_bool, fld_bool_top, fld_zero, fld_top, bool_beq_one, ofNat_toNat_self]
theorem thaw (sa : BitVec 6) (sd : BitVec 6) : Statement (.thaw sa sd) := by
  refine roundTrips_of _ _ _ 0x7D rfl (opOf_SY 0x7D _ _ _ _ _ _ (by decide)) rfl
    (litsFit_count _ 0x7D _ (opOf_SY 0x7D _ _ _ _ _ _ (by decide)) rfl ?_) ?_
  · simp (disch := omega) [litCount, opOf_SY, SY_sec, fld_zero, fld_small]
  · simp (disch := omega) [decodeRaw, opOf_SY, rawSystem, req, lit0, lit1, bfld, tst, fld_cat_low, fld_cat_high, sySA, sySB, sySC, zSC, zORD, zIDX, zYA, zYB, barOf, SY_sec, SY_sc, SY_ord, SY_idx, SY_idx0, SY_idx2, SY_idx13, SY_idx14, SY_sa, SY_sb, fld_small, fld_of_lt, fld_toNat, fld_bool, fld_bool_top, fld_zero, fld_top, bool_beq_one, ofNat_toNat_self]
theorem thawEnd (sa : BitVec 6) (sd : BitVec 6) : Statement (.thawEnd sa sd) := by
  refine roundTrips_of _ _ _ 0x7D rfl (opOf_SY 0x7D _ _ _ _ _ _ (by decide)) rfl
    (litsFit_count _ 0x7D _ (opOf_SY 0x7D _ _ _ _ _ _ (by decide)) rfl ?_) ?_
  · simp (disch := omega) [litCount, opOf_SY, SY_sec, fld_zero, fld_small]
  · simp (disch := omega) [decodeRaw, opOf_SY, rawSystem, req, lit0, lit1, bfld, tst, fld_cat_low, fld_cat_high, sySA, sySB, sySC, zSC, zORD, zIDX, zYA, zYB, barOf, SY_sec, SY_sc, SY_ord, SY_idx, SY_idx0, SY_idx2, SY_idx13, SY_idx14, SY_sa, SY_sb, fld_small, fld_of_lt, fld_toNat, fld_bool, fld_bool_top, fld_zero, fld_top, bool_beq_one, ofNat_toNat_self]
theorem tlbinv (sc : BitVec 3) (mode : BitVec 2) (sa : BitVec 6) (sb : BitVec 6) : Statement (.tlbinv sc mode sa sb) := by
  refine roundTrips_of _ _ _ 0x7E rfl (opOf_SY 0x7E _ _ _ _ _ _ (by decide)) rfl
    (litsFit_count _ 0x7E _ (opOf_SY 0x7E _ _ _ _ _ _ (by decide)) rfl ?_) ?_
  · simp (disch := omega) [litCount, opOf_SY, SY_sec, fld_zero, fld_small]
  · simp (disch := omega) [decodeRaw, opOf_SY, rawSystem, req, lit0, lit1, bfld, tst, fld_cat_low, fld_cat_high, sySA, sySB, sySC, zSC, zORD, zIDX, zYA, zYB, barOf, SY_sec, SY_sc, SY_ord, SY_idx, SY_idx0, SY_idx2, SY_idx13, SY_idx14, SY_sa, SY_sb, fld_small, fld_of_lt, fld_toNat, fld_bool, fld_bool_top, fld_zero, fld_top, bool_beq_one, ofNat_toNat_self]
theorem ctxsv (sa : BitVec 6) (sb : BitVec 6) : Statement (.ctxsv sa sb) := by
  refine roundTrips_of _ _ _ 0x7E rfl (opOf_SY 0x7E _ _ _ _ _ _ (by decide)) rfl
    (litsFit_count _ 0x7E _ (opOf_SY 0x7E _ _ _ _ _ _ (by decide)) rfl ?_) ?_
  · simp (disch := omega) [litCount, opOf_SY, SY_sec, fld_zero, fld_small]
  · simp (disch := omega) [decodeRaw, opOf_SY, rawSystem, req, lit0, lit1, bfld, tst, fld_cat_low, fld_cat_high, sySA, sySB, sySC, zSC, zORD, zIDX, zYA, zYB, barOf, SY_sec, SY_sc, SY_ord, SY_idx, SY_idx0, SY_idx2, SY_idx13, SY_idx14, SY_sa, SY_sb, fld_small, fld_of_lt, fld_toNat, fld_bool, fld_bool_top, fld_zero, fld_top, bool_beq_one, ofNat_toNat_self]
theorem ctxld (sa : BitVec 6) (sb : BitVec 6) : Statement (.ctxld sa sb) := by
  refine roundTrips_of _ _ _ 0x7E rfl (opOf_SY 0x7E _ _ _ _ _ _ (by decide)) rfl
    (litsFit_count _ 0x7E _ (opOf_SY 0x7E _ _ _ _ _ _ (by decide)) rfl ?_) ?_
  · simp (disch := omega) [litCount, opOf_SY, SY_sec, fld_zero, fld_small]
  · simp (disch := omega) [decodeRaw, opOf_SY, rawSystem, req, lit0, lit1, bfld, tst, fld_cat_low, fld_cat_high, sySA, sySB, sySC, zSC, zORD, zIDX, zYA, zYB, barOf, SY_sec, SY_sc, SY_ord, SY_idx, SY_idx0, SY_idx2, SY_idx13, SY_idx14, SY_sa, SY_sb, fld_small, fld_of_lt, fld_toNat, fld_bool, fld_bool_top, fld_zero, fld_top, bool_beq_one, ofNat_toNat_self]
theorem ctxldDiscard (sa : BitVec 6) (sb : BitVec 6) : Statement (.ctxldDiscard sa sb) := by
  refine roundTrips_of _ _ _ 0x7E rfl (opOf_SY 0x7E _ _ _ _ _ _ (by decide)) rfl
    (litsFit_count _ 0x7E _ (opOf_SY 0x7E _ _ _ _ _ _ (by decide)) rfl ?_) ?_
  · simp (disch := omega) [litCount, opOf_SY, SY_sec, fld_zero, fld_small]
  · simp (disch := omega) [decodeRaw, opOf_SY, rawSystem, req, lit0, lit1, bfld, tst, fld_cat_low, fld_cat_high, sySA, sySB, sySC, zSC, zORD, zIDX, zYA, zYB, barOf, SY_sec, SY_sc, SY_ord, SY_idx, SY_idx0, SY_idx2, SY_idx13, SY_idx14, SY_sa, SY_sb, fld_small, fld_of_lt, fld_toNat, fld_bool, fld_bool_top, fld_zero, fld_top, bool_beq_one, ofNat_toNat_self]
theorem mcswr (sa : BitVec 6) (sb : BitVec 6) : Statement (.mcswr sa sb) := by
  refine roundTrips_of _ _ _ 0x7E rfl (opOf_SY 0x7E _ _ _ _ _ _ (by decide)) rfl
    (litsFit_count _ 0x7E _ (opOf_SY 0x7E _ _ _ _ _ _ (by decide)) rfl ?_) ?_
  · simp (disch := omega) [litCount, opOf_SY, SY_sec, fld_zero, fld_small]
  · simp (disch := omega) [decodeRaw, opOf_SY, rawSystem, req, lit0, lit1, bfld, tst, fld_cat_low, fld_cat_high, sySA, sySB, sySC, zSC, zORD, zIDX, zYA, zYB, barOf, SY_sec, SY_sc, SY_ord, SY_idx, SY_idx0, SY_idx2, SY_idx13, SY_idx14, SY_sa, SY_sb, fld_small, fld_of_lt, fld_toNat, fld_bool, fld_bool_top, fld_zero, fld_top, bool_beq_one, ofNat_toNat_self]
theorem sysc (code : BitVec 16) : Statement (.sysc code) := by
  have ho : opOf (cat (cat (cat (cat 0x7F 4 0) 3 0) 2 0) 16 code.toNat) = 0x7F := by
    simp (disch := omega) [opOf, fld_cat_high, fld_small]
  refine roundTrips_of _ _ _ 0x7F rfl ho rfl (litsFit_count _ 0x7F _ ho rfl (by simp [litCount, ho])) ?_
  simp (disch := omega) [decodeRaw, ho, rawSystem, req, lit0, bfld, zSC, zORD, fld_cat_low, fld_cat_high, fld_small, fld_of_lt, fld_toNat, fld_bool, fld_bool_top, fld_zero, fld_top, bool_beq_one, ofNat_toNat_self]
theorem clauseDecode (g : Nat) : Statement (.clauseDecode g) := fun h => absurd h.1 (by simp [Instr.isWord])
theorem waitSatisfied (g : Nat) : Statement (.waitSatisfied g) := fun h => absurd h.1 (by simp [Instr.isWord])
theorem longLatencyReturn (g : Nat) (r : Nat) : Statement (.longLatencyReturn g r) := fun h => absurd h.1 (by simp [Instr.isWord])
theorem commitPoint (g : Nat) : Statement (.commitPoint g) := fun h => absurd h.1 (by simp [Instr.isWord])
theorem clauseRetire (g : Nat) : Statement (.clauseRetire g) := fun h => absurd h.1 (by simp [Instr.isWord])
theorem strikeReport (core : Nat) : Statement (.strikeReport core) := fun h => absurd h.1 (by simp [Instr.isWord])
theorem activeSetSwap (core : Nat) : Statement (.activeSetSwap core) := fun h => absurd h.1 (by simp [Instr.isWord])
theorem urgentPromotion (core : Nat) : Statement (.urgentPromotion core) := fun h => absurd h.1 (by simp [Instr.isWord])
theorem deferredFaultDelivery (g : Nat) : Statement (.deferredFaultDelivery g) := fun h => absurd h.1 (by simp [Instr.isWord])
theorem lostLoadSignal (g : Nat) : Statement (.lostLoadSignal g) := fun h => absurd h.1 (by simp [Instr.isWord])
theorem litTargetChange (core : Nat) (t : Nat) : Statement (.litTargetChange core t) := fun h => absurd h.1 (by simp [Instr.isWord])
theorem bankDarken (core : Nat) : Statement (.bankDarken core) := fun h => absurd h.1 (by simp [Instr.isWord])
theorem bankRelight (core : Nat) : Statement (.bankRelight core) := fun h => absurd h.1 (by simp [Instr.isWord])
theorem scratchpadArrival (r : Nat) : Statement (.scratchpadArrival r) := fun h => absurd h.1 (by simp [Instr.isWord])
theorem pageWalkComplete (r : Nat) : Statement (.pageWalkComplete r) := fun h => absurd h.1 (by simp [Instr.isWord])
theorem faultRecordForward (cluster : Nat) (seq : Nat) : Statement (.faultRecordForward cluster seq) := fun h => absurd h.1 (by simp [Instr.isWord])
theorem globalAccessPerform (r : Nat) : Statement (.globalAccessPerform r) := fun h => absurd h.1 (by simp [Instr.isWord])
theorem directPathReply (r : Nat) : Statement (.directPathReply r) := fun h => absurd h.1 (by simp [Instr.isWord])
theorem atomoArrival (r : Nat) : Statement (.atomoArrival r) := fun h => absurd h.1 (by simp [Instr.isWord])
theorem atomoEvict (slice : Nat) : Statement (.atomoEvict slice) := fun h => absurd h.1 (by simp [Instr.isWord])
theorem aflushArrival (r : Nat) : Statement (.aflushArrival r) := fun h => absurd h.1 (by simp [Instr.isWord])
theorem cprElementArrival (r : Nat) : Statement (.cprElementArrival r) := fun h => absurd h.1 (by simp [Instr.isWord])
theorem copyTransfer (k : Nat) : Statement (.copyTransfer k) := fun h => absurd h.1 (by simp [Instr.isWord])
theorem copyOpComplete (k : Nat) : Statement (.copyOpComplete k) := fun h => absurd h.1 (by simp [Instr.isWord])
theorem teleaselStepBoundary (cluster : Nat) : Statement (.teleaselStepBoundary cluster) := fun h => absurd h.1 (by simp [Instr.isWord])
theorem matrixEngineStep (core : Nat) : Statement (.matrixEngineStep core) := fun h => absurd h.1 (by simp [Instr.isWord])
theorem matrixOpComplete (core : Nat) : Statement (.matrixOpComplete core) := fun h => absurd h.1 (by simp [Instr.isWord])
theorem lookupEngineStep (core : Nat) : Statement (.lookupEngineStep core) := fun h => absurd h.1 (by simp [Instr.isWord])
theorem lookupOpComplete (core : Nat) : Statement (.lookupOpComplete core) := fun h => absurd h.1 (by simp [Instr.isWord])
theorem barrierArrival (r : Nat) : Statement (.barrierArrival r) := fun h => absurd h.1 (by simp [Instr.isWord])
theorem barcfgArrival (r : Nat) : Statement (.barcfgArrival r) := fun h => absurd h.1 (by simp [Instr.isWord])
theorem barrierReleaseDelivery (n : Nat) : Statement (.barrierReleaseDelivery n) := fun h => absurd h.1 (by simp [Instr.isWord])
theorem relArrival (r : Nat) : Statement (.relArrival r) := fun h => absurd h.1 (by simp [Instr.isWord])
theorem acqAnswer (r : Nat) : Statement (.acqAnswer r) := fun h => absurd h.1 (by simp [Instr.isWord])
theorem pushArrival (r : Nat) : Statement (.pushArrival r) := fun h => absurd h.1 (by simp [Instr.isWord])
theorem popArrival (r : Nat) : Statement (.popArrival r) := fun h => absurd h.1 (by simp [Instr.isWord])
theorem plcfgArrival (r : Nat) : Statement (.plcfgArrival r) := fun h => absurd h.1 (by simp [Instr.isWord])
theorem plstatArrival (r : Nat) : Statement (.plstatArrival r) := fun h => absurd h.1 (by simp [Instr.isWord])
theorem pldrainArrival (r : Nat) : Statement (.pldrainArrival r) := fun h => absurd h.1 (by simp [Instr.isWord])
theorem poolWithdrawal (g : Nat) : Statement (.poolWithdrawal g) := fun h => absurd h.1 (by simp [Instr.isWord])
theorem queuePoll (q : Nat) : Statement (.queuePoll q) := fun h => absurd h.1 (by simp [Instr.isWord])
theorem slotConsume (q : Nat) : Statement (.slotConsume q) := fun h => absurd h.1 (by simp [Instr.isWord])
theorem launchGrant (q : Nat) : Statement (.launchGrant q) := fun h => absurd h.1 (by simp [Instr.isWord])
theorem trapHandlerEntry (cluster : Nat) (ctx : Nat) : Statement (.trapHandlerEntry cluster ctx) := fun h => absurd h.1 (by simp [Instr.isWord])
theorem ctxsvComplete (g : Nat) : Statement (.ctxsvComplete g) := fun h => absurd h.1 (by simp [Instr.isWord])
theorem resizeComplete (part : Nat) : Statement (.resizeComplete part) := fun h => absurd h.1 (by simp [Instr.isWord])
theorem memoryScrubComplete (memUnit : Nat) : Statement (.memoryScrubComplete memUnit) := fun h => absurd h.1 (by simp [Instr.isWord])
theorem meterRelease (r : Nat) : Statement (.meterRelease r) := fun h => absurd h.1 (by simp [Instr.isWord])
theorem cheukPortDown (port : Nat) : Statement (.cheukPortDown port) := fun h => absurd h.1 (by simp [Instr.isWord])
theorem thermalAlarm (cluster : Nat) (temp : BitVec 8) : Statement (.thermalAlarm cluster temp) := fun h => absurd h.1 (by simp [Instr.isWord])
theorem powerBudgetAdjust (cluster : Nat) (tighten : Bool) : Statement (.powerBudgetAdjust cluster tighten) := fun h => absurd h.1 (by simp [Instr.isWord])
theorem sprintEnd (cluster : Nat) : Statement (.sprintEnd cluster) := fun h => absurd h.1 (by simp [Instr.isWord])
theorem coolDownEnd (cluster : Nat) : Statement (.coolDownEnd cluster) := fun h => absurd h.1 (by simp [Instr.isWord])
theorem faultAnswer (cluster : Nat) (seq : Nat) (unres : Bool) : Statement (.faultAnswer cluster seq unres) := fun h => absurd h.1 (by simp [Instr.isWord])
theorem qtailWrite (fn : Nat) (q : Nat) (v : DWord) : Statement (.qtailWrite fn q v) := fun h => absurd h.1 (by simp [Instr.isWord])
theorem queueStatusClear (fn : Nat) (q : Nat) (bits : Word) : Statement (.queueStatusClear fn q bits) := fun h => absurd h.1 (by simp [Instr.isWord])
theorem qpreempt (fn : Nat) (q : Nat) (v : DWord) : Statement (.qpreempt fn q v) := fun h => absurd h.1 (by simp [Instr.isWord])
theorem registerWrite (fn : Nat) (off : Nat) (v : DWord) : Statement (.registerWrite fn off v) := fun h => absurd h.1 (by simp [Instr.isWord])
theorem create (c : Command) : Statement (.create c) := fun h => absurd h.1 (by simp [Instr.isWord])
theorem resize (c : Command) : Statement (.resize c) := fun h => absurd h.1 (by simp [Instr.isWord])
theorem destroy (c : Command) : Statement (.destroy c) := fun h => absurd h.1 (by simp [Instr.isWord])
theorem setrate (c : Command) : Statement (.setrate c) := fun h => absurd h.1 (by simp [Instr.isWord])
theorem thawhost (c : Command) : Statement (.thawhost c) := fun h => absurd h.1 (by simp [Instr.isWord])
theorem hostMemoryAccess (fn : Nat) (write : Bool) (addr : Nat) (bytes : List Byte) : Statement (.hostMemoryAccess fn write addr bytes) := fun h => absurd h.1 (by simp [Instr.isWord])
theorem hostIsolationViolation (fn : Nat) : Statement (.hostIsolationViolation fn) := fun h => absurd h.1 (by simp [Instr.isWord])
theorem cheukFlit (port : Nat) (f : Flit) : Statement (.cheukFlit port f) := fun h => absurd h.1 (by simp [Instr.isWord])
theorem powerUp (b : BootImage) : Statement (.powerUp b) := fun h => absurd h.1 (by simp [Instr.isWord])
theorem attestationReport (nonce : List Byte) : Statement (.attestationReport nonce) := fun h => absurd h.1 (by simp [Instr.isWord])
theorem throttleRelease : Statement (.throttleRelease) := fun h => absurd h.1 (by simp [Instr.isWord])
theorem nop : Statement (.nop) := by
  refine roundTrips_of _ _ _ 0x74 rfl (opOf_CT 0x74 _ _ _ (by decide)) rfl
    (litsFit_count _ 0x74 _ (opOf_CT 0x74 _ _ _ (by decide)) rfl ?_) ?_
  · simp (disch := omega) [litCount, opOf_CT, CT_sec, fld_zero, fld_small]
  · simp (disch := omega) [decodeRaw, opOf_CT, rawControl, req, lit0, lit1, bfld, tst, fld_cat_low, fld_cat_high, CT_sec, CT_pred, CT_noPred, CT_off, fld_small, fld_of_lt, fld_toNat, fld_bool, fld_bool_top, fld_zero, fld_top, bool_beq_one, ofNat_toNat_self]
theorem yield : Statement (.yield) := by
  refine roundTrips_of _ _ _ 0x74 rfl (opOf_CT 0x74 _ _ _ (by decide)) rfl
    (litsFit_count _ 0x74 _ (opOf_CT 0x74 _ _ _ (by decide)) rfl ?_) ?_
  · simp (disch := omega) [litCount, opOf_CT, CT_sec, fld_zero, fld_small]
  · simp (disch := omega) [decodeRaw, opOf_CT, rawControl, req, lit0, lit1, bfld, tst, fld_cat_low, fld_cat_high, CT_sec, CT_pred, CT_noPred, CT_off, fld_small, fld_of_lt, fld_toNat, fld_bool, fld_bool_top, fld_zero, fld_top, bool_beq_one, ofNat_toNat_self]

end Sys2Proof.Laws.RoundTrip
end

