-- ==== Sys2Proof/Tests/Slice0.lean ====
section
/-! SUPPORT. Tests: ill-formed terms that the well-formedness check refuses, words of the spec's worked
encodings, small steps, and for each statement with hypotheses a state and operands that meet them. -/

set_option Elab.async false

namespace Sys2Proof.Tests

open Sys2Proof Sys2Proof.Machine

/-! Ill-formed terms, one for each check of WellFormed. -/

/-- VABS has no unsigned type (R120). -/
theorem test_ill_type_not_accepted : Instr.wf (.vabs ⟨⟨false, 7⟩, 1, 2, some ⟨1, 0, false, 0⟩⟩) = false := by decide

/-- C of a form without a third source is 0 (R65). -/
theorem test_ill_third_source_not_read : Instr.wf (.vadd ⟨⟨false, 7⟩, 1, 2, 3, some ⟨0, 5, false, 0⟩⟩) = false := by decide

/-- RM of an integer form is 0 (R65). -/
theorem test_ill_rounding_not_accepted : Instr.wf (.vadd ⟨⟨false, 7⟩, 1, 2, 3, some ⟨0, 0, false, 1⟩⟩) = false := by decide

/-- RM 4 and above are reserved (R65). -/
theorem test_ill_rounding_reserved : Instr.wf (.vfadd ⟨⟨false, 7⟩, 1, 2, 3, some ⟨8, 0, false, 4⟩⟩) = false := by decide

/-- BU of a unary form is 0 (R65). -/
theorem test_ill_uniform_b_not_accepted : Instr.wf (.vnot ⟨⟨false, 7⟩, 1, 2, some ⟨0, 0, true, 0⟩⟩) = false := by decide

/-- With BU, B[6] is 0 (R65). -/
theorem test_ill_uniform_b_out_of_range : Instr.wf (.vadd ⟨⟨false, 7⟩, 1, 2, 64, some ⟨0, 0, true, 0⟩⟩) = false := by decide

/-- A 64-bit destination is an even pair (R74). -/
theorem test_ill_odd_pair_destination : Instr.wf (.sadd ⟨3, true, 5, 4, 16⟩) = false := by decide

/-- A 64-bit source a is an even pair (R74). -/
theorem test_ill_odd_pair_source_a : Instr.wf (.sadd ⟨2, true, 4, 5, 16⟩) = false := by decide

/-- A 64-bit source b is an even pair (R74). -/
theorem test_ill_odd_pair_source_b : Instr.wf (.sadd ⟨2, false, 4, 4, 3⟩) = false := by decide

/-- SBFE has no 64-bit type (R112). -/
theorem test_ill_type_64_not_accepted : Instr.wf (.sbfe ⟨2, false, 4, 4, 2⟩) = false := by decide

/-- SBFE has no immediate (R112). -/
theorem test_ill_immediate_not_accepted : Instr.wf (.sbfe ⟨0, true, 4, 4, 2⟩) = false := by decide

/-- SMOV does not use A (R112). -/
theorem test_ill_unused_field_nonzero : Instr.wf (.smov ⟨0, false, 4, 1, 2⟩) = false := by decide

/-- VMADW writes an even pair (R118). -/
theorem test_ill_wide_accumulator_odd : Instr.wf (.vmadw ⟨⟨false, 7⟩, 5, 2, 3, none⟩) = false := by decide

/-- Two vector special values (R120). -/
theorem test_ill_special_source : Instr.wf (.vmovSpecial ⟨⟨false, 7⟩, 1, 2, none⟩) = false := by decide

/-- VBCST reads a uniform register (R120). -/
theorem test_ill_uniform_source : Instr.wf (.vbcst ⟨⟨false, 7⟩, 1, 64, none⟩) = false := by decide

/-- PNOT has one source (R121). -/
theorem test_ill_predicate_b_nonzero : Instr.wf (.pnot ⟨⟨false, 7⟩, 1, 2, 3, false⟩) = false := by decide

/-- VFCVT converts between two formats (R150). -/
theorem test_ill_conversion_to_itself : Instr.wf (.vfcvt ⟨⟨false, 7⟩, 1, 2, none⟩ 0 false) = false := by decide

/-- h needs a 16-bit format (R151). -/
theorem test_ill_half_of_integer_conversion : Instr.wf (.vicvt ⟨⟨false, 7⟩, 1, 2, none⟩ true false true) = false := by decide

/-- Six reductions (R155). -/
theorem test_ill_reduction_operation : Instr.wf (.vred ⟨⟨false, 7⟩, 1, 2, none⟩ 6) = false := by decide

/-- AND has no float type (R155). -/
theorem test_ill_reduction_type : Instr.wf (.vred ⟨⟨false, 7⟩, 1, 2, some ⟨8, 0, false, 0⟩⟩ 3) = false := by decide

/-- idx has no count (R157). -/
theorem test_ill_shuffle_count : Instr.wf (.vshfl ⟨⟨false, 7⟩, 1, 2, none⟩ 0 1) = false := by decide

/-- A vote writes a predicate (R158). -/
theorem test_ill_vote_destination : Instr.wf (.vvote ⟨⟨false, 7⟩, 8, 2, none⟩ 0) = false := by decide

/-- Uniform special values end at 0x15 (R82). -/
theorem test_ill_special_index : Instr.wf (.srdsp 1 0x16) = false := by decide

/-- LDD has no register image form (R162). -/
theorem test_ill_memory_size : Instr.wf (.ldd ⟨⟨false, 7⟩, 1, 2, 5, false, false, false, none⟩) = false := by decide

/-- Only loads extend (R162). -/
theorem test_ill_memory_sign : Instr.wf (.stg ⟨⟨false, 7⟩, 1, 2, 0, false, true, false, none⟩) = false := by decide

/-- A global base is a pair (R162). -/
theorem test_ill_memory_base_odd : Instr.wf (.ldg ⟨⟨false, 7⟩, 1, 3, 2, false, false, false, none⟩) = false := by decide

/-- A uniform base is s0 to s62 (R162). -/
theorem test_ill_memory_uniform_base : Instr.wf (.ldg ⟨⟨false, 7⟩, 1, 64, 2, true, false, false, none⟩) = false := by decide

/-- An 8-byte register is a pair (R162). -/
theorem test_ill_memory_pair_odd : Instr.wf (.lds ⟨⟨false, 7⟩, 1, 2, 3, false, false, false, none⟩) = false := by decide

/-- A 16-byte register is a multiple of 4 (R162). -/
theorem test_ill_memory_quad : Instr.wf (.lds ⟨⟨false, 7⟩, 2, 2, 4, false, false, false, none⟩) = false := by decide

/-- Only LDG takes .l2 (R162). -/
theorem test_ill_memory_l2 : Instr.wf (.lds ⟨⟨false, 7⟩, 1, 2, 2, false, false, true, none⟩) = false := by decide

/-- Only SLDG goes to the L2 (R163). -/
theorem test_ill_uniform_memory_l2 : Instr.wf (.sstg ⟨4, 2, 2, false, true, none⟩) = false := by decide

/-- MIN has no 64-bit type (R175). -/
theorem test_ill_atomic_type : Instr.wf (.atomg ⟨⟨false, 7⟩, 1, 2, 1, 3, 0⟩) = false := by decide

/-- CPL moves 4, 8 or 16 bytes (R211). -/
theorem test_ill_copy_size : Instr.wf (.cpl ⟨false, 7⟩ 2 2 0 3 false) = false := by decide

/-- The coordinates are sc to sc + 3 (R215). -/
theorem test_ill_copy_coordinates : Instr.wf (.cptLd ⟨1, 2, 60, false⟩) = false := by decide

/-- Three timelines (R208). -/
theorem test_ill_timeline : Instr.wf (.tclose 1 3) = false := by decide

/-- Five words of TSTAT (R208). -/
theorem test_ill_timeline_word : Instr.wf (.tstat 1 0 5) = false := by decide

/-- Raw mode names no slot (R238). -/
theorem test_ill_raw_slot : Instr.wf (.acld ⟨1, 4, 2, true⟩) = false := by decide

/-- acc=zero and acc=resume together trap (R238). -/
theorem test_ill_zero_and_resume : Instr.wf (.mma ⟨2, 4, 6, 1, true, true, 0⟩) = false := by decide

/-- The payload registers are sb to sb + 7 (R296). -/
theorem test_ill_pool_payload : Instr.wf (.plpush 0 4 57 false 0) = false := by decide

/-- PLPOP writes sd to sd + 11 (R296). -/
theorem test_ill_pool_destination : Instr.wf (.plpop 0 49 false) = false := by decide

/-- BRX reads an even pair (R90). -/
theorem test_ill_branch_pair : Instr.wf (.brx 5) = false := by decide

/-- Scopes 1, 2 and 4 (R226). -/
theorem test_ill_barrier_scope : Instr.wf (.bara ⟨3, 1, 0⟩) = false := by decide

/-- Cluster and wide barriers are 0 to 7 (R226). -/
theorem test_ill_barrier_index : Instr.wf (.bara ⟨2, 8, 0⟩) = false := by decide

/-- BARCFG is for cluster and wide barriers (R226). -/
theorem test_ill_barrier_config_scope : Instr.wf (.barcfg ⟨1, 0, 7⟩) = false := by decide

/-- BARA has no register (R226). -/
theorem test_ill_barrier_register : Instr.wf (.bara ⟨1, 3, 1⟩) = false := by decide

/-- Scopes 6 and 7 are reserved (R232). -/
theorem test_ill_fence_scope : Instr.wf (.fence 6 3) = false := by decide

/-- ORD 0 is reserved (R232). -/
theorem test_ill_fence_order : Instr.wf (.fence 1 0) = false := by decide

/-- ACQ and REL have .dev and .sys (R233). -/
theorem test_ill_bind_scope : Instr.wf (.acq 1 3) = false := by decide

/-- Three modes of TLBINV (R320). -/
theorem test_ill_tlb_mode : Instr.wf (.tlbinv 4 3 0 0) = false := by decide

/-- mode=asid has no address (R320). -/
theorem test_ill_tlb_unused : Instr.wf (.tlbinv 4 1 4 6) = false := by decide

/-- A step without a word is no instruction word. -/
theorem test_ill_step : Instr.isWord (.queuePoll 0) = false := by decide

/-! Words of the spec's worked encodings. -/

/-- The word and its literal words decode to the instruction, and it encodes to them. -/
def reads (w : Nat) (l : List Nat) (i : Instr) : Bool :=
  (match decode w l with | .ok j => decide (j = i) | .error _ => false) && decide (encode i = w :: l)

theorem test_word_vadd : reads 0x00E14204 [] (.vadd ⟨⟨false, 7⟩, 5, 4, 4, none⟩) = true := by decide +kernel
theorem test_word_vadd_p0 : reads 0x00000000 [] (.vadd ⟨⟨false, 0⟩, 0, 0, 0, none⟩) = true := by decide +kernel
theorem test_word_vmad : reads 0x0D624103 [0x22800000] (.vmad ⟨⟨true, 3⟩, 9, 2, 3, some ⟨2, 20, false, 0⟩⟩) = true := by decide +kernel
theorem test_word_bra : reads 0xEAE00005 [] (.bra 5) = true := by decide +kernel
theorem test_word_bra_back : reads 0xEAE3FFFD [] (.bra 0x3FFFD) = true := by decide +kernel
theorem test_word_srdsp : reads 0x9C081000 [] (.srdsp 1 2) = true := by decide +kernel
theorem test_word_sadd : reads 0x74002041 [] (.sadd ⟨0, false, 2, 1, 1⟩) = true := by decide +kernel
theorem test_word_exit : reads 0xF0E40000 [] (.exit) = true := by decide +kernel
theorem test_word_pand : reads 0x2EE08C90 [] (.pand ⟨⟨false, 7⟩, 2, 1, 3, false⟩) = true := by decide +kernel
theorem test_word_pxor : reads 0x2EE11212 [] (.pxor ⟨⟨false, 7⟩, 4, 4, 4, false⟩) = true := by decide +kernel
theorem test_word_vbcst : reads 0x2EE1C181 [] (.vbcst ⟨⟨false, 7⟩, 7, 3, none⟩) = true := by decide +kernel
theorem test_word_vmov_laneid : reads 0x2EE04008 [] (.vmovSpecial ⟨⟨false, 7⟩, 1, 0, none⟩) = true := by decide +kernel
theorem test_word_vcmp : reads 0x28E44082 [] (.vcmp ⟨⟨false, 7⟩, 2, 1, 1, 2, none⟩) = true := by decide +kernel
theorem test_word_vdot4 : reads 0x2A218205 [0x40C00000] (.vdot4 ⟨⟨false, 1⟩, 6, 4, 5, some ⟨4, 6, false, 0⟩⟩) = true := by decide +kernel
theorem test_word_vadds : reads 0x04E0C205 [0x40000000] (.vadds ⟨⟨false, 7⟩, 3, 4, 5, some ⟨4, 0, false, 0⟩⟩) = true := by decide +kernel
theorem test_word_vfadd : reads 0x30E0C082 [] (.vfadd ⟨⟨false, 7⟩, 3, 1, 2, none⟩) = true := by decide +kernel
theorem test_word_vfma : reads 0x36E10082 [0x80A00000] (.vfma ⟨⟨false, 7⟩, 4, 1, 2, some ⟨8, 5, false, 0⟩⟩) = true := by decide +kernel
theorem test_word_vfcmp : reads 0x3CE48082 [] (.vfcmp ⟨⟨false, 7⟩, 2, 2, 1, 2, none⟩) = true := by decide +kernel
theorem test_word_vfclass_flags : reads 0x40E24005 [] (.vfclassFlags 9 false) = true := by decide +kernel
theorem test_word_vfsqrt : reads 0x42E18182 [] (.vfsqrt ⟨⟨false, 7⟩, 6, 3, none⟩) = true := by decide +kernel
theorem test_word_vfcvt : reads 0x44E14090 [0xA0010000] (.vfcvt ⟨⟨false, 7⟩, 5, 1, some ⟨10, 0, false, 1⟩⟩ 0 true) = true := by decide +kernel
theorem test_word_vqnt : reads 0x48E2410A [] (.vqnt ⟨⟨false, 7⟩, 9, 2, none⟩ 1 2) = true := by decide +kernel
theorem test_word_vred : reads 0x60E08080 [0x80000000] (.vred ⟨⟨false, 7⟩, 2, 1, some ⟨8, 0, false, 0⟩⟩ 0) = true := by decide +kernel
theorem test_word_vscan : reads 0x62E0C080 [0x80000000] (.vscan ⟨⟨false, 7⟩, 3, 1, some ⟨8, 0, false, 0⟩⟩ false 0) = true := by decide +kernel
theorem test_word_ldg : reads 0xA8E10114 [] (.ldg ⟨⟨false, 7⟩, 4, 2, 2, true, false, false, none⟩) = true := by decide +kernel
theorem test_word_lds : reads 0xA0E1C0D0 [0x10] (.lds ⟨⟨false, 7⟩, 7, 1, 2, false, false, false, some 16⟩) = true := by decide +kernel
theorem test_word_slds : reads 0xA4406100 [] (.slds ⟨6, 4, 2, false, false, none⟩) = true := by decide +kernel
theorem test_word_atomo : reads 0xB6E00100 [0xC20A0] (.atomo ⟨false, 7⟩ 2 0x000C20A0) = true := by decide +kernel
theorem test_word_cpl : reads 0xB8E10110 [] (.cpl ⟨false, 7⟩ 4 2 0 2 false) = true := by decide +kernel
theorem test_word_cpt_ld : reads 0xBA020214 [] (.cptLd ⟨2, 5, 8, false⟩) = true := by decide +kernel
theorem test_word_cpt_st : reads 0xBC020215 [] (.cptSt ⟨2, 5, 8, true⟩) = true := by decide +kernel
theorem test_word_cpm : reads 0xC0020214 [0xF] (.cpm ⟨2, 5, 8, false⟩ 15) = true := by decide +kernel
theorem test_word_tclose : reads 0xC2000050 [] (.tclose 20 0) = true := by decide +kernel
theorem test_word_twait : reads 0xC4001400 [] (.twait 0 20) = true := by decide +kernel
theorem test_word_tstat : reads 0xC6040054 [] (.tstat 21 0 1) = true := by decide +kernel
theorem test_word_acalloc : reads 0xC8008328 [] (.acalloc 2 3 10 false) = true := by decide +kernel
theorem test_word_acfree : reads 0xC8208000 [] (.acfree 2) = true := by decide +kernel
theorem test_word_acz : reads 0xCA008000 [] (.acz 2) = true := by decide +kernel
theorem test_word_acadd : reads 0xCA20800C [] (.acadd 2 3) = true := by decide +kernel
theorem test_word_acld : reads 0xCC008401 [] (.acld ⟨2, 4, 0, true⟩) = true := by decide +kernel
theorem test_word_acst : reads 0xCC288400 [] (.acst ⟨2, 4, 2, false⟩) = true := by decide +kernel
theorem test_word_mma : reads 0xCE048418 [0x1] (.mma ⟨2, 4, 6, 1, false, false, 1⟩) = true := by decide +kernel
theorem test_word_mma_t : reads 0xCE248418 [0xF] (.mmaT ⟨2, 4, 6, 1, false, false, 15⟩) = true := by decide +kernel
theorem test_word_mmas : reads 0xD00C8418 [0x83] (.mmas ⟨2, 4, 6, 3, false, false, 0x83⟩) = true := by decide +kernel
theorem test_word_omap : reads 0xD2000824 [0xFC4] (.omap 8 9 0xFC4) = true := by decide +kernel
theorem test_word_tballoc : reads 0xD40C4414 [0x7] (.tballoc 1 4 5 3 7) = true := by decide +kernel
theorem test_word_tbfree : reads 0xD4204000 [] (.tbfree 1) = true := by decide +kernel
theorem test_word_tbuild_bp : reads 0xD6004818 [] (.tbuildBp 1 8 6) = true := by decide +kernel
theorem test_word_tbuild_cb : reads 0xD6204818 [0x40A] (.tbuildCb 1 8 6 0x40A) = true := by decide +kernel
theorem test_word_lmma : reads 0xD8248C38 [0xF] (.lmma ⟨2, 1, 12, 14, 1, false, false, 15⟩) = true := by decide +kernel
theorem test_word_tbstat : reads 0xDA00401C [] (.tbstat 1 7) = true := by decide +kernel
theorem test_word_tbspill : reads 0xDA204928 [] (.tbspill 1 9 10) = true := by decide +kernel
theorem test_word_tbfill : reads 0xDA404928 [] (.tbfill 1 9 10) = true := by decide +kernel
theorem test_word_plcfg : reads 0xDC040400 [] (.plcfg 1 4) = true := by decide +kernel
theorem test_word_plstat : reads 0xDC240024 [] (.plstat 1 9 0) = true := by decide +kernel
theorem test_word_plpush : reads 0xDE000421 [0x3] (.plpush 0 4 8 true 3) = true := by decide +kernel
theorem test_word_plpop : reads 0xE0000051 [] (.plpop 0 20 true) = true := by decide +kernel
theorem test_word_pldrain : reads 0xE0200000 [] (.pldrain 0) = true := by decide +kernel
theorem test_word_salloc : reads 0xE4080414 [0xC] (.salloc 2 4 5 12) = true := by decide +kernel
theorem test_word_sfree : reads 0xE4200700 [] (.sfree 7) = true := by decide +kernel
theorem test_word_srestore : reads 0xE4400718 [] (.srestore 7 6) = true := by decide +kernel
theorem test_word_srestore_done : reads 0xE4400719 [] (.srestoreDone 7 6) = true := by decide +kernel
theorem test_word_srank : reads 0xE6100720 [] (.srank 4 7 8) = true := by decide +kernel
theorem test_word_squery : reads 0xE6200724 [] (.squery 7 9) = true := by decide +kernel
theorem test_word_squery_cnt : reads 0xE6200025 [] (.squeryCnt 9) = true := by decide +kernel
theorem test_word_lhret : reads 0xE6400000 [] (.lhret) = true := by decide +kernel
theorem test_word_nop : reads 0xE8E00000 [] (.nop) = true := by decide +kernel
theorem test_word_yield : reads 0xE8E40000 [] (.yield) = true := by decide +kernel
theorem test_word_bkpt : reads 0xE8E80007 [] (.bkpt 7) = true := by decide +kernel
theorem test_word_trapu : reads 0xE8EC0007 [] (.trapu 7) = true := by decide +kernel
theorem test_word_call : reads 0xEAE4000C [] (.call 12) = true := by decide +kernel
theorem test_word_brc_any : reads 0xED43FFFC [] (.brcAny ⟨true, 2⟩ 0x3FFFC) = true := by decide +kernel
theorem test_word_brx : reads 0xECE80004 [] (.brx 4) = true := by decide +kernel
theorem test_word_if : reads 0xEE200006 [0x9] (.ifI ⟨false, 1⟩ 6 9) = true := by decide +kernel
theorem test_word_loop : reads 0xEEE40007 [] (.loop 7) = true := by decide +kernel
theorem test_word_brk : reads 0xEE280000 [] (.brk ⟨false, 1⟩) = true := by decide +kernel
theorem test_word_next : reads 0xEEEC0000 [] (.next) = true := by decide +kernel
theorem test_word_ret : reads 0xF0E00000 [] (.ret) = true := by decide +kernel
theorem test_word_regang : reads 0xF0E80003 [] (.regang 3) = true := by decide +kernel
theorem test_word_bara : reads 0xF4043000 [] (.bara ⟨1, 3, 0⟩) = true := by decide +kernel
theorem test_word_barw : reads 0xF4243004 [] (.barw ⟨1, 3, 4⟩) = true := by decide +kernel
theorem test_word_baraw : reads 0xF4500004 [] (.baraw ⟨4, 0, 4⟩) = true := by decide +kernel
theorem test_word_barq : reads 0xF4681005 [] (.barq ⟨2, 1, 5⟩) = true := by decide +kernel
theorem test_word_barcfg : reads 0xF49001C0 [] (.barcfg ⟨4, 0, 7⟩) = true := by decide +kernel
theorem test_word_fence_rel : reads 0xF6050000 [] (.fence 1 1) = true := by decide +kernel
theorem test_word_fence_acq : reads 0xF6120000 [] (.fence 4 2) = true := by decide +kernel
theorem test_word_fence_full : reads 0xF6170000 [] (.fence 5 3) = true := by decide +kernel
theorem test_word_acq : reads 0xF63000C0 [] (.acq 4 3) = true := by decide +kernel
theorem test_word_rel : reads 0xF65000C0 [] (.rel 4 3) = true := by decide +kernel
theorem test_word_ifence : reads 0xF6600000 [] (.ifence) = true := by decide +kernel
theorem test_word_cwrd : reads 0xF8000085 [0x1] (.cwrd 2 5 1) = true := by decide +kernel
theorem test_word_cwwr : reads 0xF8200086 [0x0] (.cwwr 2 6 0) = true := by decide +kernel
theorem test_word_winrd : reads 0xF8400108 [] (.winrd 4 8) = true := by decide +kernel
theorem test_word_winwr : reads 0xF8600109 [] (.winwr 4 9) = true := by decide +kernel
theorem test_word_gpark : reads 0xFA000047 [] (.gpark 1 7) = true := by decide +kernel
theorem test_word_gresume : reads 0xFA200047 [] (.gresume 1 7) = true := by decide +kernel
theorem test_word_tret_end : reads 0xFA402000 [] (.tretEnd) = true := by decide +kernel
theorem test_word_thaw : reads 0xFA6000C7 [] (.thaw 3 7) = true := by decide +kernel
theorem test_word_tlbinv : reads 0xFC102106 [] (.tlbinv 4 2 4 6) = true := by decide +kernel
theorem test_word_ctxsv : reads 0xFC200106 [] (.ctxsv 4 6) = true := by decide +kernel
theorem test_word_ctxld : reads 0xFC400106 [] (.ctxld 4 6) = true := by decide +kernel
theorem test_word_mcswr : reads 0xFC600109 [] (.mcswr 4 9) = true := by decide +kernel
theorem test_word_sysc : reads 0xFE000007 [] (.sysc 7) = true := by decide +kernel

/-- Words that the spec names as illegal (R66): OP 0x28, FN 0x0F of OP 0x17, an EXIT with a predicate, SCOPE 6. -/
theorem test_word_illegal : ∀ x ∈ ([0x50000000, 0x2EE0000F, 0xF0640000, 0xF6180000] : List Nat),
    (match decode x [] with | .ok _ => false | .error _ => true) = true := by decide +kernel

/-! States for the tests: one group of one slice, or a handler context, that issues word 1 of a clause. -/

/-- Registers: s1 = -1, s2 = 5, s4:s5 = 0x0000001000000000, v1 = 7, 0x80000000, 3.0, -0.0 in lanes 0 to 3, p1 true in lane 0. -/
def regs : Arch :=
  (((((((Arch.placed 1 0x1000 [] []).writeS 1 0xFFFFFFFF).writeS 2 5).writeS 5 16).writeV 1
    [(0, 7), (1, 0x80000000), (2, 0x40400000), (3, 0x80000000)]).writeP 1 0 true).writeS 8 0x1000).writeS 9 64
/-- The clause under way: one word, gang 0. -/
def clause : Cur :=
  { hdr := 0x1000, n := 1, sw := false, yld := false, rest := [], idx := 1, gang := [0], pass := 1, first := 9, snap := regs,
    held := [], undo := [], commit := false, lhret := false, trap := none, barw := none, ifence := false, tret := none,
    parks := false }
/-- A group with the registers. -/
def groupOf (a : Arch) : Group := { fetchGroup State.reset false with arch := a, cur := some clause, uid := 3 }
/-- The block of the group: allotments of every kind, one live allocation of 1 KiB. -/
def block : Block :=
  { newBlock [] 0 0 0 0 with
    allocs := [{ aid := 7, zeroed := none, base := 0, granules := 1, rank := 1, state := .live, handler := 0x2000, rows := [(47, 0)], donePend := none,
                 spill := none }],
    bars := (List.range 16).map fun i => (i, { Barrier.reset with e := 2 }), accBudget := 128, tblBudget := 256, tbh := 16,
    bbar := 16, cbar := 8, wbar := 8, pools := [5], poolAdm := true, slots := [0x15, 0x05, 0, 0, 0, 0, 0, 0] }
/-- The state in which group `g` issues. -/
def stateOf (g : Group) : State := { ((State.reset.putGroup 0 g).setBlock 0 block) with who := 0, nextId := 9 }
def g0 : Group := groupOf regs
def s0 : State := stateOf g0
/-- The answer is this next state. -/
def gives (o : Out) (t : State) : Bool := match o with | .next u => decide (u = t) | _ => false
/-- The next state passes a check. -/
def then_ (o : Out) (f : State → Bool) : Bool := match o with | .next u => f u | _ => false

theorem issues : s0.Issues g0 clause := ⟨by rfl, by rfl⟩

/-- The predicate that always holds. -/
abbrev pT : Pred := ⟨false, 7⟩

/-! Witnesses for the statements on register words. -/

theorem wit_DecodeOfEncode : (Instr.sadd ⟨0, false, 3, 1, 2⟩).WellFormed := ⟨by rfl, by rfl⟩

/-- UniformArithmetic, with a 64-bit pair at each end and an immediate. -/
theorem wit_UniformArithmetic : s0.Issues g0 clause ∧
    (∀ o ∈ ([⟨0, false, 3, 1, 2⟩, ⟨3, true, 62, 4, 63⟩, ⟨2, false, 0, 62, 4⟩] : List SS), regs.badUs (ssSrcs o ss3) = false) ∧
    gives (exec (.sadd ⟨3, true, 4, 4, 16⟩) s0) (s0.withArch g0 ((regs.writeS 4 16).writeS 5 16)) = true :=
  ⟨issues, by decide +kernel, by decide +kernel⟩
theorem wit_UniformLogicAndShifts : s0.Issues g0 clause ∧ regs.badUs (ssSrcs ⟨0, false, 3, 0, 1⟩ ssMov) = false ∧
    regs.badUs (ssSrcs ⟨0, false, 3, 1, 2⟩ ss3) = false ∧ regs.badUs (ssSrcs ⟨3, false, 4, 4, 1⟩ ssShift) = false ∧
    gives (exec (.sshl ⟨3, false, 4, 4, 2⟩) s0) (s0.withArch g0 (regs.writeS 5 512)) = true ∧
    gives (exec (.ssra ⟨0, false, 3, 1, 1⟩) s0) (s0.withArch g0 (regs.writeS 3 0xFFFFFFFF)) = true :=
  ⟨issues, by decide +kernel⟩
theorem wit_UniformCompareFieldsAndThreeSources : s0.Issues g0 clause ∧
    regs.badUs (ssSrcs ⟨0, false, 3, 1, 2⟩ ssCmp) = false ∧ regs.badUs (ssSrcs ⟨0, false, 3, 0, 1⟩ ssCount) = false ∧
    (0 : BitVec 2).toNat < 2 ∧ regs.badS 1 = false ∧ regs.badS 2 = false ∧ regs.badS 3 = false ∧
    thirdU ⟨0, false, 3, 1, 2⟩ (some 63) false = some 63 ∧
    regs.badUs (ssSrcs ⟨0, false, 3, 1, 2⟩ ss3 ++ uRegs 63 false) = false ∧
    regs.badUs (ssSrcs ⟨0, false, 3, 1, 2⟩ ss32 ++ [63]) = false ∧ 64 ≤ (64 : Word).toNat ∧
    (ssWide ⟨3, false, 4, 4, 2⟩ = true ∧ (5 : Word).toNat % 2 = 1) ∧
    gives (exec (.scmp ⟨0, false, 3, 1, 2⟩ 2) s0) (s0.withArch g0 (regs.writeS 3 1)) = true ∧
    gives (exec (.scmp ⟨1, false, 3, 1, 2⟩ 2) s0) (s0.withArch g0 (regs.writeS 3 0)) = true ∧
    gives (exec (.smad ⟨0, false, 3, 1, 2⟩ (some 8)) s0) (s0.withArch g0 (regs.writeS 3 0xFFB)) = true ∧
    gives (exec (.smad ⟨0, false, 3, 1, 2⟩ (some 64)) s0) (s0.raise 0 g0 illegal) = true ∧
    gives (exec (.ssel ⟨0, false, 3, 1, 2⟩ (some 63)) s0) (s0.withArch g0 (regs.writeS 3 5)) = true :=
  ⟨issues, by decide +kernel⟩
theorem wit_UniformImmediatesAndSpecialValues : s0.Issues g0 clause ∧ g0.sorrel = none ∧ regs.badS 1 = false ∧
    regs.badUs (uRegs 4 true ++ [2]) = false ∧
    gives (exec (.sli 3 0x20000) s0) (s0.withArch g0 (regs.writeS 3 0xFFFE0000)) = true ∧
    gives (exec (.sliHi 2 0x1234) s0) (s0.withArch g0 (regs.writeS 2 0x12340005)) = true ∧
    gives (exec (.slea ⟨0, false, 6, 4, 1⟩ 3) s0) (s0.withArch g0 ((regs.writeS 6 0xFFFFFFF8).writeS 7 15)) = true ∧
    gives (exec (.srdsp 3 0x0D) s0) (s0.withArch g0 (regs.writeS 3 48)) = true :=
  ⟨issues, by decide +kernel⟩
theorem wit_LaneWrites : (([(0, 1), (31, 2)] : List (Nat × Word)).map Prod.fst).Nodup ∧
    (∀ x ∈ ([(0, 1), (31, 2)] : List (Nat × Word)), x.1 < 32) ∧
    (regs.writeV 1 [(0, 1), (31, 2)]).readV 1 31 = 2 ∧ (regs.writeV 1 [(0, 1), (31, 2)]).readV 1 2 = 0x40400000 := by
  decide +kernel
/-- Clean sources of a vector form, with and without a uniform b. -/
theorem wit_VectorForms : s0.Issues g0 clause ∧ laneClean regs [0] pT none [1] 1 ∧
    laneClean regs [0] ⟨true, 1⟩ (some ⟨4, 9, true, 0⟩) [1] 2 ∧ (∀ l ∈ regs.lanes [0] pT, regs.badV (srcC 3 none).toNat l = false) ∧
    (∀ l ∈ regs.lanes [0] pT, regs.badV 2 l = false ∧ regs.badV (2 + 1) l = false) ∧
    tyWidth (extTy dot4 (some ⟨4, 9, false, 0⟩)) = 8 :=
  ⟨issues, by unfold laneClean; decide +kernel, by unfold laneClean; decide +kernel, by decide +kernel⟩
/-- VectorElementArithmetic: VADD, and VSUBS.I8 with a uniform b in the lanes where p1 is false. -/
theorem wit_VectorElementArithmetic :
    gives (exec (.vadd ⟨pT, 3, 1, 1, none⟩) s0) (s0.withArch g0 (regs.writeV 3 [(0, 14), (1, 0), (2, 0x80800000), (3, 0)])) = true ∧
    gives (exec (.vsubs ⟨⟨true, 1⟩, 3, 1, 2, some ⟨4, 0, true, 0⟩⟩) s0)
      (s0.withArch g0 (regs.writeV 3 [(1, 0x800000FB), (2, 0x404000FB), (3, 0x800000FB)])) = true := by decide +kernel
theorem wit_VectorElementBits :
    gives (exec (.vshl ⟨pT, 3, 1, 2, some ⟨0, 0, true, 0⟩⟩) s0)
      (s0.withArch g0 (regs.writeV 3 [(0, 224), (1, 0), (2, 0x08000000), (3, 0)])) = true := by decide +kernel
theorem wit_VectorMovesAndUnary : s0.Issues g0 clause ∧
    (∀ l ∈ regs.lanes [0] pT, regs.badV 1 l = false ∧ regs.badB 1 (l / 8) = false) ∧ regs.badS 2 = false ∧
    regs.lanes [0] pT = 0 :: [1, 2, 3] ∧ regs.badV 1 0 = false ∧ regs.lanes [0] ⟨false, 2⟩ = [] ∧
    gives (exec (.vlane ⟨pT, 3, 1, none⟩) s0) (s0.withArch g0 (regs.writeV 3 [(0, 7), (1, 7), (2, 7), (3, 7)])) = true ∧
    gives (exec (.vclz ⟨pT, 3, 1, none⟩) s0) (s0.withArch g0 (regs.writeV 3 [(0, 29), (1, 0), (2, 1), (3, 0)])) = true :=
  ⟨issues, by decide +kernel⟩
theorem wit_VectorCompare : s0.Issues g0 clause ∧ laneClean regs [0] pT none [1] 1 ∧
    gives (exec (.vcmp ⟨pT, 0, 7, 1, 1, none⟩) s0) s0 = true ∧
    gives (exec (.vcmp ⟨pT, 4, 2, 1, 9, none⟩) s0) (s0.withArch g0 (regs.writePs 2 [(0, true), (1, false), (2, true), (3, false)])) =
      true :=
  ⟨issues, by unfold laneClean; decide +kernel, by decide +kernel⟩
theorem wit_PredicateForms : s0.Issues g0 clause ∧
    gives (exec (.pnot ⟨pT, 2, 1, 0, false⟩) s0) (s0.withArch g0 (regs.writePs 2 [(0, false), (1, true), (2, true), (3, true)])) =
      true ∧ gives (exec (.pand ⟨pT, 7, 1, 0, false⟩) s0) s0 = true :=
  ⟨issues, by decide +kernel⟩

/-- Registers with v1 poisoned in lane 2 and s1 poisoned. -/
def poisonedRegs : Arch := { regs with vpoison := [32 * 1 + 2], spoison := [1] }
def gp : Group := groupOf poisonedRegs
def sp : State := stateOf gp
theorem wit_PoisonedSourceHalts : sp.Issues gp clause ∧ isBU none = false ∧
    poisonedRegs.badLane [1, 9] (poisonedRegs.lanes [0] pT) = some 2 ∧ poisonedRegs.badUs (ssSrcs ⟨0, false, 3, 1, 2⟩ ss3) = true ∧
    gives (exec (.vadd ⟨pT, 3, 1, 9, none⟩) sp) (sp.raise 0 gp (.halt 1 2)) = true ∧
    gives (exec (.sadd ⟨0, false, 3, 1, 2⟩) sp) (sp.raise 0 gp (.halt 1 noLane)) = true :=
  ⟨⟨by rfl, by rfl⟩, by decide +kernel⟩
/-- A lane that does not execute consumes nothing. -/
theorem test_poison_other_lane :
    gives (exec (.vmov ⟨⟨false, 1⟩, 3, 1, none⟩) sp) (sp.withArch gp (poisonedRegs.writeV 3 [(0, 7)])) = true := by decide +kernel

/-! Witnesses for the float and cross-lane statements. -/

theorem wit_FloatArithmetic : s0.Issues g0 clause ∧ laneClean regs [0] pT none [1] 1 ∧
    (∀ l ∈ regs.lanes [0] pT, regs.badV (srcC 3 none).toNat l = false) ∧
    gives (exec (.vfmul ⟨⟨true, 1⟩, 3, 1, 1, none⟩) s0)
      (s0.withArch g0 (regs.writeV 3 [(1, 0), (2, 0x41100000), (3, 0)])) = true :=
  ⟨issues, by unfold laneClean; decide +kernel, by decide +kernel⟩
theorem wit_FloatUnary : s0.Issues g0 clause ∧ (∀ l ∈ regs.lanes [0] pT, regs.badV 1 l = false) ∧
    gives (exec (.vfneg ⟨⟨true, 1⟩, 3, 1, none⟩) s0)
      (s0.withArch g0 (regs.writeV 3 [(1, 0), (2, 0xC0400000), (3, 0)])) = true :=
  ⟨issues, by decide +kernel⟩
theorem wit_ConversionsAndBands : s0.Issues g0 clause ∧
    (∀ l ∈ regs.lanes [0] pT, regs.badV 1 l = false ∧ regs.badV 3 l = false) ∧
    (∀ l, regs.badV 1 l = false) ∧ (∀ j, regs.badB 1 j = false) ∧
    (vqntFmt (s0.slot g0 0)).isSome = true ∧ slotScale (s0.slot g0 0) = 1 ∧ vqntFmt (s0.slot g0 2) = none ∧
    regs.lanes [0] pT ≠ [] ∧ (∀ l ∈ regs.lanes [0] pT, regs.badB 1 (l / 8) = false) ∧
    gives (exec (.vfcvt ⟨⟨true, 1⟩, 3, 1, some ⟨10, 0, false, 0⟩⟩ 0 true) s0)
      (s0.withArch g0 (regs.writeV 3 [(1, 0x80000000), (2, 0x40400000), (3, 0x80000000)])) = true :=
  ⟨issues, by decide +kernel, fun _ => rfl, fun _ => rfl, by decide +kernel⟩
theorem wit_SpecialFunctions : s0.Issues g0 clause ∧ (∀ l ∈ regs.lanes [0] pT, regs.badV 1 l = false) ∧
    then_ (exec (.vfsqrt ⟨⟨true, 1⟩, 3, 1, none⟩) s0) (fun t => t.reqs.length == 1 && t.mem == s0.mem) = true :=
  ⟨issues, by decide +kernel⟩
theorem wit_CrossLaneAndVotes : s0.Issues g0 clause ∧
    (∀ l ∈ regs.lanes [0] pT, regs.badV 1 l = false ∧ regs.badV (srcC 3 none).toNat l = false) ∧
    (3 : BitVec 7).toNat % 8 ≠ 7 ∧ (7 : BitVec 7).toNat % 8 = 7 ∧
    gives (exec (.vred ⟨pT, 3, 1, none⟩ 0) s0) (s0.withLong g0 clause .vec 3
      [(0, 0x40400007, 0), (1, 0x40400007, 0), (2, 0x40400007, 0), (3, 0x40400007, 0)]) = true ∧
    gives (exec (.vvote ⟨pT, 3, 1, none⟩ 0) s0) (s0.withLong g0 clause .prd 3 [(0, 1, 0), (1, 1, 0), (2, 1, 0), (3, 1, 0)]) = true :=
  ⟨issues, by decide +kernel⟩

/-! Witnesses for the control statements. -/

/-- The registers with these tokens on slice 0. -/
def withToks (ts : List Token) : Arch := { regs with slices := [⟨0x1000, 15, 0, ts, 0, none⟩] }
def sliceIs (sl : Slice) (t : State) : Bool :=
  match t.group 0 with | some g => decide (g.arch.slices = [sl]) | none => false
/-- A pair at the macro window, one past 2^52, and one that is no multiple of 4. -/
def farRegs : Arch := (((regs.writeS 10 0xFFFFE000).writeS 11 0xFFFFF).writeS 13 0x100000).writeS 14 2

theorem wit_noMeeting : (withToks []).noMeeting := .inl ⟨⟨0x1000, 15, 0, [], 0, none⟩, by decide +kernel⟩
theorem wit_BranchesMoveSlices : (stateOf (groupOf farRegs)).Issues (groupOf farRegs) clause ∧
    (∀ sa ∈ ([4, 10, 12, 14] : List (BitVec 6)), farRegs.badUs [sa.toNat, sa.toNat + 1] = false) ∧
    gives (exec (.bra 0x3FFFD) s0) (s0.withArch g0 { regs with slices := [⟨0xFF4, 15, 0, [], 0, none⟩] }) = true ∧
    gives (exec (.brcAll ⟨false, 1⟩ 5) s0) s0 = true ∧
    gives (exec (.brcAny ⟨false, 1⟩ 5) s0) (s0.withArch g0 { regs with slices := [⟨0x1014, 15, 0, [], 0, none⟩] }) = true ∧
    then_ (exec (.brx 4) s0) (sliceIs ⟨0x1000000000, 15, 0, [], 0, none⟩) = true ∧
    (let g := groupOf farRegs
     gives (exec (.brx 10) (stateOf g)) ((stateOf g).raise 0 g illegal) ∧
     gives (exec (.brx 12) (stateOf g)) ((stateOf g).raise 0 g (.trap 5 2 noLane (2 ^ 52))) ∧
     gives (exec (.brx 14) (stateOf g)) ((stateOf g).raise 0 g (.trap 5 2 noLane 2))) :=
  ⟨⟨by rfl, by rfl⟩, by decide +kernel⟩
theorem test_pop_runs_on : ({ pc := 0, am := 3, em := 1, toks := [⟨.els, 8, 1⟩, ⟨.join, 16, 3⟩], gang := 0, arr := none } : Slice).pop
    = .ok ⟨16, 2, 1, [], 0, none⟩ := by rfl
theorem wit_PopSequence : ({ pc := 0, am := 0, em := 15, toks := [], gang := 0, arr := none } : Slice).pop =
    .ok ⟨0, 0, 15, [], 0, none⟩ ∧ ({ pc := 0, am := 0, em := 7, toks := [], gang := 0, arr := none } : Slice).pop =
    .error (.trap 9 1 noLane 0) := ⟨by rfl, by rfl⟩
theorem wit_DivergenceWords : s0.Issues g0 clause ∧
    then_ (exec (.ifI ⟨false, 1⟩ 6 9) s0) (sliceIs ⟨0x1000, 1, 0, [⟨.els, 0x1018, 14⟩, ⟨.join, 0x1024, 15⟩], 0, none⟩) ∧
    then_ (exec (.loop 7) s0) (sliceIs ⟨0x1000, 15, 0, [⟨.brk, 0x101C, 15⟩], 0, none⟩) ∧
    then_ (exec (.call 12) s0) (sliceIs ⟨0x1030, 15, 0, [⟨.call, 0x1008, 15⟩], 0, none⟩) ∧
    then_ (exec (.mcall 3 0 0) s0) (sliceIs ⟨0xFFFFFFFFFE180, 15, 0, [⟨.call, 0x1008, 15⟩], 0, none⟩) ∧
    then_ (exec .exit s0) (sliceIs ⟨0x1000, 0, 15, [], 0, none⟩) ∧
    then_ (exec .next (stateOf (groupOf (withToks [⟨.els, 0x2000, 12⟩])))) (sliceIs ⟨0x2000, 12, 0, [], 0, none⟩) ∧
    then_ (exec (.brk ⟨false, 1⟩) (stateOf (groupOf (withToks [⟨.els, 8, 13⟩, ⟨.brk, 16, 15⟩]))))
      (sliceIs ⟨0x1000, 14, 0, [⟨.els, 8, 12⟩, ⟨.brk, 16, 15⟩], 0, none⟩) ∧
    then_ (exec .ret (stateOf (groupOf (withToks [⟨.join, 8, 0⟩, ⟨.call, 16, 15⟩])))) (sliceIs ⟨16, 15, 0, [], 0, none⟩) :=
  ⟨issues, by decide +kernel⟩
/-- ControlFaults: 16 tokens, and none. -/
theorem wit_ControlFaults : regs.slices = ⟨0x1000, 15, 0, [], 0, none⟩ :: [] ∧ clause.gang.contains 0 = true ∧
    (List.replicate 16 (⟨.join, 8, 1⟩ : Token)).length = 16 ∧
    (let g := groupOf (withToks (List.replicate 16 ⟨.join, 8, 1⟩))
     gives (exec (.loop 7) (stateOf g)) ((stateOf g).raise 0 g (.trap 9 0 noLane 0))) ∧
    gives (exec .ret s0) (s0.raise 0 g0 (.trap 9 3 noLane 0)) ∧
    gives (exec (.brk pT) s0) (s0.raise 0 g0 (.trap 9 4 noLane 0)) := by decide +kernel
/-- RegangMeets: one slice meets at once; of two, the first waits. -/
theorem wit_RegangMeets : s0.Issues g0 clause ∧
    then_ (exec (.regang 3) s0) (sliceIs ⟨0x1008, 15, 0, [], 0, none⟩) ∧
    (let a := { regs with slices := [⟨0x1000, 15, 0, [], 0, none⟩, ⟨0x1100, 15, 0, [], 1, none⟩] }
     gives (exec (.regang 3) (stateOf (groupOf a))) ((stateOf (groupOf a)).withArch (groupOf a)
       { a with slices := [⟨0x1000, 15, 0, [], 0, some 3⟩, ⟨0x1100, 15, 0, [], 1, none⟩] })) :=
  ⟨issues, by decide +kernel⟩
/-- SpawnReserves: room, no register left, no context left, a bad literal. -/
theorem wit_SpawnReserves : s0.Issues g0 clause ∧ s0.freeCtx 0 = 1 :: (List.range' 2 30) ∧ 8 ≤ s0.freeVregs 0 ∧
    regs.badS 2 = false ∧
    then_ (exec (.spawn 4 3 (BitVec.ofNat 32 (2 * 64 + 1)) 0) s0) (fun t => (t.core 0).resv == [(1, 8)] &&
      (match t.group 0 with | some g => g.arch.readS 3 == 0 && g.heldReqs.length == 1 | none => false)) ∧
    (let s := s0.setCore 0 { Core.reset with resv := [(40, 1913)] }
     s.freeVregs 0 = 7 ∧ gives (exec (.spawn 4 3 0 0) s) (s.withArch g0 (regs.writeS 3 2))) ∧
    (let s := s0.setCore 0 { Core.reset with resv := (List.range 32).map fun x => (x, 8) }
     s.freeCtx 0 = [] ∧ gives (exec (.spawn 4 3 0 0) s) (s.withArch g0 (regs.writeS 3 1))) ∧
    gives (exec (.spawn 4 0x2000 0 0) s0) (s0.raise 0 g0 illegal) :=
  ⟨issues, by decide +kernel⟩
theorem wit_PlainWords : s0.Issues g0 clause ∧ g0.sorrel = none ∧ clause.trap = none ∧ gives (exec .nop s0) s0 ∧
    gives (exec .yield s0) (s0.putGroup 0 { g0 with cur := some { clause with yld := true } }) ∧
    gives (exec (.sysc 7) s0) (s0.putGroup 0 { g0 with cur := some { clause with trap := some (3, 7, 1) } }) ∧
    (let c := { clause with trap := some (1, 5, 0) }
     let g := { g0 with cur := some c }
     c.trap ≠ none ∧ gives (exec (.trapu 9) (stateOf g)) (stateOf g)) :=
  ⟨issues, by decide +kernel⟩

/-! Fetch and the step. -/

/-- A state at a clause of one SADD, which the next step fetches. -/
def fetched : State := State.reset.withFetchWord 32 0x74002041
def fetcher : Group := fetchGroup State.reset false
/-- The word is fetched, decoded and run: s1 + s1 of a register that holds 0, and the clause has completed. -/
theorem test_step_fetches : then_ (step fetched) (fun t =>
    match t.group 0 with | some g => g.cur.isNone && g.unret.length == 1 && g.arch.slices.map (·.pc) == [0x1008] | none => false)
    = true := by decide +kernel
/-- A privileged word is fetched by a handler context. -/
theorem test_step_context : then_ (step (State.reset.withFetchWord 32 0xFA402000)) (fun t =>
    match t.group (sorrelKey 0 0) with | some g => g.cur.isNone && g.unret.length == 1 | none => false) = true := by decide +kernel
/-- StepRunsTheInstruction, its first clause: a group in the middle of a clause. -/
theorem wit_StepRunsTheInstruction :
    (let s := { s0 with turn := .word 0 }
     let c := { clause with rest := [(1, Instr.nop)] }
     let g := { g0 with cur := some c }
     (s.putGroup 0 g).group 0 = some g ∧ ((s.putGroup 0 g).setCore 0 { Core.reset with active := [0] }).mayIssue g 0 = true ∧
      c.rest = (1, .nop) :: []) ∧
    (∃ i, ({ s0 with turn := .event (.commitPoint 0) } : State).turn = .event i ∧
      then_ (exec i (s0.takeInput i)) (fun _ => true) = true) :=
  ⟨by decide +kernel, .commitPoint 0, rfl, by decide +kernel⟩
/-- Its last clause: the group at a boundary, every premise but the words of the fetch. -/
theorem wit_StepRunsTheInstruction_boundary : fetched.turn = .word 0 ∧ fetched.group 0 = some fetcher ∧
    fetched.mayIssue fetcher 0 = true ∧ fetcher.atBoundary = true ∧ fetcher.deferred = [] ∧ fetcher.arch.nextGang = some [0] ∧
    fetcher.arch.slices[0]? = some ⟨0x1000, 15, 0, [], 0, none⟩ ∧ inMacro 0x1000 = false ∧
    headerOk 0xB0000001 = true ∧ hdrN 0xB0000001 = 1 ∧ (∀ t < 3, hdrWait 0xB0000001 t = false) ∧
    classOf (opOf 0x74002041) = hdrClass 0xB0000001 ∧ unassignedOp (opOf 0x74002041) = false ∧ litCount 0x74002041 = 0 ∧
    reads 0x74002041 [] (.sadd ⟨0, false, 2, 1, 1⟩) = true ∧ Instr.wf (.sadd ⟨0, false, 2, 1, 1⟩) = true ∧
    vecTop (.sadd ⟨0, false, 2, 1, 1⟩) ≤ fetcher.vregs ∧ fetcher.sorrel = none ∧ privileged 0x74002041 = false ∧
    fetcher.arch.pend.length < 32 ∧ arrivalOf (.sadd ⟨0, false, 2, 1, 1⟩) = none ∧ entryOf (.sadd ⟨0, false, 2, 1, 1⟩) = none := by
  decide +kernel
/-- Its premise on the fetch: the state in which the words have been fetched fetches them again and does not change. -/
theorem wit_StepRunsTheInstruction_fetch :
    (let s := (fetched.fetchWords fetcher 1 0x1000).1
     (match s.fetchWords fetcher 1 0x1000 with | (t, .words ws) => decide (t = s) && ws == [0xB0000001] | _ => false) &&
     (match s.fetchWords fetcher 1 0x1004 with | (t, .words ws) => decide (t = s) && ws == [0x74002041] | _ => false)) = true := by
  decide +kernel
/-- FetchReadsMemory: a mapped page, one without execute, and a handler context. -/
theorem wit_FetchReadsMemory : 0x1004 % 4 = 0 ∧ 0x1004 < 2 ^ 52 ∧ fetcher.sorrel = none ∧ inMacro 0x1004 = false ∧
    (fetched.core 0).fetch = [] ∧ fetched.badMem 0 0x1004 4 = false ∧ 0x1004 < Config.dramBytes ∧
    (let x : Xlat := { asid := 0, base := 0, size := 16, pa := 0, part := 0, tgt := 0, bind := 0, w := true, x := true }
     findXlat (fetched.core 0).tlb 0 0x1004 = some x ∧ x.part = fetcher.part ∧ x.x = true ∧
      fetched.unitOk 0 (x.place 0x1000) = true ∧ fetched.badMem 0 0x1000 64 = false) ∧
    (match fetched.fetchWords fetcher 1 0x1004 with | (_, .words ws) => ws == [0x74002041] | _ => false) = true ∧
    (match fetched.fetchWords (fetchGroup State.reset true) 1 0x1004 with | (_, .words ws) => ws == [0x74002041] | _ => false) = true ∧
    (let x : Xlat := { asid := 0, base := 0, size := 16, pa := 0, part := 0, tgt := 0, bind := 0, w := true, x := false }
     let s := fetched.setCore 0 { fetched.core 0 with tlb := [x] }
     match s.fetchWords fetcher 1 0x1004 with | (t, .bad f) => decide (t = s ∧ f = .page 0x1004 8 noLane) | _ => false) = true := by
  decide +kernel
theorem wit_StepNeverStops : (match State.reset.turn with | .event i => !i.isWord | _ => true) = true := by decide

/-! Memory: a page mapped to 0x100000, the unit owned; s10:s11 = 0x1000, v4:v5 addresses, v6 offsets, v8 data. -/

def mregs : Arch :=
  ((((regs.writeS 10 0x1000).writeV 4 [(0, 0x1000), (1, 0x1040), (2, 0x2000), (3, 0xFFFC)]).writeV 6
    [(0, 0), (1, 16), (2, 1020), (3, 512)]).writeV 8 [(0, 1), (1, 2), (2, 3), (3, 0xFFFFFFFF)]).writeS 12 1
def page : Xlat :=
  { asid := 0, base := 0, size := 16, pa := 0x100000, part := 0, tgt := 0, bind := 2, w := true, x := true }
/-- The page read-only, as LDC asks. -/
def rpage : Xlat := { page with w := false }
def memOf (g : Group) (x : Xlat) : State :=
  { ((stateOf g).setCore 0 { Core.reset with tlb := [x] }) with
    units := [(0, 1)], mem := [(0x101000, 0x11), (0x101001, 0x82), (0x10FFFF, 0x7F)] }
def gm : Group := groupOf mregs
def sm : State := memOf gm page
/-- The requests a word has sent or holds: act, lane, address, place and the instruction answered. -/
def shape (q : Req) : Act × Nat × Nat × Option Place × Option Nat := (q.act, q.lane, q.va, q.place, q.pid)
def sent (o : Out) (l : List (Act × Nat × Nat × Option Place × Option Nat)) : Bool :=
  then_ o fun t => decide (t.reqs.map shape = l) && t.reqs.all (fun q => q.reply.isNone && q.grp == 3)
def held (o : Out) (l : List (Act × Nat × Nat × Option Place × Option Nat)) : Bool :=
  then_ o fun t => match t.group 0 with
    | some g => decide (g.heldReqs.map shape = l) && g.heldReqs.all (fun q => q.reply.isNone && q.grp == 3) && t.reqs.isEmpty
    | none => false
def pends (o : Out) (l : List (Nat × Dest × Nat)) : Bool :=
  then_ o fun t => match t.group 0 with
    | some g => decide (g.arch.pend.map (fun p => (p.id, p.dest, p.reg)) = l)
    | none => false

theorem issuesM : sm.Issues gm clause := ⟨by rfl, by rfl⟩
/-- The last byte of the page, and addresses in it, are mapped. -/
theorem wit_Maps : gm.sorrel = none ∧ (∀ va ∈ [0, 0x1000, 0xFFFF], findXlat (sm.core 0).tlb 0 va = some page ∧
    sm.unitOk 0 (page.place va) = true ∧ page.place va = ⟨0, 0x100000 + va, 2⟩) ∧ page.part = gm.part ∧ page.w = true ∧
    findXlat (sm.core 0).tlb 0 0x10000 = none := by decide +kernel
theorem wit_GlobalLoads : sm.Issues gm clause ∧
    mregs.vmemFates ⟨pT, 9, 4, 2, false, false, false, none⟩ true false [0, 1, 2, 3] = [] ∧
    mregs.umemFates ⟨6, 10, 2, false, false, none⟩ true false = [] ∧
    sent (exec (.ldg ⟨⟨false, 1⟩, 9, 4, 1, false, true, true, some 2⟩) sm)
      [(.load .l2 2 true, 0, 0x1002, some ⟨0, 0x101002, 2⟩, some 9)] ∧
    sent (exec (.ldd ⟨pT, 9, 4, 2, false, false, false, none⟩) sm)
      [(.load .direct 4 false, 0, 0x1000, some ⟨0, 0x101000, 2⟩, some 9),
       (.load .direct 4 false, 1, 0x1040, some ⟨0, 0x101040, 2⟩, some 9),
       (.load .direct 4 false, 2, 0x2000, some ⟨0, 0x102000, 2⟩, some 9),
       (.load .direct 4 false, 3, 0xFFFC, some ⟨0, 0x10FFFC, 2⟩, some 9)] ∧
    sent (exec (.ldc ⟨⟨false, 1⟩, 9, 4, 2, false, false, false, none⟩) (memOf gm rpage))
      [(.load .konst 4 false, 0, 0x1000, some ⟨0, 0x101000, 2⟩, some 9)] ∧
    sent (exec (.sldg ⟨6, 10, 2, false, false, none⟩) sm)
      [(.load .cached 4 false, 0, 0x1000, some ⟨0, 0x101000, 2⟩, some 9)] ∧
    pends (exec (.ldd ⟨pT, 9, 4, 2, false, false, false, none⟩) sm) [(9, .vec, 9)] ∧
    pends (exec (.sldg ⟨6, 10, 2, false, false, none⟩) sm) [(9, .uni, 6)] :=
  ⟨issuesM, by decide +kernel⟩
theorem wit_GlobalStores : sm.Issues gm clause ∧
    mregs.vmemFates ⟨pT, 8, 4, 2, false, false, false, none⟩ true true [0, 1, 2, 3] = [] ∧
    mregs.umemFates ⟨2, 10, 0, false, false, none⟩ true true = [] ∧
    held (exec (.stg ⟨⟨true, 1⟩, 8, 4, 0, false, false, false, none⟩) sm)
      [(.store .cached 1 2, 1, 0x1040, some ⟨0, 0x101040, 2⟩, none), (.store .cached 1 3, 2, 0x2000, some ⟨0, 0x102000, 2⟩, none),
       (.store .cached 1 0xFF, 3, 0xFFFC, some ⟨0, 0x10FFFC, 2⟩, none)] ∧
    held (exec (.std ⟨⟨false, 1⟩, 8, 4, 2, false, false, false, none⟩) sm)
      [(.store .direct 4 1, 0, 0x1000, some ⟨0, 0x101000, 2⟩, none)] ∧
    held (exec (.sstg ⟨2, 10, 0, false, false, none⟩) sm)
      [(.store .cached 1 5, 0, 0x1000, some ⟨0, 0x101000, 2⟩, none)] :=
  ⟨issuesM, by decide +kernel⟩
/-- ScratchpadAccesses: offsets in range, and one past the offset space. -/
theorem wit_ScratchpadAccesses : sm.Issues gm clause ∧ sm.blockOf gm = some block ∧
    mregs.vmemFates ⟨pT, 9, 6, 2, false, false, false, none⟩ false false [0, 1, 2, 3] = [] ∧
    block.rangeOk 1020 4 = true ∧ block.rangeOk 0xFFFFFFFC 4 = false ∧
    sent (exec (.lds ⟨⟨false, 1⟩, 9, 6, 2, false, false, false, some 4⟩) sm) [(.load .scr 4 false, 0, 4, none, some 9)] ∧
    held (exec (.sts ⟨⟨false, 1⟩, 8, 6, 2, false, false, false, none⟩) sm) [(.store .scr 4 1, 0, 0, none, none)] ∧
    sent (exec (.slds ⟨6, 8, 2, false, false, none⟩) (memOf (groupOf (mregs.writeS 8 1020)) page))
      [(.load .scr 4 false, 0, 1020, none, some 9)] ∧
    held (exec (.ssts ⟨2, 8, 2, false, false, none⟩) (memOf (groupOf (mregs.writeS 8 1020)) page)) [(.store .scr 4 5, 0, 1020, none, none)] ∧
    gives (exec (.lds ⟨⟨false, 1⟩, 9, 6, 2, false, false, false, some 0xFFFFFFFC⟩) sm)
      (sm.raise 0 gm (.trap 4 4 0 0xFFFFFFFC)) ∧
    gives (exec (.sts ⟨⟨false, 1⟩, 8, 6, 2, false, false, false, some 0xFFFFFFFC⟩) sm)
      (sm.raise 0 gm (.trap 4 4 0 0xFFFFFFFC)) :=
  ⟨issuesM, by decide +kernel⟩
/-- AtomicsAndPrefetches: ADD.U32 with data v8; CAS with ordering 3 at .dev; an ATOMO in every lane; AFLUSH; PRFG. -/
theorem wit_AtomicsAndPrefetches : sm.Issues gm clause ∧ sm.blockOf gm = some block ∧
    atomicLitOk ⟨pT, 9, 4, 0, 0, 8⟩ true 128 = true ∧ mregs.atomicFates ⟨pT, 9, 4, 0, 0, 8⟩ true [0, 1, 2, 3] = [] ∧
    held (exec (.atomg ⟨⟨false, 1⟩, 9, 4, 0, 0, 8⟩) sm) [(.atomic false 0 0 1 0, 0, 0x1000, some ⟨0, 0x101000, 2⟩, some 9)] ∧
    held (exec (.atoms ⟨⟨false, 1⟩, 9, 6, 0, 0, 8⟩) sm) [(.atomic true 0 0 1 0, 0, 0, none, some 9)] ∧
    (let o : Atomic := ⟨⟨false, 1⟩, 9, 4, 7, 0, BitVec.ofNat 32 (3 * 2 ^ 18 + 4 * 2 ^ 15 + 1 * 2 ^ 7 + 8)⟩
     atomicLitOk o true 128 = true ∧ then_ (exec (.atomg o) sm) (fun t =>
       match t.group 0 with
       | some g => decide (g.heldReqs.map (·.act) = [.fence 4 3, .atomic false 7 0 1 7] ∧ t.reqs.map (·.act) = [.fence 4 3] ∧
           g.heldReqs.map (·.pid) = [none, some 10]) && (match g.cur with | some c => c.commit | none => false)
       | none => false) = true) ∧
    held (exec (.atomo ⟨false, 1⟩ 4 (BitVec.ofNat 32 (8 * 2 ^ 17 + 2 * 2 ^ 11 + 12 * 2 ^ 5))) sm)
      [(.atomo false 160 1 1, 0, 0x1000, some ⟨0, 0x101000, 2⟩, none)] ∧
    held (exec (.aflush 10) sm) [(.aflush, 0, 0x1000, some ⟨0, 0x101000, 2⟩, none)] ∧
    sent (exec (.prfg ⟨false, 1⟩ 4 false true (some 0xFFFFF000)) sm) [(.prefetch true, 0, 0, some ⟨0, 0x100000, 2⟩, none)] :=
  ⟨issuesM, by decide +kernel⟩

/-! Accesses at their home. -/

/-- The group and one request of it on its way. -/
def reqOf (a : Act) (va : Nat) (p : Option Place) (pid : Option Nat) : Req :=
  { id := 20, grp := 3, core := 0, act := a, lane := 0, va := va, place := p, pid := pid, off := 0, gang := [0], hdr := 0x1000,
    word := 1, clause := 9, walk := none, lost := none, ea := va, released := 0, part := 0, reply := none }
def withReq (s : State) (q : Req) : State := { s with reqs := [q], nextId := 30 }
/-- Bytes of device memory. -/
def bytesAt (t : State) (a n : Nat) : Nat := leNat (t.mem.readN a n)
def homeAt : Option Place := some ⟨0, 0x101000, 2⟩
theorem wit_GlobalAccessesPerform :
    (∀ q ∈ [reqOf (.store .cached 4 0xFFFFFFFF) 0x1000 homeAt none, reqOf (.atomic false 0 0 1 0) 0x1000 homeAt (some 7),
        reqOf (.load .l2 2 true) 0x1000 homeAt (some 7), reqOf (.prefetch true) 0x1000 homeAt none],
      (withReq sm q).req 20 = some q ∧ (withReq sm q).canPerform q = true ∧ (withReq sm q).handleOf 3 = some 0 ∧
      gm.ended = false ∧ q.place = homeAt ∧ gm.sorrel = none ∧ (withReq sm q).unitOk 0 ⟨0, 0x101000, 2⟩ = true ∧
      (withReq sm q).hitLine 0 .l2 ⟨0, 0x101000, 2⟩ = none ∧ (withReq sm q).badMem 0 0x101000 4 = false) ∧
    then_ (exec (.globalAccessPerform 20) (withReq sm (reqOf (.store .cached 4 0xA0B0C0) 0x1000 homeAt none)))
      (fun t => bytesAt t 0x100FFF 6 == 0xA0B0C0 * 256 && bytesAt t 0x10FFFF 1 == 0x7F && t.reqs.isEmpty) ∧
    then_ (exec (.globalAccessPerform 20) (withReq sm (reqOf (.atomic false 0 0 0x100 0) 0x1000 homeAt (some 7))))
      (fun t => bytesAt t 0x101000 4 == 0x8311 && decide (t.reqs.map (·.reply) = [some [⟨7, 0, 0, some 0x8211, 0, false⟩]])) ∧
    then_ (exec (.globalAccessPerform 20) (withReq sm (reqOf (.load .l2 2 true) 0x1000 homeAt (some 7))))
      (fun t => decide (t.reqs.map (·.reply) = [some [⟨7, 0, 0, some 0xFFFF8211, 0, false⟩]] ∧ t.mem = sm.mem)) ∧
    then_ (exec (.globalAccessPerform 20) (withReq sm (reqOf (.prefetch true) 0x1000 homeAt none)))
      (fun t => t.reqs.isEmpty && decide (t.mem = sm.mem)) := by decide +kernel
/-- Scratchpad accesses of live rows, and of a lost allocation. -/
def lostBlock : Block := { block with allocs := block.allocs.map fun a => { a with state := .lost, rows := [] } }
theorem wit_ScratchpadArrivals :
    (∀ q ∈ [reqOf (.store .scr 4 0xA0B0C0) 1020 none none, reqOf (.atomic true 0 0 5 0) 1020 none (some 7),
        reqOf (.load .scr 4 false) 1020 none (some 7)],
      (withReq sm q).req 20 = some q ∧ (withReq sm q).canPerform q = true ∧ q.act.isScr = true ∧ q.lost = none) ∧
    (block.laneAlloc 1020).map (·.base) = some 0 ∧ (block.laneAlloc 1020).map (·.serves 3) = some true ∧
    (lostBlock.laneAlloc 0).map (·.serves 3) = some false ∧
    then_ (exec (.scratchpadArrival 20) (withReq sm (reqOf (.store .scr 4 0xA0B0C0) 1020 none none)))
      (fun t => match Store.find t.blocks 0 with | some b => leNat (b.scr.readN 1019 5) == 0xA0B0C0 * 256 | none => false) ∧
    then_ (exec (.scratchpadArrival 20) (withReq (sm.setBlock 0 { block with scr := [(1020, 7)] }) (reqOf (.atomic true 0 0 5 0) 1020 none (some 7))))
      (fun t => match Store.find t.blocks 0 with
        | some b => leNat (b.scr.readN 1020 4) == 12 && decide (t.reqs.map (·.reply) = [some [⟨7, 0, 0, some 7, 0, false⟩]])
        | none => false) ∧
    then_ (exec (.scratchpadArrival 20) (withReq (sm.setBlock 0 { block with scr := [(1020, 7)] }) (reqOf (.load .scr 4 false) 1020 none (some 7))))
      (fun t => decide (t.reqs.map (·.reply) = [some [⟨7, 0, 0, some 7, 0, false⟩]])) ∧
    then_ (exec (.scratchpadArrival 20) (withReq (sm.setBlock 0 lostBlock) (reqOf (.load .scr 4 false) 1020 none (some 7))))
      (fun t => decide (t.reqs.map (·.lost) = [some (6, 0, 0x2000)])) ∧
    gm.canUndo 20 = true ∧
    then_ (exec (.scratchpadArrival 20) (withReq (sm.setBlock 0 lostBlock) (reqOf (.store .scr 4 5) 1020 none none)))
      (fun t => match t.group 0 with | some g => g.deferred.any (·.clause == 9) && t.reqs.isEmpty | none => false) := by
  decide +kernel

/-! Copies, timelines, matrices and tables: a block with one live allocation of 64 KiB, accumulators 2 and 3 and table 1. -/

/-- s2 = 5, s3 = 0x1000, maps in s4:s5, s6:s7, s14:s15 and s18:s19, s8 = 16, s9 = 32, s10 = 2, s13 = a shape, s16 = 0x800,
s17 = two groups from 0, s20 = a table shape, s24:s25 = an address of record size, s26:s27 = a peer address; v4 and v6 as mregs. -/
def eregs : Arch :=
  [(3, 0x1000), (4, 0x04000000), (5, 0), (6, 0x04000200), (8, 16), (9, 32), (10, 2), (13, 0x00100010), (14, 0x02000400),
   (16, 0x800), (17, 0x00020000), (18, 0x02000600), (20, 0x02040002), (24, 0x3000), (26, 0), (27, 16), (28, 0)].foldl
    (fun a x => a.writeS x.1 x.2) mregs
def table : Tbl :=
  { h := 1, cb := false, rank := 1, y := 4, g := 2, gs := 2, slot := 2, handler := 0x3000, st := 40, res := 40, spill := none, built := true,
    valid := true, lost := false, spilled := false, lo := 0, hi := 0, armed := false, armUid := 0, armId := 0, cause := 0, n := 8 }
def eblock : Block :=
  { block with
    allocs := [{ aid := 7, zeroed := none, base := 0, granules := 64, rank := 1, state := .live, handler := 0x2000,
                 rows := (List.range 64).map fun i => (47 - i / 32, i % 32), donePend := none, spill := none }],
    slots := [0x02, 0x05, 0x02, 0, 0, 0, 0, 0], acs := [(100, ⟨false, 16, 16, [], none, []⟩), (101, ⟨false, 16, 16, [], none, []⟩)],
    ach := [(2, 100), (3, 101)], tbn := [(1, 50)], tbs := [(50, table)], tbe := [(40, ⟨[(40, 1, true)], [], false, [], []⟩)] }
def ge : Group := groupOf eregs
def blockIn (b : Block) : State := { ((memOf ge page).setBlock 0 b) with nextId := 200 }
def se : State := blockIn eblock
def teamLaunch : Launch :=
  { queue := 0, slot := 0, prio := 0, part := 0, asid := 0, recd := [], cores := [0, 1, 2, 3], resident := true }
theorem issuesE : se.Issues ge clause := ⟨by rfl, by rfl⟩

/-- The answer holds, behind requests of acts `pre`, a submission of this kind on the timeline. -/
def submits (o : Out) (pre : List Act) (tl : Nat) (kind : OpKind) (bytes : Nat) (f : State → Bool := fun _ => true) : Bool :=
  then_ o fun t => f t && match t.group 0 with
    | some g => match g.cur with
      | some c => match c.held.getLast? with
        | some q => match q.act with
          | .submit op => decide (op.kind = kind ∧ op.bytes = bytes ∧ op.tl = tl ∧ op.grp = 3 ∧ op.started = false ∧
              (g.arch.tl tl).entries = [⟨some op.id, false, bytes, 0⟩] ∧ c.held.dropLast.map (·.act) = pre) &&
              c.held.all (fun r => r.grp == 3)
          | _ => false
        | none => false
      | none => false
    | none => false
def sReg (n : Nat) (x : Word) (t : State) : Bool := match t.group 0 with | some g => g.arch.readS n == x | none => false
def blkIs (f : Block → Bool) (t : State) : Bool := match Store.find t.blocks 0 with | some b => f b | none => false

/-- CopyWords: CPL global to scratchpad in every lane; tensor copies; CPM in a team; CPR; LNCH; and each misuse. -/
theorem wit_CopyWords : se.Issues ge clause ∧
    (∀ l ∈ eregs.lanes [0] pT, ∀ r ∈ uRegs 4 false ++ uRegs 6 false, eregs.badV r l = false) ∧
    (∀ l ∈ eregs.lanes [0] pT, eregs.base false false 4 l % 4 = 0 ∧ eregs.base false false 6 l % 4 = 0 ∧
      se.inOne ge (eregs.base false false 6 l) 4 = true) ∧
    eregs.badUs [3, 9] = false ∧ (0x1000 : Word).toNat % 64 = 0 ∧
    submits (exec (.cpl pT 6 4 0 0 false) se) [] 0 (.cpl [(0, 0x1000), (16, 0x1040), (1020, 0x2000), (512, 0xFFFC)] 0 4) 16 ∧
    submits (exec (.cpl ⟨false, 1⟩ 4 6 1 0 true) se) [] 2 (.cpl [(0x1000, 0)] 1 4) 4 ∧
    submits (exec (.cptLd ⟨3, 9, 20, false⟩) se) [] 0 (.cpt 0x1000 32 [0x02040002, 0, 0, 0, 0x3000] [false, false, false, false, false] false 0) 0 ∧
    submits (exec (.cptSt ⟨3, 9, 20, true⟩) se) [] 2 (.cpt 0x1000 32 [0x02040002, 0, 0, 0, 0x3000] [false, false, false, false, false] true 0) 0 ∧
    (let s := { se with launches := [(0, teamLaunch)] }
     (s.team ge).length = 4 ∧
     submits (exec (.cpm ⟨3, 9, 20, false⟩ 9) s) [] 0 (.cpt 0x1000 32 [0x02040002, 0, 0, 0, 0x3000] [false, false, false, false, false] false 9) 0) ∧
    (9 : Word).toNat % 64 ≠ 0 ∧ gives (exec (.cptLd ⟨9, 9, 20, false⟩) se) (se.raise 0 ge (misaligned noLane 32)) ∧
    gives (exec (.cptSt ⟨9, 9, 20, false⟩) se) (se.raise 0 ge (misaligned noLane 32)) ∧
    eregs.badUs (uRegs 26 true ++ [3, 2]) = false ∧
    submits (exec (.cpr 26 3 2) se) [] 2 (.cpr 0x1000 (2 ^ 36) 5 0 0) 20 ∧
    submits (exec (.cpr 26 3 (2 + 64 * 2 + 256 * 1)) se) [] 2 (.cpr 0x1000 (2 ^ 36) 5 2 1) 20 ∧
    ([0, 2 + 64 * 3, 2 + 256 * 3, 1024 + 2].all fun l => gives (exec (.cpr 26 3 l) se) (se.raise 0 ge illegal)) = true ∧
    submits (exec (.lnch 24 2) se) [.fence 5 1] 2 (.lnch 0x3000 5) 256 ∧
    gives (exec (.lnch 8 2) se) (se.raise 0 ge (misaligned noLane (16 + 32 * 2 ^ 32))) :=
  ⟨issuesE, by decide +kernel⟩

/-- TimelineWords, on a timeline with values. -/
theorem wit_TimelineWords :
    (let a := { eregs with tls := [⟨3, 4, 5, 6, 0, []⟩, ⟨7, 8, 9, 10, 0, []⟩, ⟨1, 1, 0, 0, 0, []⟩] }
     let g := groupOf a
     let s := memOf g page
     s.group s.who = some g ∧ g.cur = some clause ∧ (1 : BitVec 2).toNat < a.tls.length ∧
     then_ (exec (.tclose 20 1) s) (fun t => match t.group 0 with
       | some g => g.arch.readS 20 == 9 && decide (g.arch.tl 1 = ⟨7, 9, 9, 10, 0, [⟨none, false, 0, 0⟩]⟩) &&
           g.heldReqs.map (·.act) == [.tclose 1]
       | none => false) ∧
     gives (exec (.twait 1 2) s) s ∧
     gives (exec (.tstat 20 1 0) s) (s.withArch g (a.writeS 20 10)) ∧ gives (exec (.tstat 20 1 2) s) (s.withArch g (a.writeS 20 7)) ∧
     gives (exec (.tstat 20 1 3) s) (s.withArch g (a.writeS 20 9)) ∧ gives (exec (.tstat 20 1 4) s) (s.withArch g (a.writeS 20 8)) ∧
     then_ (exec (.tstat 20 1 1) s) (fun t => match t.group 0 with
       | some g => g.arch.readS 20 == 10 && decide (g.arch.tl 1 = ⟨7, 8, 9, 0, 0, []⟩)
       | none => false)) := by decide +kernel

/-- MatrixWords: each premise, and each word. -/
theorem wit_MatrixWords : se.Issues ge clause ∧ se.blockOf ge = some eblock ∧
    eblock.acc 2 = some (100, ⟨false, 16, 16, [], none, []⟩) ∧ eblock.acc 3 = some (101, ⟨false, 16, 16, [], none, []⟩) ∧
    Store.find eblock.ach 4 = none ∧ eblock.accUsed + 4 * 16 * 16 ≤ 1024 * eblock.accBudget ∧
    (let map : DWord := 0x04000000
     mapT map = false ∧ mapOk map (rowBytes 16 (ioWidth 2 false) 0) = true ∧
     slotOk 2 = true ∧ Fmt.ofCode (slotFmt 2) ≠ none ∧ mmaFate se ge 2 false 16 16 16 map 0x04000200 none = none ∧
     mmaFate se ge 2 false 16 16 32 map 0x04000200 (some 0x800) = none) ∧
    submits (exec (.acalloc 4 13 20 false) se) [] 1 (.acc 0 200 200 0 1 true) 0
      (fun t => sReg 20 0 t && blkIs (fun b => decide (b.acc 4 = some (200, ⟨false, 16, 16, [], none, []⟩))) t) ∧
    submits (exec (.acalloc 2 13 20 false) se) [] 1 (.none 0x64) 0 (sReg 20 1) ∧
    submits (exec (.acalloc 4 3 20 false) se) [] 1 (.none 0x64) 0 (sReg 20 3) ∧
    submits (exec (.acalloc 4 13 20 false) (blockIn { eblock with accBudget := 2 })) [] 1 (.none 0x64) 0 (sReg 20 2) ∧
    submits (exec (.acfree 2) se) [] 1 (.none 0xE4) 0 (blkIs fun b => decide (b.acc 2 = none)) ∧
    submits (exec (.acz 2) se) [] 1 (.acc 0 100 100 0 0 true) 0 ∧
    submits (exec (.acadd 2 3) se) [] 1 (.acc 1 100 101 0 0 true) 0 ∧
    gives (exec (.acadd 2 3) (blockIn { eblock with acs := [(100, ⟨false, 16, 16, [], none, []⟩), (101, ⟨true, 16, 16, [], none, []⟩)] }))
      ((blockIn { eblock with acs := [(100, ⟨false, 16, 16, [], none, []⟩), (101, ⟨true, 16, 16, [], none, []⟩)] }).raise 0 ge illegal) ∧
    submits (exec (.acld ⟨2, 4, 0, false⟩) se) [] 1 (.acc 2 100 100 0x04000000 0 false) 0 ∧
    submits (exec (.acst ⟨2, 4, 0, false⟩) se) [] 1 (.acc 3 100 100 0x04000000 0 false) 0 ∧
    submits (exec (.mma ⟨2, 4, 6, 0, false, true, 0⟩) se) [] 1 (.mma 100 0x04000000 0x04000200 16 none 0 false true) 0 ∧
    submits (exec (.mmas ⟨2, 4, 6, 0, true, false, 16 * 16 + 1⟩) se) [] 1 (.mma 100 0x04000000 0x04000200 32 (some 0x800) 0 true false) 0 ∧
    (let s := { (se.setBlock 0 eblock) with
      launches := [(0, teamLaunch)] }
     let ar := ((eregs.writeS 4 0x04000000).writeS 6 0x08000800)
     let g := groupOf ar
     let s := s.putGroup 0 g
     mmaFate s g 2 false 32 32 16 0x04000000 0x08000800 none = none ∧
     submits (exec (.mmaT ⟨2, 4, 6, 0, false, false, 0⟩) s) [] 1 (.mmaT 2 100 false 16 16 0x04000000 0x08000800 16 0 false false) 0) ∧
    gives (exec (.omap 8 9 (20 + 64 * 28)) se)
      (se.withArch ge (eregs.writeS64 20 (16 + 2 ^ 21 * 32))) ∧
    gives (exec (.omap 8 9 (20 + 64 * 8 + 2 ^ 12 * 2 + 2 ^ 14)) se)
      (se.withArch ge (eregs.writeS64 20 (16 + 2 ^ 21 * 32 + 2 ^ 42 * 2 + 2 ^ 44 + 2 ^ 45 * 4))) :=
  ⟨issuesE, by decide +kernel⟩

/-- LookupWords: each premise, and each word. -/
theorem wit_LookupWords : se.Issues ge clause ∧ se.blockOf ge = some eblock ∧ eblock.tbl 1 = some (50, table) ∧
    tableSlotOk 0x02 = true ∧ tableSlotOk 0x15 = false ∧ se.ownWrites ge eblock = [] ∧ table.usable = true ∧
    (se.placeTable 0 eblock 1 2 (groupBytes false 4 (entBytes 2))).toOption = some ⟨2, 1, none⟩ ∧
    gives (exec (.tballoc 1 20 21 2 7) se) (se.putGroup 0 (ge.setS 21 1)) ∧
    gives (exec (.tballoc 2 8 21 2 7) se) (se.putGroup 0 (ge.setS 21 3)) = true ∧
    then_ (exec (.tballoc 2 20 21 2 7) se) (fun t => sReg 21 0 t && blkIs (fun b => match b.tbl 2 with
      | some (k, tb) => k == 200 && !tb.built && !tb.valid && !tb.cb && tb.y == 4 && tb.g == 2 && tb.rank == 1 && tb.slot == 2 &&
          tb.handler == 0x101C
      | none => false) t) ∧
    then_ (exec (.tballoc 2 20 21 2 7) (blockIn { eblock with tblBudget := 1 })) (fun t => sReg 21 0 t && blkIs (fun b =>
      b.allocs.length == 2 && match b.tbl 2 with | some (_, tb) => tb.gs == 0 && tb.spill.isSome | none => false) t) ∧
    gives (exec (.tballoc 1 20 21 3 7) (blockIn { eblock with slots := [0x02, 0x05, 0x02, 0x15] }))
      ((blockIn { eblock with slots := [0x02, 0x05, 0x02, 0x15] }).raise 0 ge illegal) ∧
    submits (exec (.tbfree 1) se) [] 1 (.tbfree 50) 0 (blkIs fun b => decide (b.tbl 1 = none ∧ (b.tblData 40).used = 0)) ∧
    submits (exec (.tbfree 1) (blockIn { eblock with tbs := [(50, { table with spilled := true })] })) [] 1 (.tbfree 50) 0
      (blkIs fun b => decide (b.tbl 1 = none ∧ (b.tblData 40).used = 1)) ∧
    gives (exec (.tbstat 1 21) se) (se.putGroup 0 (ge.setS 21 (2 ^ 31 + 2 ^ 30 + 2 ^ 24 + 2 * 2 ^ 17 + 2))) ∧
    submits (exec (.tbspill 1 3 21) se) [] 1 (.tbspill 200 0x1000) 0
      (fun t => sReg 21 0 t && blkIs (fun b => decide (b.tbl 1 = some (200, { table with spilled := true, cause := causeWord 10 1 0 }))) t) ∧
    submits (exec (.tbspill 1 3 21) (blockIn { eblock with tbs := [(50, { table with built := false })] })) [] 1 (.none 0xED) 0 (sReg 21 6) ∧
    submits (exec (.tbfill 1 3 21) se) [] 1 (.none 0x16D) 0 (sReg 21 5) ∧
    (let s := blockIn { eblock with tbs := [(50, { table with spilled := true })], tbe := [] }
     (match Store.find s.blocks 0 with
      | some b => (s.replaceTable 0 b { table with spilled := true }).isSome | none => false) = true ∧
     submits (exec (.tbfill 1 3 21) s) [] 1 (.tbfill 200 0x1000 true) 0 (sReg 21 0)) ∧
    submits (exec (.tbuildBp 1 18 21) se) [] 1 (.tbuild 200 0x02000600 0) 0
      (fun t => sReg 21 0 t && blkIs (fun b => match b.tbl 1 with
        | some (k, tb) => k == 200 && tb.built && tb.valid && tb.lo == 0x600 && tb.hi == 0x600 + 63 && tb.armed && tb.armUid == 3 &&
            tb.armId == 200 && tb.n == 8
        | none => false) t) ∧
    submits (exec (.tbuildCb 1 18 21 (16 + 64 * 10)) (blockIn { eblock with tbs := [(50, { table with cb := true })] })) [] 1
      (.tbuild 200 0x02000600 0x800) 0 (sReg 21 0) ∧
    submits (exec (.lmma ⟨2, 1, 14, 16, 1, false, true, 17⟩) se) [] 1 (.lmma 100 50 0x02000400 0x800 0x00020000 2 8 false true) 0 ∧
    (let s := blockIn { eblock with tbs := [(50, { table with valid := false, cause := 0x30100400 })] }
     gives (exec (.lmma ⟨2, 1, 14, 16, 1, false, true, 17⟩) s)
       (s.raise 0 ge (.inGroup 7 0x3000 (2 ^ 31 + 1) 0x100400 0x30100400))) :=
  ⟨issuesE, by decide +kernel⟩

/-! The scratchpad allocation words: s2 = 1024 bytes asked for, s3 = 4096, s6 = 0. -/

def aregs : Arch := (mregs.writeS 2 1024).writeS 3 4096
def ga : Group := groupOf aregs
def sa : State := memOf ga page
def inBlock (b : Block) : State := (memOf ga page).setBlock 0 b
/-- The block with its allocation in another state. -/
def allocIn (st : AllocState) (rows : List (Nat × Nat)) : Block :=
  { block with allocs := block.allocs.map fun a => { a with state := st, rows := rows } }
def fewBanks : State := (inBlock block).setCore 0 { Core.reset with lit := [0, 47] }
/-- The word holds one request of this act and leaves the register. -/
def holds1 (o : Out) (act : Act) (reg : Nat) (x : Word) : Bool :=
  then_ o fun t => match t.group 0 with
    | some g => decide (g.heldReqs.map (·.act) = [act]) && g.arch.readS reg == x && g.heldReqs.all (·.grp == 3)
    | none => false
/-- 64 allocations. -/
def manyAllocs : Block :=
  { block with allocs := (List.range 64).map fun i =>
      { aid := i, zeroed := none, base := 1024 * i, granules := 1, rank := 1, state := .lost, handler := 0, rows := [], donePend := none, spill := none } }
theorem wit_AllocationWords : sa.Issues ga clause ∧ sa.blockOf ga = some block ∧ aregs.badS 2 = false ∧ aregs.lhret = [] ∧
    block.allocAt 4096 = none ∧ (block.allocAt 0).map (·.base) = some 0 ∧
    then_ (exec (.salloc 1 2 20 4) sa) (fun t => sReg 20 1024 t && blkIs (fun b => b.allocs.length == 2 &&
      match b.allocAt 1500 with
      | some a => a.granules == 1 && a.rank == 1 && a.handler == 0x1010 && a.rows == [(47, 1)] && decide (a.state = .live)
      | none => false) t) ∧
    then_ (exec (.salloc 0 2 20 4) sa) (blkIs fun b => match b.allocAt 1500 with | some a => a.rows == [(0, 0)] | none => false) ∧
    (let s := fun (x : Word) => memOf (groupOf (mregs.writeS 2 x)) page
     let g := fun (x : Word) => groupOf (mregs.writeS 2 x)
     gives (exec (.salloc 1 2 20 4) (s 0)) ((s 0).putGroup 0 ((g 0).setS 20 0x80000004)) ∧
     gives (exec (.salloc 1 2 20 4) (s 1023)) ((s 1023).putGroup 0 ((g 1023).setS 20 0x80000004)) ∧
     gives (exec (.salloc 1 2 20 4) (s 1573888)) ((s 1573888).putGroup 0 ((g 1573888).setS 20 0x80000004)) ∧
     gives (exec (.salloc 0 2 20 4) (s 0x40000)) ((s 0x40000).putGroup 0 ((g 0x40000).setS 20 0x80000002)) ∧
     gives (exec (.salloc 1 2 20 4) (s 0x180000)) ((s 0x180000).putGroup 0 ((g 0x180000).setS 20 0x80000001))) ∧
    gives (exec (.salloc 1 2 20 4) (inBlock manyAllocs)) ((inBlock manyAllocs).putGroup 0 (ga.setS 20 0x80000003)) ∧
    gives (exec (.squery 3 20) sa) (sa.putGroup 0 (ga.setS 20 0xC0000000)) ∧
    gives (exec (.squery 63 20) sa) (sa.putGroup 0 (ga.setS 20 (2 ^ 27 + 2 ^ 11))) ∧
    gives (exec (.sfree 3) sa) (sa.raise 0 ga (.trap 4 4 noLane 4096)) ∧
    gives (exec (.srestore 3 20) sa) (sa.putGroup 0 (ga.setS 20 4)) ∧ gives (exec (.srank 2 3 20) sa) (sa.putGroup 0 (ga.setS 20 4)) ∧
    gives (exec (.srestoreDone 3 20) sa) (sa.putGroup 0 (ga.setS 20 4)) ∧
    holds1 (exec (.sfree 63) sa) (.sfree 7) 2 1024 ∧ gives (exec (.srestore 63 20) sa) (sa.putGroup 0 (ga.setS 20 2)) ∧
    gives (exec (.srestoreDone 63 20) sa) (sa.putGroup 0 (ga.setS 20 5)) ∧
    gives (exec (.srank 0 63 20) sa) (sa.putGroup 0 (ga.setS 20 1)) ∧ holds1 (exec (.srank 3 63 20) sa) (.srank 7 3) 20 0 :=
  ⟨⟨by rfl, by rfl⟩, by decide +kernel⟩
/-- Its remaining clauses: allocations that are lost or being rebuilt, counts, and LHRET. -/
theorem wit_AllocationWords_states :
    then_ (exec (.srestore 63 20) (inBlock (allocIn .lost []))) (fun t => sReg 20 0 t && blkIs (fun b =>
      decide (b.allocs.map (fun a => (a.state, a.rows)) = [(.rebuilding 3, [(47, 0)])])) t) ∧
    (let s := (inBlock (allocIn .lost [])).setCore 0 { Core.reset with lit := [] }
     placeRows 1 1 (s.banks 0) = none ∧ gives (exec (.srestore 63 20) s) (s.putGroup 0 (ga.setS 20 3))) ∧
    (let s := inBlock (allocIn (.rebuilding 8) [(47, 0)])
     gives (exec (.srestore 63 20) s) (s.putGroup 0 (ga.setS 20 1)) ∧ gives (exec (.srestoreDone 63 20) s) (s.putGroup 0 (ga.setS 20 5))) ∧
    (let s := inBlock (allocIn (.rebuilding 3) [(47, 0)])
     gives (exec (.srestore 63 20) s) (s.putGroup 0 (ga.setS 20 2)) ∧
     gives (exec (.squery 63 20) s) (s.putGroup 0 (ga.setS 20 (2 ^ 31 + 2 ^ 27 + 2 ^ 26 + 2 ^ 11))) ∧
     (allocIn (.rebuilding 3) [(47, 0)]).allocs.all (fun a => !s.writing 3 9 0 a) = true ∧
     then_ (exec (.srestoreDone 63 20) s) (fun t => sReg 20 0 t && blkIs (fun b =>
       decide (b.allocs.map (fun a => (a.state, a.donePend)) = [(.live, none)])) t)) ∧
    (let s := { (inBlock (allocIn (.rebuilding 3) [(47, 0)])) with reqs := [{ reqOf (.store .scr 4 1) 0 none none with id := 5 }] }
     (allocIn (.rebuilding 3) [(47, 0)]).allocs.all (s.writing 3 9 0) = true ∧
     then_ (exec (.srestoreDone 63 20) s) (fun t => sReg 20 0 t && blkIs (fun b =>
       decide (b.allocs.map (fun a => (a.state, a.donePend)) = [(.rebuilding 3, some 9)])) t)) ∧
    (let s := inBlock { block with lostCount := 7 }
     gives (exec (.squeryCnt 20) s) (s.putGroup 0 (ga.setS 20 7))) ∧
    gives (exec .lhret sa) (sa.raise 0 ga illegal) ∧
    (let g := groupOf { aregs with lhret := [0x2000] }
     let s := memOf g page
     gives (exec .lhret s) (s.putGroup 0 { g with cur := some { clause with commit := true, lhret := true } })) := by
  decide +kernel

/-! The steps of a clause. -/

/-- A completed clause, and a group behind it. -/
def retired : Retained :=
  { hdr := 0xF00, first := 5, done := 0, snap := { regs with fpflags := 5 }, held := [], undo := [], gang := [0], upto := 21 }
def gr : Group := { ga with cur := none, unret := [retired] }
def sr : State := { (memOf gr page) with now := 500 }
def after : After :=
  { commit := true, lhret := false, gang := [0], trap := none, barw := none, ifence := false, tret := none, parks := false, yld := false,
    forced := false }
def seated (g : Group) (key core ctx age : Nat) : Group := { g with core := core, ctx := ctx, age := age, index := key }
theorem wit_ClauseSteps_boundary :
    (match fetched.nextClause fetcher with
     | (s1, .go c) => fetcher.atBoundary && fetcher.deferred.isEmpty &&
         gives (exec (.clauseDecode 0) fetched)
           (s1.putGroup 0 { fetcher with cur := some c, waits := false, arch := fetcher.arch.advance c.gang c.nextPc })
     | _ => false) = true ∧
    (let g := { fetcher with waits := true }
     let s := { fetched.putGroup 0 g with now := 77 }
     s.canIssue g = true ∧ gives (exec (.waitSatisfied 0) s) (s.putGroup 0 { g with waits := false, readySince := 77 })) ∧
    (let p : Pend := ⟨6, .uni, 20, false, [(0, 0)]⟩
     let g := { ga with cur := none, after := some after, rets := [⟨6, 0, 0, some 99, 0, false⟩], arch := { aregs with pend := [p] } }
     let s := memOf g page
     g.badRets = [] ∧ g.allReturned = true ∧ g.popped = false ∧
     then_ (exec (.commitPoint 0) s) (fun t => match t.group 0 with
       | some g => g.arch.readS 20 == 99 && g.arch.pend.isEmpty && g.rets.isEmpty && g.after.isNone | none => false)) ∧
    sr.retirable gr = true ∧ gr.done = false ∧
    gives (exec (.clauseRetire 0) sr) (sr.putGroup 0 { gr with unret := [] }) := by decide +kernel
theorem wit_ClauseSteps_strike :
    (sr.groups.filter (fun x => x.2.sorrel.isNone && x.2.core == 0)).map Prod.fst = [0] ∧ (∀ x ∈ gr.unret, x.undo = []) ∧
    then_ (exec (.strikeReport 0) sr) (fun t => match t.group 0 with
      | some g => decide (g.arch = retired.snap ∧ g.unret = [] ∧ g.strikes = 1) | none => false) ∧
    (let s := { fetched with groups := [(0, fetcher)] }
     let s := s.setCore 0 { s.core 0 with active := [] }
     oldest (s.pending 0) = some (0, fetcher) ∧
     gives (exec (.activeSetSwap 0) s) (s.setCore 0 { s.core 0 with active := [0] })) ∧
    (let y := { fetcher with index := 9, age := 9, ctx := 1 }
     let s := { fetched with groups := [(0, fetcher), (256, y)], now := 224 }
     let s := s.setCore 0 { s.core 0 with active := [256] }
     oldest (s.urgent 0) = some (0, fetcher) ∧ youngest (s.activeGroups 0) = some (256, y) ∧
     gives (exec (.urgentPromotion 0) s)
       ((s.setCore 0 { s.core 0 with active := [0] }).putGroup 256 { y with readySince := 224 })) := by decide +kernel
theorem wit_ClauseSteps_faults :
    (let d : Deferred := ⟨9, 1, 6, 4, 0, 1020, 3, 0x2000, [0], none, none⟩
     let g := { ga with cur := none, deferred := [d] }
     let s := memOf g page
     g.atBoundary = true ∧ s.deliverable g d = true ∧ d.gang.any g.arch.liveSlices.contains = true ∧
     then_ (exec (.deferredFaultDelivery 0) s) (fun t => match t.group 0 with
       | some g => decide (g.deferred = [] ∧ g.arch.lhret = [0x1000] ∧ g.arch.lossid = 0 ∧ g.arch.lossaddr = 1020 ∧
           g.arch.slices.map (·.pc) = [0x2000]) | none => false)) ∧
    (let q := { reqOf (.load .scr 4 false) 1020 none (some 7) with lost := some (6, 0, 0x2000), hdr := 0xF00 }
     let s := withReq ((memOf gr page).setBlock 0 lostBlock) q
     (s.reqs.filter fun q => q.grp == gr.uid) = [q] ∧ retired.upto = q.id + 1 ∧
     then_ (exec (.lostLoadSignal 0) s) (fun t => match t.group 0 with
       | some g => decide (g.unret = [] ∧ g.arch.lhret = [0xF00] ∧ g.arch.lossid = 0 ∧ g.arch.lossaddr = 1020 ∧
           g.arch.slices.map (·.pc) = [0x2000] ∧ g.arch.s = regs.s) | none => false)) := by decide +kernel

/-! The engines. -/

/-- An operation of the group in the copy unit or at the head of an engine. -/
def opOf (kind : OpKind) (tl : Nat) : Op :=
  { id := 60, grp := 3, core := 0, tl := tl, kind := kind, gang := [0], hdr := 0x1000, started := true, step := 0, bytes := 8, oob := false,
    lost := false, fault := false, detail := 0, cancelled := false, flags := 0, wait := none, stopped := false, finished := false,
    scratch := [], seq := 1, buf := [], pos := 0, ending := false, headed := true, work := 100000, cyc := 0 }
/-- fp16 1.0 in A(0, 0) and B(0, 1), codes and weights of LMMA. -/
def eblock2 : Block := { eblock with scr := [(1, 0x3C), (515, 0x3C), (0x400, 1), (0x801, 0x40)] }
/-- The group of the operation, its entry in the timeline, level 8, and the operation at the head of an engine. -/
def geOp (op : Op) : Group :=
  { ge with arch := eregs.modTl op.tl fun t => { t with l := 1, entries := [⟨some 60, false, 8, 0⟩, ⟨none, true, 0, 0⟩] } }
def withOp (op : Op) (lk : Bool) : State :=
  let s := ({ (se.setBlock 0 eblock2) with ops := [op] } : State).putGroup 0 (geOp op)
  let c := s.core 0
  s.setCore 0 (if lk then { c with lookupQ := [60], lookupLevel := 8 } else { c with matrixQ := [60], matrixLevel := 8 })
def accIs (st : Nat) (f : Acc → Bool) (t : State) : Bool :=
  blkIs (fun b => match Store.find b.acs st with | some a => f a | none => false) t
/-- State.Runs. -/
def runs (s : State) (op : Op) : Bool :=
  decide (s.op 60 = some op ∧ op.id = 60 ∧ s.handleOf op.grp = some 0) && (match s.group 0 with
    | some g => decide (g = geOp op ∧ g.uid = op.grp ∧ g.ended = false) | none => false)

theorem wit_EngineSteps_copies :
    (let op := { opOf (.cpl [(4, 0x1000)] 0 4) 0 with buf := [.todo, .wrote [0], .wrote [0], .wrote [0]], pos := 3 }
     let s := withOp op false
     runs s op = true ∧ pickOf s.draws (op.bytesThat 4 fun y => y.isTodo || y.isRead) = some 0 ∧ s.copyReady op (geOp op) = true ∧ s.unitOk 0 (page.place 0x1000) = true ∧
     s.badMem 0 0x101000 4 = false ∧ decide (eblock2.hit 3 4 4 = .ok) = true ∧
     then_ (exec (.copyTransfer 60) s) (fun t =>
       decide (t.mem = s.mem ∧ t.blocks = s.blocks ∧ t.op 60 = some { op with buf := [.read (some (0x11, false)), .wrote [0], .wrote [0], .wrote [0]] }))) ∧
    (let op := fun (n : Nat) => { opOf (.cpl [(4, 0x1000)] 0 4) 0 with
       buf := [.wrote [0], .wrote [0], .wrote [0], .read (some (6, false))], pos := n }
     runs (withOp (op 0) false) (op 0) = true ∧
     pickOf (withOp (op 0) false).draws ((op 0).bytesThat 4 fun y => y.isTodo || y.isRead) = some 3 ∧
     then_ (exec (.copyTransfer 60) (withOp (op 0) false)) (fun t =>
       blkIs (fun b => decide (b.scr.readN 0 8 = [0, 0x3C, 0, 0, 0, 0, 0, 6])) t &&
         decide (t.op 60 = some { op 1 with buf := List.replicate 4 (.wrote [0]) })) ∧
     then_ (exec (.copyTransfer 60) (withOp (op 3) false)) (fun t =>
       blkIs (fun b => decide (b.scr.readN 4 4 = [0, 0, 0, 6])) t &&
         decide (t.op 60 = some { op 0 with buf := [], step := 1, finished := true }))) ∧
    (let op := { opOf (.cpl [(4, 0x1000)] 0 4) 0 with finished := true, step := 1 }
     let s := withOp op false
     runs s op = true ∧ then_ (exec (.copyOpComplete 60) s) (fun t => decide (t.op 60 = none) && match t.group 0 with
       | some g => decide (g.arch = (geOp op).arch.settleTl 0 (·.opDone op) ∧ (g.arch.tl 0).c = 1 ∧ (g.arch.tl 0).bytes = 8)
       | none => false)) := by decide +kernel
theorem wit_EngineSteps_matrix :
    (let op := opOf (.acc 0 100 100 0 0 true) 1
     let s := withOp op false
     runs s op = true ∧ s.teamPending 0 = [] ∧ s.engineReady 0 false = some op ∧
     then_ (exec (.matrixEngineStep 0) s) (fun t => accIs 100 (fun a => a.el.isEmpty && a.rs.isNone) t &&
       decide (t.op 60 = some { op with finished := true }))) ∧
    (let op := opOf (.mma 100 0x04000000 0x04000200 16 none 0 false false) 1
     let s := withOp op false
     runs s op = true ∧ s.teamPending 0 = [] ∧ s.engineReady 0 false = some op ∧ (geOp op).engineBlock op = 0 ∧
     Fmt.ofCode (slotFmt (eblock2.slots.getD 0 0)) = some .fp16 ∧ op.step < 16 / 16 * 1 ∧
     (List.range 16).all (fun i => (List.range 16).all fun t =>
       ((elemRC 0x04000000 16 0 0 i t).reads ++ (elemRC 0x04000200 16 0 0 t i).reads).all fun o => decide (eblock2.hit 3 o 1 = .ok))) ∧
    (let op := { opOf (.acc 0 100 100 0 0 true) 1 with finished := true }
     let s := withOp op false
     runs s op = true ∧ s.headOp 0 false = some op ∧ then_ (exec (.matrixOpComplete 0) s) (fun t =>
       decide (t.op 60 = none ∧ (t.core 0).matrixQ = []) && match t.group 0 with
         | some g => decide (g.arch = (geOp op).arch.settleTl 1 (·.opDone op) ∧ (g.arch.tl 1).c = 1) | none => false)) := by
  decide +kernel
theorem wit_EngineSteps_lookup :
    (let op := opOf (.lmma 100 50 0x02000400 0x800 0x00020000 1 8 false false) 1
     let s := withOp op true
     runs s op = true ∧ s.engineReady 0 true = some op ∧ table.dark (eblock2.tblData 40) = false ∧ op.step < (2 + 15) / 16 * 1 ∧
     (List.range 16).all (fun j => (List.range 2).all fun q =>
       (elemAt 0x02000400 4 0 0 j q).reads.all (fun o => decide (eblock2.hit 3 o 1 = .ok)) &&
       decide (eblock2.hit 3 (0x800 + 2 * j + q) 1 = .ok))) ∧
    (let op := { opOf (.none 5) 1 with finished := true }
     let s := withOp op true
     runs s op = true ∧ op.ramps = false ∧ s.headOp 0 true = some op ∧ then_ (exec (.lookupOpComplete 0) s) (fun t =>
       decide (t.op 60 = none ∧ (t.core 0).lookupQ = []) && match t.group 0 with
         | some g => decide (g.arch = (geOp op).arch.settleTl 1 (·.opDone op)) | none => false)) ∧
    (let op := opOf (.lmma 100 50 0x02000400 0x800 0x00020000 1 8 false false) 1
     let s := (withOp op true).setCore 0 { (withOp op true).core 0 with lookupLevel := 3 }
     s.requests (0, true) = true ∧ (engines 0).all (fun e => !s.filler e && (e == (0, true) || !s.requests e)) = true ∧
     then_ (exec (.teleaselStepBoundary 0) s) (fun t => (t.core 0).lookupLevel == 4)) := by decide +kernel

/-! The memory system. -/

def hostQ : HostQueue := { HostQueue.reset with base := 0x9000, en := true, log2size := 4, tail := 17, head := 4 }
def part0 : Part := { cores := [0, 1], units := [0], asids := [0, 5], pools := [5], queues := [3], cbars := [], wbars := [] }
def faultRec : FaultRec := { seq := 7, asid := 5, vpn := 0x12, kind := 1, part := 0, sent := false, waiters := [(1, 0)] }
def smq (q : Req) : State := withReq ({ sm with parts := [(0, part0)] }.setHq 0 hostQ) q
def recs (s : State) (l : List FaultRec) : State := s.setCluster 0 { s.cluster 0 with recs := l }
theorem wit_MemorySteps_walks :
    (let q := reqOf (.load .cached 4 false) 0x1000 none (some 7)
     (smq q).req 20 = some q ∧ (smq q).handleOf 3 = some 0 ∧ gm.frozen = false ∧
     gives (exec (.pageWalkComplete 20) (smq q)) ((smq q).putReq { q with place := homeAt })) ∧
    (let s := recs (smq (reqOf .aflush 0x1000 homeAt none)) [faultRec]
     (s.cluster 0).recs = [faultRec] ∧ hostQ.room = true ∧ Store.find s.parts 0 = some part0 ∧
     then_ (exec (.faultRecordForward 0 7) s) (fun t => decide ((t.cluster 0).recs = [{ faultRec with sent := true }] ∧
       (t.hq 0).tail = 18) &&
       leNat (t.host.readN (0x9000 + 16) 16) == 0x00120005 + 2 ^ 64 * (2 ^ 48 + 7 * 2 ^ 8 + 1))) ∧
    (let g := { gm with parked := some (0, 7), cur := none }
     let s := (recs (smq (reqOf .aflush 0x1000 homeAt none)) [faultRec]).putGroup 0 g
     then_ (exec (.faultAnswer 0 7 false) s) (fun t => decide ((t.cluster 0).recs = [] ∧ t.group 0 = some { g with parked := none } ∧
       ((t.cluster 0).trapQ.map fun e => (e.isTrap, e.code, e.regs)) = [(false, 1, [0x00120005, 0])]))) := by decide +kernel
theorem wit_MemorySteps_replies :
    (let q := { reqOf (.load .direct 4 false) 0x1000 homeAt (some 7) with reply := some [⟨7, 0, 0, some 5, 0, false⟩] }
     let g := { gm with arch := { mregs with pend := [⟨7, .uni, 3, false, [(0, 0)]⟩] } }
     let s := (smq q).putGroup 0 g
     then_ (exec (.directPathReply 20) s) (fun t => t.reqs.isEmpty && match t.group 0 with
       | some g => decide (g.rets = [⟨7, 0, 0, some 5, 0, false⟩]) | none => false)) ∧
    (let q := { reqOf (.load .l2 4 false) 0x1000 homeAt (some 7) with reply := some [⟨7, 0, 0, some 5, 0, false⟩] }
     let g := { gm with arch := { mregs with pend := [⟨7, .uni, 3, false, [(0, 0)]⟩] } }
     let s := (smq q).putGroup 0 g
     then_ (exec (.longLatencyReturn 0 20) s) (fun t => t.reqs.isEmpty && match t.group 0 with
       | some g => decide (g.rets = [⟨7, 0, 0, some 5, 0, false⟩]) | none => false)) := by decide +kernel
/-- ATOMO with a count of 2 opens a set and with a count of 1 is folded at once; AFLUSH folds; a full buffer evicts. -/
theorem wit_MemorySteps_sets :
    (let q := reqOf (.atomo false 9 0x3F800000 2) 0x2000 (some ⟨0, 0x102000, 2⟩) none
     (smq q).behindFence q = false ∧ (smq q).mayReach q ⟨0, 0x102000, 2⟩ = true ∧ homeCluster 0x102000 = 2 ∧
     then_ (exec (.atomoArrival 20) (smq q)) (fun t =>
       decide ((t.cluster 2).osets = [⟨0x102000, 0, false, 2, [(9, 0x3F800000)], false⟩] ∧ t.reqs = [] ∧ t.mem = sm.mem))) ∧
    (let q := reqOf (.atomo false 9 0x3F800000 1) 0x2000 (some ⟨0, 0x102000, 2⟩) none
     then_ (exec (.atomoArrival 20) (smq q)) (fun t => decide ((t.cluster 2).osets = []) &&
       bytesAt t 0x102000 4 == 0x3F800000 && bytesAt t 0x101000 2 == 0x8211)) ∧
    (let q := reqOf .aflush 0x2000 (some ⟨0, 0x102000, 2⟩) none
     let s := (smq q).setCluster 2 { Cluster.reset with osets := [⟨0x102000, 0, false, 2, [(9, 0x3F800000)], false⟩] }
     s.canPerform q = true ∧ then_ (exec (.aflushArrival 20) s) (fun t => decide ((t.cluster 2).osets = [] ∧ t.reqs = []) &&
       bytesAt t 0x102000 4 == 0x3F800000)) ∧
    (let q := { reqOf (.cprElem 0 0 5 3) 0x1000 homeAt (some 33) with lane := 0 }
     let s := (smq q).setCluster (homeCluster 0x101000) { Cluster.reset with windows := [⟨33, 0, 0, [1]⟩] }
     then_ (exec (.cprElementArrival 20) s) (fun t =>
       decide ((t.cluster (homeCluster 0x101000)).windows = [⟨33, 0, 0, [1, 3]⟩] ∧ t.reqs = []) && bytesAt t 0x101000 4 == 0x8216)) := by
  decide +kernel
theorem wit_MemorySteps_evict :
    (let o : OSet := ⟨0x102000, 0, false, 5000, List.replicate 4096 (0, 0), false⟩
     let s := sm.setCluster 2 { Cluster.reset with osets := [o] }
     4096 ≤ (s.cluster 2).bufferUse ∧ then_ (exec (.atomoEvict 2) s) (fun t => (t.cluster 2).osets.map (·.spilled) == [true])) := by
  decide +kernel

/-! Pools, barriers, fences and binds. -/

/-- The word leaves these requests held, and the last of them answers this instruction. -/
def holdsL (o : Out) (acts : List Act) (pid : Option Nat) (f : Group → Bool := fun _ => true) : Bool :=
  then_ o fun t => t.reqs.isEmpty && match t.group 0 with
    | some g => decide (g.heldReqs.map (·.act) = acts ∧ g.heldReqs.getLast?.bind (·.pid) = pid) &&
        g.heldReqs.all (fun q => q.grp == 3 && q.core == 0) && f g
    | none => false
def noAdm : State := inBlock { block with poolAdm := false }
theorem wit_PoolWords : sa.Issues ga clause ∧ sa.blockOf ga = some block ∧ block.pools[(0 : BitVec 3).toNat]? = some 5 ∧
    block.pools[(1 : BitVec 3).toNat]? = none ∧ aregs.badUs (uRegs 4 true ++ (List.range 8).map (8 + ·)) = false ∧
    gives (exec (.plpop 1 20 true) sa) (sa.raise 0 ga illegal) ∧ gives (exec (.pldrain 1) sa) (sa.raise 0 ga illegal) ∧
    holdsL (exec (.plcfg 0 4) sa) [.plcfg 5 0x1000000000] none ∧
    gives (exec (.plcfg 0 4) noAdm) (noAdm.raise 0 ga (.trap 3 3 noLane 0)) ∧
    holdsL (exec (.plstat 0 9 2) sa) [.plstat 5 2] (some 9) (fun g => decide (g.arch.pend = [⟨9, .uni, 9, false, [(0, 0)]⟩])) ∧
    holdsL (exec (.plpop 0 20 true) sa) [.plpop 5 true] (some 9) (fun g => g.arch.pend.map (·.pieces.length) == [12]) ∧
    holdsL (exec (.pldrain 0) sa) [.pldrain 5] none ∧
    holdsL (exec (.plpush 0 4 8 true 3) sa)
      [.fence 4 1, .plpush 5 0x1000000000 [0x1000, 64, 0x1000, 0, 1, 0, 0, 0] true] (some 10)
      (fun g => decide (g.arch.pend = [⟨10, .uni, 3, false, [(0, 0)]⟩])) :=
  ⟨⟨by rfl, by rfl⟩, by decide +kernel⟩

/-- A request to pool 5 of the group. -/
def poolReq (a : Act) : Req := { reqOf a 0 none (some 7) with va := 0 }
/-- Two words a record, MIN, capacity 2. -/
def openPool (rs : List PoolRec) (st : Nat) : Pool := { Pool.reset with state := st, cfg := 0x100000043, recs := rs, arrival := 4 }
def poolIn (p : Pool) (a : Act) : State := { withReq sm (poolReq a) with pools := [(5, p)] }
def prec (k : Nat) : PoolRec := ⟨BitVec.ofNat 64 k, [1, 2], 1, false, k, false⟩
/-- The answers of PoolSteps. -/
def answers (p : Pool) (a : Act) (i : Instr) (p1 : Pool) (rets : List Ret) : Bool :=
  let s := poolIn p a
  gives (exec i s) { (s.setPool 5 { p1 with arrival := p.arrival + 1 }) with reqs := [{ poolReq a with reply := some rets }] }
def changes (p : Pool) (a : Act) (i : Instr) (p1 : Pool) : Bool :=
  let s := poolIn p a
  gives (exec i s) { (s.setPool 5 { p1 with arrival := p.arrival + 1 }) with reqs := [] }
def stat1 (n at_ x : Nat) : List Ret := (List.range n).map fun o => ⟨7, 0, o, if o == at_ then some (BitVec.ofNat 32 x) else none, 0, false⟩
theorem wit_PoolSteps_arrives : ([Act.plpush 5 3 [] true, .plpop 5 true, .plcfg 5 1, .plstat 5 0, .pldrain 5].all fun a =>
    let s := poolIn (openPool [] 1) a
    decide (s.req 20 = some (poolReq a) ∧ a.pool = some 5 ∧ s.handleOf 3 = some 0) && s.poolTurn (poolReq a)) = true ∧
    gm.ended = false ∧ sm.group 0 = some gm := by decide +kernel
theorem wit_PoolSteps_push :
    (let push := fun k => Act.plpush 5 k [7, 0xFFFFFFFF, 9] false
     answers (openPool [] 0) (push 3) (.pushArrival 20) (openPool [] 0) (stat1 1 0 4) ∧
     answers (openPool [prec 3] 2) (push 3) (.pushArrival 20) (openPool [prec 3] 2) (stat1 1 0 3) ∧
     answers (openPool [prec 3] 1) (push 3) (.pushArrival 20) (openPool [⟨3, [1, 0xFFFFFFFF], 2, false, 3, false⟩] 1) (stat1 1 0 0) ∧
     answers (openPool [prec 3] 1) (push 4) (.pushArrival 20) (openPool [prec 3, ⟨4, [7, 0xFFFFFFFF], 1, false, 5, false⟩] 1) (stat1 1 0 1) ∧
     answers (openPool [prec 3, prec 2] 1) (push 4) (.pushArrival 20) (openPool [prec 3, prec 2] 1) (stat1 1 0 2)) ∧
    (let a := Act.plpush 5 4 [7, 8] true
     changes (openPool [prec 3, prec 2] 1) a (.pushArrival 20)
       { openPool [prec 3, prec 2] 1 with pushes := [⟨poolReq a, 5⟩] }) := by decide +kernel
theorem wit_PoolSteps_pop :
    (let pop := Act.plpop 5 false
     (openPool [prec 3, prec 2] 1).select = some (prec 2) ∧
     answers (openPool [prec 3, prec 2] 1) pop (.popArrival 20) (openPool [prec 3] 1)
       ([some 2, some 0, some 1, some 0, some 1, some 2, none, none, none, none, none, none].mapIdx fun o v => ⟨7, 0, o, v, 0, false⟩) ∧
     answers (openPool [] 1) pop (.popArrival 20) (openPool [] 1) (stat1 12 3 1) ∧
     answers (openPool [] 0) pop (.popArrival 20) (openPool [] 0) (stat1 12 3 3) ∧
     answers (openPool [] 3) pop (.popArrival 20) (openPool [] 3) (stat1 12 3 2)) ∧
    (let a := Act.plpop 5 true
     changes (openPool [] 1) a (.popArrival 20) { openPool [] 1 with pops := [⟨poolReq a, 5⟩] }) := by decide +kernel
theorem wit_PoolSteps_other :
    changes (openPool [prec 3] 3) (.plcfg 5 0x42) (.plcfgArrival 20) { openPool [] 1 with cfg := 0x42 } ∧
    (poolIn (openPool [] 1) (.plcfg 5 0x42)).cfgReject 5 0x42 = 3 ∧ (poolIn (openPool [] 0) (.plcfg 5 0x42)).cfgReject 5 0x62 = 1 ∧
    changes (openPool [prec 3] 1) (.plcfg 5 0x42) (.plcfgArrival 20) { openPool [prec 3] 1 with rej := 3 } ∧
    answers (openPool [prec 3] 1) (.plstat 5 2) (.plstatArrival 20) (openPool [prec 3] 1) (stat1 1 0 2) ∧
    (let a := Act.plpop 5 true
     let s := { sm with saves := [⟨8, 0, 0, 0, []⟩], pools := [(5, { openPool [] 1 with pops := [⟨poolReq a, 5⟩] })] }
     s.saving gm.uid = true ∧ then_ (exec (.poolWithdrawal 0) s) (fun t => decide (t.reqs = [poolReq a] ∧
       t.pools.map (·.2.pops) = [[]]))) := by decide +kernel
theorem wit_PoolDrain :
    then_ (exec (.pldrainArrival 20) (poolIn (openPool [prec 3] 1) (.pldrain 5))) (fun t => decide ((t.pool 5).state = 2 ∧
      (t.pool 5).recs = [prec 3] ∧ t.reqs = [])) ∧
    then_ (exec (.pldrainArrival 20) (poolIn (openPool [] 1) (.pldrain 5))) (fun t => (t.pool 5).state == 3) ∧
    changes (openPool [] 0) (.pldrain 5) (.pldrainArrival 20) (openPool [] 0) ∧
    changes (openPool [prec 3] 2) (.pldrain 5) (.pldrainArrival 20) (openPool [prec 3] 2) := by decide +kernel

def bregs : Arch := (((aregs.writeS 20 4095).writeS 21 4096).writeS 22 0x00400003).writeS 23 0
def gb : Group := groupOf bregs
def sb : State := memOf gb page
theorem wit_SyncWords : sb.Issues gb clause ∧ sb.blockOf gb = some block ∧ block.barLimit 1 = 16 ∧ block.barLimit 2 = 8 ∧ block.barLimit 4 = 8 ∧
    (let b := { block with bbar := 3 }
     let s := (memOf gb page).setBlock 0 b
     b.barLimit 1 ≤ 3 ∧ gives (exec (.bara ⟨1, 3, 0⟩) s) (s.raise 0 gb illegal) ∧
     gives (exec (.barcfg ⟨1, 3, 22⟩) s) (s.raise 0 gb illegal)) ∧
    holdsL (exec (.bara ⟨1, 15, 0⟩) sb) [.arrive 1 15] none (fun g => g.arch.barRec 1 15 == 3) ∧
    gives (exec (.barw ⟨4, 7, 20⟩) sb) (sb.putGroup 0 { gb with cur := some { clause with barw := some (4, 7, 20) } }) ∧
    holdsL (exec (.baraw ⟨2, 0, 20⟩) sb) [.arrive 2 0] none (fun g => g.arch.barRec 2 0 == 3 &&
      (match g.cur with | some c => c.barw == some (2, 0, 20) | none => false)) ∧
    (let s := (memOf gb page).setBlock 0 { block with bars := [(1, { Barrier.reset with e := 9, count := 5000, phase := 17, abandon := true })] }
     then_ (exec (.barq ⟨1, 1, 40⟩) s) (sReg 40 (BitVec.ofNat 32 (2 ^ 29 + 4095 * 2 ^ 17 + 9 * 2 ^ 4 + 1)))) ∧
    holdsL (exec (.barcfg ⟨2, 5, 22⟩) sb) [.barcfg 2 5 0x00400003] none ∧
    gives (exec (.barcfg ⟨2, 5, 23⟩) sb) (sb.raise 0 gb illegal) ∧
    gives (exec (.fence 0 3) sb) sb ∧ holdsL (exec (.fence 5 1) sb) [.fence 5 1] none ∧
    then_ (exec (.fence 4 3) sb) (fun t => t.reqs.map (·.act) == [.fence 4 3] && match t.group 0 with
      | some g => g.heldReqs.map (·.act) == [.fence 4 3] && (match g.cur with | some c => c.commit | none => false) | none => false) ∧
    holdsL (exec (.rel 4 20) sb) [.rel 4 4095] none ∧
    then_ (exec (.acq 4 20) sb) (fun t => t.reqs.map (·.act) == [.acq 4 4095] && match t.group 0 with
      | some g => (match g.cur with | some c => c.commit && c.parks | none => false) | none => false) ∧
    ([23, 21].all fun r => gives (exec (.rel 4 r) sb) (sb.raise 0 gb illegal) && gives (exec (.acq 4 r) sb) (sb.raise 0 gb illegal)) = true ∧
    gives (exec .ifence sb) (sb.putGroup 0 { gb with cur := some { clause with ifence := true } }) :=
  ⟨⟨by rfl, by rfl⟩, by decide +kernel⟩

def barBlock (b : Barrier) : State := (memOf gb page).setBlock 0 { block with bars := [(1, b)] }
def syncIn (s : State) (a : Act) : State := withReq s (reqOf a 0 none none)
/-- Cluster barrier 1 and wide barrier 1 of the group's partition in state `b`. -/
def wideBars (b : Barrier) : State :=
  let s := memOf gb page
  ({ s with parts := [(0, { part0 with wbars := [(1, b)] })] } : State).setCluster 0 { s.cluster 0 with bars := [(1, b)] }
/-- The barrier without the states that its core's copy may still show. -/
def wideOf (sc : Nat) (t : State) : Barrier := { t.barrier sc 0 1 with past := [] }
/-- Arrivals and configurations of cluster and wide barriers, those with E = 0 among them. -/
theorem wit_SyncSteps_wide : gb.barHome 2 = 0 ∧ gb.barHome 4 = 0 ∧ ([2, 4].all fun sc =>
    (let k := { Barrier.reset with e := 2 }
     let s := syncIn (wideBars k) (.arrive sc 1)
     decide (Store.find s.parts 0 ≠ none ∧ wideOf sc s = k ∧ s.barBehind (reqOf (.arrive sc 1) 0 none none) = false) &&
     then_ (exec (.barrierArrival 20) s) (fun t => decide (t.reqs = [] ∧ t.releases = [] ∧
       wideOf sc t = { k with count := 1, arrivers := [(3, 0)] }))) &&
    then_ (exec (.barrierArrival 20) (syncIn (wideBars { Barrier.reset with count := 1, arrivers := [(4, 0)] }) (.arrive sc 1)))
      (fun t => decide (t.releases = [] ∧ (wideOf sc t).count = 2)) &&
    then_ (exec (.barrierArrival 20) (syncIn (wideBars { Barrier.reset with e := 1, phase := 0xFFFFFFFF }) (.arrive sc 1)))
      (fun t => decide ((wideOf sc t).count = 0 ∧ (wideOf sc t).phase = 0 ∧ (t.releases.map (·.who)).flatten = [(3, 0)])) &&
    (let k := { Barrier.reset with e := 2, count := 1 }
     then_ (exec (.barcfgArrival 20) (syncIn (wideBars k) (.barcfg sc 1 0x00040003))) (fun t =>
       decide (wideOf sc t = { k with cfg := some 0x00040003 } ∧ t.releases = []))) &&
    then_ (exec (.barcfgArrival 20) (syncIn (wideBars { Barrier.reset with e := 5 }) (.barcfg sc 1 0x00040003)))
      (fun t => decide (wideOf sc t = { Barrier.reset with e := 2, delta := 3 })) &&
    (let k := { Barrier.reset with count := 1, arrivers := [(4, 0)] }
     then_ (exec (.barcfgArrival 20) (syncIn (wideBars k) (.barcfg sc 1 0x00040003))) (fun t =>
       decide (wideOf sc t = { k with e := 2, delta := 3 } ∧ t.releases = []))) &&
    then_ (exec (.barcfgArrival 20) (syncIn (wideBars { Barrier.reset with count := 2, arrivers := [(4, 0), (5, 1)] })
      (.barcfg sc 1 0x00040003))) (fun t => decide ((wideOf sc t).e = 2 ∧ (wideOf sc t).count = 0 ∧ (wideOf sc t).phase = 1 ∧
        (t.releases.map (·.who)).flatten = [(4, 0), (5, 1)]))) = true := by decide +kernel
theorem wit_SyncSteps :
    (let k := { Barrier.reset with e := 2 }
     let s := syncIn (barBlock k) (.arrive 1 1)
     s.req 20 = some (reqOf (.arrive 1 1) 0 none none) ∧ s.handleOf 3 = some 0 ∧ gb.ended = false ∧ s.barrier 1 0 1 = k ∧
     then_ (exec (.barrierArrival 20) s) (fun t => decide (t.reqs = [] ∧ t.releases = [] ∧
       t.barrier 1 0 1 = { k with count := 1, arrivers := [(3, 0)] }))) ∧
    (let k := { Barrier.reset with e := 2, count := 1, arrivers := [(4, 0)], phase := 0xFFFFFFFF }
     then_ (exec (.barrierArrival 20) (syncIn (barBlock k) (.arrive 1 1))) (fun t =>
       decide ((t.barrier 1 0 1).count = 0 ∧ (t.barrier 1 0 1).phase = 0) &&
       (t.releases.map (·.who)).flatten.contains (3, 0) && (t.releases.map (·.who)).flatten.contains (4, 0) &&
       t.releases.all (!·.stat))) ∧
    (let y : Release := ⟨50, 1, 0, 1, true, [(3, 0)]⟩
     let s := { syncIn sb (.rel 4 9) with releases := [y] }
     gb.frozen = false ∧ gb.after = none ∧ gives (exec (.barrierReleaseDelivery 50) s)
       { (s.putGroup 0 (gb.async fun a => a.setBarRec 1 1 6)) with releases := [] }) ∧
    gives (exec (.relArrival 20) (syncIn sb (.rel 4 9))) { syncIn sb (.rel 4 9) with reqs := [] } ∧
    (let g := { gb with cur := none, after := some { after with commit := false, parks := true } }
     let s := (syncIn sb (.acq 4 2)).putGroup 0 g
     let s := s.setCore 0 { s.core 0 with lines := [⟨false, 0, 1, 2, [], []⟩, ⟨false, 0, 2, 3, [], []⟩, ⟨false, 0, 8224, 0, [], []⟩] }
     then_ (exec (.acqAnswer 20) s) (fun t => decide ((t.core 0).lines.map (fun l => (l.addr, l.data.take 2)) = [(2, []), (8224, [0x11, 0x82])]) &&
       t.reqs.isEmpty && match t.group 0 with
       | some g => g.after.isNone | none => false)) := by decide +kernel

/-! Handler contexts: cluster 0 context 0 with the group of handle 0. -/

/-- s2 = 5, s4:s5 = 0x4000, s6 = handle 0 and s7 = offset 8, s8 = instance of cluster 0, s9 = a handle past any, s12:s13 past DRAM,
s14 = THAW of handle 0, s15 = with bit 30, s16 = bit 31, s18:s19 = no multiple of 64. -/
def cregs : Arch :=
  [(2, 5), (4, 0x4000), (7, 8), (8, 0x40000000), (9, 0x2000), (13, 0x80), (15, 0x40000000), (16, 0x80000000), (18, 1)].foldl
    (fun a x => a.writeS x.1 x.2) (Arch.handler 0x1000 [])
def cx : Group := { fetchGroup State.reset true with arch := cregs, cur := some clause, uid := 3 }
/-- The group of handle 0, not a context. -/
def tg : Group := { fetchGroup State.reset false with arch := regs, uid := 4 }
def sysIn (t : Group) : State :=
  { (((State.reset.putGroup 0 t).putGroup (sorrelKey 0 0) cx).setBlock 0 block) with who := sorrelKey 0 0, nextId := 9 }
def sx : State := sysIn tg
/-- One request held by the context, with the register, and whether the context parks. -/
def sysHolds (o : Out) (code : Nat) (args : List Nat) (parks : Bool) (f : Group → Bool := fun _ => true) : Bool :=
  then_ o fun t => match t.group (sorrelKey 0 0) with
    | some g => decide (g.heldReqs.map (·.act) = [.sys code args]) && f g &&
        (match g.cur with | some c => c.parks == parks && c.commit == parks | none => false)
    | none => false
def cReg (r : Nat) (x : Word) (g : Group) : Bool := g.arch.readS r == x
def cWrites (o : Out) (s : State) (r : Nat) (x : Word) : Bool :=
  gives o (s.putGroup (sorrelKey 0 0) { cx with arch := cregs.writeS r x })
theorem wit_SystemWords_group : s0.Issues g0 clause ∧ g0.sorrel = none ∧
    ([Instr.cwrd 2 3 0, .winwr 2 3, .tretEnd, .thaw 2 3, .tlbinv 4 1 2 3, .ctxld 2 3].all fun i =>
      gives (exec i s0) (s0.raise 0 g0 (.trap 3 3 noLane 0))) = true :=
  ⟨issues, by decide +kernel⟩
theorem wit_SystemWords : sx.Issues cx clause ∧ cx.sorrel = some 0 ∧ cregs.badUs [6, 2] = false ∧ cregs.badUs (uRegs 4 true ++ [2]) = false ∧
    ([(Instr.tret, 0), (.tretHold, 1), (.tretEnd, 2)].all fun e =>
      gives (exec e.1 sx) (sx.putGroup (sorrelKey 0 0) { cx with cur := some { clause with tret := some e.2 } })) = true ∧
    sysHolds (exec (.tlbinv 4 0 4 2) sx) 6 [4, 0, 0, 0, 0] true ∧ sysHolds (exec (.tlbinv 4 1 4 2) sx) 6 [4, 1, 5, 0, 0] true ∧
    sysHolds (exec (.tlbinv 5 2 4 2) sx) 6 [5, 2, 5, 0x4000, 0] true ∧
    cwInstance 0x02 0x40000000 0 = true ∧ cwInstance 0x02 5 0 = false ∧ cwInstance 3 0x40000000 0 = true ∧
    cWrites (exec (.cwrd 8 20 2) sx) sx 20 (BitVec.ofNat 32 (sx.cwRead 2 0)) ∧
    gives (exec (.cwrd 2 20 2) sx) (sx.raise (sorrelKey 0 0) cx illegal) ∧
    then_ (exec (.cwrd 8 20 3) (sx.setCluster 0 { Cluster.reset with ue := 7, res := 9 })) (fun t => match t.group (sorrelKey 0 0) with
      | some _ => decide (t.mem = sx.mem) | none => false) ∧
    sysHolds (exec (.cwwr 8 2 2) sx) 1 [2, 0, 5] false ∧ gives (exec (.cwwr 2 2 2) sx) (sx.raise (sorrelKey 0 0) cx illegal) ∧
    (0 : Nat) % 256 < Config.cores ∧ sysHolds (exec (.mcswr 6 2) sx) 7 [0, 0, 5] false :=
  ⟨⟨by rfl, by rfl⟩, by decide +kernel⟩
/-- Parking and resuming: no group, a running one, a held one, a frozen one, a halted one, one owned by a running handler. -/
theorem wit_SystemWords_holds : sx.handleGroup 0 0x2000 = none ∧ sx.handleGroup 0 0 = some tg ∧ sx.resuming 0 = false ∧
    cWrites (exec (.gpark 9 20) sx) sx 20 1 ∧ cWrites (exec (.gresume 9 20) sx) sx 20 1 ∧
    sysHolds (exec (.gpark 6 20) sx) 3 [4] true (cReg 20 0) ∧ cWrites (exec (.gresume 6 20) sx) sx 20 2 ∧
    (let t := { tg with hold := .held }
     let s := sysIn t
     t.resumable = true ∧ s.served 0 = false ∧
     cWrites (exec (.gpark 6 20) s) s 20 2 ∧ sysHolds (exec (.gresume 6 20) s) 4 [0] false (cReg 20 0)) ∧
    (let s := sysIn { tg with hold := .held, frozen := true }
     cWrites (exec (.gresume 6 20) s) s 20 3 ∧ sysHolds (exec (.thaw 14 20) s) 5 [0, 4, 0] false (cReg 20 0) ∧
     sysHolds (exec (.thawEnd 14 20) s) 5 [0, 4, 1] false (cReg 20 0)) ∧
    (let t := { tg with hold := .held, win := [(0x28, 2)] }
     let s := sysIn t
     t.resumable = false ∧ cWrites (exec (.gresume 6 20) s) s 20 4) ∧
    (let t := { tg with hold := .owned }
     let s := (sysIn t).putGroup (sorrelKey 0 1) { fetchGroup State.reset true with uid := 7, serves := some 0 }
     s.served 0 = true ∧ cWrites (exec (.gresume 6 20) s) s 20 5) ∧
    (let s := sysIn { tg with halted := true }
     cWrites (exec (.gpark 6 20) s) s 20 2 ∧ cWrites (exec (.gresume 6 20) s) s 20 6) ∧
    cWrites (exec (.thaw 2 20) sx) sx 20 2 ∧ cWrites (exec (.thaw 14 20) sx) sx 20 1 ∧ cWrites (exec (.thaw 15 20) sx) sx 20 1 ∧
    gives (exec (.thaw 16 20) sx) (sx.raise (sorrelKey 0 0) cx illegal) := by decide +kernel
theorem wit_SystemWords_areas :
    (let t := { tg with hold := .held }
     let s := sysIn t
     s.handleGroup 0 0 = some t ∧ t.isHeld = true ∧ 8 < 0x2000 + 132 * t.vregs ∧
     cWrites (exec (.winrd 6 20) s) s 20 (BitVec.ofNat 32 (t.areaWord 8)) ∧ 
     gives (exec (.winwr 6 2) s) ((s.putGroup 0 (t.windowWrite 8 5)).putGroup (sorrelKey 0 0)
       { cx with cur := some (clause.takesBack s.nextId [.window 0 t.uid (t.windowOld 8) 5]) }) ∧
     (let u := sysIn { t with halted := true }
      gives (exec (.winwr 6 2) u) (u.putGroup (sorrelKey 0 0) cx))) ∧
    gives (exec (.winrd 6 20) sx) (sx.raise (sorrelKey 0 0) cx illegal) ∧ gives (exec (.winwr 9 2) sx) (sx.raise (sorrelKey 0 0) cx illegal) ∧
    sysHolds (exec (.ctxsv 4 2) sx) 8 [0x4000, 0, 5, 0] true ∧ sysHolds (exec (.ctxld 4 2) sx) 9 [0x4000, 5] true ∧
    sysHolds (exec (.ctxldDiscard 4 2) sx) 10 [0x4000] true ∧
    gives (exec (.ctxsv 18 2) sx) (sx.raise (sorrelKey 0 0) cx illegal) ∧
    gives (exec (.ctxld 12 2) sx) (sx.raise (sorrelKey 0 0) cx (.trap 4 1 noLane 0x8000000000)) := by decide +kernel

/-- The group in handle 0 with a clause before the one under way. -/
def early : Retained := { retired with hdr := 0xFF8, upto := 9 }
theorem wit_TakingAnException : s0.group 0 = some g0 ∧ g0.cur = some clause ∧ g0.sorrel = none ∧ g0.unret = [] ∧
    (s0.cluster g0.cluster).trapQ.length < 512 ∧
    (let t := s0.raise 0 g0 (.trap 4 1 3 0x77)
     ((t.cluster 0).trapQ.map fun e => (e.isTrap, e.handle, e.trap)) = [(true, 0, ⟨4, 1, 1, 3, 0x77, 0x1000, false⟩)] ∧
     (match t.group 0 with | some g => decide (g.hold = .owned ∧ g.cur = none ∧ g.arch = regs) | none => false) = true) ∧
    (let g := { g0 with unret := [early] }
     let t := (stateOf g).raise 0 g (.freeze 1 0 0x99)
     (match t.group 0 with
      | some g => decide (g.hold = .trapping ⟨2, 1, 1, 0, 0x99, 0x1000, false⟩ ∧ g.frozen = true ∧ g.unret = [early]) | none => false) = true) ∧
    (let t := s0.raise 0 g0 (.halt 1 2)
     (match t.group 0 with | some g => decide (g.halted = true ∧ g.cur = none ∧ g.unret = []) | none => false) = true ∧
     (t.cluster 0).ue = 1) ∧
    (let t := s0.raise 0 g0 (.page 0x123456 4 2)
     (match t.group 0 with | some g => decide (g.parked.isSome = true ∧ g.arch = regs ∧ g.hold = .free) | none => false) = true ∧
     (t.cluster 0).recs.map (fun r => (r.asid, r.vpn, r.kind, r.waiters)) = [(0, 0x12, 4, [(1, 0)])]) := by decide +kernel
theorem wit_TakingAnException_handlers : clause.snap.lhret.length < 4 ∧
    (match (s0.raise 0 g0 (.inGroup 7 0x3000 (2 ^ 31 + 1) 64 0x30100040)).group 0 with
      | some g => decide (g.arch.lhret = [0x1000] ∧ g.arch.lossid = 0x80000001 ∧ g.arch.lossaddr = 64 ∧ g.arch.tbcause = 0x30100040 ∧
          g.arch.slices.map (·.pc) = [0x3000] ∧ g.cur = none) | none => false) = true ∧
    (let c := { clause with snap := { regs with lhret := [4, 8, 12, 16] } }
     let g := { g0 with cur := some c }
     4 ≤ c.snap.lhret.length ∧ (((stateOf g).raise 0 g (.inGroup 7 0x3000 1 64 3)).cluster 0).trapQ.map (·.trap) =
       [⟨7, 15, clause.idx, noLane, 0, 0x1000, false⟩]) ∧
    (let t := sx.raise (sorrelKey 0 0) cx illegal
     cx.serves = none ∧ t.group (sorrelKey 0 0) = none ∧ (t.cluster 0).recs.map (fun r => (r.kind, r.waiters)) = [(0, [])]) := by
  decide +kernel

def trapEvent : Event := ⟨true, 0, ⟨4, 1, 3, 2, 0x123456789, 0x1008, false⟩, 0, [], 0⟩
def class10 : Hold := .trapping ⟨10, 3, 1, noLane, 7, 0x1000, false⟩
def back : Arch := { regs with lhret := [], lossid := 0xFFFFFFFF, slices := [⟨0x2000, 15, 0, [], 0, none⟩] }
theorem wit_HandlersAndReturns :
    (let s := (State.reset.putGroup 0 tg).setCluster 1 { Cluster.reset with trapQ := [trapEvent], svec := 0x20 }
     (s.cluster 1).trapQ = [trapEvent] ∧ (s.group (sorrelKey 1 0)).isSome = false ∧ s.groups.all (fun x => decide (x.2.hold = .free)) = true ∧
     then_ (exec (.trapHandlerEntry 1 0) s) (fun t => match t.group (sorrelKey 1 0) with
       | some g => decide (g.arch.slices = [⟨0x20400, 1, 14, [], 0, none⟩] ∧ g.serves = some 0 ∧ (t.cluster 1).trapQ = [] ∧
           (List.range 7).map g.arch.readS = [4 + 16 + 3 * 4096, 0, 0x1008, 0, 2, 0x23456789, 1])
       | none => false)) ∧
    (let g := { tg with hold := .held, win := [] }
     g.resumable = true ∧ ((State.reset.putGroup 0 g).resumeGroup 0).group 0 = some { g.applyWindow with hold := .free, readySince := 0 }) ∧
    (let g := { tg with hold := .owned, frozen := true }
     ((State.reset.putGroup 0 g).resumeGroup 0).group 0 = some { g with hold := .held }) ∧
    (let af := { after with commit := false, lhret := true }
     let g := { tg with after := some af, arch := { regs with lhret := [0x2000], lossid := 5 } }
     ((State.reset.putGroup 0 g).settleAfter 0).group 0 = some { g with after := none, readySince := 0, arch := back }) ∧
    (let af := { after with commit := false, trap := some (3, 7, 1) }
     let g := { tg with after := some af }
     (((State.reset.putGroup 0 g).settleAfter 0).cluster 0).trapQ = [⟨true, 0, ⟨10, 3, 1, noLane, 7, 0x1000, false⟩, 0, [], 0⟩]) ∧
    (let af := { after with commit := false, trap := some (3, 7, 1) }
     let g := { tg with after := some af, unret := [early] }
     ((State.reset.putGroup 0 g).settleAfter 0).group 0 = some { g with after := none, readySince := 0, hold := class10 }) := by decide +kernel

/-! Queues, launches, the host and power: partition 0 with queue 3, cores 0 and 1, ASID 5 mapped one to one in its first GiB. -/

/-- The ASID table, two levels of page table, the record in slot 1 of the queue, and its sequence word. -/
def qmem : Memory :=
  [(0x10000, 5), (0x10007, 0x80), (0x1000A, 3), (0x20000, 0x0B), (0x30000, 1), (0x30002, 2), (0x40100, 1), (0x40108, 5),
   (0x40119, 0x10), (0x40808, 2)]
def q3 : Queue :=
  { Queue.reset with qbase := 0x40000, qasid := 5, en := true, log2size := 3, qhead := 1, qtail := 2, polled := true }
def sq : State := { State.reset with parts := [(0, part0)], fqs := [(0, hostQ)], asids := [(5, 0x8000000000000005, 0x30000)], queues := [(3, q3)], units := [(0, 1)], asidtab := 0x10, mem := qmem, ready := true }
/-- The record in slot 1: one role of one group with one slice and 8 registers, entry 0x1000, ASID 5. -/
def qrec : List Byte := (List.range 256).map fun i => if i == 0 then 1 else if i == 8 then 5 else if i == 0x19 then 0x10 else 0
theorem wit_QueueAndLaunchSteps_registers : sq.queue 3 = q3 ∧ sq.hostMay 1 (sq.ownsQueue 1 3) = true ∧ sq.hostMay 0 false = true ∧
    gives (exec (.qtailWrite 1 3 9) sq) (sq.setQueue 3 { q3 with qtail := 9 }) ∧
    gives (exec (.qtailWrite 1 3 1) sq) (sq.setQueue 3 q3) ∧
    (let k := { q3 with preerr := true, parterr := true, xlate := true, badrec := true, en := false }
     let s := sq.setQueue 3 k
     gives (exec (.queueStatusClear 1 3 5) s) (s.setQueue 3 { k with parterr := false, badrec := false }) ∧
     gives (exec (.registerWrite 1 0x100C0 0x7000) s) (s.setQueue 3 { k with qbase := 0x7000 })) ∧
    gives (exec (.qpreempt 1 3 7) sq) (sq.setQueue 3 { q3 with preerr := true }) ∧
    (sq.ownsQueue 1 4 = false ∧ sq.fnExists 1 = true ∧
     gives (exec (.qtailWrite 1 4 9) sq) { sq with frozenFns := [1] } ∧
     gives (exec (.registerWrite 1 0x10100 9) sq) { sq with frozenFns := [1] }) := by decide +kernel
def soloLaunch : Launch :=
  { queue := 3, slot := 1, prio := 0, part := 0, asid := 5, recd := qrec, cores := [0], resident := true }
theorem wit_QueueAndLaunchSteps_preempt :
    (let s := { (sq.putGroup 0 gm) with launches := [(0, soloLaunch)] }
     let v : DWord := BitVec.ofNat 64 (0x5000 / 64 * 2 ^ 24 + 3 * 2 ^ 20 + 1)
     soloLaunch.slot % 2 ^ 16 = v.toNat % 2 ^ 16 ∧ v.toNat / 2 ^ 20 % 16 ≤ 8 ∧ s.preempting 0 = false ∧
     (let sv : Save := ⟨0, 0, 0x5000, 3, []⟩
      s.inUnits 0 0x5000 (areaBytes s sv soloLaunch (s.saveBlocks sv soloLaunch)).length = true) ∧
     (s.firstGroup 0 0).map Prod.fst = some 0 ∧
     then_ (exec (.qpreempt 1 3 v) s) (fun t => decide (((t.cluster 0).preemptQ.map fun e => (e.isTrap, e.handle, e.code, e.of, e.regs)) =
       [(false, 0, 3, 0, [0x5000, 0, 3])]) && t.preempting 0)) := by decide +kernel
theorem wit_QueueAndLaunchSteps_slots : q3.pending = none ∧ q3.qhead < q3.qtail ∧
    (sq.readVa 5 0 2 (q3.seqVa 1) 8).2.map leNat = some 2 ∧ (sq.readVa 5 0 2 (q3.slotVa 1) 256).2 = some qrec ∧ recMacro qrec = 0 ∧
    recOk qrec false = true ∧ sq.recInPart 0 qrec = true := by decide +kernel
theorem wit_QueueAndLaunchSteps_consume :
    gives (exec (.slotConsume 3) sq) (sq.setQueue 3 { q3 with qhead := 2, pending := some (qrec, 1) }) ∧
    (let s := { sq with mem := qmem.filter fun x => x.1 != 0x40808 }
     gives (exec (.slotConsume 3) s) (s.setQueue 3 { q3 with polled := false })) ∧
    (let s := { sq with mem := qmem.map fun x => if x.1 == 0x40100 then (x.1, 2) else x }
     gives (exec (.slotConsume 3) s) (s.setQueue 3 { q3 with qhead := 2, ridx := 1, badrec := true })) ∧
    (let k := { q3 with polled := false }
     gives (exec (.queuePoll 3) (sq.setQueue 3 k)) ((sq.setQueue 3 k).setQueue 3 q3)) := by decide +kernel
theorem wit_QueueAndLaunchSteps_grant :
    (let k := { q3 with qhead := 2, pending := some (qrec, 1) }
     let s := sq.setQueue 3 k
     s.nextGrant = some (3, [0]) ∧ recSeats (qrec.take 256) = [(0, 0, ⟨0x1000, 1, 8, 1⟩)] ∧
     then_ (exec (.launchGrant 3) s) (fun t => decide ((t.queue 3).pending = none ∧
       (t.groups.map fun x => (x.2.core, x.2.role, x.2.vregs, x.2.part, x.2.asid)) = [(0, 0, 8, 0, 5)] ∧
       (t.groups.map (·.2.arch.slices)) = [[⟨0x1000, 15, 0, [], 0, none⟩]] ∧ t.mem = s.mem))) := by decide +kernel
/-- The save of a launch: every premise. -/
theorem wit_QueueAndLaunchSteps_save :
    (let g := { gm with cur := none, hold := .held }
     let s := { ((sq.putGroup 0 g).setBlock 0 block).putGroup (sorrelKey 0 0) { cx with uid := 70 } with
       launches := [(0, soloLaunch)], saves := [⟨70, 0, 0x5000, 0, []⟩] }
     (s.saves.find? (·.issuer == 70)).map (·.launch) = some 0 ∧ s.launchGroups 0 = [(0, g)] ∧ soloLaunch.recd.length = 256 ∧
     s.stoppedGroup g = true ∧ g.halted = false ∧ soloLaunch.cores.contains g.core = true ∧ (Store.find s.blocks (0 * 256 + g.core)).isSome = true) := by
  decide +kernel

/-- CREATE of partition 1. -/
def cmd : Command :=
  { counter := 1, body := [], sig := [], part := 1, cores := [7], units := [5], asids := [9], pools := [6], queues := [8], cbars := [(1, 2)],
    meter := 2, asid := 5, rate := 100, burst := 4, fn := 1 }
/-- The bytes both signatures cover, of command `op` with counter `n`. -/
def bodyOf (op n : Nat) : List Byte := leBytes 4 op ++ leBytes 8 n ++ List.replicate 244 0
theorem wit_HostSteps_bodies : sq.bootfail = false ∧ sq.ready = true ∧
    ([1, 2, 3, 4, 5].all fun op => Command.opens { cmd with body := bodyOf op 1 } op &&
      Command.opens { cmd with counter := 2, body := bodyOf op 2 } op) = true := by decide +kernel
theorem wit_HostSteps_commands : sq.mailbox.busy = false ∧ cmd.counter = sq.mailbox.ctr + 1 ∧ (2 : Nat) ≠ sq.mailbox.ctr + 1 ∧
    sq.malformed 1 cmd = false ∧ sq.malformed 2 cmd = true ∧ sq.malformed 3 cmd = true ∧ sq.malformed 4 cmd = false ∧
    sq.malformed 5 cmd = false ∧ sq.malformed 5 { cmd with fn := 9 } = true ∧ sq.malformed 4 { cmd with burst := 0 } = true ∧
    sq.heldElsewhere cmd = false ∧ sq.heldElsewhere { cmd with queues := [3] } = true ∧ sq.commandWaits 1 cmd = false ∧
    ({ sq with scrubbing := [5] } : State).commandWaits 1 cmd = true ∧ sq.malformed 2 { cmd with part := 0 } = false ∧
    sq.poolsBusy part0 [] = false ∧ (sq.setPool 5 { Pool.reset with state := 1 }).poolsBusy part0 [] = true ∧
    sq.commandWaits 3 { cmd with part := 0 } = false ∧ (sq.putGroup 0 gm).commandWaits 3 { cmd with part := 0 } = true := by
  decide +kernel
theorem wit_HostSteps_running :
    (let c := { cmd with part := 0, cores := [0, 7], cbars := [], queues := [3], units := [0], asids := [0, 5], pools := [5] }
     let s := { (sq.putGroup 0 { gm with core := 1 }) with mailbox := ⟨true, 0, 0, some (2, c)⟩ }
     s.commandWaits 2 c = true ∧ gives (exec (.resizeComplete 0) s) s) ∧
    (let c := { cmd with part := 0, cores := [0, 7], cbars := [], queues := [3], units := [0], asids := [0, 5], pools := [5] }
     let s := { (sq.putGroup 0 gm) with mailbox := ⟨true, 0, 0, some (2, c)⟩ }
     s.commandWaits 2 c = false ∧ then_ (exec (.resizeComplete 0) s) (fun t => decide (t.mailbox = ⟨false, 0, 1, none⟩ ∧
       (Store.find t.parts 0).map (·.cores) = some [0, 7]))) ∧
    (let s := { sq with scrubbing := [0] }
     s.scrubbing.contains 0 = true ∧ then_ (exec (.memoryScrubComplete 0) s) (fun t => decide (t.mem = [] ∧ t.scrubbing = []))) := by decide +kernel
theorem wit_HostSteps_functions :
    sq.hostMay 1 (sq.inUnits 0 0x40100 2) = true ∧ gives (exec (.hostMemoryAccess 1 false 0x40100 [0, 0]) sq) { sq with answered := [some 1, some 0] } ∧
    then_ (exec (.hostMemoryAccess 1 true 0x40100 [7, 9]) sq) (fun t => decide (t.mem.readN 0x400FF 4 = [0, 7, 9, 0])) ∧
    sq.inUnits 0 (2 ^ 30 - 1) 2 = false ∧ gives (exec (.hostMemoryAccess 1 true (2 ^ 30 - 1) [7, 9]) sq) { sq with frozenFns := [1] } ∧
    gives (exec (.hostIsolationViolation 1) sq) { sq with frozenFns := [1] } ∧ sq.hostMay 1 (1 == 0 + 1) = true ∧
    gives (exec (.registerWrite 1 0x20000 0x7000) sq) (sq.setHq 0 { hostQ with base := 0x7000 }) ∧
    sq.frozenFns.contains 1 = false ∧ sq.ownsOffset 1 (0x100DB / 8 * 8) = true ∧ sq.hostRead 1 0x100DB = { sq with answered := [some 2, some 0, some 0, some 0, some 0, some 0, some 0, some 0] } ∧
    (let s := { sq with frozenFns := [1] }
     s.hostRead 1 0 = { s with answered := List.replicate 8 (some 0xFF) }) := by
  decide +kernel
theorem wit_HostSteps_ports :
    (let resend := sq.setPort 2 { Port.reset with out := [⟨0, true, .resend, 0, []⟩] }
     gives (exec (.cheukFlit 2 ⟨1, true, .reply, 0, []⟩) sq) resend ∧ gives (exec (.cheukFlit 2 ⟨0, false, .reply, 0, []⟩) sq) resend) ∧
    (let p := { Port.reset with rxSeq := 4, replay := [⟨1, true, .reply, 0, []⟩, ⟨2, true, .reply, 0, []⟩] }
     let s := sq.setPort 2 p
     s.flitWaits 2 ⟨4, true, .read 2, 0, []⟩ = false ∧
     gives (exec (.cheukFlit 2 ⟨3, true, .reply, 0, []⟩) s) s ∧
     gives (exec (.cheukFlit 2 ⟨0, true, .resend, 2, []⟩) s) (s.setPort 2 { p with out := [⟨2, true, .reply, 0, []⟩] })) ∧
    (sq.port 2).up = true ∧ then_ (exec (.cheukFlit 2 ⟨0, true, .reply, 0, []⟩) sq) (fun t => (t.port 2).rxSeq == 1) ∧
    then_ (exec (.cheukPortDown 2) sq) (fun t => decide ((t.port 2).up = false ∧ t.mem = sq.mem)) ∧
    (let s := { sm with meters := [(5 * 65536 + 0, ⟨0, 100, 4, 64⟩)] }
     let q := reqOf (.store .cached 4 5) 0x1000 (some ⟨0, 5 * 2 ^ 36, 0⟩) none
     (withReq s q).req 20 = some q ∧ then_ (exec (.meterRelease 20) (withReq s q)) (fun t => decide (t.meters = [(5 * 65536, ⟨0, 100, 4, 60⟩)]))) ∧
    then_ (exec (.attestationReport (List.replicate 32 7)) { sq with cfgVersion := 3, fwVersion := 2 }) (fun t =>
      decide (t.mailbox = sq.mailbox)) := by decide +kernel

def halfLit : State := (inBlock (allocIn .live [(47, 0)])).setCore 0 { Core.reset with target := 40 }
theorem wit_BankAndPowerSteps_banks :
    gives (exec (.litTargetChange 0 3) sa) (sa.setCore 0 { (sa.core 0) with target := 4 }) ∧
    (let c := { Core.reset with hold := true, target := 20 }
     let s := sa.setCore 0 c
     let s2 := s.setCluster 0 { Cluster.reset with throt := true }
     gives (exec (.litTargetChange 0 9) s) s ∧ gives (exec (.litTargetChange 0 9) s2) (s2.setCore 0 { c with target := 9 }) ∧
     gives (exec (.litTargetChange 0 30) s2) (s2.setCore 0 c)) ∧
    gives (exec (.bankDarken 0) sa) sa ∧ gives (exec (.bankRelight 0) sa) sa ∧
    (halfLit.darkest 0).map (·.idx) = some 46 ∧ then_ (exec (.bankDarken 0) halfLit) (fun t => (t.core 0).lit == (List.range 46) ++ [47]) ∧
    (let s := sa.setCore 0 { Core.reset with lit := [0, 1, 3] }
     gives (exec (.bankRelight 0) s) (s.setCore 0 { Core.reset with lit := [0, 1, 2, 3] })) := by decide +kernel
theorem wit_BankAndPowerSteps_power :
    (∀ i < Config.clusters, (State.reset.cluster i).temp.toNat + 2 ≤ (State.reset.cluster i).thresh.toNat) ∧
    gives (exec .throttleRelease State.reset) State.reset ∧
    then_ (exec (.powerBudgetAdjust 1 false) (State.reset.setCluster 1 { Cluster.reset with passreq := 2 })) (fun t => (t.cluster 1).passreq == 1) ∧
    gives (exec (.powerBudgetAdjust 1 true) State.reset) (State.reset.setCluster 1 { Cluster.reset with passreq := 1 }) ∧
    State.reset.raisable 1 = [] ∧ State.reset.lowerable 1 = [6, 7, 8, 9, 10, 11] ∧
    (let c := { Cluster.reset with sprint := true, since := 5 }
     let s := { (State.reset.setCluster 1 c) with now := 40000005 }
     gives (exec (.sprintEnd 1) s) (s.setCluster 1 { c with sprint := false, cool := true, since := 40000005 })) ∧
    (let c := { Cluster.reset with cool := true, since := 5 }
     let s := { (State.reset.setCluster 1 c) with now := 160000005 }
     gives (exec (.coolDownEnd 1) s) (s.setCluster 1 { c with cool := false })) ∧
    gives (exec (.sprintEnd 1) State.reset) State.reset ∧ gives (exec (.coolDownEnd 1) State.reset) State.reset := by decide +kernel

/-- IssueLeavesMemory: a word that answers next; and steps with a next state for the invariants. -/
theorem wit_IssueLeavesMemory : (Instr.sadd ⟨0, false, 3, 1, 2⟩).isWord = true ∧
    then_ (exec (.sadd ⟨0, false, 3, 1, 2⟩) s0) (fun t => decide (t.mem = s0.mem)) := by decide +kernel
theorem wit_MemoriesCanonicalKept : then_ (step State.reset) (fun _ => true) = true ∧ then_ (step fetched) (fun _ => true) = true ∧
    Memory.wf fetched.mem = true ∧ fetched.blocks.map Prod.fst = [0] := by decide +kernel

theorem wit_VectorWholeWords : s0.Issues g0 clause ∧ laneClean regs [0] pT (some ⟨4, 9, false, 0⟩) [1] 1 ∧
    (∀ l ∈ regs.lanes [0] pT, regs.badV 9 l = false ∧ regs.badV (4 + 1) l = false) ∧ tyWidth (extTy dot4 (some ⟨4, 9, false, 0⟩)) = 8 ∧
    gives (exec (.vdot4 ⟨pT, 3, 1, 1, some ⟨4, 9, false, 0⟩⟩) s0)
      (s0.withArch g0 (regs.writeV 3 [(0, 49), (1, 0x4000), (2, 0x2000), (3, 0x4000)])) = true ∧
    gives (exec (.vlea ⟨pT, 3, 1, 2, some ⟨0, 3, true, 0⟩⟩) s0)
      (s0.withArch g0 (regs.writeV 3 [(0, 224), (1, 0), (2, 0x08000000), (3, 0)])) = true ∧
    gives (exec (.vmadw ⟨pT, 4, 1, 1, none⟩) s0) (s0.withArch g0
      ((regs.writeV 4 [(0, 49), (1, 0), (2, 0), (3, 0)]).writeV 5 [(0, 0), (1, 0x40000000), (2, 0x10201000), (3, 0x40000000)])) = true :=
  ⟨issues, by unfold laneClean; decide +kernel, by decide +kernel⟩
theorem wit_BlocksCanonicalKept : s0.blocksCanonical = true ∧ then_ (step s0) (fun _ => true) = true := by decide +kernel
theorem wit_FixedRegisters : regs.readS 1 = 0xFFFFFFFF ∧ (regs.writeS 2 9).readS 1 = 0xFFFFFFFF ∧ (2 : Nat) ≠ 1 ∧
    regs.readP 1 0 = true ∧ (regs.writePs 2 [(0, false)]).readP 1 0 = true := by decide +kernel

/-! Token spills (R87, R96): an overflowing stack gives up bottom tokens, an empty one takes them back. -/

def tok (n : Nat) : Token := ⟨.join, BitVec.ofNat 52 (4 * n), 15⟩
def tokenFault (detail : Nat) (toks : List Token) (spills : Store (List Token)) : State :=
  let g := fetchGroup State.reset false
  let g1 := { g with hold := .owned, spills := spills, arch := { g.arch with slices := [⟨0x1000, 15, 0, toks, 0, none⟩] } }
  (State.reset.setCluster 0 { Cluster.reset with
    trapQ := [⟨true, 0, ⟨9, detail, 1, noLane, 0, 0x1000, false⟩, 0, [], 0⟩] }).putGroup 0 g1
def toksAfter (s : State) : List Token × Store (List Token) × Hold :=
  match s.group 0 with
  | some g => ((g.arch.slices.map (·.toks)).flatten, g.spills, g.hold)
  | none => ([], [], .free)
theorem test_token_spill : toksAfter ((tokenFault 0 [tok 3, tok 2, tok 1] []).service 0 0 2) =
    ([tok 3], [(0, [tok 1, tok 2])], .free) := by decide +kernel
theorem test_token_refill : toksAfter ((tokenFault 1 [] [(0, [tok 1, tok 2])]).service 0 0 1) =
    ([tok 2], [(0, [tok 1])], .free) := by decide +kernel

/-! Premises of the clauses on corners: a line that serves a load, a store before SRESTORE's zeros, misaligned copies, a child placed
at retirement, the bytes of an engine step, poisoned configuration, a floor out of range, faults at the depth of 4. -/

def lineAt : Line := ⟨false, 0, 0x101000 / 128, 2, [0xAA, 0xBB] ++ List.replicate 126 0, []⟩
theorem wit_GlobalAccessesPerform_line :
    (let q := reqOf (.load .cached 2 false) 0x1000 homeAt (some 7)
     let s := withReq (sm.setCore 0 { sm.core 0 with lines := [lineAt] }) q
     s.canPerform q = true ∧ s.hitLine 0 .cached ⟨0, 0x101000, 2⟩ = some lineAt ∧ s.unitOk 0 ⟨0, 0x101000, 2⟩ = true ∧
     then_ (exec (.globalAccessPerform 20) s) (fun t =>
       decide (t.reqs.map (·.reply) = [some [⟨7, 0, 0, some 0xBBAA, 0, false⟩]] ∧ t.mem = s.mem))) := by decide +kernel
/-- A store issued before the group's SRESTORE arrives after it: the zeros stand (R308). -/
theorem wit_ScratchpadArrivals_before :
    (let b := { block with allocs := block.allocs.map fun a => { a with state := .rebuilding 3, zeroed := some (3, 25) } }
     let q := reqOf (.store .scr 4 5) 1020 none none
     let s := withReq (sm.setBlock 0 b) q
     s.canPerform q = true ∧ (b.laneAlloc 1020).map (fun a => (a.serves 3, a.before 3 20)) = some (true, true) ∧
     then_ (exec (.scratchpadArrival 20) s) (fun t => t.reqs.isEmpty && match Store.find t.blocks 0 with
       | some b1 => b1.scr == b.scr | none => false)) := by decide +kernel
theorem wit_CopyWords_misaligned :
    (let a := (eregs.writeV 4 [(0, 2), (1, 16), (2, 1020), (3, 512)])
     let g := groupOf a
     let s := (memOf g page).setBlock 0 eblock
     s.Issues g clause ∧ a.lanes [0] pT = 0 :: [1, 2, 3] ∧ (∀ k ∈ a.lanes [0] pT, ∀ r ∈ uRegs 4 false ++ uRegs 6 false, a.badV r k = false) ∧
     (∀ k ∈ a.lanes [0] pT, s.inOne g (a.base false false 6 k) 4 = true) ∧ a.base false false 4 0 % 4 ≠ 0 ∧
     gives (exec (.cpl pT 6 4 0 0 false) s) (s.raise 0 g (misaligned 0 2))) ∧
    (let s := { se with launches := [(0, teamLaunch)] }
     (s.team ge).length = 4 ∧ gives (exec (.cpm ⟨9, 9, 20, false⟩ 9) s) (s.raise 0 ge (misaligned noLane 32))) ∧
    (let a := eregs.writeS 26 2
     let g := groupOf a
     let s := memOf g page
     a.badUs (uRegs 26 true ++ [3, 2]) = false ∧ a.readS64 26 % 4 ≠ 0 ∧
     gives (exec (.cpr 26 3 2) s) (s.raise 0 g (misaligned noLane (a.readS64 26)))) ∧
    (let a := eregs.writeS 3 0x1002
     let g := groupOf a
     let s := memOf g page
     gives (exec (.cpr 26 3 2) s) (s.raise 0 g (misaligned noLane 0x1002))) := by
  refine ⟨⟨⟨by rfl, by rfl⟩, by decide +kernel⟩, by decide +kernel⟩
theorem wit_ClauseSteps_spawn :
    (let ch : Child := ⟨1, 1, 8, 0x4000, [7]⟩
     let q := reqOf (.spawn ch) 0 none none
     let r := { retired with held := [q] }
     let g := { gr with unret := [r] }
     let s := { (memOf g page).setCore 0 { (memOf g page).core 0 with resv := [(1, 8)] } with now := 500 }
     s.retirable g = true ∧ handle g.core 1 ≠ 0 ∧
     then_ (exec (.clauseRetire 0) s) (fun t => match t.group (handle g.core 1) with
       | some x => decide (x.arch = Arch.placed 1 0x4000 [7] (s.core 0).macros ∧ x.vregs = 8 ∧ x.hold = .free) | none => false)) := by
  decide +kernel
theorem wit_ClauseSteps_yields :
    (let af := { after with commit := false, yld := true }
     let g := { fetcher with after := some af, unret := [] }
     then_ (.next ((fetched.putGroup 0 g).settleAfter 0)) (fun t => match t.group 0 with
       | some x => x.after.isNone | none => false)) := by decide +kernel
/-- The engine reads the bytes of a step one at a time, then performs the step. -/
theorem wit_EngineSteps_bytes :
    (let op := { opOf (.mma 100 0x04000000 0x04000200 16 none 0 false false) 1 with
       buf := List.replicate 1023 (.read (some (0, false))) }
     let s := withOp op false
     8 * (geOp op).mmCycles s op (some 1) ≤ op.work ∧ (elemRC 0x04000000 16 0 0 0 0).reads.head? = some 0 ∧
     then_ (exec (.matrixEngineStep 0) s) (fun t => decide (t.op 60 = some { op with buf := op.buf ++ [.read (some (0, false))] } ∧ t.mem = s.mem))) ∧
    (let op := { opOf (.lmma 100 50 0x02000400 0x800 0x00020000 1 8 false false) 1 with
       buf := List.replicate 63 (.read (some (0, false))) }
     let s := withOp op true
     8 * (geOp op).lmmaCycles s op (some 1) ≤ op.work ∧ (eblock2.tblData 40).gone = false ∧
     then_ (exec (.lookupEngineStep 0) s) (fun t => decide (t.op 60 = some { op with buf := op.buf ++ [.read (some (0, false))] }) &&
       (match t.op 60 with | some o => then_ (exec (.lookupEngineStep 0) (t.putOp o)) (fun u => accIs 100 (fun _ => true) u &&
         match u.op 60 with | some o => o.buf.isEmpty && o.step == 1 | none => false) | none => false))) := by decide +kernel
theorem wit_PoolWords_unbound : aregs.badUs (uRegs 4 true) = false ∧
    ([Instr.plcfg 1 4, .plstat 1 9 2, .plpush 1 4 8 true 3].all fun i => gives (exec i sa) (sa.raise 0 ga illegal)) = true := by decide +kernel
theorem wit_SyncWords_poisoned :
    (let a := { bregs with spoison := [22] }
     let g := groupOf a
     let s := memOf g page
     a.badS 22 = true ∧ gives (exec (.barcfg ⟨2, 5, 22⟩) s) (s.raise 0 g (poisoned noLane))) := by decide +kernel
theorem wit_SystemWords_floor :
    (let a := cregs.writeS 2 0x20000
     let g := { cx with arch := a }
     let s := sx.putGroup (sorrelKey 0 0) g
     2 ^ 17 ≤ (a.readS 2).toNat ∧ gives (exec (.ctxsv 4 2) s) (s.raise (sorrelKey 0 0) g illegal)) ∧
    (let a := cregs.writeS 2 0x12000
     let g := { cx with arch := a }
     let s := sx.putGroup (sorrelKey 0 0) g
     8 < (a.readS 2).toNat / 2 ^ 13 ∧ gives (exec (.ctxsv 4 2) s) (s.raise (sorrelKey 0 0) g illegal)) := by decide +kernel
theorem wit_TakingAnException_deferred :
    (let d : Deferred := ⟨9, 1, 6, 4, 0, 1020, 3, 0x2000, [0], none, none⟩
     let g := { ga with cur := none, deferred := [d], arch := { aregs with lhret := [4, 8, 12, 16] } }
     let s := memOf g page
     g.atBoundary = true ∧ s.deliverable g d = true ∧
     then_ (exec (.deferredFaultDelivery 0) s) (fun t => decide (((t.cluster 0).trapQ.map (·.trap)) =
       [⟨6, 15, 15, noLane, 0, 0x1000, false⟩]))) := by decide +kernel
theorem wit_HandlersAndReturns_context :
    (let af := { after with commit := false, trap := some (3, 7, 1) }
     let g := { cx with cur := none, after := some af }
     let s := sx.putGroup (sorrelKey 0 0) g
     g.ended = false ∧ (s.settleAfter (sorrelKey 0 0)).group (sorrelKey 0 0) = none) := by decide +kernel
theorem wit_ControlFaults_ret :
    (let g := groupOf (withToks [⟨.join, 8, 1⟩])
     gives (exec .ret (stateOf g)) ((stateOf g).raise 0 g (.trap 9 3 noLane 0)) ∧
     gives (exec (.brk pT) (stateOf g)) ((stateOf g).raise 0 g (.trap 9 4 noLane 0))) ∧
    (let g := groupOf (withToks (List.replicate 16 ⟨.join, 8, 1⟩))
     16 < 16 + 1 ∧ gives (exec (.ifI pT 6 9) (stateOf g)) ((stateOf g).raise 0 g (.trap 9 0 noLane 0))) ∧
    (let a := { regs with slices := [⟨0x1000, 1, 0, [⟨.join, 8, 2⟩, ⟨.call, 8, 1⟩], 0, none⟩] }
     let g := groupOf a
     gives (exec .ret (stateOf g)) ((stateOf g).raise 0 g (.trap 9 2 noLane 0))) := by decide +kernel
theorem wit_BankAndPowerSteps_turn :
    (let s := State.reset.setCluster 1 { Cluster.reset with passreq := 1 }
     6 * 1 + (6 - 1 - (0 + 0) % 6) = 11 ∧ s.lowerable 1 = [6, 7, 8, 9, 10, 11] ∧
     then_ (exec (.powerBudgetAdjust 1 true) s) (fun t => decide ((t.cluster 1).lever = 1 ∧ (t.core 11).target = 47))) := by
  decide +kernel

/-- EMPTY: a pop sequence that meets no token with a live lane. -/
theorem wit_ControlFaults_empty :
    (let one := fun (am em : BitVec 4) (toks : List Token) => groupOf { regs with slices := [⟨0x1000, am, em, toks, 0, none⟩] }
     let empties := fun (i : Instr) (g : Group) => gives (exec i (stateOf g)) ((stateOf g).raise 0 g (.trap 9 1 noLane 0))
     empties .next (one 15 0 []) ∧ empties .next (one 3 1 [⟨.els, 8, 1⟩]) ∧ empties .exit (one 3 0 []) ∧
     regs.execMask 0 0 pT = 0 ∧ empties (.ifI pT 6 9) (one 0 1 [⟨.join, 8, 1⟩]) ∧
     empties (.brk pT) (one 3 0 [⟨.els, 8, 3⟩, ⟨.brk, 16, 0⟩]) ∧ empties .ret (one 3 1 [⟨.els, 8, 1⟩, ⟨.call, 16, 1⟩])) := by decide +kernel
/-- Arrivals that differ, and the EXIT of the last slice that has not arrived. -/
theorem wit_RegangMeets_differ :
    (let a := fun (xs : List Slice) => groupOf { regs with slices := ⟨0x1000, 15, 0, [], 0, none⟩ :: xs }
     let waits := fun (pc : Pc) (id : BitVec 8) (n : Nat) => (⟨pc, 15, 0, [], n, some id⟩ : Slice)
     let faults := fun (i : Instr) (g : Group) => gives (exec i (stateOf g)) ((stateOf g).raise 0 g (.trap 9 5 noLane 0))
     faults (.regang 4) (a [waits 0x1000 3 1]) ∧ faults (.regang 3) (a [waits 0x1100 3 1]) ∧
     faults .exit (a [waits 0x1100 3 1, waits 0x1100 4 2]) ∧
     then_ (exec .exit (stateOf (a [waits 0x1100 3 1, waits 0x1100 3 2]))) (fun t => match t.group 0 with
       | some g => decide (g.arch.slices = [⟨0x1000, 0, 15, [], 0, none⟩, ⟨0x1108, 15, 0, [], 1, none⟩, ⟨0x1108, 15, 0, [], 1, none⟩])
       | none => false)) := by decide +kernel
/-- A context whose earlier clause has requests yet to leave ends at its own fault and stays till they have. -/
theorem wit_TakingAnException_context :
    (let q := reqOf (.sys 1 [2, 0, 5]) 0 none none
     let g := { cx with outq := [q] }
     let t := (sx.putGroup (sorrelKey 0 0) g).raise (sorrelKey 0 0) g illegal
     match t.group (sorrelKey 0 0) with | some x => decide (x.ended = true ∧ x.cur = none ∧ x.outq = [q]) | none => false) = true ∧
    cx.unret = [] ∧ cx.outq = [] ∧ sx.reqs = [] ∧ sx.ops = [] := by decide +kernel
/-- The copy context of a group that has ended is thawed by its handle. -/
theorem wit_SystemWords_thaw :
    (let t := { tg with ended := true, copyFrozen := true }
     let s := sysIn t
     s.handleGroup 0 0 = none ∧ s.handleContext 0 0 = some t ∧ sysHolds (exec (.thaw 15 20) s) 5 [1, 4, 0] false (cReg 20 0) ∧
     cWrites (exec (.thaw 14 20) s) s 20 2) := by decide +kernel
/-- The youngest active group leaves in the middle of its clause, where another stands at a boundary. -/
theorem wit_ClauseSteps_urgent :
    (let at_ := fun (g : Group) (n ctx age : Nat) => { seated g n 0 ctx age with uid := 10 + n }
     let idle := { ga with cur := none }
     let gs : List (Nat × Group) := [(0, at_ idle 0 0 9), (1, at_ ga 1 1 20), (2, at_ idle 2 2 1)]
     let s := ({ (State.reset.setCore 0 { Core.reset with active := [0, 1] }) with groups := gs, now := 100000 } : State)
     (oldest (s.urgent 0)).map Prod.fst = some 2 ∧ (youngest (s.activeGroups 0)).map Prod.fst = some 1 ∧ ga.cur ≠ none ∧
     (s.activeGroups 0).any (fun z => z.2.cur.isNone) = true ∧
     then_ (exec (.urgentPromotion 0) s) (fun t => (t.core 0).active == [0, 2])) := by decide +kernel
/-- MMA with every byte of its step read. -/
theorem wit_EngineSteps_read :
    (let op := { opOf (.mma 100 0x04000000 0x04000200 16 none 0 false false) 1 with
       buf := List.replicate 1024 (.read (some (0, false))) }
     op.reading 1 eblock2 (List.replicate 1024 0) = none) := by decide +kernel

/-! The clauses of CopyStepsOf, TableStepsOf and MatrixStepsOf, on the block `b` with the operation in its unit or engine. -/

def withOpIn (b : Block) (op : Op) (lk : Bool) : State := (withOp op lk).setBlock 0 b
/-- A layout of e = 2 with 3 elements from 0x1000, a box of 4 of them and fill 0x7FC0; its 64 bytes, its BIND. -/
def rawLayout (bind : Nat) : List Byte :=
  leBytes 8 (0x1000 + 2 ^ 55 + 2 ^ 57) ++ leBytes 4 3 ++ List.replicate 32 0 ++ [3] ++ List.replicate 5 0 ++ leBytes 2 bind ++
    List.replicate 12 0
def layout2 (bind : Nat) : Layout :=
  { base := 0x1000, e := 2, nd := 0, ext := [3, 0, 0, 0, 0], str := [0, 0, 0, 0, 0], box := [4, 1, 1, 1, 1], bind := bind,
    fill := 0x7FC0, u := 0 }
/-- CPT of the record at 0x2000 for the box at 0x3000 from coordinate 1, its record read. -/
def cptOp (bind : Nat) (st : Bool) (mask : Nat) : Op :=
  { opOf (.cpt 0x2000 0x3000 [1] [false] st mask) 0 with scratch := (rawLayout bind).map BitVec.toNat }
/-- Of `n` bytes every one is written but byte `i`, which is `x`. -/
def lastByte (n i : Nat) (x : ByteAt) : List ByteAt := (List.replicate n (.wrote [0])).set i x
theorem wit_CopyStepsOf_moves :
    (let op := opOf (.cpl [(4, 0x1000), (8, 0x2000)] 0 4) 0
     (cplMoves ge op [(4, 0x1000), (8, 0x2000)] 0 4)[5]? = some ⟨.mem 0x2001 0 0, .scr [0] 8 4 1⟩ ∧
     (cplMoves ge op [(0x1000, 4)] 1 4)[2]? = some ⟨.scr 4 4 2, .mem 0x1002 0⟩) ∧
    Layout.parse (rawLayout 5) 0x3000 = some (layout2 5) ∧ (layout2 5).inside [2] = true ∧ (layout2 5).inside [3] = false ∧
    (loadMoves se ge (cptOp 5 false 0) (layout2 5) 0x3000 [1] 0)[3]? = some ⟨.mem 0x1005 5 0x7F, .scr [0] 0x3000 8 3⟩ ∧
    (loadMoves se ge (cptOp 5 false 0) (layout2 5) 0x3000 [1] 0)[4]? = some ⟨.fill 0xC0, .scr [0] 0x3000 8 4⟩ ∧
    storeMoves (cptOp 5 true 0) (layout2 5) 0x3000 [1] = (List.range 4).map fun i => ⟨.scr 0x3000 8 i, .mem (0x1002 + i) 5⟩ := by
  decide +kernel
/-- Of two lanes of one transfer with one destination the lower one's byte is first, whichever the order picks. -/
theorem wit_CopyStepsOf_dealsWith :
    (let op := { opOf (.cpl [(4, 0x1000), (4, 0x2000)] 0 4) 0 with buf := (lastByte 8 0 (.read (some (1, false)))).set 4 (.read (some (2, false))) }
     op.DealsWith (cplMoves ge op [(4, 0x1000), (4, 0x2000)] 0 4) 4 0) :=
  .inr ⟨by decide, by decide, ⟨by decide, _, _, rfl, rfl, by decide⟩, fun _ h => absurd h (Nat.not_lt_zero _)⟩
theorem wit_CopyStepsOf_reads :
    (let op := { cptOp 5 false 0 with buf := lastByte 8 4 .todo }
     let s := withOp op false
     runs s op = true ∧ s.copyReady op (geOp op) = true ∧ op.step < (layout2 5).rows ∧
     pickOf s.draws (op.bytesThat 8 fun y => y.isTodo || y.isRead) = some 4 ∧
     then_ (exec (.copyTransfer 60) s) (fun t => decide (t.op 60 = some { op with buf := lastByte 8 4 (.read (some (0xC0, false))) }))) ∧
    (let op := { cptOp 5 false 0 with buf := lastByte 8 3 .todo }
     let s := withOp op false
     findXlat (s.core 0).tlb (geOp op).asid 0x1005 = some page ∧ page.bind ≠ 5 ∧
     then_ (exec (.copyTransfer 60) s) (fun t =>
       decide (t.op 60 = some { (op.fail 5) with buf := lastByte 8 3 (.read (some (0x7F, false))) }))) ∧
    (let op := { opOf (.cpl [(0x1000, 1)] 1 4) 0 with buf := lastByte 4 0 .todo }
     let s := withOp op false
     eblock2.hit 3 1 4 = .ok ∧
     then_ (exec (.copyTransfer 60) s) (fun t => decide (t.op 60 = some { op with buf := lastByte 4 0 (.read (some (0x3C, false))) }))) := by
  decide +kernel
theorem wit_CopyStepsOf_writes :
    (let op := { opOf (.cpl [(0x1000, 1)] 1 4) 0 with buf := lastByte 4 0 (.read (some (0x3C, false))), pos := 3 }
     let s := withOp op false
     findXlat (s.core 0).tlb (geOp op).asid 0x1000 = some page ∧ page.w = true ∧
     then_ (exec (.copyTransfer 60) s) (fun t => bytesAt t 0x101000 2 == 0x823C &&
       decide (t.op 60 = some { op with buf := [], pos := 0, step := 1, finished := true }))) ∧
    (let op := { cptOp 0 false 3 with buf := lastByte 8 7 (.read (some (9, false))), pos := 7 }
     let s := { (withOp op false).setBlock 1 { eblock2 with core := 1 } with launches := [(0, teamLaunch)] }
     s.receivers (geOp op) 3 = [0, 1] ∧ eblock2.hit 3 0x3000 8 = .ok ∧
     then_ (exec (.copyTransfer 60) s) (fun t => decide (t.blocks.map (fun x => x.2.scr.read 0x3007) = [9, 9] ∧
       t.op 60 = some { op with buf := [], pos := 0, step := 1, finished := true }))) := by decide +kernel
/-- The record is read byte by byte, and then checked. -/
theorem wit_CopyStepsOf_record :
    (let raw := rawLayout 5
     let b := { eblock2 with scr := eblock2.scr.writeN 0x2000 raw }
     let all := raw.map fun x => ByteAt.read (some (x, false))
     let op := fun bs => { cptOp 5 false 0 with started := false, scratch := [], buf := bs }
     let s := fun bs => withOpIn b (op bs) false
     (s all).copyReady (op all) (geOp (op all)) = true ∧ b.hit 3 0x2000 64 = .ok ∧
     (op (all.set 9 .todo)).gather 0 b ((List.range 64).map (0x2000 + ·)) = some (op (all.set 9 (.read (some (0, false))))) ∧
     then_ (exec (.copyTransfer 60) (s (all.set 9 .todo))) (fun t => decide (t.op 60 = some (op (all.set 9 (.read (some (0, false))))))) ∧
     (op all).gather 0 b ((List.range 64).map (0x2000 + ·)) = none ∧
     then_ (exec (.copyTransfer 60) (s all)) (fun t => match t.op 60 with
       | some o => decide (o.started = true ∧ o.bytes = 8 ∧ o.oob = false ∧ o.finished = false) | none => false) ∧
     Layout.parse ((all.set 52 (.read (some (1, false)))).map fun x => x.got.1) 0x3000 = none ∧
     then_ (exec (.copyTransfer 60) (s (all.set 52 (.read (some (1, false)))))) (fun t => match t.op 60 with
       | some o => decide (o.finished = true ∧ o.fault = true ∧ o.detail = 4) | none => false)) := by decide +kernel
theorem wit_CopyStepsOf_cpr :
    (let op := opOf (.cpr 0 0x1000 2 0 0) 2
     let s := withOp op false
     runs s op = true ∧ s.copyReady op (geOp op) = true ∧ op.step + min 32 2 ≤ 256 + (s.inFlight 60).foldl min op.step ∧
     (List.range 2).all (fun i => decide (eblock2.hit 3 (4 * i) 4 = .ok ∧ findXlat (s.core 0).tlb (geOp op).asid (0x1000 + 4 * i) = some page)) = true ∧
     then_ (exec (.copyTransfer 60) s) (fun t => decide (t.op 60 = some { op with step := 2 } ∧
       t.reqs.map (·.act) = [.cprElem 0 0 0x3C00 0, .cprElem 0 0 0 1] ∧
       t.reqs.map (·.place) = [some ⟨0, 0x101000, 2⟩, some ⟨0, 0x101004, 2⟩]))) := by decide +kernel

/-! Tables. -/

def readBytes (n : Nat) : List ByteAt := List.replicate n (.read (some (0, false)))
theorem wit_TableStepsOf_tbuild :
    (let op := fun n => { opOf (.tbuild 50 0x02000600 0) 1 with buf := readBytes n }
     let s := fun n => withOp (op n) true
     let offs := buildReads table .fp16 (op 0) 0x02000600 0
     runs (s 0) (op 0) = true ∧ (s 0).engineReady 0 true = some (op 0) ∧ Store.find eblock2.tbs 50 = some table ∧
     Fmt.ofCode (slotFmt (eblock2.slots.getD table.slot 0)) = some .fp16 ∧ offs.length = 64 ∧
     offs.all (fun o => decide (eblock2.hit 3 o 1 = .ok)) = true ∧ eblock2.spillGone table = false ∧
     (op 63).reading 0 eblock2 offs = some (op 64) ∧
     then_ (exec (.lookupEngineStep 0) (s 63)) (fun t => decide (t.op 60 = some (op 64))) ∧
     (op 64).reading 0 eblock2 offs = none ∧
     then_ (exec (.lookupEngineStep 0) (s 64)) (fun t => match t.op 60 with
       | some o => decide (o.step = 1 ∧ o.finished = true ∧ o.lost = false) | none => false)) := by decide +kernel
theorem wit_TableStepsOf_tbspill :
    (let op := { opOf (.tbspill 50 0x3000) 1 with buf := lastByte 64 0 .todo, pos := 63 }
     let s := withOp op true
     (eblock2.tblData 40).gone = false ∧ (eblock2.tblData 40).poison = [] ∧ eblock2.hitRange 3 0x3000 (64 + 2 * 8) ≠ .range ∧
     pickOf s.draws (op.bytesThat 64 ByteAt.isTodo) = some 0 ∧ (imageHeader table).length = 64 ∧
     then_ (exec (.lookupEngineStep 0) s) (fun t => blkIs (fun b => b.scr.readN 0x3000 2 == [1, 0]) t &&
       decide (t.op 60 = some { op with buf := [], pos := 0, step := 1 }))) := by decide +kernel
theorem wit_TableStepsOf_tbfill :
    (let op := fun (step : Nat) (bs : List ByteAt) (ws : List Nat) =>
       { opOf (.tbfill 50 0x3000 false) 1 with buf := bs, step := step, scratch := ws }
     let b := { eblock2 with scr := eblock2.scr.writeN 0x3000 (imageHeader table ++ [7]) }
     let gb := groupBytes false 4 (entBytes 2)
     let s := fun b o => withOpIn b o true
     let got := fun (x : Out) (f : Op → Bool) => then_ x fun t => match t.op 60 with | some o => f o | none => false
     let rd := fun (n : Nat) => (List.range n).map fun i => ByteAt.read (some (b.scr.read (0x3000 + i), false))
     imageOk b table (b.scr.readN 0x3000 64) = true ∧ b.hitRange 3 0x3000 (64 + 2 * gb) = .ok ∧
     got (exec (.lookupEngineStep 0) (s b (op 0 (rd 64) []))) (fun o => decide (o.step = 1 ∧ o.finished = false)) = true ∧
     imageOk eblock2 table (eblock2.scr.readN 0x3000 64) = false ∧
     got (exec (.lookupEngineStep 0) (s eblock2 (op 0 (readBytes 64) []))) (fun o => decide (o.finished = true ∧ o.fault = true ∧ o.detail = 4)) = true ∧
     (op 1 (readBytes (gb - 1)) []).reading 0 b ((List.range gb).map (0x3040 + ·)) = some (op 1 (readBytes (gb - 1) ++ [.read (some (0, false))]) []) ∧
     got (exec (.lookupEngineStep 0) (s b (op 1 (.read (some (7, false)) :: readBytes (gb - 1)) []))) (fun o => decide (o.step = 2 ∧ o.scratch.head? = some 7)) = true ∧
     b.spillGone table = false ∧
     then_ (exec (.lookupEngineStep 0) (s b (op 2 (readBytes gb) (9 :: List.replicate (gb / 2 - 1) 0)))) (fun t =>
       blkIs (fun x => decide (Store.get (x.tblData 40).el 0 0 = 9 ∧ (x.tblData 40).gone = false)) t)) := by decide +kernel

/-! Matrices. -/

def acc16 (els : Store Word) : Acc := ⟨false, 16, 16, els, none, []⟩
def accBlock : Block := { eblock2 with acs := [(100, acc16 [(0, 0x3F800000)]), (101, acc16 [(0, 0x40000000)])] }
theorem wit_MatrixStepsOf_acc :
    (let op := opOf (.acc 1 100 101 0 0 true) 1
     then_ (exec (.matrixEngineStep 0) (withOpIn accBlock op false)) (fun t => accIs 100 (fun a => a.get 0 0 == 0x40400000) t &&
       decide (t.op 60 = some { op with finished := true }))) ∧
    (let op := fun n => { opOf (.acc 2 100 100 0x04000000 0 true) 1 with buf := readBytes n }
     let s := fun n => withOpIn accBlock (op n) false
     let offs := ((List.range 16).map fun c => (elemAt 0x04000000 (ioWidth 2 true) 0 0 0 c).reads).flatten
     (s 63).engineReady 0 false = some (op 63) ∧ (s 63).teamPending 0 = [] ∧ offs.length = 64 ∧ accBlock.hits 3 offs = .ok ∧
     then_ (exec (.matrixEngineStep 0) (s 63)) (fun t => decide (t.op 60 = some (op 64))) ∧
     (op 64).reading 1 accBlock offs = none ∧
     then_ (exec (.matrixEngineStep 0) (s 64)) (fun t => accIs 100 (fun a => a.get 0 0 == 0) t && match t.op 60 with
       | some o => o.step == 1 && !o.finished | none => false)) ∧
    (let op := opOf (.acc 2 100 100 0x04000000 0 true) 1
     let b := { accBlock with allocs := accBlock.allocs.map fun a => { a with state := .lost, rows := [] } }
     b.hits 3 (((List.range 16).map fun c => (elemAt 0x04000000 (ioWidth 2 true) 0 0 0 c).reads).flatten) = .lost ∧
     then_ (exec (.matrixEngineStep 0) (withOpIn b op false)) (fun t => match t.op 60 with
       | some o => o.step == 1 && o.lost | none => false)) ∧
    (let len := storeRowSize 16 2 true
     let op := { opOf (.acc 3 100 100 0x04000000 0 true) 1 with buf := lastByte (16 * len) 3 .todo, pos := 16 * len - 1 }
     op.byte 3 = .todo ∧ (storeRow (acc16 [(0, 0x3F800000)]) 0 0x04000000 2 true).1[3]? = some (3, 0x3F) ∧ 
     (List.range 16).all (fun i => ((storeRow (acc16 []) i 0x04000000 2 true).1.length == len) &&
       (storeRow (acc16 []) i 0x04000000 2 true).1.all fun x => decide (accBlock.hit 3 x.1 1 = .ok)) = true) := by decide +kernel
/-- MMAS: metadata that is in no order ends it. -/
theorem wit_MatrixStepsOf_mmas :
    (let op := { opOf (.mma 100 0x04000000 0x04000200 32 (some 0x800) 0 false false) 1 with buf := readBytes (32 + 1024) }
     let s := withOp op false
     op.mm = some ⟨100, 0x04000000, 0x04000200, 32, some 0x800, 0, false, false, 0⟩ ∧
     8 * (geOp op).mmCycles s op (some 1) ≤ op.work ∧ (geOp op).engineBlock op = 0 ∧
     then_ (exec (.matrixEngineStep 0) s) (fun t => accIs 100 (fun a => a.rs == some 0) t && match t.op 60 with
       | some o => o.finished && o.fault && o.detail == 8 | none => false)) := by decide +kernel
/-- MMA.T: a quadrant arrives where its accumulator has the shape and where not; it completes; so does the whole. -/
theorem wit_MatrixStepsOf_mmaT :
    (let op := { opOf (.mmaT 2 100 false 16 16 0x04000000 0x08000800 16 0 false false) 1 with started := false }
     let s := fun (b : Block) (o : Op) => { (withOpIn b o false).setCore 0 Core.reset with launches := [(0, teamLaunch)] }
     runs (s eblock2 op) op = true ∧ (s eblock2 op).teamPending 0 = [(op, 0)] ∧ (s eblock2 op).engineReady 0 false = none ∧
     (s eblock2 op).op (s eblock2 op).nextId = none ∧
     then_ (.next ((s eblock2 op).arriveQuad 0 op 0)) (fun t => decide ((t.core 0).matrixQ = [200] ∧
       t.op 60 = some { op with started := true, scratch := [0] } ∧
       (t.op 200).map (·.kind) = some (.quad 60 0 100 0x04000000 0x08000800 16 0 false false))) ∧
     then_ (.next ((s { eblock2 with acs := [(100, ⟨true, 16, 16, [], none, []⟩)] } op).arriveQuad 0 op 0)) (fun t => match t.op 60 with
       | some o => o.step == 1 && o.fault && o.detail == 9 && !o.finished | none => false) ∧
     (let p := { op with started := true, step := 3, scratch := [0, 1, 2, 3] }
      let o := { opOf (.quad 60 0 100 0x04000000 0x08000800 16 0 false false) 1 with id := 61, finished := true, fault := true }
      let u := { ((s eblock2 p).setCore 0 { Core.reset with matrixQ := [61], matrixLevel := 8 }) with ops := [p, o] }
      u.headOp 0 false = some o ∧ u.op 60 = some p ∧
      then_ (exec (.matrixOpComplete 0) u) (fun t => decide (t.op 61 = none ∧ (t.core 0).matrixQ = []) && match t.op 60 with
        | some x => x.step == 4 && x.finished && x.fault | none => false)) ∧
     (let p := { op with started := true, step := 4, finished := true, scratch := [0, 1, 2, 3], cyc := 9 }
      (s eblock2 p).matrixDone 0 = some p ∧
      then_ (exec (.matrixOpComplete 0) (s eblock2 p)) (fun t => decide (t.op 60 = none) && match t.group 0 with
        | some g => g.slewcy == 9 && decide (g.arch = (geOp p).arch.settleTl 1 (·.opDone p)) | none => false))) := by decide +kernel

/-! Further clauses of the statements. -/

/-- Every port is down. -/
def downPorts : Store Port := (List.range 16).map fun i => (i, { Port.reset with up := false })
/-- Behind a port that is down; what a peer admits is free (log 38). -/
theorem wit_GlobalAccessesPerform_down (h : Config.peerAdmits 0x101000 = true) :
    (let q := { reqOf (.load .l2 4 false) 0x1000 (some ⟨2, 0x101000, 2⟩) (some 7) with act := .load .l2 4 false }
     let s := { withReq sm q with ports := downPorts }
     s.req 20 = some q ∧ s.canPerform q = true ∧ s.Serves q ⟨2, 0x101000, 2⟩ ∧ s.peerUp ⟨2, 0x101000, 2⟩ = false ∧
     s.hitLine 0 .l2 ⟨2, 0x101000, 2⟩ = none) ∧
    (let q := reqOf (.store .l2 4 5) 0x1000 (some ⟨2, 0x101000, 2⟩) none
     let s := { withReq sm q with ports := downPorts }
     s.req 20 = some q ∧ s.canPerform q = true ∧ s.Serves q ⟨2, 0x101000, 2⟩ ∧ s.peerUp ⟨2, 0x101000, 2⟩ = false) :=
  have down : ∀ n < 16, (Store.get downPorts n Port.reset).up = false := by decide
  have off := down (peerLink 0x101000) (Nat.mod_lt _ (by decide))
  ⟨⟨by decide +kernel, by decide +kernel, ⟨fun _ => h, .inr (.inl (by decide))⟩, off, by decide +kernel⟩,
    ⟨by decide +kernel, by decide +kernel, ⟨fun _ => h, .inr (.inl (by decide))⟩, off⟩⟩
/-- A handler context's load of the capability window. -/
theorem wit_GlobalAccessesPerform_capability :
    (let q := { reqOf (.load .phys 4 false) capBase (some ⟨0, capBase, 0⟩) (some 7) with part := noPart }
     let s := withReq sm q
     s.canPerform q = true ∧ noPart = 64 ∧
     then_ (exec (.globalAccessPerform 20) s) (fun t => decide (t.reqs = [{ q with
       reply := some (loadRets q 7 4 false (s.overlay q ((List.range 4).map fun i => s.capByte none i)) false) }]))) := by
  decide +kernel
/-- A second DONE while the first waits answers 0 and changes nothing else. -/
theorem wit_AllocationWords_again :
    (let b := allocIn (.rebuilding 3) [(47, 0)]
     let s := inBlock { b with allocs := b.allocs.map fun a => { a with donePend := some 4 } }
     gives (exec (.srestoreDone 63 20) s) (s.putGroup 0 (ga.setS 20 0))) := by decide +kernel
/-- What a faulting clause of a context wrote through the window goes. -/
theorem wit_TakingAnException_window :
    (let t : Group := { tg with hold := .held }
     let x := { cx with cur := some (clause.takesBack 9 [.window 0 t.uid (t.windowOld 8) 5]) }
     let s := (sysIn (t.windowWrite 8 5)).putGroup (sorrelKey 0 0) x
     x.sorrel = some 0 ∧ s.group 0 = some (t.windowWrite 8 5) ∧ (t.windowWrite 8 5).halted = false ∧
     (s.raise (sorrelKey 0 0) x illegal).group 0 = some ((t.windowWrite 8 5).windowBack (t.windowOld 8) 5) ∧
     ((t.windowWrite 8 5).windowBack (t.windowOld 8) 5).areaWord 8 = t.areaWord 8) := by decide +kernel
/-- A store that CTXLD brought back without its place. -/
theorem wit_MemorySteps_again :
    (let q := reqOf (.store .cached 4 5) 0x1000 none none
     q.act.need = some .write ∧ gives (exec (.pageWalkComplete 20) (smq q)) ((smq q).putReq { q with place := homeAt })) := by decide +kernel
theorem wit_StepRunsTheInstruction_sample : fetched.sampleWaits fetcher = false ∧ se.sampleWaits ge = false := by decide +kernel

/-- A pool with nothing left in DRAINING ends, and answers those that wait; a pop lets a parked push in. -/
theorem wit_PoolSteps_draining :
    (let k : PoolPark := ⟨{ poolReq (.plpop 5 true) with id := 21, pid := some 8 }, 2⟩
     let p := { openPool [prec 3] 2 with pops := [k] }
     let s := poolIn p (.plpop 5 false)
     p.select = some (prec 3) ∧ (p.recs.filter (·.key != 3)) = [] ∧ (s.handleOf k.req.grp).isSome = true ∧ s.reqs.all (·.id != 21) = true ∧
     then_ (exec (.popArrival 20) s) (fun t => decide ((t.pool 5).state = 3 ∧ (t.pool 5).pops = [] ∧ t.reqs =
       [{ poolReq (.plpop 5 false) with reply := some (poolSnapshot (poolReq (.plpop 5 false)) (prec 3)) },
        { k.req with reply := some (popStatus k.req 2) }]))) ∧
    (let k : PoolPark := ⟨{ poolReq (.plpush 5 4 [7, 8] true) with id := 21, pid := some 8 }, 2⟩
     let p := { openPool [prec 3, prec 2] 1 with pushes := [k] }
     let s := poolIn p (.plpop 5 false)
     p.select = some (prec 2) ∧ (p.recs.filter (·.key != 2)).length < cfgCap p.cfg ∧
     then_ (exec (.popArrival 20) s) (fun t => decide ((t.pool 5).recs = [prec 3, ⟨4, [7, 8], 1, false, 2, false⟩] ∧ (t.pool 5).pushes = [] ∧
       t.reqs = [{ poolReq (.plpop 5 false) with reply := some (poolSnapshot (poolReq (.plpop 5 false)) (prec 2)) },
        { k.req with reply := some (pushStatus k.req 1) }]))) ∧
    (let p := openPool [prec 3, prec 2] 2
     let s := poolIn p (.plpop 5 false)
     p.select = some (prec 2) ∧ then_ (exec (.popArrival 20) s) (fun t => decide ((t.pool 5).state = 2 ∧ (t.pool 5).recs = [prec 3]))) := by
  decide +kernel
/-- A push answers the pop that waits. -/
theorem wit_PoolSteps_parked :
    (let k : PoolPark := ⟨{ poolReq (.plpop 5 true) with id := 21, pid := some 8 }, 2⟩
     let p := { openPool [] 1 with pops := [k] }
     let a := Act.plpush 5 4 [7, 8] false
     let s := poolIn p a
     0 < cfgCap p.cfg ∧ then_ (exec (.pushArrival 20) s) (fun t => decide ((t.pool 5).recs = [] ∧ (t.pool 5).pops = [] ∧ t.reqs =
       [{ poolReq a with reply := some (pushStatus (poolReq a) 1) },
        { k.req with reply := some (poolSnapshot k.req ⟨4, [7, 8], 1, false, 5, false⟩) }]))) := by decide +kernel

/-! Queues: the other registers, a macro table, a team and a launch of which nothing is left. -/

theorem wit_QueueAndLaunchSteps_fields :
    (let v : DWord := BitVec.ofNat 64 (9 * 2 ^ 48 + 2 ^ 40 + 2 * 2 ^ 38 + 4 * 2 ^ 33)
     let k := { q3 with en := false }
     let s := sq.setQueue 3 k
     gives (exec (.registerWrite 1 0x100D0 0x7000) s) (s.setQueue 3 { k with qwidx := 0x7000 }) ∧
     gives (exec (.registerWrite 1 0x100D0 0x7000) sq) (sq.setQueue 3 q3) ∧ gives (exec (.registerWrite 1 0x100C0 0x7000) sq) (sq.setQueue 3 q3) ∧
     gives (exec (.registerWrite 1 0x100C8 v) s) (s.setQueue 3 { k with qasid := 9, prio := 2, log2size := 4, en := true, polled := true }) ∧
     gives (exec (.registerWrite 1 0x100C8 v) sq) (sq.setQueue 3 { q3 with qasid := 9, prio := 2, en := true, polled := true }) ∧
     gives (exec (.registerWrite 1 0x100C8 (2 ^ 40)) s) (s.setQueue 3 { k with qasid := 0, prio := 0, log2size := 0, en := false, polled := true })) := by
  decide +kernel
/-- The record with a macro table in the next page. -/
def mrec : List Byte := (qrec.set 0x12 5).set 4 0
theorem wit_QueueAndLaunchSteps_macro : recMacro mrec = 0x50000 ∧
    (let s := { sq with mem := qmem.writeN 0x40112 [5] ++ [(0x50000, 7)] }
     (s.readVa 5 0 2 (q3.slotVa 1) 256).2 = some mrec ∧ recOk mrec false = true ∧ s.recInPart 0 mrec = true ∧
     ((s.readVa 5 0 3 0x50000 8192).2.map fun m => (m.length, m.headD 0)) = some (8192, 7) ∧
     then_ (exec (.slotConsume 3) s) (fun t => decide ((t.queue 3).pending.map (fun x => (x.1.length, x.1.getD 256 0, x.2)) = some (8448, 7, 1)))) ∧
    (let s := { sq with mem := qmem.writeN 0x40115 [9] }
     (s.readVa 5 0 3 (0x50000 * 0 + 9 * 2 ^ 40) 8192).2 = none ∧
     then_ (exec (.slotConsume 3) s) (fun t => decide ((t.queue 3).xlate = true ∧ (t.queue 3).pending = none ∧ (t.queue 3).qhead = 2))) := by
  decide +kernel
theorem wit_QueueAndLaunchSteps_team :
    (let r := qrec.set 4 4
     let k := { q3 with qhead := 2, pending := some (r, 1) }
     let s := { sq.setQueue 3 k with parts := [(0, { part0 with cores := [0, 1, 2, 3] })] }
     recTeam r = true ∧ s.nextGrant = some (3, [0, 1, 2, 3]) ∧
     then_ (exec (.launchGrant 3) s) (fun t => decide (
       (t.groups.map fun x => (x.2.core, x.2.team, x.2.role, x.2.vregs)) = [(0, 0, 0, 8), (1, 1, 0, 8), (2, 2, 0, 8), (3, 3, 0, 8)]))) := by
  decide +kernel
theorem wit_QueueAndLaunchSteps_loaded :
    (let k := { q3 with qhead := 2, pending := some (mrec ++ [7], 1) }
     let s := sq.setQueue 3 k
     s.nextGrant = some (3, [0]) ∧ recMacro (mrec ++ [7]) ≠ 0) := by decide +kernel
theorem wit_QueueAndLaunchSteps_gone :
    (let g := { gm with cur := none, ended := true }
     let s := { (sq.putGroup (ghostKey g.uid) g).putGroup (sorrelKey 0 0) { cx with uid := 70 } with
       launches := [(0, soloLaunch)], saves := [⟨70, 0, 0x5000, 0, []⟩] }
     s.launchGroups 0 = [(ghostKey g.uid, g)] ∧ g.ghost (ghostKey g.uid) = true ∧ s.stoppedGroup g = true ∧ g.halted = false ∧
     then_ (exec (.ctxsvComplete (sorrelKey 0 0)) s) (fun t => decide (t.saves = [] ∧ t.launches = s.launches ∧
       t.mem.readN 0x5004 4 = [1, 0, 0, 0]))) := by decide +kernel

end Sys2Proof.Tests
end

section
/-! PROOF. Taking an exception (O55). A fault undoes the clause under way (`State.undoCur`), which leaves memory, the
trap queues and the error counts as they are; then the group's trap stands or is queued (`State.TakesTrap`), or it
parks, enters a handler, or, as a handler context, ends. -/

namespace Sys2Proof.Machine

/-! Maps, groups and clusters after an update. -/

theorem Store.find_del_same {α : Type} (m : Store α) (k : Nat) : Store.find (Store.del m k) k = none := by
  induction m with
  | nil => rfl
  | cons x r ih =>
    simp only [Store.del]
    split
    · exact ih
    · next hne => simp [Store.find, hne, ih]

theorem Store.find_del_other {α : Type} (m : Store α) (k j : Nat) (h : j ≠ k) :
    Store.find (Store.del m k) j = Store.find m j := by
  induction m with
  | nil => rfl
  | cons x r ih =>
    simp only [Store.del]
    split
    · simp_all [Store.find, Ne.symm h]
    · simp [Store.find, ih]

@[simp] theorem State.cluster_setCluster (s : State) (k : Nat) (x : Cluster) : (s.setCluster k x).cluster k = x :=
  Store.get_set_same s.clusters k x Cluster.reset
theorem State.cluster_setCluster_other (s : State) (k j : Nat) (x : Cluster) (h : j ≠ k) :
    (s.setCluster k x).cluster j = s.cluster j := Store.get_set_other s.clusters k j x Cluster.reset h
/-- What a changed cluster keeps is kept of every cluster. -/
theorem State.cluster_setCluster_field {β : Type} (f : Cluster → β) (s : State) (k : Nat) (x : Cluster)
    (h : f x = f (s.cluster k)) (j : Nat) : f ((s.setCluster k x).cluster j) = f (s.cluster j) := by
  by_cases hj : j = k
  · rw [hj, State.cluster_setCluster, h]
  · rw [s.cluster_setCluster_other k j x hj]
@[simp] theorem State.cluster_putGroup (s : State) (h k : Nat) (x : Group) : (s.putGroup h x).cluster k = s.cluster k := rfl
@[simp] theorem State.group_notBySave (s : State) (h uid : Nat) : (s.notBySave uid).group h = s.group h := rfl
@[simp] theorem State.cluster_notBySave (s : State) (k uid : Nat) : (s.notBySave uid).cluster k = s.cluster k := rfl

theorem State.modGroup_of_some (s : State) (h : Nat) (g : Group) (f : Group → Group) (hg : s.group h = some g) :
    s.modGroup h f = s.putGroup h (f g) := by simp [State.modGroup, hg]
theorem State.modGroup_of_none (s : State) (h : Nat) (f : Group → Group) (hg : s.group h = none) :
    s.modGroup h f = s := by simp [State.modGroup, hg]

theorem State.group_modGroup (s : State) (h : Nat) (f : Group → Group) : (s.modGroup h f).group h = (s.group h).map f := by
  cases hg : s.group h with
  | none => simp [State.modGroup_of_none s h f hg, hg]
  | some g => simp [State.modGroup_of_some s h g f hg]
theorem State.group_modGroup_other (s : State) (h k : Nat) (f : Group → Group) (n : k ≠ h) :
    (s.modGroup h f).group k = s.group k := by
  cases hg : s.group h with
  | none => rw [State.modGroup_of_none s h f hg]
  | some g => rw [State.modGroup_of_some s h g f hg, State.group_putGroup_other s h k _ n]
/-- A change of the group of an identity reaches a group, or leaves it. -/
theorem State.group_modUid (s : State) (uid h : Nat) (f : Group → Group) (x : Group) (hx : s.group h = some x) :
    (s.modUid uid f).group h = some x ∨ (s.modUid uid f).group h = some (f x) := by
  simp only [State.modUid]
  split
  · next k _ =>
    by_cases hk : h = k
    · subst hk
      exact .inr (by simp [State.group_modGroup, hx])
    · exact .inl (by rw [s.group_modGroup_other k h f hk, hx])
  · exact .inl hx

/-! Changes inside groups, blocks and cores: clusters, memory, requests and operations stay. -/

/-- `t` has the clusters, the memory, the requests and the operations of `s`. -/
structure State.Beside (s t : State) : Prop where
  clusters : t.clusters = s.clusters
  mem : t.mem = s.mem
  reqs : t.reqs = s.reqs
  ops : t.ops = s.ops

theorem State.Beside.refl (s : State) : s.Beside s := ⟨rfl, rfl, rfl, rfl⟩
theorem State.Beside.trans {s t u : State} (a : s.Beside t) (b : t.Beside u) : s.Beside u :=
  ⟨b.clusters.trans a.clusters, b.mem.trans a.mem, b.reqs.trans a.reqs, b.ops.trans a.ops⟩
theorem State.Beside.cluster {s t : State} (a : s.Beside t) (k : Nat) : t.cluster k = s.cluster k := by
  simp [State.cluster, a.clusters]

theorem State.modGroup_beside (s : State) (h : Nat) (f : Group → Group) : s.Beside (s.modGroup h f) := by
  unfold State.modGroup
  split <;> exact ⟨rfl, rfl, rfl, rfl⟩
theorem State.modUid_beside (s : State) (uid : Nat) (f : Group → Group) : s.Beside (s.modUid uid f) := by
  unfold State.modUid
  split
  · exact s.modGroup_beside _ f
  · exact .refl s
theorem State.modBlock_beside (s : State) (k : Nat) (f : Block → Block) : s.Beside (s.modBlock k f) := by
  unfold State.modBlock
  split <;> exact ⟨rfl, rfl, rfl, rfl⟩
theorem State.mapUndo_beside (s : State) (f : Undo → Option Undo) : s.Beside (s.mapUndo f) := ⟨rfl, rfl, rfl, rfl⟩

/-- What an undone instruction takes back lies in groups, blocks and cores. -/
theorem State.applyUndo_beside (s : State) (core : Nat) (u : Undo) : s.Beside (s.applyUndo core u) := by
  cases u with
  | alloc | restore | done | acFree | tbFree | tbHold | tbKeep => exact s.modBlock_beside _ _
  | child => exact ⟨rfl, rfl, rfl, rfl⟩
  | window => exact s.modGroup_beside _ _
  | acBind bk h id =>
    simp only [State.applyUndo]
    split
    · exact s.modBlock_beside _ _
    · exact s.mapUndo_beside _
  | tbBind bk h st =>
    simp only [State.applyUndo]
    split
    · exact .refl s
    · split
      · exact ⟨rfl, rfl, rfl, rfl⟩
      · exact s.mapUndo_beside _
  | tbNew bk h id new placed =>
    simp only [State.applyUndo]
    split
    · exact s.modBlock_beside _ _
    · refine State.Beside.trans ?_ (State.mapUndo_beside _ _)
      split
      · exact s.modBlock_beside _ _
      · exact .refl s

/-- The state after a clause's undo records are taken back. -/
theorem State.undoList_beside (s : State) (core : Nat) (us : List (Nat × Undo)) :
    s.Beside (us.foldl (fun s u => s.applyUndo core u.2) s) :=
  List.foldlRecOn us _ (.refl s) fun t a u _ => a.trans (t.applyUndo_beside core u.2)

/-! What an exception leaves as it was on its way: memory, trap queues, error counts. -/

/-- `t` has the memory of `s`, and each cluster's trap queue and count of uncorrectable errors. -/
structure State.KeepsQueues (s t : State) : Prop where
  mem : t.mem = s.mem
  trapQ : ∀ k, (t.cluster k).trapQ = (s.cluster k).trapQ
  ue : ∀ k, (t.cluster k).ue = (s.cluster k).ue

theorem State.KeepsQueues.refl (s : State) : s.KeepsQueues s := ⟨rfl, fun _ => rfl, fun _ => rfl⟩
theorem State.KeepsQueues.trans {s t u : State} (a : s.KeepsQueues t) (b : t.KeepsQueues u) : s.KeepsQueues u :=
  ⟨b.mem.trans a.mem, fun k => (b.trapQ k).trans (a.trapQ k), fun k => (b.ue k).trans (a.ue k)⟩
theorem State.Beside.keepsQueues {s t : State} (a : s.Beside t) : s.KeepsQueues t :=
  ⟨a.mem, fun k => by rw [a.cluster], fun k => by rw [a.cluster]⟩

/-- A cluster that keeps its trap queue and error count. -/
theorem State.setCluster_keepsQueues (s : State) (k : Nat) (x : Cluster) (hq : x.trapQ = (s.cluster k).trapQ)
    (hu : x.ue = (s.cluster k).ue) : s.KeepsQueues (s.setCluster k x) where
  mem := rfl
  trapQ := s.cluster_setCluster_field Cluster.trapQ k x hq
  ue := s.cluster_setCluster_field Cluster.ue k x hu

theorem State.putGroup_keepsQueues (s : State) (h : Nat) (g : Group) : s.KeepsQueues (s.putGroup h g) :=
  ⟨rfl, fun _ => rfl, fun _ => rfl⟩
theorem State.pruneWaiters_keepsQueues (s : State) (cl : Nat) : s.KeepsQueues (s.pruneWaiters cl) :=
  s.setCluster_keepsQueues cl _ rfl rfl

theorem State.withReqs_keepsQueues (s : State) (rs : List Req) : s.KeepsQueues { s with reqs := rs } :=
  ⟨rfl, fun _ => rfl, fun _ => rfl⟩

@[simp] theorem State.group_dropReplies (s : State) (h : Nat) (g : Group) (n : Nat) :
    (s.dropReplies g n).group h = s.group h := rfl
theorem State.mem_reqs_of_dropReplies {s : State} {g : Group} {n : Nat} {r : Req} (h : r ∈ (s.dropReplies g n).reqs) :
    r ∈ s.reqs := (List.mem_filter.mp h).1

/-- Requests that go leave their waiters' records alone but for the waiters. -/
theorem State.dropReplies_keepsQueues (s : State) (g : Group) (n : Nat) : s.KeepsQueues (s.dropReplies g n) :=
  (s.withReqs_keepsQueues _).trans (State.pruneWaiters_keepsQueues _ _)
theorem State.dropOwn_keepsQueues (s : State) (g : Group) : s.KeepsQueues (s.dropOwn g) :=
  (s.withReqs_keepsQueues _).trans (State.pruneWaiters_keepsQueues _ _)

/-! Undoing clauses. -/

/-- The group with the clause `c` under way undone: at its header, with the registers it had there (R59). -/
def Group.undone (g : Group) (c : Cur) : Group :=
  (({ g with arch := c.snap, cur := none } : Group).dropDeferred c.first).pruneRets

section undone
variable (g : Group) (c : Cur)
@[simp] theorem Group.undone_cur : (g.undone c).cur = none := rfl
@[simp] theorem Group.undone_arch : (g.undone c).arch = c.snap := rfl
@[simp] theorem Group.undone_unret : (g.undone c).unret = g.unret := rfl
@[simp] theorem Group.undone_hold : (g.undone c).hold = g.hold := rfl
@[simp] theorem Group.undone_frozen : (g.undone c).frozen = g.frozen := rfl
@[simp] theorem Group.undone_outq : (g.undone c).outq = g.outq := rfl
@[simp] theorem Group.undone_uid : (g.undone c).uid = g.uid := rfl
@[simp] theorem Group.undone_sorrel : (g.undone c).sorrel = g.sorrel := rfl
@[simp] theorem Group.undone_core : (g.undone c).core = g.core := rfl
@[simp] theorem Group.undone_cluster : (g.undone c).cluster = g.cluster := rfl
end undone

theorem State.undoCur_of_cur (s : State) (h : Nat) (g : Group) (c : Cur) (hc : g.cur = some c) :
    s.undoCur h g = ((c.undo.foldl (fun s u => s.applyUndo g.core u.2) s).putGroup h (g.undone c)).dropReplies
      (g.undone c) c.first := by
  simp [State.undoCur, hc, Group.undone]
theorem State.undoCur_of_none (s : State) (h : Nat) (g : Group) (hc : g.cur = none) :
    s.undoCur h g = s.putGroup h g := by simp [State.undoCur, hc]

/-- The registers are those at the clause's header. -/
theorem State.group_undoCur (s : State) (h : Nat) (g : Group) (c : Cur) (hc : g.cur = some c) :
    (s.undoCur h g).group h = some (g.undone c) := by simp [s.undoCur_of_cur h g c hc]

theorem State.undoCur_keepsQueues (s : State) (h : Nat) (g : Group) : s.KeepsQueues (s.undoCur h g) := by
  cases hc : g.cur with
  | none => rw [s.undoCur_of_none h g hc]; exact s.putGroup_keepsQueues h g
  | some c =>
    rw [s.undoCur_of_cur h g c hc]
    exact (s.undoList_beside g.core c.undo).keepsQueues.trans
      ((State.putGroup_keepsQueues _ _ _).trans (State.dropReplies_keepsQueues _ _ _))

theorem State.undoAll_keepsQueues (s : State) (h : Nat) (g : Group) : s.KeepsQueues (s.undoAll h g) := by
  refine (s.undoCur_keepsQueues h g).trans ?_
  simp only [State.undoAll]
  split
  · exact .refl _
  · split
    · exact .refl _
    · exact (State.undoList_beside _ _ _).keepsQueues.trans
        ((State.putGroup_keepsQueues _ _ _).trans (State.dropReplies_keepsQueues _ _ _))

/-! Leaving the barriers changes barriers, releases and nothing that an exception reads. -/

/-- `t` has the groups of `s`, its memory, trap queues and error counts. -/
structure State.KeepsGroups (s t : State) : Prop extends s.KeepsQueues t where
  groups : t.groups = s.groups

theorem State.KeepsGroups.refl (s : State) : s.KeepsGroups s := ⟨.refl s, rfl⟩
theorem State.KeepsGroups.trans {s t u : State} (a : s.KeepsGroups t) (b : t.KeepsGroups u) : s.KeepsGroups u :=
  ⟨a.toKeepsQueues.trans b.toKeepsQueues, b.groups.trans a.groups⟩
theorem State.KeepsGroups.group {s t : State} (a : s.KeepsGroups t) (h : Nat) : t.group h = s.group h := by
  simp [State.group, a.groups]

theorem State.setBarrier_keepsGroups (s : State) (sc home idx : Nat) (b : Barrier) :
    s.KeepsGroups (s.setBarrier sc home idx b) := by
  match sc with
  | 1 =>
    simp only [State.setBarrier]
    split
    · exact ⟨⟨rfl, fun _ => rfl, fun _ => rfl⟩, rfl⟩
    · exact .refl s
  | 2 => exact ⟨s.setCluster_keepsQueues _ _ rfl rfl, rfl⟩
  | 0 | _ + 3 =>
    simp only [State.setBarrier]
    split
    · exact ⟨⟨rfl, fun _ => rfl, fun _ => rfl⟩, rfl⟩
    · exact .refl s

theorem State.phaseCheck_keepsGroups (s : State) (sc home idx : Nat) : s.KeepsGroups (s.phaseCheck sc home idx) := by
  simp only [State.phaseCheck]
  split
  · exact (s.setBarrier_keepsGroups sc home idx _).trans ⟨⟨rfl, fun _ => rfl, fun _ => rfl⟩, rfl⟩
  · exact .refl s

theorem State.barLeave_keepsGroups (s : State) (sc home idx : Nat) (outstanding halt : Bool) :
    s.KeepsGroups (s.barLeave sc home idx outstanding halt) := by
  simp only [State.barLeave]
  split
  · exact s.setBarrier_keepsGroups _ _ _ _
  · split
    · exact s.setBarrier_keepsGroups _ _ _ _
    · exact (s.setBarrier_keepsGroups _ _ _ _).trans (State.phaseCheck_keepsGroups _ _ _ _)

/-- A fold whose every step keeps groups and queues keeps them. -/
theorem State.foldl_keepsGroups {α : Type} (s : State) (f : State → α → State) (l : List α)
    (hf : ∀ t x, State.KeepsGroups t (f t x)) : s.KeepsGroups (l.foldl f s) :=
  List.foldlRecOn l f (.refl s) fun t a x _ => a.trans (hf t x)

theorem State.leaveBarriers_keepsGroups (s : State) (g : Group) (halt : Bool) :
    s.KeepsGroups (s.leaveBarriers g halt) := by
  have leave (sc home idx) (t : State) :
      t.KeepsGroups (t.barLeave sc home idx (t.arrivedIn g.uid g.arch.bars sc home idx) halt) := t.barLeave_keepsGroups _ _ _ _ _
  have arrived (p : Bool) (t u : State) (a : t.KeepsGroups u) : t.KeepsGroups (if p then u else t) := by
    cases p with
    | true => exact a
    | false => exact .refl t
  refine .trans (.trans (State.foldl_keepsGroups s _ _ ?_) (State.foldl_keepsGroups _ _ _ ?_))
    (State.foldl_keepsGroups _ _ _ ?_)
  · exact fun t i => leave _ _ _ t
  · exact fun t i => arrived _ _ _ (leave _ _ _ t)
  · exact fun t i => arrived _ _ _ (leave _ _ _ t)

theorem State.loseRebuilding_keepsGroups (s : State) (g : Group) : s.KeepsGroups (s.loseRebuilding g) := by
  refine ⟨(s.modBlock_beside _ _).keepsQueues, ?_⟩
  unfold State.loseRebuilding State.modBlock
  split <;> rfl
theorem State.withdrawPools_keepsGroups (s : State) (uid : Nat) : s.KeepsGroups (s.withdrawPools uid) :=
  ⟨⟨rfl, fun _ => rfl, fun _ => rfl⟩, rfl⟩
theorem State.dropOwn_keepsGroups (s : State) (g : Group) : s.KeepsGroups (s.dropOwn g) := ⟨s.dropOwn_keepsQueues g, rfl⟩

/-! The halt of a group (R325). -/

theorem State.cancelOps_keepsQueues (s : State) (g : Group) : s.KeepsQueues (s.cancelOps g) :=
  State.KeepsQueues.trans (t := { s with ops := s.ops.map fun (o : Op) => if o.grp == g.uid then o.cancel else o })
    ⟨rfl, fun _ => rfl, fun _ => rfl⟩ (State.modUid_beside _ _ _).keepsQueues

/-- Of a group, cancelling operations changes at most what it has yet to send. -/
theorem State.group_cancelOps (s : State) (h : Nat) (g x : Group) (hx : s.group h = some x) :
    ∃ out, (s.cancelOps g).group h = some { x with outq := out } := by
  obtain hk | hk := State.group_modUid { s with ops := s.ops.map fun (o : Op) => if o.grp == g.uid then o.cancel else o }
    g.uid h (fun x => { x with outq := x.outq.map fun (q : Req) =>
      match q.act with | .submit op => { q with act := .submit op.cancel } | _ => q }) x hx
  · exact ⟨x.outq, hk⟩
  · exact ⟨_, hk⟩

/-- Of a group that issues nothing, undoing every clause leaves no clause, and its place. -/
theorem State.group_undoAll (s : State) (h : Nat) (g : Group) (hc : g.cur = none) :
    ∃ x, (s.undoAll h g).group h = some x ∧ x.cur = none ∧ x.unret = [] ∧ x.cluster = g.cluster := by
  simp only [State.undoAll, s.undoCur_of_none h g hc, State.group_putGroup]
  split
  · next he => exact ⟨g, State.group_putGroup s h g, hc, he, rfl⟩
  · simp only [State.group_dropReplies, State.group_putGroup]
    exact ⟨_, rfl, hc, rfl, rfl⟩

theorem State.haltEffects_keepsQueues (s : State) (h : Nat) : s.KeepsQueues (s.haltEffects h) := by
  simp only [State.haltEffects]
  split
  · exact .refl s
  · next g0 _ =>
    refine (s.undoAll_keepsQueues h { g0 with deferred := [] }).trans ?_
    split
    · exact .refl _
    · exact (State.leaveBarriers_keepsGroups _ _ _).toKeepsQueues.trans
        ((State.cancelOps_keepsQueues _ _).trans
          ((State.loseRebuilding_keepsGroups _ _).trans
            ((State.withdrawPools_keepsGroups _ _).trans (State.dropOwn_keepsGroups _ _))).toKeepsQueues)

/-- A halted group has no clause left. -/
theorem State.group_haltEffects (s : State) (h : Nat) (g : Group) (hg : s.group h = some g) (hc : g.cur = none) :
    ∃ x, (s.haltEffects h).group h = some x ∧ x.cur = none ∧ x.unret = [] ∧ x.cluster = g.cluster := by
  obtain ⟨x, hx, hcur, hunret, hcl⟩ := s.group_undoAll h { g with deferred := [] } hc
  obtain ⟨out, hout⟩ := State.group_cancelOps ((s.undoAll h { g with deferred := [] }).leaveBarriers x true) h x x
    (by rw [(State.leaveBarriers_keepsGroups _ _ _).group, hx])
  refine ⟨{ x with outq := out }, ?_, hcur, hunret, hcl⟩
  simp only [State.haltEffects, hg, hx]
  rw [(State.dropOwn_keepsGroups _ _).group, (State.withdrawPools_keepsGroups _ _).group,
    (State.loseRebuilding_keepsGroups _ _).group, hout]

/-! A trap of a group (R316, R319). -/

/-- From `s`, group `h` as `x` takes the trap `tr`: it is queued once the earlier clauses have retired and there is room,
and waits till then; nothing else of the group, of memory or of the error counts changes. -/
structure State.TakesTrap (s t : State) (h : Nat) (x : Group) (tr : Trap) : Prop where
  group : ∃ hold park, t.group h = some { x with hold := hold, gpark := park } ∧
    (x.unret ≠ [] → hold = .trapping tr) ∧
    (x.unret = [] → (s.cluster x.cluster).trapQ.length < 512 → hold = .owned ∧
      (t.cluster x.cluster).trapQ = (s.cluster x.cluster).trapQ ++ [⟨true, h, tr, 0, [], 0⟩]) ∧
    (x.unret = [] → 512 ≤ (s.cluster x.cluster).trapQ.length → hold = .trapping tr)
  mem : t.mem = s.mem
  ue : ∀ k, (t.cluster k).ue = (s.cluster k).ue

/-- A trap taken after `s` turned into `t`, which has its queues. -/
theorem State.KeepsQueues.takesTrap {s t u : State} {h : Nat} {x : Group} {tr : Trap} (a : s.KeepsQueues t)
    (b : t.TakesTrap u h x tr) : s.TakesTrap u h x tr where
  group := by simpa only [a.trapQ] using b.group
  mem := b.mem.trans a.mem
  ue k := (b.ue k).trans (a.ue k)

/-- The trap that a group waits with is queued, or waits on. -/
theorem State.settleTrap_takesTrap (s : State) (h : Nat) (x : Group) (tr : Trap) (hg : s.group h = some x)
    (hh : x.hold = .trapping tr) (hc : x.cur = none) (ht : (tr.stands && tr.cls == 4) = false) :
    s.TakesTrap (s.settleTrap h) h x tr := by
  cases hu : x.unret with
  | cons r rest =>
    have hs : s.settleTrap h = s := by simp [State.settleTrap, hg, hh, hu]
    rw [hs]
    exact ⟨⟨x.hold, x.gpark, hg, by simp [hu, hh]⟩, rfl, fun _ => rfl⟩
  | nil =>
    have hs : s.settleTrap h = s.queueTrap h x tr := by
      simp only [State.settleTrap, hg, hh, hu, hc, ht]
      rfl
    rw [hs]
    simp only [State.queueTrap]
    split
    · next room =>
      refine ⟨⟨.owned, false, by simp, by simp [hu], fun _ _ => ⟨rfl, by simp⟩, fun _ full => by omega⟩, rfl, fun k => ?_⟩
      refine State.cluster_setCluster_field Cluster.ue (s.notBySave x.uid) x.cluster _ ?_ k
      rfl
    · next full =>
      exact ⟨⟨x.hold, x.gpark, by simp, fun _ => hh, fun _ room => absurd room full, fun _ _ => hh⟩, rfl, fun _ => rfl⟩

/-! The exceptions of a group (R59, R183, R185, R198, R317). -/

section kernel
variable (s : State) (h : Nat) (g : Group) (c : Cur) (hc : g.cur = some c) (hs : g.sorrel = none)
include hc hs

/-- A trap is taken at the header of its clause, which is undone. -/
theorem State.raise_trap_takesTrap (cls d addr : Nat) (lane : Word) :
    s.TakesTrap (s.raise h g (.trap cls d lane addr)) h
      { g.undone c with hold := .trapping ⟨cls, d, c.idx, lane, addr, c.hdr, false⟩ }
      ⟨cls, d, c.idx, lane, addr, c.hdr, false⟩ := by
  simp only [State.raise, State.raiseAt, hc, hs, s.group_undoCur h g c hc]
  exact ((s.undoCur_keepsQueues h g).trans (State.putGroup_keepsQueues _ _ _)).takesTrap
    (State.settleTrap_takesTrap _ h _ _ (State.group_putGroup _ h _) rfl rfl rfl)

/-- A freeze is the trap of class 2 of a frozen group. -/
theorem State.raise_freeze_takesTrap (d addr : Nat) (lane : Word) :
    s.TakesTrap (s.raise h g (.freeze d lane addr)) h
      { g.undone c with frozen := true, hold := .trapping ⟨2, d, c.idx, lane, addr, c.hdr, false⟩ }
      ⟨2, d, c.idx, lane, addr, c.hdr, false⟩ := by
  simp only [State.raise, State.raiseAt, hc, hs, s.group_undoCur h g c hc]
  exact ((s.undoCur_keepsQueues h g).trans (State.putGroup_keepsQueues _ _ _)).takesTrap
    (State.settleTrap_takesTrap _ h _ _ (State.group_putGroup _ h _) rfl rfl rfl)

end kernel

/-- One more uncorrectable error, counted up to 255. -/
def countUe (n : BitVec 8) : BitVec 8 := if n = 255 then 255 else n + 1

/-- The halt of a group: no clause of it is left, it takes the class-1 trap, and the error is counted. -/
theorem State.raise_halt_takesTrap (s : State) (h : Nat) (g : Group) (c : Cur) (hc : g.cur = some c) (hs : g.sorrel = none)
    (d : Nat) (lane : Word) :
    ∃ (t : State) (x : Group), t.TakesTrap (s.raise h g (.halt d lane)) h x
        ⟨1, d, c.idx, lane, 0, ((g.unret.map (·.hdr)) ++ [c.hdr]).headD 0, true⟩ ∧
      x.halted = true ∧ x.cur = none ∧ x.unret = [] ∧ x.after = none ∧ x.cluster = g.cluster ∧
      (t.cluster g.cluster).ue = countUe (s.cluster g.cluster).ue := by
  obtain ⟨x, hx, hcur, hunret, hcl⟩ := State.group_haltEffects _ h _ (s.group_undoCur h g c hc) rfl
  have hue := ((s.undoCur_keepsQueues h g).trans (State.haltEffects_keepsQueues _ h)).ue g.cluster
  have hue255 : (if (((s.undoCur h g).haltEffects h).cluster g.cluster).ue == 255 then 255
      else (((s.undoCur h g).haltEffects h).cluster g.cluster).ue + 1) = countUe (s.cluster g.cluster).ue := by
    simp [countUe, hue]
  simp only [State.raise, State.raiseAt, hc, hs, s.group_undoCur h g c hc, Group.undone_unret, hue255]
  rw [State.modGroup_of_some (h := h) (g := x)]
  · cases g.unret with
    | nil | cons =>
      refine ⟨_, _, State.settleTrap_takesTrap _ h _ _ (State.group_putGroup _ h _) rfl hcur rfl, rfl, hcur, hunret, rfl,
        hcl, ?_⟩
      rw [State.cluster_putGroup, State.cluster_setCluster]
  · exact hx

/-- A page fault is on an open record of its page, which gains the kind and the waiter (R183, R184). -/
theorem State.openRecord_record (s : State) (cl asid va kind part : Nat) (w : Nat × Nat) :
    ∃ r ∈ ((s.openRecord cl asid va kind part w).1.cluster cl).recs, r.seq = (s.openRecord cl asid va kind part w).2 ∧
      r.asid = asid ∧ r.vpn = va / 65536 ∧ r.kind ||| kind = r.kind ∧ w ∈ r.waiters := by
  simp only [State.openRecord]
  split
  · next r0 hfound =>
    have hmem := List.mem_of_find?_eq_some hfound
    obtain ⟨⟨_, hasid⟩, hvpn⟩ : (_ ∧ r0.asid = asid) ∧ r0.vpn = va / 65536 := by simpa using List.find?_some hfound
    refine ⟨{ r0 with kind := r0.kind ||| kind, waiters := r0.waiters ++ [w] }, ?_, rfl, hasid, hvpn, ?_, by simp⟩
    · rw [State.cluster_setCluster]
      exact List.mem_map.mpr ⟨r0, hmem, by simp⟩
    · rw [Nat.or_assoc, Nat.or_self]
  · refine ⟨⟨(s.cluster cl).nextSeq.toNat, asid, va / 65536, kind, part, false, [w]⟩, ?_, rfl, rfl, rfl, Nat.or_self kind, by simp⟩
    rw [State.cluster_setCluster]
    simp

/-- A page fault parks the group at its header and at a record of the page. -/
theorem State.raise_page (s : State) (h : Nat) (g : Group) (c : Cur) (hc : g.cur = some c) (hs : g.sorrel = none)
    (va kind : Nat) (lane : Word) :
    let rec_ := (s.undoCur h g).openRecord g.cluster g.asid va kind g.part (1, h)
    s.raise h g (.page va kind lane) = rec_.1.putGroup h
      { g.undone c with parked := some (g.cluster, rec_.2), parkVa := va, parkLane := lane } := by
  simp only [State.raise, State.raiseAt, hc, hs, s.group_undoCur h g c hc]

/-- The slices of a sub-gang at a handler, as `State.enterHandler` computes them. -/
theorem Arch.moved_slices (a : Arch) (gang : List Nat) (handler : Pc) (d : Slice) :
    ((List.range a.slices.length).map fun j =>
      if gang.contains j && (a.slices.getD j d).live then { a.slices.getD j d with pc := handler } else a.slices.getD j d) =
    (a.moved gang fun _ sl => { sl with pc := handler }).slices := by
  refine List.ext_getElem (by simp [Arch.moved]) fun j hj _ => ?_
  have hlt : j < a.slices.length := by simpa using hj
  simp [Arch.moved, List.getD_eq_getElem?_getD, List.getElem?_eq_getElem hlt]

/-- Below depth 4 a loss or table handler is entered in the group (R198). -/
theorem State.enterHandler_of_lt (s : State) (h : Nat) (g : Group) (gang : List Nat) (hr : Pc) (word cls : Nat)
    (handler : Pc) (id off cause : Nat) (hd : g.arch.lhret.length < 4) :
    s.enterHandler h g gang hr word cls handler id off cause = s.putGroup h { g with arch :=
      { (g.arch.moved gang fun _ sl => { sl with pc := handler }) with
        lhret := hr :: g.arch.lhret, lossid := BitVec.ofNat 32 id, lossaddr := BitVec.ofNat 32 off,
        tbcause := if cls == 7 then BitVec.ofNat 32 cause else g.arch.tbcause } } := by
  simp only [State.enterHandler, show ¬4 ≤ g.arch.lhret.length by omega, if_false, Arch.moved_slices]
  rfl

/-- At depth 4 the group takes the trap with detail 15 (R17). -/
theorem State.enterHandler_takesTrap (s : State) (h : Nat) (g : Group) (gang : List Nat) (hr : Pc) (word cls : Nat)
    (handler : Pc) (id off cause : Nat) (hc : g.cur = none) (hd : 4 ≤ g.arch.lhret.length) :
    s.TakesTrap (s.enterHandler h g gang hr word cls handler id off cause) h
      { g with hold := .trapping ⟨cls, 15, word, noLane, 0, hr, false⟩ } ⟨cls, 15, word, noLane, 0, hr, false⟩ := by
  simp only [State.enterHandler, hd, if_true]
  exact (s.putGroup_keepsQueues h _).takesTrap
    (State.settleTrap_takesTrap _ h _ _ (State.group_putGroup _ h _) rfl hc rfl)

/-- A loss or table fault of a word enters its handler from the undone clause's header. -/
theorem State.raise_inGroup (s : State) (h : Nat) (g : Group) (c : Cur) (hc : g.cur = some c) (hs : g.sorrel = none)
    (cls id off cause : Nat) (pc : Pc) :
    s.raise h g (.inGroup cls pc id off cause) =
      (s.undoCur h g).enterHandler h (g.undone c) c.gang c.hdr c.idx cls pc id off cause := by
  simp only [State.raise, State.raiseAt, hc, hs, s.group_undoCur h g c hc]

theorem Group.cur_of_atBoundary (g : Group) (hb : g.atBoundary = true) : g.cur = none := by
  cases hc : g.cur with
  | none => rfl
  | some c => simp [Group.atBoundary, hc] at hb

/-- One deferred fault of class 6 or 7 that is due at a boundary enters its handler with word 15 (R193, R319). -/
theorem execDeferredFaultDelivery_of_single (s : State) (h : Nat) (g : Group) (d : Deferred) (gang : List Nat)
    (hg : s.group h = some g) (hb : g.atBoundary = true) (hu : g.unret = []) (hd : g.deferred = [d])
    (hn : g.arch.nextGang = some gang) (hdel : s.deliverable g d = true)
    (hlive : d.gang.any g.arch.liveSlices.contains = true) (hcls : d.cls = 6 ∨ d.cls = 7) (hr : d.restart = none) :
    execDeferredFaultDelivery h s = .next (s.enterHandler h { g with deferred := [] } gang g.restartPc 15 d.cls d.handler
      d.obj d.addr (if d.cls == 7 then d.lane else 0)) := by
  have hkeep : (g.deferred.filter fun d => d.gang.any g.arch.liveSlices.contains) = g.deferred := by simp [hd, hlive]
  have hsame : ({ g with deferred := g.deferred.filter fun d => d.gang.any g.arch.liveSlices.contains } : Group) = g := by
    rw [hkeep]
  have hfind : g.deferred.find? (s.deliverable g) = some d := by simp [hd, hdel]
  have hgone : g.deferred.filter (· != d) = [] := by simp [hd]
  have hc : (d.cls == 6 || d.cls == 7) = true := by simpa using hcls
  simp only [execDeferredFaultDelivery, hg]
  rw [hsame, hkeep]
  simp only [hb, hu, hfind, hgone, hn, hr, hc]
  rfl

/-! The end of a handler context at its own fault (R59, R315, R341). -/

/-- The newest record of a cluster reports a cluster error, on which nothing waits. -/
def Cluster.reportsError (c : Cluster) : Prop := ∃ r, c.recs.getLast? = some r ∧ r.kind = 0 ∧ r.waiters = []

/-- Records that lose waiters go on reporting. -/
theorem State.pruneWaiters_reportsError (s : State) (cl k : Nat) (hr : (s.cluster k).reportsError) :
    ((s.pruneWaiters cl).cluster k).reportsError := by
  by_cases hk : k = cl
  · subst hk
    obtain ⟨r, hlast, hkind, hw⟩ := hr
    rw [State.pruneWaiters, State.cluster_setCluster]
    exact ⟨{ r with waiters := r.waiters.filter s.stillWaits }, by simp [hlast], hkind, by simp [hw]⟩
  · rw [State.pruneWaiters, s.cluster_setCluster_other cl k _ hk]
    exact hr

theorem State.undoCur_reportsError (s : State) (h k : Nat) (g : Group) (c : Cur) (hc : g.cur = some c)
    (hr : (s.cluster k).reportsError) : ((s.undoCur h g).cluster k).reportsError := by
  rw [s.undoCur_of_cur h g c hc]
  refine State.pruneWaiters_reportsError _ _ k ?_
  exact ((s.undoList_beside g.core c.undo).cluster k).symm ▸ hr

/-- Undoing a clause adds no request. -/
theorem State.mem_reqs_of_undoCur {s : State} {h : Nat} {g : Group} {c : Cur} {r : Req} (hc : g.cur = some c)
    (hr : r ∈ (s.undoCur h g).reqs) : r ∈ s.reqs := by
  rw [s.undoCur_of_cur h g c hc] at hr
  exact (s.undoList_beside g.core c.undo).reqs ▸ State.mem_reqs_of_dropReplies hr
theorem State.undoCur_ops (s : State) (h : Nat) (g : Group) (c : Cur) (hc : g.cur = some c) :
    (s.undoCur h g).ops = s.ops := by
  rw [s.undoCur_of_cur h g c hc]
  exact (s.undoList_beside g.core c.undo).ops

/-- Of another group, undoing a clause leaves what its undo records leave. -/
theorem State.group_undoCur_other (s : State) (h k : Nat) (g : Group) (c : Cur) (hc : g.cur = some c) (n : k ≠ h) :
    (s.undoCur h g).group k = (c.undo.foldl (fun s u => s.applyUndo g.core u.2) s).group k := by
  rw [s.undoCur_of_cur h g c hc, State.group_dropReplies, State.group_putGroup_other _ h k _ n]

/-- The end of a launch reaches no group, cluster or memory, and no request or operation. -/
theorem State.launchEndCheck_beside (s : State) (l : Nat) :
    s.Beside (s.launchEndCheck l) ∧ (s.launchEndCheck l).groups = s.groups := by
  simp only [State.launchEndCheck]
  split
  · exact ⟨.refl s, rfl⟩
  · split
    · exact ⟨.refl s, rfl⟩
    · refine List.foldlRecOn (motive := fun t : State => s.Beside t ∧ t.groups = s.groups) _ _ ⟨⟨rfl, rfl, rfl, rfl⟩, rfl⟩ ?_
      intro t ht core _
      split
      · exact ht
      · exact ⟨ht.1.trans ⟨rfl, rfl, rfl, rfl⟩, ht.2⟩

/-- A handler context that is removed. -/
theorem State.removeGroup_of_context (s : State) (h : Nat) (g : Group) (hs : g.sorrel.isSome = true) :
    s.removeGroup h g = ((({ s with groups := s.groups.del h } : State).dropOwn g).launchEndCheck g.launch) := by
  simp [State.removeGroup, hs]

section removed
variable (s : State) (h : Nat) (g : Group) (hs : g.sorrel.isSome = true)
include hs

theorem State.groups_removeGroup : (s.removeGroup h g).groups = s.groups.del h := by
  rw [s.removeGroup_of_context h g hs, (State.launchEndCheck_beside _ _).2]
  rfl
theorem State.group_removeGroup : (s.removeGroup h g).group h = none := by
  rw [State.group, s.groups_removeGroup h g hs, Store.find_del_same]
theorem State.group_removeGroup_other (k : Nat) (n : k ≠ h) : (s.removeGroup h g).group k = s.group k := by
  rw [State.group, s.groups_removeGroup h g hs, Store.find_del_other _ _ _ n]
  rfl
theorem State.removeGroup_mem : (s.removeGroup h g).mem = s.mem := by
  rw [s.removeGroup_of_context h g hs, (State.launchEndCheck_beside _ _).1.mem]
  rfl
theorem State.removeGroup_reportsError (k : Nat) (hr : (s.cluster k).reportsError) :
    ((s.removeGroup h g).cluster k).reportsError := by
  rw [s.removeGroup_of_context h g hs, (State.launchEndCheck_beside _ _).1.cluster]
  exact State.pruneWaiters_reportsError _ _ k hr

/-- An ended handler context stays, or is removed. -/
theorem State.reap_context (hg : s.group h = some g) : s.reap h = s ∨ s.reap h = s.removeGroup h g := by
  have hfree : s.freeContext h g = s := by simp [State.freeContext, hs]
  simp only [State.reap, hg, hfree]
  split
  · split
    · exact .inr rfl
    · exact .inl rfl
  · exact .inl rfl

end removed

/-- Nothing keeps an ended handler context that has no clause, request or operation. -/
theorem State.reap_context_idle (s : State) (h : Nat) (g : Group) (hg : s.group h = some g) (he : g.ended = true)
    (hu : g.unret = []) (hc : g.cur = none) (ha : g.after = none) (hout : g.outq = [])
    (hreqs : ∀ r ∈ s.reqs, r.grp ≠ g.uid) (hops : ∀ o ∈ s.ops, o.grp ≠ g.uid) :
    s.reap h = s.removeGroup h g := by
  have hops' : (s.ops.any (·.grp == g.uid)) = false := by simpa using hops
  have hreqs' : (s.reqs.any fun r => r.grp == g.uid && !r.act.own) = false := by
    simpa using fun r hr he => absurd he (hreqs r hr)
  simp [State.reap, hg, he, hu, hc, ha, hout, hops', hreqs']

/-- The report of a cluster error, as a record without a waiter (R341). -/
def State.reportError (s : State) (cl asid : Nat) : State :=
  let c := s.cluster cl
  s.setCluster cl { c with nextSeq := c.nextSeq + 1, recs := c.recs ++
    [{ seq := c.nextSeq.toNat, asid := asid, vpn := 0, kind := 0, part := 0, sent := false, waiters := [] }] }

theorem State.reportError_reportsError (s : State) (cl asid : Nat) : ((s.reportError cl asid).cluster cl).reportsError := by
  rw [State.reportError, State.cluster_setCluster]
  exact ⟨_, List.getLast?_concat, rfl, rfl⟩

/-- The handler context that has ended at a fault. -/
def Group.atEnd (g : Group) : Group :=
  { g with ended := true, after := none, serves := none, deferred := [], hold := .free, parked := none }

/-- A held group without the handler that owned it. -/
def Group.unowned (g : Group) : Group := if g.hold == .owned then { g with hold := .held } else g

/-- The group that a context served stays held, without an owner. -/
def State.unowned (s : State) (served : Option Nat) : State :=
  match served with
  | some t => s.modGroup t Group.unowned
  | none => s

/-- The state in which a faulting handler context, its clause undone, is about to go. -/
def State.contextEnded (s : State) (h : Nat) (g : Group) (cl : Nat) : State :=
  (((s.reportError cl g.asid).undoCur h g).modGroup h Group.atEnd).unowned g.serves

/-- A handler context's fault: the error is reported, the clause undone, and the context ends. -/
theorem State.contextFault_eq (s : State) (h : Nat) (g : Group) (cl : Nat) :
    s.contextFault h g cl = (s.contextEnded h g cl).reap h := rfl

theorem State.unowned_beside (s : State) (served : Option Nat) : s.Beside (s.unowned served) := by
  cases served with
  | none => exact .refl s
  | some t => exact s.modGroup_beside t _

/-- A group that no handler owned is not changed. -/
theorem State.group_disown (s : State) (served : Option Nat) (k : Nat) (g : Group) (hg : s.group k = some g)
    (hh : g.hold ≠ .owned) : (s.unowned served).group k = some g := by
  cases served with
  | none => exact hg
  | some t =>
    by_cases hk : k = t
    · subst hk
      simp [State.unowned, State.group_modGroup, hg, Group.unowned, hh]
    · rw [State.unowned, s.group_modGroup_other t k _ hk, hg]

theorem State.contextEnded_mem (s : State) (h : Nat) (g : Group) (cl : Nat) : (s.contextEnded h g cl).mem = s.mem := by
  rw [State.contextEnded, (State.unowned_beside _ _).mem, (State.modGroup_beside _ _ _).mem,
    (State.undoCur_keepsQueues _ _ _).mem]
  rfl

section context
variable (s : State) (h : Nat) (g : Group) (c : Cur) (hc : g.cur = some c)
include hc

theorem State.group_contextEnded (cl : Nat) : (s.contextEnded h g cl).group h = some (g.undone c).atEnd := by
  refine State.group_disown _ _ h _ ?_ (by simp [Group.atEnd])
  rw [State.group_modGroup, State.group_undoCur _ h g c hc]
  rfl

theorem State.contextEnded_ops (cl : Nat) : (s.contextEnded h g cl).ops = s.ops := by
  rw [State.contextEnded, (State.unowned_beside _ _).ops, (State.modGroup_beside _ _ _).ops, State.undoCur_ops _ h g c hc]
  rfl

theorem State.mem_reqs_of_contextEnded {cl : Nat} {r : Req} (hr : r ∈ (s.contextEnded h g cl).reqs) : r ∈ s.reqs := by
  rw [State.contextEnded, (State.unowned_beside _ _).reqs, (State.modGroup_beside _ _ _).reqs] at hr
  exact State.mem_reqs_of_undoCur (s := s.reportError cl g.asid) hc hr

theorem State.contextEnded_reportsError (cl : Nat) : ((s.contextEnded h g cl).cluster cl).reportsError := by
  rw [State.contextEnded, (State.unowned_beside _ _).cluster, (State.modGroup_beside _ _ _).cluster]
  exact State.undoCur_reportsError _ h cl g c hc (s.reportError_reportsError cl g.asid)

end context

theorem Group.windowWrite_hold (g : Group) (off : Nat) (x : Word) : (g.windowWrite off x).hold = g.hold := by
  simp only [Group.windowWrite]
  repeat' split
  all_goals rfl

/-- Taking a window write back leaves the group held. -/
theorem Group.windowBack_hold (g : Group) (ws : List (Nat × Option Word)) (x : Word) : (g.windowBack ws x).hold = g.hold := by
  have back := List.foldlRecOn (motive := fun t : Group => t.hold = g.hold) ws (fun (g : Group) w => match w.2 with
    | some old => g.windowWrite w.1 old
    | none => { g with win := g.win.del w.1 }) rfl fun t ht w _ => by
      split
      · rw [Group.windowWrite_hold, ht]
      · exact ht
  simp only [Group.windowBack]
  split <;> exact back

/-- The clause of a context that wrote one window word takes it back (R59, R321). -/
theorem State.group_contextEnded_window (s : State) (h : Nat) (g : Group) (c : Cur) (hc : g.cur = some c) (cl n k : Nat)
    (t : Group) (ws : List (Nat × Option Word)) (x : Word) (hu : c.undo = [(n, .window k t.uid ws x)])
    (ht : s.group k = some t) (hk : k ≠ h) (hlive : t.halted = false) (hheld : t.hold = .held) :
    (s.contextEnded h g cl).group k = some (t.windowBack ws x) := by
  refine State.group_disown _ _ k _ ?_ (by rw [Group.windowBack_hold, hheld]; decide)
  rw [State.group_modGroup_other _ h k _ hk, State.group_undoCur_other _ h k g c hc hk, hu]
  have hsame : (s.reportError cl g.asid).group k = some t := ht
  simp [State.applyUndo, State.group_modGroup, hsame, hlive, hheld]

/-! The statement. -/

/-- Traps and freezes. -/
theorem State.raise_trap_or_freeze (s : State) (h : Nat) (g : Group) (c : Cur) (hc : g.cur = some c) (hs : g.sorrel = none)
    (cls d addr : Nat) (lane : Word) :
    ∀ e ∈ [(Fate.trap cls d lane addr, cls, false), (.freeze d lane addr, 2, true)],
      let tr : Trap := ⟨e.2.1, d, c.idx, lane, addr, c.hdr, false⟩
      s.TakesTrap (s.raise h g e.1) h { g.undone c with frozen := g.frozen || e.2.2, hold := .trapping tr } tr := by
  intro e he
  obtain rfl | rfl : e = (Fate.trap cls d lane addr, cls, false) ∨ e = (.freeze d lane addr, 2, true) := by simpa using he
  · simpa using s.raise_trap_takesTrap h g c hc hs cls d addr lane
  · simpa using s.raise_freeze_takesTrap h g c hc hs d addr lane

theorem Group.undone_atEnd_isContext (g : Group) (c : Cur) (cl : Nat) (hs : g.sorrel = some cl) :
    (g.undone c).atEnd.sorrel.isSome = true := by simp [Group.atEnd, hs]

section context
variable (s : State) (h : Nat) (g : Group) (c : Cur) (hc : g.cur = some c) (f : Fate) (cl : Nat) (hs : g.sorrel = some cl)
include hc hs

theorem State.raise_context_eq_reap : s.raise h g f = (s.contextEnded h g cl).reap h := by
  simp only [State.raise, State.raiseAt, hc, hs, State.contextFault_eq]

/-- A handler context that faults stays, ended, or is removed. -/
theorem State.raise_context :
    s.raise h g f = s.contextEnded h g cl ∨
      s.raise h g f = (s.contextEnded h g cl).removeGroup h (g.undone c).atEnd := by
  rw [s.raise_context_eq_reap h g c hc f cl hs]
  exact State.reap_context _ h _ (g.undone_atEnd_isContext c cl hs) (s.group_contextEnded h g c hc cl)

/-- What holds of the state with the ended context, and is kept when the context is removed, holds after its fault. -/
theorem State.raise_context_of (P : State → Prop) (hstays : P (s.contextEnded h g cl))
    (hgoes : P ((s.contextEnded h g cl).removeGroup h (g.undone c).atEnd)) : P (s.raise h g f) := by
  obtain hr | hr := s.raise_context h g c hc f cl hs
  · rwa [hr]
  · rwa [hr]

/-- Where the context still stands, it has ended, and its earlier clauses stand. -/
theorem State.group_raise_context {g' : Group} : (s.raise h g f).group h = some g' → (g.undone c).atEnd = g' :=
  s.raise_context_of h g c hc f cl hs (fun t => t.group h = some g' → (g.undone c).atEnd = g')
    (fun hg' => Option.some.inj ((s.group_contextEnded h g c hc cl).symm.trans hg'))
    (by simp [State.group_removeGroup _ h _ (g.undone_atEnd_isContext c cl hs)])

/-- A context without earlier clauses, requests or operations is gone. -/
theorem State.group_raise_context_idle (hu : g.unret = []) (hout : g.outq = []) (hreqs : ∀ r ∈ s.reqs, r.grp ≠ g.uid)
    (hops : ∀ o ∈ s.ops, o.grp ≠ g.uid) : (s.raise h g f).group h = none := by
  rw [s.raise_context_eq_reap h g c hc f cl hs,
    State.reap_context_idle _ h _ (s.group_contextEnded h g c hc cl) rfl hu rfl rfl hout
      (fun r hr => hreqs r (s.mem_reqs_of_contextEnded h g c hc hr))
      (by rw [s.contextEnded_ops h g c hc cl]; exact hops)]
  exact State.group_removeGroup _ h _ (g.undone_atEnd_isContext c cl hs)

theorem State.raise_context_mem : (s.raise h g f).mem = s.mem :=
  s.raise_context_of h g c hc f cl hs (·.mem = s.mem) (s.contextEnded_mem h g cl)
    ((State.removeGroup_mem _ h _ (g.undone_atEnd_isContext c cl hs)).trans (s.contextEnded_mem h g cl))

/-- The fault is reported as a cluster error. -/
theorem State.raise_context_reportsError : ((s.raise h g f).cluster cl).reportsError :=
  s.raise_context_of h g c hc f cl hs (fun t => (t.cluster cl).reportsError) (s.contextEnded_reportsError h g c hc cl)
    (State.removeGroup_reportsError _ h _ (g.undone_atEnd_isContext c cl hs) cl (s.contextEnded_reportsError h g c hc cl))

/-- What the faulting clause wrote to a held group's window is taken back. -/
theorem State.group_raise_context_window (n k : Nat) (t : Group) (ws : List (Nat × Option Word)) (x : Word)
    (hu : c.undo = [(n, .window k t.uid ws x)]) (ht : s.group k = some t) (hk : k ≠ h) (hlive : t.halted = false)
    (hheld : t.hold = .held) : (s.raise h g f).group k = some (t.windowBack ws x) := by
  have hback := s.group_contextEnded_window h g c hc cl n k t ws x hu ht hk hlive hheld
  exact s.raise_context_of h g c hc f cl hs (fun u => u.group k = some (t.windowBack ws x)) hback
    ((State.group_removeGroup_other _ h _ (g.undone_atEnd_isContext c cl hs) k hk).trans hback)

end context

/-- Settles O55: a fault undoes the clause under way, and then the class decides. -/
theorem takingAnException : Obligations.TakingAnException := by
  unfold Obligations.TakingAnException
  refine ⟨fun s h g c _ hc => ⟨fun hs => ⟨?_, ?_, ?_, ?_⟩, ?_⟩, ?_⟩
  case refine_1 =>
    intro cls d addr lane e he tr
    obtain ⟨⟨hold, park, hg', hwait, hroom, hfull⟩, hmem, -⟩ := s.raise_trap_or_freeze h g c hc hs cls d addr lane e he
    exact ⟨_, hg', rfl, rfl, rfl, rfl, hmem, hwait, hroom, hfull⟩
  case refine_2 =>
    intro d lane
    obtain ⟨t, x, ht, hhalt, hcur, hunret, hafter, hcl, hue⟩ := s.raise_halt_takesTrap h g c hc hs d lane
    obtain ⟨⟨hold, park, hg', -, hroom, hfull⟩, -, hkeep⟩ := ht
    refine ⟨_, hg', hhalt, hcur, hunret, hafter, ⟨⟨1, d, c.idx, lane, 0, _, true⟩, rfl, rfl, rfl, rfl, ?_⟩, (hkeep _).trans hue⟩
    by_cases hlen : (t.cluster x.cluster).trapQ.length < 512
    · obtain ⟨hown, hq⟩ := hroom hunret hlen
      exact .inr ⟨hown, by rw [← hcl, hq]; exact List.mem_concat_self⟩
    · exact .inl (hfull hunret (by omega))
  case refine_3 =>
    intro va kind lane
    rw [s.raise_page h g c hc hs va kind lane]
    exact ⟨_, _, State.group_putGroup _ h _, rfl, rfl, rfl, rfl, State.openRecord_record _ _ _ _ _ _ _⟩
  case refine_4 =>
    intro cls id off cause pc t
    have ht : t = _ := s.raise_inGroup h g c hc hs cls id off cause pc
    refine ⟨fun hd => ?_, fun hd => ?_⟩
    · rw [ht, State.enterHandler_of_lt _ _ (g.undone c) _ _ _ _ _ _ _ _ hd]
      exact ⟨_, State.group_putGroup _ h _, rfl, rfl, rfl, rfl, rfl, fun h7 => by simp [h7], rfl⟩
    · obtain ⟨⟨hold, park, hg', hwait, hroom, -⟩, -, -⟩ := (s.undoCur_keepsQueues h g).takesTrap
        (State.enterHandler_takesTrap _ h (g.undone c) c.gang c.hdr c.idx cls pc id off cause rfl hd)
      rw [ht]
      exact ⟨_, hg', rfl, rfl, hwait, hroom⟩
  case refine_5 =>
    intro cl f hs
    refine ⟨fun g' hg' => ?_, s.group_raise_context_idle h g c hc f cl hs, s.raise_context_mem h g c hc f cl hs,
      s.raise_context_reportsError h g c hc f cl hs, fun n k t ws x hu ht hk hlive hheld =>
      s.group_raise_context_window h g c hc f cl hs n k t ws x hu ht hk hlive hheld⟩
    obtain rfl := s.group_raise_context h g c hc f cl hs hg'
    exact ⟨rfl, rfl, rfl, rfl⟩
  case refine_6 =>
    intro s h g d gang hg hb hu hd hn hdel hlive hcls hr hdepth hlen
    obtain ⟨⟨hold, park, hg', -, hroom, -⟩, -, -⟩ := s.enterHandler_takesTrap h { g with deferred := [] } gang g.restartPc 15
      d.cls d.handler d.obj d.addr (if d.cls == 7 then d.lane else 0)
      (g.cur_of_atBoundary hb) hdepth
    obtain ⟨hown, hq⟩ := hroom hu hlen
    exact ⟨_, _, execDeferredFaultDelivery_of_single s h g d gang hg hb hu hd hn hdel hlive hcls hr, hg', hown, rfl, hq⟩
end Sys2Proof.Machine
end

section
/-! PROOF. Control flow (O26 to O31). A control word changes the live slices of its sub-gang in ascending order
(`Arch.eachSlice`) and then looks for a REGANG meeting (`Arch.meet`). Each of the two has one lemma for every outcome, a
control word is put together from them (`control_ok`, `control_error`, `control_meet_error`), and what remains of a word is
what it does to one slice. -/

namespace Sys2Proof.Machine

theorem sext_toNat {n : Nat} (x : BitVec n) (hn : n ≠ 0) : sext x.toNat n = x.toInt := by
  have hx := x.isLt
  have htwo : 2 ^ n = 2 * 2 ^ (n - 1) := by rw [← Nat.pow_succ', Nat.succ_eq_add_one, Nat.sub_add_cancel (by omega)]
  rw [BitVec.toInt_eq_toNat_cond, sext]
  simp only [Nat.mod_eq_of_lt hx, beq_iff_eq, hn, if_false]
  split <;> split <;> omega

/-- A branch target with its signed offset read as an integer (R67). -/
@[simp] theorem target_toNat {n : Nat} (h : Pc) (off : BitVec n) (hn : n ≠ 0) :
    target h off.toNat n = h + BitVec.ofInt 52 (4 * off.toInt) := by
  rw [target, sext_toNat off hn]

/-! The pop sequence (R88). -/

/-- A slice whose tokens name no lane that has not exited, while some lane has not: its pop sequence finds nothing. -/
def Slice.drained (sl : Slice) : Prop := sl.em ≠ 15 ∧ ∀ t ∈ sl.toks, t.mask &&& ~~~sl.em = 0

theorem popSeq_nil_of_exited (sl : Slice) (h : sl.em = 15) : popSeq sl [] = .ok sl.finish := by simp [popSeq, h]
theorem popSeq_nil_of_live (sl : Slice) (h : sl.em ≠ 15) : popSeq sl [] = .error (ctlFault 1) := by
  simp only [popSeq, beq_iff_eq, h, if_false]
theorem popSeq_cons_of_lane (sl : Slice) (t : Token) (r : List Token) (h : t.mask &&& ~~~sl.em ≠ 0) :
    popSeq sl (t :: r) = .ok { sl with am := t.mask &&& ~~~sl.em, pc := t.target, toks := r } := by
  simp only [popSeq, bne_iff_ne, ne_eq, h, not_false_eq_true, if_true]
theorem popSeq_cons_of_no_lane (sl : Slice) (t : Token) (r : List Token) (h : t.mask &&& ~~~sl.em = 0) :
    popSeq sl (t :: r) = popSeq { sl with am := t.mask &&& ~~~sl.em, pc := t.target, toks := r } r := by
  simp only [popSeq, h, bne_self_eq_false, Bool.false_eq_true, if_false]

theorem popSeq_of_no_lane (toks : List Token) : ∀ (sl : Slice), sl.em ≠ 15 → (∀ t ∈ toks, t.mask &&& ~~~sl.em = 0) →
    popSeq sl toks = .error (ctlFault 1) := by
  induction toks with
  | nil => exact fun sl he _ => popSeq_nil_of_live sl he
  | cons t r ih =>
    intro sl he hmask
    rw [popSeq_cons_of_no_lane sl t r (hmask t List.mem_cons_self)]
    exact ih _ he fun u hu => hmask u (List.mem_cons_of_mem t hu)

theorem Slice.pop_of_drained (sl : Slice) (h : sl.drained) : sl.pop = .error (ctlFault 1) :=
  popSeq_of_no_lane sl.toks sl h.1 h.2

/-- Settles O26: the sequence follows the list of tokens. -/
theorem popSequence : Obligations.PopSequence := by
  unfold Obligations.PopSequence
  refine fun sl => ⟨fun hnil he => ?_, fun hnil he => ?_, fun t r ht => ⟨fun ham => ?_, fun ham => ?_⟩⟩
  · rw [Slice.pop, hnil, popSeq_nil_of_exited sl he, Slice.finish, he]
  · rw [Slice.pop, hnil, popSeq_nil_of_live sl he, ctlFault]
  · rw [Slice.pop, ht, popSeq_cons_of_lane sl t r ham]
  · rw [Slice.pop, ht, popSeq_cons_of_no_lane sl t r ham]
    rfl

/-! Every live slice of a sub-gang, in ascending order. -/

section eachSlice
variable (gang : List Nat) (f : Nat → Slice → Except Fate Slice)

/-- From slice number `j` on: where every slice that takes part moves by `q`, the list does. -/
theorem Arch.eachSlice_go_ok (q : Nat → Slice → Slice) (l : List Slice) : ∀ j,
    (∀ i sl, l[i]? = some sl → gang.contains (j + i) = true → sl.live = true → f (j + i) sl = .ok (q (j + i) sl)) →
    Arch.eachSlice.go gang f j l =
      .ok (l.mapIdx fun i sl => if gang.contains (j + i) && sl.live then q (j + i) sl else sl) := by
  induction l with
  | nil => exact fun _ _ => rfl
  | cons sl r ih =>
    intro j hf
    have hhead : (if gang.contains j && sl.live then f j sl else .ok sl) =
        .ok (if gang.contains j && sl.live then q j sl else sl) := by
      split
      · next h =>
        obtain ⟨hg, hl⟩ := Bool.and_eq_true_iff.mp h
        exact hf 0 sl rfl hg hl
      · rfl
    have htail := ih (j + 1) fun i x hx => by
      have := hf (i + 1) x (by simpa using hx)
      rwa [show j + (i + 1) = j + 1 + i by omega] at this
    simp only [Arch.eachSlice.go, hhead, htail, List.mapIdx_cons, Nat.add_zero, Nat.add_assoc, Nat.add_comm 1]

/-- From slice number `j` on: the slice that fails decides, where those before it move or fail in the same way. -/
theorem Arch.eachSlice_go_error (e : Fate) (sl : Slice) (l : List Slice) : ∀ i j, l[i]? = some sl →
    gang.contains (j + i) = true → sl.live = true → f (j + i) sl = .error e →
    (∀ k x, k < i → l[k]? = some x → gang.contains (j + k) = true → x.live = true →
      f (j + k) x = .error e ∨ ∃ y, f (j + k) x = .ok y) →
    Arch.eachSlice.go gang f j l = .error e := by
  induction l with
  | nil => exact fun i j hi => by simp at hi
  | cons x r ih =>
    intro i j hi hg hl he hbefore
    cases i with
    | zero =>
      obtain rfl : x = sl := by simpa using hi
      rw [Nat.add_zero] at hg he
      simp only [Arch.eachSlice.go, hg, hl, he, Bool.and_self, if_true]
    | succ i =>
      have hhead : (if gang.contains j && x.live then f j x else .ok x) = .error e ∨
          ∃ y, (if gang.contains j && x.live then f j x else .ok x) = .ok y := by
        split
        · next h =>
          obtain ⟨hgx, hlx⟩ := Bool.and_eq_true_iff.mp h
          exact hbefore 0 x (Nat.succ_pos i) rfl hgx hlx
        · exact .inr ⟨x, rfl⟩
      have hshift (k : Nat) : j + (k + 1) = j + 1 + k := by omega
      have htail := ih i (j + 1) (by simpa using hi) (hshift i ▸ hg) hl (hshift i ▸ he) fun k y hk hy => by
        have := hbefore (k + 1) y (by omega) (by simpa using hy)
        rwa [hshift] at this
      obtain hx | ⟨y, hx⟩ := hhead
      · simp only [Arch.eachSlice.go, hx]
      · simp only [Arch.eachSlice.go, hx, htail]

variable {gang f} {a : Arch}

theorem Arch.eachSlice_ok {q : Nat → Slice → Slice} (h : ∀ j sl, a.hasSlice gang j sl → f j sl = .ok (q j sl)) :
    a.eachSlice gang f = .ok (a.moved gang q) := by
  have hgo := Arch.eachSlice_go_ok gang f q a.slices 0 fun i sl hi hg hl => by
    rw [Nat.zero_add] at hg ⊢
    exact h i sl ⟨hi, hg, hl⟩
  simp only [Nat.zero_add] at hgo
  simp only [Arch.eachSlice, hgo, Arch.moved]

theorem Arch.eachSlice_error {j : Nat} {sl : Slice} {e : Fate} (hj : a.hasSlice gang j sl) (he : f j sl = .error e)
    (hbefore : ∀ k x, k < j → a.hasSlice gang k x → f k x = .error e ∨ ∃ y, f k x = .ok y) :
    a.eachSlice gang f = .error e := by
  obtain ⟨hsl, hg, hl⟩ := hj
  have hgo := Arch.eachSlice_go_error gang f e sl a.slices j 0 hsl (by simpa using hg) hl (by simpa using he)
    fun k x hk hx hgx hlx => by
      rw [Nat.zero_add] at hgx ⊢
      exact hbefore k x hk ⟨hx, hgx, hlx⟩
  simp only [Arch.eachSlice, hgo]

end eachSlice

/-! A meeting of the live slices (R97). -/

/-- The slices after a meeting at address `h`: each goes on at H + 8, and all form the sub-gang of the lowest. -/
def Arch.met (a : Arch) (h : Pc) : Arch :=
  { a with slices := a.slices.map fun sl =>
      if sl.live then { sl with pc := h + 8, arr := none, gang := a.liveSlices.headD 0 } else sl }

section meet
variable {a : Arch}

theorem Arch.meet_of_noMeeting (h : a.noMeeting) : a.meet = .ok a := by
  simp only [Arch.meet]
  split
  · rfl
  · next f r hlive =>
    obtain ⟨sl, hsl, hl, harr⟩ | hnone := h
    · have hmem : sl ∈ f :: r := hlive ▸ List.mem_filter.mpr ⟨hsl, hl⟩
      have hany : ((f :: r).any (·.arr == none)) = true := List.any_eq_true.mpr ⟨sl, hmem, by simp [harr]⟩
      rw [hlive, if_pos hany]
    · have hf : f ∈ a.slices.filter Slice.live := hlive ▸ List.mem_cons_self
      obtain ⟨hmem, hl⟩ := List.mem_filter.mp hf
      simp [hnone f hmem] at hl

/-- Where live slices have all arrived, they meet or fault, as they agree or not. -/
theorem Arch.meet_of_arrived (hsome : ∃ sl ∈ a.slices, sl.live = true)
    (harr : ∀ sl ∈ a.slices, sl.live = true → sl.arr ≠ none) :
    ∃ f ∈ a.slices, f.live = true ∧ a.meet =
      if (a.slices.filter Slice.live).all fun sl => sl.arr == f.arr && sl.pc == f.pc then
        .ok { a with slices := a.slices.map fun sl =>
          if sl.live then { sl with pc := sl.pc + 8, arr := none, gang := a.liveSlices.headD 0 } else sl }
      else .error (ctlFault 5) := by
  have hnot : ((a.slices.filter Slice.live).any (·.arr == none)) = false := by
    simpa using harr
  simp only [Arch.meet]
  split
  · next hnil =>
    obtain ⟨sl, hsl, hl⟩ := hsome
    exact absurd hl (List.filter_eq_nil_iff.mp hnil sl hsl)
  · next f r hlive =>
    have hf : f ∈ a.slices.filter Slice.live := hlive ▸ List.mem_cons_self
    obtain ⟨hmem, hl⟩ := List.mem_filter.mp hf
    exact ⟨f, hmem, hl, by rw [hnot]; rfl⟩

theorem Arch.meet_of_together {id : BitVec 8} {h : Pc} (hsome : ∃ sl ∈ a.slices, sl.live = true)
    (hat : ∀ sl ∈ a.slices, sl.live = true → sl.arr = some id ∧ sl.pc = h) : a.meet = .ok (a.met h) := by
  obtain ⟨f, hf, hl, hmeet⟩ := Arch.meet_of_arrived hsome fun sl hsl hl => by simp [(hat sl hsl hl).1]
  obtain ⟨hfarr, hfpc⟩ := hat f hf hl
  have hall : ((a.slices.filter Slice.live).all fun sl => sl.arr == f.arr && sl.pc == f.pc) = true := by
    simp only [List.all_eq_true, List.mem_filter]
    rintro sl ⟨hsl, hl⟩
    simp [hat sl hsl hl, hfarr, hfpc]
  have hmap : (a.slices.map fun sl =>
      if sl.live then { sl with pc := sl.pc + 8, arr := none, gang := a.liveSlices.headD 0 } else sl) = (a.met h).slices := by
    refine List.map_congr_left fun sl hsl => ?_
    split
    · next hl => rw [(hat sl hsl hl).2]
    · rfl
  rw [hmeet, hall, if_pos rfl, hmap]
  rfl

theorem Arch.meet_of_differ
    (hdiffer : ∃ x ∈ a.slices, ∃ y ∈ a.slices, x.live = true ∧ y.live = true ∧ ¬(x.arr = y.arr ∧ x.pc = y.pc))
    (harr : ∀ sl ∈ a.slices, sl.live = true → sl.arr ≠ none) : a.meet = .error (ctlFault 5) := by
  obtain ⟨x, hx, y, hy, hlx, hly, hne⟩ := hdiffer
  obtain ⟨f, -, -, hmeet⟩ := Arch.meet_of_arrived ⟨x, hx, hlx⟩ harr
  rw [hmeet, if_neg]
  intro hall
  simp only [List.all_eq_true, Bool.and_eq_true, beq_iff_eq] at hall
  obtain ⟨hxa, hxp⟩ := hall x (List.mem_filter.mpr ⟨hx, hlx⟩)
  obtain ⟨hya, hyp⟩ := hall y (List.mem_filter.mpr ⟨hy, hly⟩)
  exact hne ⟨hxa.trans hya.symm, hxp.trans hyp.symm⟩

end meet

/-! A control word: its slices move, then they may meet. -/

section control
variable {s : State} {g : Group} {c : Cur} {f : Arch → Cur → Nat → Slice → Except Fate Slice} (hi : s.Issues g c)
include hi

theorem control_ok {q : Nat → Slice → Slice} {a : Arch}
    (hf : ∀ j sl, g.arch.hasSlice c.gang j sl → f g.arch c j sl = .ok (q j sl))
    (hm : (g.arch.moved c.gang q).meet = .ok a) : control s f = .next (s.withArch g a) :=
  issueArch_ok s _ g c a hi.1 hi.2 (by simp [Arch.eachSlice_ok hf, hm])

theorem control_meet_error {q : Nat → Slice → Slice} {e : Fate}
    (hf : ∀ j sl, g.arch.hasSlice c.gang j sl → f g.arch c j sl = .ok (q j sl))
    (hm : (g.arch.moved c.gang q).meet = .error e) : control s f = .next (s.raise s.who g e) :=
  issueArch_error s _ g c e hi.1 hi.2 (by simp [Arch.eachSlice_ok hf, hm])

/-- A slice fails, and every lower one moves or fails in the same way. -/
theorem control_error {j : Nat} {sl : Slice} {e : Fate} (hj : g.arch.hasSlice c.gang j sl) (he : f g.arch c j sl = .error e)
    (hbefore : ∀ k x, k < j → g.arch.hasSlice c.gang k x → f g.arch c k x = .error e ∨ ∃ y, f g.arch c k x = .ok y) :
    control s f = .next (s.raise s.who g e) :=
  issueArch_error s _ g c e hi.1 hi.2 (by simp [Arch.eachSlice_error hj he hbefore])

/-- The lowest slice fails. -/
theorem control_error_of_lowest {j : Nat} {sl : Slice} {e : Fate} (hj : g.arch.hasSlice c.gang j sl)
    (hlow : ∀ k x, k < j → ¬ g.arch.hasSlice c.gang k x) (he : f g.arch c j sl = .error e) :
    control s f = .next (s.raise s.who g e) :=
  control_error hi hj he fun k x hk hx => absurd hx (hlow k x hk)

end control

/-! What each word does to one slice. -/

theorem execNext_eq (s : State) : execNext s = control s fun _ _ _ sl => sl.pop := rfl
theorem execExit_eq (s : State) : execExit s = control s fun _ _ _ sl => ({ sl with em := sl.em ||| sl.am } : Slice).pop := rfl
theorem execRegang_eq (id : BitVec 8) (s : State) : execRegang id s = control s fun _ c _ sl =>
    .ok { sl with pc := c.hdr, arr := some id } := rfl

/-- A token is pushed and the slice goes to `pc`, where the stack of 16 has room (LOOP, CALL, MCALL). -/
def Slice.push (sl : Slice) (t : Token) (pc : Pc) : Except Fate Slice :=
  if sl.toks.length == 16 then .error (ctlFault 0) else .ok { sl with toks := t :: sl.toks, pc := pc }

theorem Slice.push_of_lt (sl : Slice) (t : Token) (pc : Pc) (h : sl.toks.length < 16) :
    sl.push t pc = .ok { sl with toks := t :: sl.toks, pc := pc } := by simp [Slice.push, Nat.ne_of_lt h]
theorem Slice.push_of_full (sl : Slice) (t : Token) (pc : Pc) (h : sl.toks.length = 16) :
    sl.push t pc = .error (ctlFault 0) := by simp [Slice.push, h]
theorem Slice.push_error_or_ok (sl : Slice) (t : Token) (pc : Pc) :
    sl.push t pc = .error (ctlFault 0) ∨ ∃ y, sl.push t pc = .ok y := by
  unfold Slice.push
  split
  · exact .inl rfl
  · exact .inr ⟨_, rfl⟩

theorem execLoop_eq (off : BitVec 18) (s : State) : execLoop off s = control s fun _ c _ sl =>
    sl.push ⟨.brk, c.hdr + BitVec.ofInt 52 (4 * off.toInt), sl.am⟩ sl.pc := by
  simp only [← target_toNat _ off (by decide)]
  rfl
theorem execCall_eq (off : BitVec 18) (s : State) : execCall off s = control s fun _ c _ sl =>
    sl.push ⟨.call, c.nextPc, sl.am⟩ (c.hdr + BitVec.ofInt 52 (4 * off.toInt)) := by
  simp only [← target_toNat _ off (by decide)]
  rfl
theorem execMcall_eq (m : BitVec 6) (w1 w2 : Word) (s : State) : execMcall m w1 w2 s = control s fun _ c _ sl =>
    sl.push ⟨.call, c.nextPc, sl.am⟩ (BitVec.ofNat 52 (0xFFFFFFFFFE000 + 128 * m.toNat)) := rfl

/-- The slice with only the lanes `x` of an IF left, its JOIN token and, where lanes fail, its ELSE token pushed. -/
def Slice.branched (sl : Slice) (x : BitVec 4) (els join : Pc) : Slice :=
  { sl with
    am := x
    toks := (if sl.am &&& ~~~x = 0 then [] else [⟨.els, els, sl.am &&& ~~~x⟩]) ++ ⟨.join, join, sl.am⟩ :: sl.toks }

/-- IF on one slice, of which the lanes `x` pass (R92). -/
def Slice.ifLanes (sl : Slice) (x : BitVec 4) (els join : Pc) : Except Fate Slice :=
  if 16 < (sl.branched x els join).toks.length then .error (ctlFault 0)
  else if x = 0 then (sl.branched x els join).pop else .ok (sl.branched x els join)

section ifLanes
variable (sl : Slice) (x : BitVec 4) (els join : Pc)

theorem Slice.branched_length :
    (sl.branched x els join).toks.length = sl.toks.length + 1 + (if sl.am &&& ~~~x ≠ 0 then 1 else 0) := by
  simp only [Slice.branched, ne_eq, ite_not]
  split <;> simp

theorem Slice.ifLanes_of_full (h : 16 < (sl.branched x els join).toks.length) :
    sl.ifLanes x els join = .error (ctlFault 0) := by simp [Slice.ifLanes, h]
theorem Slice.ifLanes_of_no_lane (h : (sl.branched x els join).toks.length ≤ 16) (hx : x = 0) :
    sl.ifLanes x els join = (sl.branched x els join).pop := by rw [Slice.ifLanes, if_neg (Nat.not_lt.mpr h), if_pos hx]
theorem Slice.ifLanes_of_lane (h : (sl.branched x els join).toks.length ≤ 16) (hx : x ≠ 0) :
    sl.ifLanes x els join = .ok (sl.branched x els join) := by rw [Slice.ifLanes, if_neg (Nat.not_lt.mpr h), if_neg hx]

end ifLanes

theorem execIfI_eq (p : Pred) (off : BitVec 18) (join : Word) (s : State) : execIfI p off join s = control s fun a c j sl =>
    sl.ifLanes (a.execMask j sl.am p) (c.hdr + BitVec.ofInt 52 (4 * off.toInt)) (c.hdr + BitVec.ofInt 52 (4 * join.toInt)) := by
  unfold execIfI
  congr 1
  funext a c j sl
  rw [Slice.ifLanes, Slice.branched_length, target_toNat _ off (by decide), target_toNat _ join (by decide)]
  by_cases he : sl.am &&& ~~~(a.execMask j sl.am p) = 0
  · simp only [Slice.branched, he, beq_iff_eq, ne_eq, not_true, bne_self_eq_false, Bool.false_eq_true, if_true,
      if_false, List.nil_append]
  · simp only [Slice.branched, he, bne_iff_ne, beq_iff_eq, ne_eq, not_false_eq_true, if_true, if_false,
      List.singleton_append]

theorem breakToks_of_brk (x : BitVec 4) (above : List Token) (t : Token) (r : List Token) (ht : t.kind = .brk)
    (habove : ∀ u ∈ above, u.kind ≠ .brk ∧ u.kind ≠ .call) :
    breakToks x (above ++ t :: r) = some (above.map (fun u => { u with mask := u.mask &&& ~~~x }) ++ t :: r) := by
  induction above with
  | nil => simp [breakToks, ht]
  | cons u us ih =>
    obtain ⟨hbrk, hcall⟩ := habove u List.mem_cons_self
    have htail := ih fun v hv => habove v (List.mem_cons_of_mem u hv)
    cases hu : u.kind with
    | brk => exact absurd hu hbrk
    | call => exact absurd hu hcall
    | els | join => simp [breakToks, hu, htail]

theorem breakToks_eq_none (x : BitVec 4) (toks : List Token)
    (h : ∀ above t r, toks = above ++ t :: r → t.kind = .brk → ∃ u ∈ above, u.kind = .call) : breakToks x toks = none := by
  induction toks with
  | nil => rfl
  | cons u us ih =>
    cases hu : u.kind with
    | brk =>
      obtain ⟨v, hv, -⟩ := h [] u us rfl hu
      simp at hv
    | call => simp [breakToks, hu]
    | els | join =>
      have htail : breakToks x us = none := ih fun above t r hus ht => by
        obtain ⟨v, hv, hcall⟩ := h (u :: above) t r (by rw [hus]; rfl) ht
        obtain rfl | hv := List.mem_cons.mp hv
        · simp [hu] at hcall
        · exact ⟨v, hv, hcall⟩
      simp [breakToks, hu, htail]

/-- BRK on one slice, of which the lanes `x` execute it (R93). -/
def Slice.breakLanes (sl : Slice) (x : BitVec 4) : Except Fate Slice :=
  match breakToks x sl.toks with
  | none => .error (ctlFault 4)
  | some ts =>
    let sl1 := { sl with am := sl.am &&& ~~~x, toks := ts }
    if sl1.am == 0 then sl1.pop else .ok sl1

theorem execBrk_eq (p : Pred) (s : State) :
    execBrk p s = control s fun a _ j sl => sl.breakLanes (a.execMask j sl.am p) := rfl

/-- The slice without the lanes `x`, in its active mask and in the tokens above its BREAK token. -/
def Slice.broken (sl : Slice) (x : BitVec 4) (above rest : List Token) : Slice :=
  { sl with am := sl.am &&& ~~~x, toks := above.map (fun u => { u with mask := u.mask &&& ~~~x }) ++ rest }

section breakLanes
variable (sl : Slice) (x : BitVec 4)

theorem Slice.breakLanes_of_no_brk
    (h : ∀ above t r, sl.toks = above ++ t :: r → t.kind = .brk → ∃ u ∈ above, u.kind = .call) :
    sl.breakLanes x = .error (ctlFault 4) := by
  rw [Slice.breakLanes, breakToks_eq_none x sl.toks h]

variable {above r : List Token} {t : Token} (hsplit : sl.toks = above ++ t :: r) (ht : t.kind = .brk)
  (habove : ∀ u ∈ above, u.kind ≠ .brk ∧ u.kind ≠ .call)
include hsplit ht habove

theorem Slice.breakLanes_of_no_lane (hx : sl.am &&& ~~~x = 0) :
    sl.breakLanes x = (sl.broken x above (t :: r)).pop := by
  simp only [Slice.breakLanes, hsplit, breakToks_of_brk x above t r ht habove, hx, beq_self_eq_true, if_true, Slice.broken]
theorem Slice.breakLanes_of_lane (hx : sl.am &&& ~~~x ≠ 0) :
    sl.breakLanes x = .ok (sl.broken x above (t :: r)) := by
  simp only [Slice.breakLanes, hsplit, breakToks_of_brk x above t r ht habove, beq_iff_eq, hx, if_false, Slice.broken]

end breakLanes

/-- RET on one slice (R94). -/
def Slice.ret (sl : Slice) : Except Fate Slice :=
  let above := sl.toks.takeWhile (·.kind != .call)
  match sl.toks.drop above.length with
  | [] => .error (ctlFault 3)
  | ts => if above.any fun t => t.mask &&& ~~~sl.em != 0 then .error (ctlFault 2) else ({ sl with toks := ts } : Slice).pop

theorem execRet_eq (s : State) : execRet s = control s fun _ _ _ sl => sl.ret := rfl

section ret
variable (sl : Slice)

theorem Slice.ret_of_no_call (h : ∀ t ∈ sl.toks, t.kind ≠ .call) : sl.ret = .error (ctlFault 3) := by
  have hall : sl.toks.takeWhile (·.kind != .call) = sl.toks := by
    simpa only [List.append_nil, List.takeWhile_nil] using
      List.takeWhile_append_of_pos (l₂ := []) fun t ht => bne_iff_ne.mpr (h t ht)
  simp [Slice.ret, hall]

variable {above r : List Token} {t : Token} (hsplit : sl.toks = above ++ t :: r) (ht : t.kind = .call)
  (habove : ∀ u ∈ above, u.kind ≠ .call)
include hsplit ht habove

theorem Slice.ret_of_call :
    sl.ret = if above.any fun u => u.mask &&& ~~~sl.em != 0 then .error (ctlFault 2)
      else ({ sl with toks := t :: r } : Slice).pop := by
  have htake : sl.toks.takeWhile (·.kind != .call) = above := by
    rw [hsplit, List.takeWhile_append_of_pos (by simpa using habove), List.takeWhile_cons_of_neg (by simp [ht]), List.append_nil]
  have hdrop : sl.toks.drop above.length = t :: r := by rw [hsplit, List.drop_left]
  simp only [Slice.ret, htake, hdrop]

theorem Slice.ret_of_masked (h : ∃ u ∈ above, u.mask &&& ~~~sl.em ≠ 0) : sl.ret = .error (ctlFault 2) := by
  rw [sl.ret_of_call hsplit ht habove, if_pos (by simpa using h)]
theorem Slice.ret_of_clear (h : ∀ u ∈ above, u.mask &&& ~~~sl.em = 0) : sl.ret = ({ sl with toks := t :: r } : Slice).pop := by
  rw [sl.ret_of_call hsplit ht habove, if_neg (by simpa using h)]

end ret

/-- What a word leaves of a slice: it pops where its last lane has gone. -/
theorem pop_or_stay {P : Prop} [Decidable P] {x r : Slice} {e : Except Fate Slice}
    (h : if P then x.pop = .ok r else r = x) (hpop : P → e = x.pop)
    (hstay : ¬P → e = .ok x) : e = .ok r := by
  split at h
  · next hp => rw [hpop hp, h]
  · next hp => rw [hstay hp, h]

/-- Settles O27: each word by what it does to one slice, with no meeting after it. -/
theorem divergenceWords : Obligations.DivergenceWords := by
  unfold Obligations.DivergenceWords
  intro s g c hi q hn runs
  have moves {f : Arch → Cur → Nat → Slice → Except Fate Slice}
      (hf : ∀ j sl, g.arch.hasSlice c.gang j sl → f g.arch c j sl = .ok (q j sl)) :
      control s f = .next (s.withArch g (g.arch.moved c.gang q)) := control_ok hi hf (Arch.meet_of_noMeeting hn)
  refine ⟨fun p off join h => ?ifWord, fun h => (execNext_eq s).trans (moves h), fun h => (execExit_eq s).trans (moves h),
    fun off h => ?loopWord, fun p h => ?brkWord, fun off h => ?callWord, fun m w1 w2 h => ?mcallWord, fun h => ?retWord⟩
  case ifWord =>
    refine (execIfI_eq p off join s).trans (moves fun j sl hj => ?_)
    obtain ⟨hfit, hq⟩ := h j sl hj
    exact pop_or_stay hq (Slice.ifLanes_of_no_lane sl _ _ _ hfit) (Slice.ifLanes_of_lane sl _ _ _ hfit)
  case loopWord =>
    refine (execLoop_eq off s).trans (moves fun j sl hj => ?_)
    obtain ⟨hlt, hq⟩ := h j sl hj
    rw [hq, Slice.push_of_lt _ _ _ hlt]
  case brkWord =>
    refine (execBrk_eq p s).trans (moves fun j sl hj => ?_)
    obtain ⟨above, t, r, hsplit, ht, habove, hq⟩ := h j sl hj
    exact pop_or_stay hq (Slice.breakLanes_of_no_lane sl _ hsplit ht habove) (Slice.breakLanes_of_lane sl _ hsplit ht habove)
  case callWord =>
    refine (execCall_eq off s).trans (moves fun j sl hj => ?_)
    obtain ⟨hlt, hq⟩ := h j sl hj
    rw [hq, Slice.push_of_lt _ _ _ hlt, Cur.nextPc]
  case mcallWord =>
    refine (execMcall_eq m w1 w2 s).trans (moves fun j sl hj => ?_)
    obtain ⟨hlt, hq⟩ := h j sl hj
    rw [hq, Slice.push_of_lt _ _ _ hlt, Cur.nextPc]
  case retWord =>
    refine (execRet_eq s).trans (moves fun j sl hj => ?_)
    obtain ⟨above, t, r, hsplit, ht, habove, hpop⟩ := h j sl hj
    rw [Slice.ret_of_clear sl hsplit ht (fun u hu => (habove u hu).1) (fun u hu => (habove u hu).2), hpop]

/-- Where a slice's stack is full, a word that pushes one token on every slice overflows. -/
theorem control_push_of_full {s : State} {g : Group} {c : Cur} (hi : s.Issues g c) {j : Nat} {sl : Slice}
    (hj : g.arch.hasSlice c.gang j sl) (hfull : sl.toks.length = 16) (tok : Cur → Slice → Token) (pc : Cur → Slice → Pc) :
    (control s fun _ c _ sl => sl.push (tok c sl) (pc c sl)) = .next (s.raise s.who g (ctlFault 0)) :=
  control_error hi hj (Slice.push_of_full _ _ _ hfull) fun _ x _ _ => Slice.push_error_or_ok x _ _

/-- Settles O28: a full stack fails in every slice alike, and of the other faults the lowest slice decides. -/
theorem controlFaults : Obligations.ControlFaults := by
  unfold Obligations.ControlFaults
  intro s g c hi
  refine ⟨fun j sl hj hfull off m w1 w2 i hmem => ?_, fun j sl hj hlow => ?_⟩
  · obtain rfl | rfl | rfl : i = .loop off ∨ i = .call off ∨ i = .mcall m w1 w2 := by simpa using hmem
    · exact (execLoop_eq off s).trans (control_push_of_full hi hj hfull _ _)
    · exact (execCall_eq off s).trans (control_push_of_full hi hj hfull _ _)
    · exact (execMcall_eq m w1 w2 s).trans (control_push_of_full hi hj hfull _ _)
  · have fails {f : Arch → Cur → Nat → Slice → Except Fate Slice} {e : Fate} (he : f g.arch c j sl = .error e) :
        control s f = .next (s.raise s.who g e) := control_error_of_lowest hi hj hlow he
    refine ⟨?ifOverflow, ?retNoCall, ?retMasked, ?brkNoBreak, ?nextEmpty, ?exitEmpty, ?ifEmpty, ?brkEmpty, ?retEmpty⟩
    case ifOverflow =>
      intro p off join e hover
      exact (execIfI_eq p off join s).trans (fails (Slice.ifLanes_of_full _ _ _ _ (by rwa [Slice.branched_length])))
    case retNoCall => exact fun hnone => (execRet_eq s).trans (fails (sl.ret_of_no_call hnone))
    case retMasked =>
      exact fun above t r hsplit ht habove hmask => (execRet_eq s).trans (fails (sl.ret_of_masked hsplit ht habove hmask))
    case brkNoBreak => exact fun p hnone => (execBrk_eq p s).trans (fails (sl.breakLanes_of_no_brk _ hnone))
    case nextEmpty => exact fun hd => (execNext_eq s).trans (fails (sl.pop_of_drained hd))
    case exitEmpty => exact fun hd => (execExit_eq s).trans (fails (Slice.pop_of_drained _ hd))
    case ifEmpty =>
      intro p off join hx toks hfit hd
      have hall : sl.am &&& ~~~(0 : BitVec 4) = sl.am := by
        rw [BitVec.ofNat_eq_ofNat, BitVec.not_zero, BitVec.and_allOnes]
      have hb : sl.branched 0 (c.hdr + BitVec.ofInt 52 (4 * off.toInt)) (c.hdr + BitVec.ofInt 52 (4 * join.toInt)) =
          { sl with am := 0, toks := toks } := by simp only [Slice.branched, hall, toks]
      refine (execIfI_eq p off join s).trans (fails ?_)
      rw [hx, Slice.ifLanes_of_no_lane _ _ _ _ (by rwa [hb]) rfl, hb]
      exact Slice.pop_of_drained _ hd
    case brkEmpty =>
      intro p above t r hsplit ht habove x hx hd
      refine (execBrk_eq p s).trans (fails ?_)
      rw [Slice.breakLanes_of_no_lane sl x hsplit ht habove hx]
      exact Slice.pop_of_drained _ hd
    case retEmpty =>
      intro above t r hsplit ht habove hd
      refine (execRet_eq s).trans (fails ?_)
      rw [Slice.ret_of_clear sl hsplit ht (fun u hu => (habove u hu).1) (fun u hu => (habove u hu).2)]
      exact Slice.pop_of_drained _ hd

/-- Settles O29: REGANG and EXIT move their slices; then the live slices wait, meet or differ. -/
theorem regangMeets : Obligations.RegangMeets := by
  unfold Obligations.RegangMeets
  intro s g c id hi a
  have waits {a' : Arch} (hm : a.meet = .ok a') : exec (.regang id) s = .next (s.withArch g a') :=
    (execRegang_eq id s).trans (control_ok hi (fun _ _ _ => rfl) hm)
  have fails (hm : a.meet = .error (ctlFault 5)) : exec (.regang id) s = .next (s.raise s.who g (ctlFault 5)) :=
    (execRegang_eq id s).trans (control_meet_error hi (fun _ _ _ => rfl) hm)
  refine ⟨fun hn => waits (Arch.meet_of_noMeeting hn), fun hsome hat => waits (Arch.meet_of_together hsome hat),
    fun hdiffer harr => fails (Arch.meet_of_differ hdiffer harr), ?_⟩
  intro q hq a1 harr
  exact ⟨fun h hsome hat => (execExit_eq s).trans (control_ok hi hq (Arch.meet_of_together hsome hat)),
    fun hdiffer => (execExit_eq s).trans (control_meet_error hi hq (Arch.meet_of_differ hdiffer harr))⟩

/-! SPAWN (R100). -/

/-- A reserved bit of the literal words of SPAWN is set. -/
def spawnReserved (w1 w2 w3 : Word) : Prop := 2 ^ 13 ≤ w1.toNat ∨ 2 ^ 24 ≤ w2.toNat ∨ 2 ^ 24 ≤ w3.toNat

theorem spawnReserved_iff (w1 w2 w3 : Word) :
    (w1.toNat / 2 ^ 13 != 0 || w2.toNat / 2 ^ 24 != 0 || w3.toNat / 2 ^ 24 != 0) = true ↔ spawnReserved w1 w2 w3 := by
  simp only [Bool.or_eq_true, bne_iff_ne, ne_eq, Nat.div_eq_zero_iff, spawnReserved]
  omega

/-- Vector registers that SPAWN asks for, and the uniform registers that it passes on. -/
def spawnVregs (w1 : Word) : Nat := (w1.toNat / 512 % 16 + 1) * 8
def spawnRegs (w2 w3 : Word) : List Nat :=
  ((List.range 4).map fun i => w2.toNat / 64 ^ i % 64) ++ ((List.range 4).map fun i => w3.toNat / 64 ^ i % 64)

/-- The child in context `ctx`. -/
def spawnChild (g : Group) (c : Cur) (off : BitVec 18) (w1 w2 w3 : Word) (ctx : Nat) : Child :=
  ⟨ctx, w1.toNat / 64 % 8 + 1, spawnVregs w1, c.hdr + BitVec.ofInt 52 (4 * off.toInt), (spawnRegs w2 w3).map g.arch.readS⟩

section spawn
variable {s : State} {g : Group} {c : Cur} (hi : s.Issues g c) (off : BitVec 18) {w1 w2 w3 : Word}
include hi

theorem execSpawn_of_reserved (h : spawnReserved w1 w2 w3) : execSpawn off w1 w2 w3 s = .next (s.raise s.who g illegal) :=
  issue_error s _ g c illegal hi.1 hi.2 (if_pos ((spawnReserved_iff w1 w2 w3).mpr h))

variable (h : ¬ spawnReserved w1 w2 w3)
include h

theorem execSpawn_of_no_context (hctx : s.freeCtx g.core = []) :
    execSpawn off w1 w2 w3 s = .next (s.withArch g (g.arch.writeS (w1.toNat % 64) 1)) := by
  refine issue_ok s _ g c s { g with arch := g.arch.writeS (w1.toNat % 64) 1 } hi.1 hi.2 ?_
  rw [if_neg (mt (spawnReserved_iff w1 w2 w3).mp h), hctx]

variable {ctx : Nat} {r : List Nat} (hctx : s.freeCtx g.core = ctx :: r)
include hctx

theorem execSpawn_of_few_vregs (hv : s.freeVregs g.core < spawnVregs w1) :
    execSpawn off w1 w2 w3 s = .next (s.withArch g (g.arch.writeS (w1.toNat % 64) 2)) := by
  refine issue_ok s _ g c s { g with arch := g.arch.writeS (w1.toNat % 64) 2 } hi.1 hi.2 ?_
  rw [if_neg (mt (spawnReserved_iff w1 w2 w3).mp h), hctx]
  exact if_pos hv

/-- With room, the context and the registers are reserved, and the creation of the child is held. -/
theorem execSpawn_of_room (hv : spawnVregs w1 ≤ s.freeVregs g.core) (hclean : g.arch.badUs (spawnRegs w2 w3) = false) :
    execSpawn off w1 w2 w3 s = .next (({ (s.setCore g.core { s.core g.core with
        resv := (s.core g.core).resv ++ [(ctx, spawnVregs w1)] }) with nextId := s.nextId + 1 } : State).putGroup s.who
      { g with arch := g.arch.writeS (w1.toNat % 64) 0,
               cur := some ((c.hold (mkReq g c s.nextId (.spawn (spawnChild g c off w1 w2 w3 ctx)))).takesBack s.nextId
                 [.child ctx]) }) := by
  refine issue_ok s _ g c _ _ hi.1 hi.2 ?_
  rw [if_neg (mt (spawnReserved_iff w1 w2 w3).mp h), hctx, spawnChild, ← target_toNat c.hdr off (by decide)]
  exact (if_neg (Nat.not_lt.mpr hv)).trans (if_neg (Bool.eq_false_iff.mp hclean))

end spawn

theorem spawnRegs_clean (a : Arch) (w2 w3 : Word)
    (h : ∀ k < 4, a.badS (w2.toNat / 64 ^ k % 64) = false ∧ a.badS (w3.toNat / 64 ^ k % 64) = false) :
    a.badUs (spawnRegs w2 w3) = false := by
  rw [Arch.badUs, spawnRegs, List.any_append, Bool.or_eq_false_iff]
  constructor
  · simpa using fun k hk => (h k hk).1
  · simpa using fun k hk => (h k hk).2

/-- Settles O30: by what SPAWN finds free. -/
theorem spawnReserves : Obligations.SpawnReserves := by
  unfold Obligations.SpawnReserves
  intro s g c off w1 w2 w3 hi sd v
  refine ⟨fun h1 h2 h3 => ?_, execSpawn_of_reserved hi off⟩
  have h : ¬ spawnReserved w1 w2 w3 := by unfold spawnReserved; omega
  refine ⟨execSpawn_of_no_context hi off h, fun ctx r hctx =>
    ⟨execSpawn_of_few_vregs hi off h hctx, fun hv hclean => ⟨_, _, execSpawn_of_room hi off h hctx hv
      (spawnRegs_clean g.arch w2 w3 hclean), ?_, ?_, State.group_putGroup _ _ _, rfl, rfl, rfl⟩⟩⟩
  · exact congrArg Core.resv (Store.get_set_same s.cores g.core _ Core.reset)
  · rw [mkReq, spawnChild, spawnRegs, List.map_append, List.map_map, List.map_map]
    rfl

/-! Words that change no register, slice or memory (R104). -/

section plain
variable {s : State} {g : Group} {c : Cur} (hi : s.Issues g c) (d : Nat) (code : BitVec 16)
include hi

/-- The marking of a clause for a trap of class 10. -/
theorem service_eq : service d code.toNat s =
    .next (s.putGroup s.who { g with cur := some { c with trap := c.trap <|> some (d, code.toNat, c.idx) } }) :=
  issue_ok s _ g c _ _ hi.1 hi.2 rfl

/-- SYSC is a service word outside handler contexts. -/
theorem execSysc_eq (hs : g.sorrel = none) : execSysc code s = service 3 code.toNat s := by
  rw [service_eq hi]
  exact issue_ok s _ g c _ _ hi.1 hi.2 (if_neg (by simp [hs]))

theorem service_of_unmarked (ht : c.trap = none) : service d code.toNat s =
    .next (s.putGroup s.who { g with cur := some { c with trap := some (d, code.toNat, c.idx) } }) := by
  rw [service_eq hi, ht]
  rfl
/-- The first mark of a clause stands. -/
theorem service_of_marked (ht : c.trap ≠ none) : service d code.toNat s = .next (s.putGroup s.who g) := by
  obtain ⟨x, hx⟩ := Option.ne_none_iff_exists'.mp ht
  have hfirst : (c.trap <|> some (d, code.toNat, c.idx)) = c.trap := by
    rw [hx]
    rfl
  have hsame : { g with cur := some { c with trap := c.trap } } = g :=
    congrArg (fun x : Option Cur => { g with cur := x }) hi.2.symm
  rw [service_eq hi, hfirst, hsame]

end plain

/-- Settles O31: BKPT, TRAPU and SYSC are service words of their own detail. -/
theorem plainWords : Obligations.PlainWords := by
  unfold Obligations.PlainWords
  intro s g c hi
  have hnop : execNop s = .next (s.withArch g g.arch) := issueArch_ok s _ g c g.arch hi.1 hi.2 rfl
  have hyield : execYield s = .next (s.putGroup s.who { g with cur := some { c with yld := true } }) :=
    issue_ok s _ g c _ _ hi.1 hi.2 rfl
  refine ⟨hnop, hyield, fun code e he hs => ?_⟩
  have hservice : exec e.1 s = service e.2 code.toNat s := by
    obtain rfl | rfl | rfl : e = (.bkpt code, 1) ∨ e = (.trapu code, 2) ∨ e = (.sysc code, 3) := by simpa using he
    · rfl
    · rfl
    · exact execSysc_eq hi code (hs rfl)
  rw [hservice]
  exact ⟨service_of_unmarked hi e.2 code, service_of_marked hi e.2 code⟩

end Sys2Proof.Machine
end

section
/-! PROOF. Integer words (O2, O8 to O10, O15). A uniform word with clean sources computes on the registers and writes one
operand (`uniform_ok`, `ssForm_ok`), a VV word with clean sources writes one word in each executing lane (`vvForm_ok`).
What remains of a word is its function on integers against the one that the statement gives. -/

namespace Sys2Proof.Machine

/-! Words cut to their width (R84). -/

theorem ofNat_wrap (x : Int) (n : Nat) : BitVec.ofNat n (wrap x n) = BitVec.ofInt n x := by
  rw [wrap, ← BitVec.toNat_ofInt, BitVec.ofNat_toNat, BitVec.setWidth_eq]

theorem ofNat_mod (x n k : Nat) (h : n ≤ k) : BitVec.ofNat n (x % 2 ^ k) = BitVec.ofNat n x := by
  apply BitVec.eq_of_toNat_eq
  rw [BitVec.toNat_ofNat, BitVec.toNat_ofNat, Nat.mod_mod_of_dvd x (Nat.pow_dvd_pow 2 h)]

theorem ofNat_add_mul_two_pow (x y : Word) (k : Nat) : BitVec.ofNat 32 (y.toNat + x.toNat * 2 ^ k) = y + x <<< k := by
  apply BitVec.eq_of_toNat_eq
  rw [BitVec.toNat_ofNat, BitVec.toNat_add, BitVec.toNat_shiftLeft, Nat.shiftLeft_eq, Nat.add_mod_mod]

/-! Uniform forms (R110 to R112). -/

@[simp] theorem Arch.writeU_single (a : Arch) (n x : Nat) : a.writeU n false x = a.writeS n (BitVec.ofNat 32 x) := rfl
@[simp] theorem Arch.readU_single (a : Arch) (n : Nat) : a.readU n false = (a.readS n).toNat := rfl

/-- A pair and a single register take no more than 64 bits of what is written. -/
theorem Arch.writeU_mod (a : Arch) (n : Nat) (pair : Bool) (x : Nat) : a.writeU n pair (x % 2 ^ 64) = a.writeU n pair x := by
  cases pair with
  | false => exact congrArg (a.writeS n) (ofNat_mod x 32 64 (by decide))
  | true =>
    have hhigh : x % 2 ^ 64 / 2 ^ 32 = x / 2 ^ 32 % 2 ^ 32 := by omega
    simp only [Arch.writeU, if_true, Arch.writeS64, hhigh, ofNat_mod x 32 64 (by decide), ofNat_mod (x / 2 ^ 32) 32 32 (Nat.le_refl 32)]

section uniform
variable {s : State} {g : Group} {c : Cur} (hi : s.Issues g c)
include hi

theorem uniform_ok {srcs : List Nat} {f : Arch → Arch} (hclean : g.arch.badUs srcs = false) :
    uniform s srcs f = .next (s.withArch g (f g.arch)) :=
  issueArch_ok s _ g c _ hi.1 hi.2 (by simp [hclean])

variable {o : SS}

/-- A form's result is written as it is: the cut to 64 bits changes no register. -/
theorem ssForm_ok {r : SSRule} {f : Nat → Nat → Nat} (hclean : g.arch.badUs (ssSrcs o r) = false) :
    ssForm o r f s = .next (s.withArch g (g.arch.writeU o.d.toNat (ssWide o && r.pd)
      (f (g.arch.readU o.a.toNat (ssWide o && r.pa)) (g.arch.ssB o (ssWide o && r.pb))))) := by
  rw [ssForm, uniform_ok hi hclean, Arch.writeU_mod]

/-- All three operands have the type's width. -/
theorem ssForm_ss3_ok {f : Nat → Nat → Nat} (hclean : g.arch.badUs (ssSrcs o ss3) = false) :
    ssForm o ss3 f s = .next (s.withArch g (g.arch.writeU o.d.toNat (ssWide o)
      (f (g.arch.readU o.a.toNat (ssWide o)) (g.arch.ssB o (ssWide o))))) := by
  simpa only [ss3, Bool.and_true] using ssForm_ok hi (f := f) hclean

/-- The count of a shift is a single register. -/
theorem ssForm_ssShift_ok {f : Nat → Nat → Nat} (hclean : g.arch.badUs (ssSrcs o ssShift) = false) :
    ssForm o ssShift f s = .next (s.withArch g (g.arch.writeU o.d.toNat (ssWide o)
      (f (g.arch.readU o.a.toNat (ssWide o)) (g.arch.ssB o false)))) := by
  simpa only [ssShift, Bool.and_true, Bool.and_false] using ssForm_ok hi (f := f) hclean

theorem execSmov_ok (hclean : g.arch.badUs (ssSrcs o ssMov) = false) :
    execSmov o s = .next (s.withArch g (g.arch.writeU o.d.toNat (ssWide o) (g.arch.ssB o (ssWide o)))) := by
  rw [execSmov, ssForm_ok hi hclean]
  simp only [ssMov, Bool.and_true]

theorem ssArith_ok {f : Int → Int → Int} (hclean : g.arch.badUs (ssSrcs o ss3) = false) :
    ssArith o ss3 f s = .next (s.withArch g (g.arch.writeU o.d.toNat (ssWide o)
      (wrap (f (uniA g.arch o) (uniB g.arch o)) (ssBits o)))) :=
  ssForm_ss3_ok hi hclean

end uniform

/-- Settles O8: six forms of one shape, told apart by their function on integers. -/
theorem uniformArithmetic : Obligations.UniformArithmetic := by
  unfold Obligations.UniformArithmetic
  intro s g c o hi hclean e he
  simp only [List.mem_cons, List.not_mem_nil, or_false] at he
  obtain rfl | rfl | rfl | rfl | rfl | rfl := he
  · exact ssArith_ok hi (f := (· + ·)) hclean
  · exact ssArith_ok hi (f := (· - ·)) hclean
  · exact ssArith_ok hi (f := (· * ·)) hclean
  · exact ssArith_ok hi (f := fun x y => x * y / ((2 ^ ssBits o : Nat) : Int)) hclean
  · exact ssArith_ok hi (f := min) hclean
  · exact ssArith_ok hi (f := max) hclean

/-- Settles O9: the operands of each form have the width of its rule. -/
theorem uniformLogicAndShifts : Obligations.UniformLogicAndShifts := by
  unfold Obligations.UniformLogicAndShifts
  intro s g c o hi
  refine ⟨fun hclean => ?mov, fun hclean e he => ?logic, fun hclean e he => ?shift⟩
  case mov => exact execSmov_ok hi hclean
  case logic =>
    simp only [List.mem_cons, List.not_mem_nil, or_false] at he
    obtain rfl | rfl | rfl := he
    · exact ssForm_ss3_ok hi (f := (· &&& ·)) hclean
    · exact ssForm_ss3_ok hi (f := (· ||| ·)) hclean
    · exact ssForm_ss3_ok hi (f := (· ^^^ ·)) hclean
  case shift =>
    simp only [List.mem_cons, List.not_mem_nil, or_false] at he
    obtain rfl | rfl | rfl := he
    · exact ssForm_ssShift_ok hi (f := fun x y => shl x y (ssBits o)) hclean
    · exact ssForm_ssShift_ok hi (f := fun x y => shr x y (ssBits o)) hclean
    · exact ssForm_ssShift_ok hi (f := fun x y => sra x y (ssBits o)) hclean

/-! Compares, counts and fields (R107, R109, R112). -/

theorem ssWide_of_lt {o : SS} (hty : o.ty.toNat < 2) : ssWide o = false := by simpa [ssWide] using hty

theorem ssSrcs_ssField {o : SS} (hty : o.ty.toNat < 2) (hib : o.ib = false) :
    ssSrcs o ssField = [o.a.toNat, o.b.toNat] := by
  simp [ssSrcs, ssField, ssWide_of_lt hty, hib, uRegs]

section single
variable {s : State} {g : Group} {c : Cur} (hi : s.Issues g c) {o : SS}
include hi

theorem execScmp_ok (cc : BitVec 3) (hclean : g.arch.badUs (ssSrcs o ssCmp) = false) :
    execScmp o cc s = .next (s.withArch g (g.arch.writeS o.d.toNat
      (if cond cc.toNat (ssSgn o) (ssBits o) (g.arch.readU o.a.toNat (ssWide o)) (g.arch.ssB o (ssWide o)) then 1 else 0))) := by
  rw [execScmp, ssForm_ok hi hclean]
  simp only [ssCmp, Bool.and_true, Bool.and_false, Arch.writeU_single, apply_ite (BitVec.ofNat 32)]
  rfl

/-- SCLZ and SPOPC: a count of b in a single register. -/
theorem ssForm_ssCount_ok {f : Nat → Nat} (hclean : g.arch.badUs (ssSrcs o ssCount) = false) :
    ssForm o ssCount (fun _ b => f b) s =
      .next (s.withArch g (g.arch.writeS o.d.toNat (BitVec.ofNat 32 (f (g.arch.ssB o (ssWide o)))))) := by
  rw [ssForm_ok hi hclean]
  simp only [ssCount, Bool.and_true, Bool.and_false, Arch.writeU_single]

variable (hty : o.ty.toNat < 2) (hib : o.ib = false)
  (ha : g.arch.badS o.a.toNat = false) (hb : g.arch.badS o.b.toNat = false)
include hty hib ha hb

theorem execSbfe_ok : execSbfe o s = .next (s.withArch g (g.arch.writeS o.d.toNat
    (BitVec.ofNat 32 (bfe (g.arch.readS o.a.toNat).toNat (g.arch.readS o.b.toNat).toNat (o.ty == 0))))) := by
  have hclean : g.arch.badUs (ssSrcs o ssField) = false := by simp [ssSrcs_ssField hty hib, Arch.badUs, ha, hb]
  rw [execSbfe, ssForm_ok hi hclean]
  simp only [ssWide_of_lt hty, Bool.false_and, Arch.writeU_single, Arch.readU_single, Arch.ssB, hib, Bool.false_eq_true, if_false]

theorem execSbfi_ok (hd : g.arch.badS o.d.toNat = false) : execSbfi o s = .next (s.withArch g (g.arch.writeS o.d.toNat
    (BitVec.ofNat 32 (bfi (g.arch.readS o.a.toNat).toNat (g.arch.readS o.b.toNat).toNat (g.arch.readS o.d.toNat).toNat)))) :=
  uniform_ok hi (by simp [ssSrcs_ssField hty hib, Arch.badUs, ha, hb, hd])

end single

/-! Three sources (R113). -/

/-- A literal that names no register of the form: a reserved bit is set, or a pair would be odd. -/
theorem thirdU_eq_none {o : SS} {x : Word} {pair : Bool} (h : 64 ≤ x.toNat ∨ (pair = true ∧ x.toNat % 2 = 1)) :
    thirdU o (some x) pair = none := by
  have hbad : (x.toNat / 64 != 0 || (pair && x.toNat % 2 == 1)) = true := by
    rcases h with hbig | ⟨rfl, hodd⟩
    · simp [show x.toNat / 64 ≠ 0 by omega]
    · simp [hodd]
  simp [thirdU, hbad]

section third
variable {s : State} {g : Group} {c : Cur} (hi : s.Issues g c) {o : SS} {xl : Option Word}
include hi

theorem execSmad_ok {r : Nat} (hr : thirdU o xl (ssWide o) = some r)
    (hclean : g.arch.badUs (ssSrcs o ss3 ++ uRegs r (ssWide o)) = false) :
    execSmad o xl s = .next (s.withArch g (g.arch.writeU o.d.toNat (ssWide o)
      ((g.arch.readU o.a.toNat (ssWide o) * g.arch.ssB o (ssWide o) + g.arch.readU r (ssWide o)) % 2 ^ ssBits o))) :=
  issueArch_ok s _ g c _ hi.1 hi.2 (by simp [hr, hclean])

theorem execSmad_of_bad_literal (hr : thirdU o xl (ssWide o) = none) :
    execSmad o xl s = .next (s.raise s.who g (if g.arch.badUs (ssSrcs o ss3) then poisoned noLane else illegal)) :=
  issueArch_error s _ g c _ hi.1 hi.2 (by simp [hr])

theorem execSsel_ok {r : Nat} (hr : thirdU o xl false = some r) (hclean : g.arch.badUs (ssSrcs o ss32 ++ [r]) = false) :
    execSsel o xl s = .next (s.withArch g (g.arch.writeS o.d.toNat
      (if g.arch.readS r ≠ 0 then g.arch.readS o.a.toNat else BitVec.ofNat 32 (g.arch.ssB o false)))) :=
  issueArch_ok s _ g c _ hi.1 hi.2 (by simp [hr, hclean])

theorem execSsel_of_bad_literal (hr : thirdU o xl false = none) :
    execSsel o xl s = .next (s.raise s.who g (if g.arch.badUs (ssSrcs o ss32) then poisoned noLane else illegal)) :=
  issueArch_error s _ g c _ hi.1 hi.2 (by simp [hr])

end third

/-- Settles O10: a clause for each word, and for each literal of a three-source word that names no register. -/
theorem uniformCompareFieldsAndThreeSources : Obligations.UniformCompareFieldsAndThreeSources := by
  unfold Obligations.UniformCompareFieldsAndThreeSources
  refine ⟨fun s g c o hi => ⟨execScmp_ok hi, fun hclean => ⟨?clz, ?popc⟩, fun hty hib ha hb => ⟨?bfe, ?bfi⟩⟩,
    fun s g c o xl hi => ⟨fun r hr => ?smad, fun r hr => ?ssel, fun x hx => ?smadBad, fun x hx => ?sselBad⟩⟩
  case clz => exact ssForm_ssCount_ok hi (f := fun b => clz b (ssBits o)) hclean
  case popc => exact ssForm_ssCount_ok hi (f := fun b => popc b (ssBits o)) hclean
  case bfe => exact execSbfe_ok hi hty hib ha hb
  case bfi => exact execSbfi_ok hi hty hib ha hb
  case smad => exact execSmad_ok hi hr
  case ssel => exact execSsel_ok hi hr
  case smadBad => exact execSmad_of_bad_literal hi (thirdU_eq_none hx)
  case sselBad => exact execSsel_of_bad_literal hi (thirdU_eq_none (.inl hx))

/-! Vector forms of two and three sources (R76, R116). -/

section laneClean
variable {a : Arch} {gang : List Nat} {p : Pred} {ext : Option Ext} {regs : List Nat} {b : BitVec 7}
  (h : laneClean a gang p ext regs b)
include h

/-- A uniform b is clean. -/
theorem laneClean.badS_eq_false : (isBU ext && !(a.lanes gang p).isEmpty && a.badS b.toNat) = false := by
  cases hbu : isBU ext with
  | false => rfl
  | true =>
    have hb : a.badS b.toNat = false := by simpa only [hbu, if_true] using h.2
    rw [hb, Bool.and_false]

/-- No executing lane has poison in the sources, which are those of `laneClean` and others that are clean. -/
theorem laneClean.badLane_eq_none {srcs : List Nat}
    (hsrcs : ∀ r ∈ srcs, r ∈ regs ∨ (isBU ext = false ∧ r = b.toNat) ∨ ∀ l ∈ a.lanes gang p, a.badV r l = false) :
    a.badLane srcs (a.lanes gang p) = none := by
  refine a.badLane_none _ _ fun l hl r hr => ?_
  obtain hreg | ⟨hbu, rfl⟩ | hother := hsrcs r hr
  · exact h.1 l hl r hreg
  · have hb : ∀ l ∈ a.lanes gang p, a.badV b.toNat l = false := by simpa only [hbu, Bool.false_eq_true, if_false] using h.2
    exact hb l hl
  · exact hother l hl

end laneClean

section vector
variable {s : State} {g : Group} {c : Cur} (hi : s.Issues g c) {o : VV}
  (hclean : laneClean g.arch c.gang o.p o.ext [o.a.toNat] o.b)
include hi hclean

/-- A VV form writes each executing lane from the words of that lane. -/
theorem vvForm_ok {r : ExtRule} {f : Nat → Word → Word → Word → Word}
    (hc : r.three = true → ∀ l ∈ g.arch.lanes c.gang o.p, g.arch.badV (srcC o.d o.ext).toNat l = false) :
    vvForm o r f s = .next (s.withArch g (g.arch.writeV o.d.toNat ((g.arch.lanes c.gang o.p).map fun l =>
      (l, f (extTy r o.ext) (g.arch.readV o.a.toNat l) (g.arch.opB o.ext o.b l)
        (if r.three then g.arch.readV (srcC o.d o.ext).toNat l else 0))))) := by
  have hlane : g.arch.badLane ([o.a.toNat] ++ (if isBU o.ext then [] else [o.b.toNat]) ++
      (if r.three then [(srcC o.d o.ext).toNat] else [])) (g.arch.lanes c.gang o.p) = none := by
    refine hclean.badLane_eq_none fun x hx => ?_
    rw [List.mem_append, List.mem_append] at hx
    obtain (ha | hb) | hthird := hx
    · exact .inl ha
    · exact .inr (.inl (by simpa using hb))
    · obtain ⟨h3, rfl⟩ : r.three = true ∧ x = (srcC o.d o.ext).toNat := by simpa using hthird
      exact .inr (.inr (hc h3))
  exact issueArch_ok s _ g c _ hi.1 hi.2 (by simp only [hlane, hclean.badS_eq_false, Bool.false_eq_true, if_false])

/-- A form of two sources reads no third one. -/
theorem vvForm_two_ok {r : ExtRule} {f : Nat → Word → Word → Word → Word} (h2 : r.three = false) :
    vvForm o r f s = .next (s.withArch g (g.arch.writeV o.d.toNat ((g.arch.lanes c.gang o.p).map fun l =>
      (l, f (extTy r o.ext) (g.arch.readV o.a.toNat l) (g.arch.opB o.ext o.b l) 0)))) := by
  simpa only [h2, Bool.false_eq_true, if_false] using vvForm_ok hi hclean (r := r) (f := f) fun h3 => absurd h3 (by simp [h2])

theorem vvForm_three_ok {r : ExtRule} {f : Nat → Word → Word → Word → Word} (h3 : r.three = true)
    (hc : ∀ l ∈ g.arch.lanes c.gang o.p, g.arch.badV (srcC o.d o.ext).toNat l = false) :
    vvForm o r f s = .next (s.withArch g (g.arch.writeV o.d.toNat ((g.arch.lanes c.gang o.p).map fun l =>
      (l, f (extTy r o.ext) (g.arch.readV o.a.toNat l) (g.arch.opB o.ext o.b l)
        (g.arch.readV (srcC o.d o.ext).toNat l))))) := by
  simpa only [h3, if_true] using vvForm_ok hi hclean (r := r) (f := f) fun _ => hc

/-! Whole words (R118). -/

theorem execVbfe_ok : execVbfe o s = .next (s.withArch g (g.arch.writeV o.d.toNat ((g.arch.lanes c.gang o.p).map fun l =>
    (l, BitVec.ofNat 32 (bfe (g.arch.readV o.a.toNat l).toNat (g.arch.opB o.ext o.b l).toNat (extTy int2 o.ext == 0)))))) :=
  vvForm_two_ok hi hclean rfl

theorem execVbfi_ok (hc : ∀ l ∈ g.arch.lanes c.gang o.p, g.arch.badV (srcC o.d o.ext).toNat l = false) :
    execVbfi o s = .next (s.withArch g (g.arch.writeV o.d.toNat ((g.arch.lanes c.gang o.p).map fun l =>
      (l, BitVec.ofNat 32 (bfi (g.arch.readV o.a.toNat l).toNat (g.arch.opB o.ext o.b l).toNat
        (g.arch.readV (srcC o.d o.ext).toNat l).toNat))))) :=
  vvForm_three_ok hi hclean rfl hc

theorem execVlea_ok (hc : ∀ l ∈ g.arch.lanes c.gang o.p, g.arch.badV (srcC o.d o.ext).toNat l = false) :
    execVlea o s = .next (s.withArch g (g.arch.writeV o.d.toNat ((g.arch.lanes c.gang o.p).map fun l =>
      (l, g.arch.readV (srcC o.d o.ext).toNat l +
        g.arch.readV o.a.toNat l <<< ((g.arch.opB o.ext o.b l).toNat % 32))))) := by
  rw [execVlea, vvForm_three_ok hi hclean rfl hc]
  simp only [ofNat_add_mul_two_pow]

/-- Four products of bytes are added to c, by the signedness of the type. -/
theorem execVdot4_ok (hw : tyWidth (extTy dot4 o.ext) = 8)
    (hc : ∀ l ∈ g.arch.lanes c.gang o.p, g.arch.badV (srcC o.d o.ext).toNat l = false) :
    let byteA := fun l => elemInt (extTy dot4 o.ext) (g.arch.readV o.a.toNat l)
    let byteB := fun l => elemInt (extTy dot4 o.ext) (g.arch.opB o.ext o.b l)
    execVdot4 o s = .next (s.withArch g (g.arch.writeV o.d.toNat ((g.arch.lanes c.gang o.p).map fun l =>
      (l, BitVec.ofInt 32 (((g.arch.readV (srcC o.d o.ext).toNat l).toNat : Int) + byteA l 0 * byteB l 0 +
        byteA l 1 * byteB l 1 + byteA l 2 * byteB l 2 + byteA l 3 * byteB l 3))))) := by
  have hbytes : List.range 4 = [0, 1, 2, 3] := rfl
  rw [execVdot4, vvForm_three_ok hi hclean rfl hc]
  simp only [ofNat_wrap, elemInt, hw, hbytes, List.foldl_cons, List.foldl_nil]

/-- VMADW reads and writes pairs: the low halves of the sums go to d, the high halves to d + 1. -/
theorem execVmadw_ok (hc : ∀ l ∈ g.arch.lanes c.gang o.p, g.arch.badV (srcC o.d o.ext).toNat l = false ∧
      g.arch.badV ((srcC o.d o.ext).toNat + 1) l = false) :
    let res := fun l => wrap (intOf (tySigned (extTy int2c o.ext)) (g.arch.readV o.a.toNat l).toNat 32 *
      intOf (tySigned (extTy int2c o.ext)) (g.arch.opB o.ext o.b l).toNat 32 +
      (g.arch.readV64 (srcC o.d o.ext).toNat l : Int)) 64
    execVmadw o s = .next (s.withArch g ((g.arch.writeV o.d.toNat ((g.arch.lanes c.gang o.p).map fun l =>
      (l, BitVec.ofNat 32 (res l)))).writeV (o.d.toNat + 1) ((g.arch.lanes c.gang o.p).map fun l =>
      (l, BitVec.ofNat 32 (res l / 2 ^ 32))))) := by
  have hlane : g.arch.badLane ([o.a.toNat, (srcC o.d o.ext).toNat, (srcC o.d o.ext).toNat + 1] ++
      (if isBU o.ext then [] else [o.b.toNat])) (g.arch.lanes c.gang o.p) = none := by
    refine hclean.badLane_eq_none fun x hx => ?_
    rw [List.mem_append] at hx
    obtain hvec | hb := hx
    · obtain rfl | rfl | rfl : x = o.a.toNat ∨ x = (srcC o.d o.ext).toNat ∨ x = (srcC o.d o.ext).toNat + 1 := by
        simpa using hvec
      · exact .inl List.mem_cons_self
      · exact .inr (.inr fun l hl => (hc l hl).1)
      · exact .inr (.inr fun l hl => (hc l hl).2)
    · exact .inr (.inl (by simpa using hb))
  exact issueArch_ok s _ g c _ hi.1 hi.2 (by simp only [hlane, hclean.badS_eq_false, Bool.false_eq_true, if_false])

end vector

/-- Settles O15: each word by its function on lane words. -/
theorem vectorWholeWords : Obligations.VectorWholeWords := by
  unfold Obligations.VectorWholeWords
  intro s g c o hi hclean
  refine ⟨execVbfe_ok hi hclean, fun hc e he hw => ?three, fun hc => ?madw⟩
  case three =>
    simp only [List.mem_cons, List.not_mem_nil, or_false] at he
    obtain rfl | rfl | rfl := he
    · exact execVbfi_ok hi hclean hc
    · exact execVlea_ok hi hclean hc
    · exact execVdot4_ok hi hclean (hw rfl) hc
  case madw =>
    intro res
    simp only [ofNat_mod _ 32 32 (Nat.le_refl 32)]
    exact execVmadw_ok hi hclean hc

/-! Worked words (R111 to R115). -/

/-- The words that encode a well-formed instruction decode to it. -/
theorem decode_eq_ok_of_encode_eq {i : Instr} (hrt : RoundTrips i) (hwf : i.WellFormed) {w : Nat} {l : List Nat}
    (he : encode i = w :: l) : decode w l = .ok i := by
  obtain ⟨w', l', he', hd⟩ := hrt hwf
  obtain ⟨rfl, rfl⟩ : w' = w ∧ l' = l := by simpa [he'] using he
  exact hd

/-- Settles O2: each word is what its instruction encodes to. -/
theorem decodeWorkedWords : Obligations.DecodeWorkedWords := by
  unfold Obligations.DecodeWorkedWords
  exact ⟨decode_eq_ok_of_encode_eq (Laws.RoundTrip.sadd _) ⟨rfl, rfl⟩ rfl,
    decode_eq_ok_of_encode_eq (Laws.RoundTrip.sli _ _) ⟨rfl, rfl⟩ rfl,
    decode_eq_ok_of_encode_eq (Laws.RoundTrip.sliHi _ _) ⟨rfl, rfl⟩ rfl,
    decode_eq_ok_of_encode_eq (Laws.RoundTrip.scmp _ _) ⟨rfl, rfl⟩ rfl,
    decode_eq_ok_of_encode_eq (Laws.RoundTrip.smad _ _) ⟨rfl, rfl⟩ rfl,
    decode_eq_ok_of_encode_eq (Laws.RoundTrip.slea _ _) ⟨rfl, rfl⟩ rfl⟩

end Sys2Proof.Machine
end

section
/-! PROOF. Float words (O20, O21). A word with clean sources computes each element of each executing lane from the
elements in its place, writes the lane words and reports the flags gathered (`vfForm_two_ok`, `vfForm_three_ok`,
`vfuForm_ok`). What remains of a word is its function on one element. -/

namespace Sys2Proof.Machine

/-! Where no source is poisoned there is no fault (R76, R318). -/

/-- Nothing is wrong, so the result is computed. -/
@[simp] theorem orFault_nil {α : Type} (x : Unit → α) : orFault [] x = .ok (x ()) := rfl
@[simp] theorem poisonIn_none : poisonIn none = [] := rfl

/-- A form consumes no poison where b and the sources `more` are clean besides a. -/
theorem laneClean.vvPoison_eq_nil {a : Arch} {gang : List Nat} {p : Pred} {ext : Option Ext} {ra b : BitVec 7}
    (h : laneClean a gang p ext [ra.toNat] b) {more : List Nat}
    (hmore : ∀ r ∈ more, ∀ l ∈ a.lanes gang p, a.badV r l = false) :
    a.vvPoison (a.lanes gang p) ext ra b more = [] := by
  have hlane : a.badLane ([ra.toNat] ++ (if isBU ext then [] else [b.toNat]) ++ more) (a.lanes gang p) = none := by
    refine h.badLane_eq_none fun x hx => ?_
    rw [List.mem_append, List.mem_append] at hx
    obtain (ha | hb) | hm := hx
    · exact .inl ha
    · exact .inr (.inl (by simpa using hb))
    · exact .inr (.inr (hmore x hm))
  simp only [Arch.vvPoison, h.badS_eq_false, hlane, poisonIn_none, Bool.false_eq_true, if_false]

/-! Forms of two and three sources (R137, R141, R143). -/

section float
variable {s : State} {g : Group} {c : Cur} (hi : s.Issues g c) {o : VV}
  (hclean : laneClean g.arch c.gang o.p o.ext [o.a.toNat] o.b)
include hi hclean

/-- A form of two sources. -/
theorem vfForm_two_ok {r : ExtRule} {f : Nat → Fmt → Nat → Nat → Nat → Nat × Nat} (h2 : r.three = false) :
    vfForm o r f s = .next (s.withArch g (g.arch.fltResult o.d (fltLanes g.arch c.gang o.p (extTy r o.ext) fun l i =>
      f (rmOf o.ext) (laneFmt (extTy r o.ext)) (elemBits (g.arch.readV o.a.toNat l).toNat (tyWidth (extTy r o.ext)) i)
        (elemBits (g.arch.opB o.ext o.b l).toNat (tyWidth (extTy r o.ext)) i) 0))) := by
  have hpoison : g.arch.vvPoison (g.arch.lanes c.gang o.p) o.ext o.a o.b [] = [] :=
    hclean.vvPoison_eq_nil fun _ hr => absurd hr List.not_mem_nil
  refine issueArch_ok s _ g c _ hi.1 hi.2 ?_
  simp only [h2, Bool.false_eq_true, if_false, hpoison, orFault_nil]
  rfl

/-- A form of three sources, the third of them clean too. -/
theorem vfForm_three_ok {r : ExtRule} {f : Nat → Fmt → Nat → Nat → Nat → Nat × Nat} (h3 : r.three = true)
    (hc : ∀ l ∈ g.arch.lanes c.gang o.p, g.arch.badV (srcC o.d o.ext).toNat l = false) :
    vfForm o r f s = .next (s.withArch g (g.arch.fltResult o.d (fltLanes g.arch c.gang o.p (extTy r o.ext) fun l i =>
      f (rmOf o.ext) (laneFmt (extTy r o.ext)) (elemBits (g.arch.readV o.a.toNat l).toNat (tyWidth (extTy r o.ext)) i)
        (elemBits (g.arch.opB o.ext o.b l).toNat (tyWidth (extTy r o.ext)) i)
        (elemBits (g.arch.readV (srcC o.d o.ext).toNat l).toNat (tyWidth (extTy r o.ext)) i)))) := by
  have hpoison : g.arch.vvPoison (g.arch.lanes c.gang o.p) o.ext o.a o.b [(srcC o.d o.ext).toNat] = [] :=
    hclean.vvPoison_eq_nil fun _ hr => List.mem_singleton.mp hr ▸ hc
  refine issueArch_ok s _ g c _ hi.1 hi.2 ?_
  simp only [h3, if_true, hpoison, orFault_nil]
  rfl

end float

/-- Settles O20: each word by its function on one element; VFMA alone reads a third source. -/
theorem floatArithmetic : Obligations.FloatArithmetic := by
  unfold Obligations.FloatArithmetic
  intro s g c o hi hclean
  refine ⟨fun e he => ?two, fun hc => ?fma, ?scale⟩
  case two =>
    simp only [List.mem_cons, List.not_mem_nil, or_false] at he
    obtain rfl | rfl | rfl | rfl | rfl := he
    · exact (vfForm_two_ok hi hclean rfl : execVfadd o s = _)
    · exact (vfForm_two_ok hi hclean rfl : execVfsub o s = _)
    · exact (vfForm_two_ok hi hclean rfl : execVfmul o s = _)
    · exact (vfForm_two_ok hi hclean rfl : execVfmin o s = _)
    · exact (vfForm_two_ok hi hclean rfl : execVfmax o s = _)
  case fma => exact (vfForm_three_ok hi hclean rfl hc : execVfma o s = _)
  case scale => exact (vfForm_two_ok hi hclean rfl : execVfscale o s = _)

/-! Forms of one source, and the flags (R145 to R147). -/

section unary
variable {s : State} {g : Group} {c : Cur} (hi : s.Issues g c)
include hi

theorem vfuForm_ok {o : VU} (hclean : ∀ l ∈ g.arch.lanes c.gang o.p, g.arch.badV o.a.toNat l = false) {r : ExtRule}
    {f : Fmt → Nat → Nat × Nat} :
    vfuForm o r f s = .next (s.withArch g (g.arch.fltResult o.d (fltLanes g.arch c.gang o.p (extTy r o.ext) fun l i =>
      f (laneFmt (extTy r o.ext)) (elemBits (g.arch.readV o.a.toNat l).toNat (tyWidth (extTy r o.ext)) i)))) := by
  have hlane : g.arch.badLane [o.a.toNat] (g.arch.lanes c.gang o.p) = none :=
    g.arch.badLane_none _ _ fun l hl _ hr => List.mem_singleton.mp hr ▸ hclean l hl
  refine issueArch_ok s _ g c _ hi.1 hi.2 ?_
  simp only [hlane, poisonIn_none, orFault_nil]
  rfl

theorem execVfclassFlags_ok (sd : BitVec 6) (claimed : Bool) : execVfclassFlags sd claimed s =
    .next (s.withArch g { (g.arch.writeS sd.toNat g.arch.fpflags) with fpflags := 0 }) :=
  issueArch_ok s _ g c _ hi.1 hi.2 rfl

end unary

/-- Settles O21: each word by its function on one element, and VFCLASS.FLAGS on the flags. -/
theorem floatUnary : Obligations.FloatUnary := by
  unfold Obligations.FloatUnary
  refine fun s g c hi => ⟨fun o hclean e he => ?element, execVfclassFlags_ok hi⟩
  simp only [List.mem_cons, List.not_mem_nil, or_false] at he
  obtain rfl | rfl | rfl | rfl | rfl := he
  · exact (vfuForm_ok hi hclean : execVfabs o s = _)
  · exact (vfuForm_ok hi hclean : execVfneg o s = _)
  · exact (vfuForm_ok hi hclean : execVfclass o s = _)
  · exact (vfuForm_ok hi hclean : execVfrint o s = _)
  · exact (vfuForm_ok hi hclean : execVffrac o s = _)

end Sys2Proof.Machine
end

section
/-! PROOF. Scratchpad accesses at their bank (O40). An access of a group that has not ended (`State.AtBank`) is performed
in an allocation that serves the group (`arrival_of_serves`), where it changes its bytes and its own request
(`State.WroteScr`); in any other a load is marked lost and a store is discarded (`arrival_of_lost_load`,
`arrival_of_lost_write`). -/

namespace Sys2Proof.Machine

/-! Requests of a group that has not ended. -/

theorem State.reap_of_not_ended (s : State) (h : Nat) (g : Group) (hg : s.group h = some g) (he : g.ended = false) :
    s.reap h = s := by simp [State.reap, hg, he]

/-- A request that is over leaves, and its group stays. -/
theorem State.dropReq_of_not_ended (s : State) (r : Nat) (q : Req) (h : Nat) (g : Group) (hr : s.req r = some q)
    (hh : s.handleOf q.grp = some h) (hg : s.group h = some g) (he : g.ended = false) :
    s.dropReq r = { s with reqs := s.reqs.filter (·.id != r) } := by
  have hh' : State.handleOf { s with reqs := s.reqs.filter (·.id != r) } q.grp = some h := hh
  simp only [State.dropReq, hr, hh']
  exact State.reap_of_not_ended _ h g hg he

theorem State.answer_of_pid (s : State) (q : Req) (rets : List Ret) {pid : Nat} (hpid : q.pid = some pid) :
    s.answer q rets = s.putReq { q with reply := some rets } := by simp only [State.answer, hpid]

/-- Without a fence under way there is none to settle. -/
theorem State.settleFences_of_no_fence (s : State) (uid : Nat)
    (hf : ∀ x ∈ s.reqs, x.grp = uid → ∀ sc ord, x.act ≠ .fence sc ord) : s.settleFences uid = s := by
  unfold State.settleFences
  rw [List.filter_eq_nil_iff.mpr]
  · rfl
  · intro x hx hfence
    rw [Bool.and_eq_true, beq_iff_eq] at hfence
    obtain ⟨hgrp, hact⟩ := hfence
    split at hact
    · next sc ord he => exact hf x hx hgrp sc ord he
    · exact absurd hact Bool.false_ne_true

/-! Blocks and their bytes. -/

theorem Store.find_map {α β : Type} (m : Store α) (f : Nat → α → β) (k : Nat) :
    Store.find (m.map fun x => (x.1, f x.1 x.2) : Store β) k = (Store.find m k).map (f k) := by
  induction m with
  | nil => rfl
  | cons x r ih =>
    simp only [List.map_cons, Store.find]
    split
    · next hk => rw [beq_iff_eq.mp hk, Option.map_some]
    · exact ih

/-- Every byte after a write. -/
theorem Memory.read_writeN (m : Memory) (a x : Nat) (bs : List Byte) :
    (m.writeN a bs).read x = if a ≤ x ∧ x < a + bs.length then bs.getD (x - a) 0 else m.read x := by
  split
  · next hin =>
    have hx : a + (x - a) = x := by omega
    rw [← hx, Memory.read_writeN_same m a (x - a) bs (by omega), hx]
  · exact Memory.read_writeN_other m a x bs (by omega)

/-- An SRESTORE.DONE that takes effect changes the state of allocations, and no byte (R196). -/
theorem State.find_settleDone {s : State} {k : Nat} {b : Block} (hb : Store.find s.blocks k = some b) :
    ∃ b', Store.find s.settleDone.blocks k = some b' ∧ b'.scr = b.scr := by
  have hmap := Store.find_map s.blocks (fun k b => ({ b with allocs := b.allocs.map (s.settleAlloc k) } : Block)) k
  rw [hb, Option.map_some] at hmap
  exact ⟨_, hmap, rfl⟩

/-- `t` is `s` with the bytes `bs` from offset `a` of the scratchpad of block `k`, which was `b`; groups and memories are
as they were. -/
structure State.WroteScr (s t : State) (k : Nat) (b : Block) (a : Nat) (bs : List Byte) : Prop where
  bytes : ∃ b', Store.find t.blocks k = some b' ∧
    ∀ x, b'.scr.read x = if a ≤ x ∧ x < a + bs.length then bs.getD (x - a) 0 else b.scr.read x
  groups : t.groups = s.groups
  mem : t.mem = s.mem
  host : t.host = s.host
  peer : t.peer = s.peer

/-- The block changes to one with the bytes written, requests change, and an SRESTORE.DONE may take effect. -/
theorem State.settleDone_wroteScr (s : State) (k : Nat) (b b1 : Block) (a : Nat) (bs : List Byte) (rs : List Req)
    (h1 : b1.scr = b.scr.writeN a bs) :
    s.WroteScr ({ s.setBlock k b1 with reqs := rs } : State).settleDone k b a bs := by
  obtain ⟨b', hb', hscr⟩ := State.find_settleDone (s := { s.setBlock k b1 with reqs := rs }) (s.find_setBlock k b1)
  exact ⟨⟨b', hb', fun x => by rw [hscr, h1, Memory.read_writeN]⟩, rfl, rfl, rfl, rfl⟩

theorem Act.isStore_iff {act : Act} : act.isStore = true ↔ ∃ path w d, act = .store path w d := by
  constructor
  · intro h
    cases act with
    | store path w d => exact ⟨path, w, d, rfl⟩
    | _ => exact absurd h Bool.false_ne_true
  · rintro ⟨path, w, d, rfl⟩
    rfl
theorem Act.isLoad_of_isStore {act : Act} (h : act.isStore = true) : act.isLoad = false := by
  obtain ⟨path, w, d, rfl⟩ := Act.isStore_iff.mp h
  rfl

/-! A scratchpad access at its bank (R188, R193, R308). -/

/-- Request `r`, `q`, is a scratchpad access that may be performed now, of group `g` under handle `h`, at allocation `a`
of the group's block `b`. -/
structure State.AtBank (s : State) (r : Nat) (q : Req) (h : Nat) (g : Group) (b : Block) (a : Alloc) : Prop where
  performs : s.Performs r q
  isScr : q.act.isScr = true
  lost : q.lost = none
  handle : s.handleOf q.grp = some h
  group : s.group h = some g
  block : Store.find s.blocks g.block = some b
  alloc : b.laneAlloc q.va = some a

/-- What a deferred fault leaves of its group: the registers, and a fault of that clause. -/
theorem State.group_defer (s : State) (uid h : Nat) (g : Group) (d : Deferred) (hh : s.handleOf uid = some h)
    (hg : s.group h = some g) :
    ∃ g', (s.defer uid d).group h = some g' ∧ g'.arch = g.arch ∧ ∃ x ∈ g'.deferred, x.clause = d.clause := by
  simp only [State.defer, State.modUid, hh, State.modGroup_of_some s h g _ hg, State.group_putGroup]
  refine ⟨_, rfl, ?_⟩
  split
  · next o ho =>
    have hmem := List.mem_of_find?_eq_some ho
    have hcl : o.clause = d.clause := by simpa using List.find?_some ho
    split
    · exact ⟨rfl, d, List.mem_map.mpr ⟨o, hmem, by simp [hcl]⟩, rfl⟩
    · exact ⟨rfl, o, hmem, hcl⟩
  · exact ⟨rfl, d, List.mem_append_right _ List.mem_cons_self, rfl⟩

theorem State.defer_blocks (s : State) (uid : Nat) (d : Deferred) : (s.defer uid d).blocks = s.blocks := by
  simp only [State.defer, State.modUid, State.modGroup]
  split
  · split <;> rfl
  · rfl

/-- A load answers with the bytes that stand there under the earlier stores of its group. -/
theorem State.scrPerform_load (s : State) (k : Nat) (b : Block) {q : Req} {path : Path} {w pid : Nat} {sx : Bool}
    (hact : q.act = .load path w sx) (hpid : q.pid = some pid) :
    let rets := loadRets q pid w sx (s.overlay q (b.scr.readN q.va w)) ((granules q.va w).any b.scrPoison.contains)
    s.scrPerform q k b = s.putReq { q with reply := some rets } := by
  intro rets
  rw [← s.answer_of_pid q _ hpid]
  simp only [State.scrPerform, hact, hpid, Act.isLoad, Bool.not_true, Bool.and_false, Bool.false_eq_true, if_false]
  rfl

section bank
variable {s : State} {r : Nat} {q : Req} {h : Nat} {g : Group} {b : Block} {a : Alloc} (hat : s.AtBank r q h g b a)
include hat

theorem State.AtBank.superseded_eq : s.superseded q = a.before q.grp q.id := by
  have hblock : s.blockOf g = some b := hat.block
  simp only [State.superseded, hat.isScr, hat.handle, Option.bind_some, hat.group, hblock, hat.alloc, Bool.true_and]

/-- The request leaves a state with the same requests and groups; nothing else changes. -/
theorem State.AtBank.dropReq_eq {t : State} (hr : t.reqs = s.reqs) (hgr : t.groups = s.groups) :
    t.dropReq q.id = { t with reqs := s.reqs.filter (·.id != r) } := by
  obtain ⟨hreq, hid, -, -, hrun⟩ := hat.performs
  have hreq' : t.req r = some q := by rw [State.req, hr, ← State.req, hreq]
  have hh : t.handleOf q.grp = some h := by rw [State.handleOf, hgr, ← State.handleOf, hat.handle]
  have hg : t.group h = some g := by rw [State.group, hgr, ← State.group, hat.group]
  rw [hid, State.dropReq_of_not_ended t r q h g hreq' hh hg (hrun h g hat.handle hat.group), hr]

/-- An answer changes requests alone, and those by the request and the answer. -/
theorem State.AtBank.answer_eq {t : State} (hr : t.reqs = s.reqs) (hgr : t.groups = s.groups) (rets : List Ret) :
    t.answer q rets = { t with reqs := (s.answer q rets).reqs } := by
  cases hpid : q.pid with
  | none => simp only [State.answer, hpid, hat.dropReq_eq hr hgr, hat.dropReq_eq (t := s) rfl rfl]
  | some pid => rw [t.answer_of_pid q rets hpid, s.answer_of_pid q rets hpid, State.putReq, State.putReq, hr]

/-! Where it goes. -/

/-- Everything an arrival can do at an allocation: the access is performed there, a load that can be undone is marked, the
lane of another load goes on with its fault deferred, or a write is discarded. -/
theorem State.AtBank.arrival_eq : execScratchpadArrival r s = .next
    (if a.serves g.uid && !(q.act.isLoad && a.before q.grp q.id) then s.scrPerform q g.block b
     else if q.act.isLoad then
       if g.canUndo q.id then s.putReq { q with lost := some (6, a.base, a.handler) }
       else (s.cancelLane q).defer q.grp
         ⟨q.clause, q.word, 6, 0, a.base, q.ea, q.lane, a.handler, q.gang, none, none⟩
     else s.discard q 6 a.base a.handler) := by
  obtain ⟨hreq, -, hcan, hfence, -⟩ := hat.performs
  simp only [execScratchpadArrival, hreq, s.settleFences_of_no_fence q.grp hfence, hat.isScr, hat.lost, hcan, hat.handle,
    hat.group, hat.block, hat.alloc]
  exact (apply_ite Host.Outcome.next _ _ _).symm

/-- A store or ATOMS in an allocation that serves the group is performed there, and so is a load that does not come before
the allocation's zeros. -/
theorem State.AtBank.arrival_of_serves (hs : a.serves g.uid = true)
    (hl : q.act.isLoad = true → a.before q.grp q.id = false) {t : State} (ht : s.scrPerform q g.block b = t) :
    execScratchpadArrival r s = .next t := by
  have hz : (q.act.isLoad && a.before q.grp q.id) = false := by simpa using hl
  rw [hat.arrival_eq, hs, hz, ← ht]
  rfl

/-- In an allocation that does not serve the group a load whose clause can be undone is marked. -/
theorem State.AtBank.arrival_of_lost_load (hs : a.serves g.uid = false) (hl : q.act.isLoad = true)
    (hu : g.canUndo q.id = true) :
    execScratchpadArrival r s = .next (s.putReq { q with lost := some (6, a.base, a.handler) }) := by
  simp only [hat.arrival_eq, hs, hl, hu, Bool.false_and, Bool.false_eq_true, if_false, if_true]

/-- In an allocation that does not serve the group a store or ATOMS is discarded. -/
theorem State.AtBank.arrival_of_lost_write (hs : a.serves g.uid = false) (hl : q.act.isLoad = false) :
    execScratchpadArrival r s = .next (s.discard q 6 a.base a.handler) := by
  simp only [hat.arrival_eq, hs, hl, Bool.false_and, Bool.false_eq_true, if_false]

/-! What is done there. -/

theorem State.AtBank.scrPerform_before {path : Path} {w d : Nat} (hact : q.act = .store path w d)
    (hb : a.before q.grp q.id = true) :
    s.scrPerform q g.block b = ({ s with reqs := s.reqs.filter (·.id != r) } : State).settleDone := by
  simp only [State.scrPerform, hat.superseded_eq, hb, hact, Act.isLoad, hat.dropReq_eq rfl rfl]
  rfl

/-- A store writes its bytes and leaves. -/
theorem State.AtBank.scrPerform_store {path : Path} {w d : Nat} (hact : q.act = .store path w d)
    (hb : a.before q.grp q.id = false) :
    ∃ b1 : Block, b1.scr = b.scr.writeN q.va (leBytes w d) ∧ s.scrPerform q g.block b =
      ({ s.setBlock g.block b1 with reqs := s.reqs.filter (·.id != r) } : State).settleDone := by
  simp only [State.scrPerform, hat.superseded_eq, hb, hact, Bool.false_and, Bool.false_eq_true, if_false,
    hat.dropReq_eq (t := s.setBlock _ _) rfl rfl]
  exact ⟨_, rfl, rfl⟩

/-- An ATOMS writes its location, and answers with what was there where it has an answer to give. -/
theorem State.AtBank.scrPerform_atomic {scr : Bool} {op ty x k : Nat} (hact : q.act = .atomic scr op ty x k)
    (hb : a.before q.grp q.id = false) :
    let w := if ty = 3 then 8 else 4
    let old := leNat (b.scr.readN q.va w)
    ∃ (b1 : Block) (rets : List Ret), b1.scr = b.scr.writeN q.va (leBytes w (atomicOp op ty old x k)) ∧
      s.scrPerform q g.block b = ({ s.setBlock g.block b1 with reqs := (s.answer q rets).reqs } : State).settleDone ∧
      ∀ pid, q.pid = some pid → rets = atomicRets q pid ty old ((granules q.va w).any b.scrPoison.contains) := by
  simp only [State.scrPerform, hat.superseded_eq, hb, hact, Bool.false_and, Bool.false_eq_true, if_false, beq_iff_eq,
    hat.answer_eq (t := s.setBlock _ _) rfl rfl]
  refine ⟨_, _, rfl, rfl, fun pid hpid => ?_⟩
  rw [hpid]

/-- A discarded store leaves, and its fault waits for the boundary of its clause (R193). -/
theorem State.AtBank.discard_store {path : Path} {w d : Nat} (hact : q.act = .store path w d) (cls obj : Nat)
    (handler : Pc) :
    let t := s.discard q cls obj handler
    ∃ g', t.group h = some g' ∧ g'.arch = g.arch ∧ (∃ d ∈ g'.deferred, d.clause = q.clause) ∧ t.blocks = s.blocks ∧
      t.mem = s.mem ∧ t.reqs = s.reqs.filter (·.id != r) := by
  simp only [State.discard, hact, hat.dropReq_eq (t := s) rfl rfl]
  obtain ⟨g', hg', harch, hdef⟩ := State.group_defer { s with reqs := s.reqs.filter (·.id != r) } q.grp h g
    ⟨q.clause, q.word, cls, if cls == 4 then 4 else 0, obj, q.ea, q.lane, handler, q.gang, q.pid, none⟩ hat.handle hat.group
  exact ⟨g', hg', harch, hdef, State.defer_blocks _ _ _, (State.modUid_beside _ _ _).mem, (State.modUid_beside _ _ _).reqs⟩

end bank

/-- Settles O40: the allocation serves the group, or it does not. -/
theorem scratchpadArrivals : Obligations.ScratchpadArrivals := by
  unfold Obligations.ScratchpadArrivals
  intro s r q h g b a hp hscr hlost hh hg hb ha wrote
  have hat : s.AtBank r q h g b a := ⟨hp, hscr, hlost, hh, hg, hb, ha⟩
  refine ⟨fun hs hbef hst => ?before, fun hs hbef => ⟨fun path w d hact => ?store, fun scr op ty x k hact => ?atomic,
    fun path w sx pid hact hpid => ?load⟩, fun hs => ⟨hat.arrival_of_lost_load hs, fun hst => ?discard⟩⟩
  case before =>
    obtain ⟨path, w, d, hact⟩ := Act.isStore_iff.mp hst
    obtain ⟨b', hb', hscr'⟩ := State.find_settleDone (s := { s with reqs := s.reqs.filter (·.id != r) }) hb
    exact ⟨_, b', hat.arrival_of_serves hs (fun hl => absurd hl (Bool.eq_false_iff.mp (Act.isLoad_of_isStore hst)))
      (hat.scrPerform_before hact hbef), hb', hscr', rfl, rfl, rfl⟩
  case store =>
    obtain ⟨b1, h1, hperf⟩ := hat.scrPerform_store hact hbef
    obtain ⟨hbytes, hgroups, hmem, hhost, hpeer⟩ := s.settleDone_wroteScr g.block b b1 q.va _ (s.reqs.filter (·.id != r)) h1
    exact ⟨_, hat.arrival_of_serves hs (fun _ => hbef) hperf, hbytes, hgroups, hmem, hhost, hpeer, rfl⟩
  case atomic =>
    obtain ⟨b1, rets, h1, hperf, hrets⟩ := hat.scrPerform_atomic hact hbef
    obtain ⟨hbytes, hgroups, hmem, hhost, hpeer⟩ := s.settleDone_wroteScr g.block b b1 q.va _ (s.answer q rets).reqs h1
    refine ⟨_, hat.arrival_of_serves hs (fun _ => hbef) hperf, hbytes, hgroups, hmem, hhost, hpeer, fun pid hpid hclean => ?_⟩
    rw [← hclean, ← hrets pid hpid, ← s.answer_of_pid q rets hpid]
    rfl
  case load => exact hat.arrival_of_serves hs (fun _ => hbef) (s.scrPerform_load g.block b hact hpid)
  case discard =>
    obtain ⟨path, w, d, hact⟩ := Act.isStore_iff.mp hst
    obtain ⟨g', hg', harch, hdef, hblocks, hmem, hreqs⟩ := hat.discard_store hact 6 a.base a.handler
    exact ⟨_, g', hat.arrival_of_lost_write hs (Act.isLoad_of_isStore hst), hblocks, hmem, hg', harch, hdef, hreqs⟩

end Sys2Proof.Machine
end

section
/-! PROOF. Copy words (O41). A word whose operands are well submits one operation (`issue_submits`), and of the faults of
CPL's lanes that of the lowest one is delivered (`pickFate_lanes`). -/

namespace Sys2Proof.Machine

/-! Submission (R203). -/

/-- The requests that stand before an operation, numbered from `n`, as `submitOp` makes them. -/
def reqsBefore (g : Group) (c : Cur) (n : Nat) (pre : List Act) : List Req :=
  (List.range pre.length).map fun i => mkReq g c (n + i) (pre.getD i .local)

theorem reqsBefore_acts (g : Group) (c : Cur) (n : Nat) (pre : List Act) : (reqsBefore g c n pre).map (·.act) = pre := by
  refine List.ext_getElem (by simp [reqsBefore]) fun i _ hi => ?_
  simp [reqsBefore, mkReq, List.getD_eq_getElem?_getD, List.getElem?_eq_getElem hi]

theorem reqsBefore_grp {g : Group} {c : Cur} {n : Nat} {pre : List Act} {r : Req} (hr : r ∈ reqsBefore g c n pre) :
    r.grp = g.uid := by
  obtain ⟨i, -, rfl⟩ := List.mem_map.mp hr
  rfl

/-- A word that submits: its operation enters the open batch, and is held behind the requests `pre`. -/
theorem issue_submits {s s1 : State} {g g1 : Group} {c c1 : Cur} (hi : s.Issues g c) (hc1 : g1.cur = some c1) {i : Instr}
    {f : State → Group → Cur → Except Fate (State × Group)} (hexec : exec i s = issue s f) {pre : List Act} {tl : Nat}
    {kind : OpKind} {bytes : Nat} (hf : f s g c = .ok (submitOp s1 g1 c pre tl kind bytes)) :
    s.Submits s1 g1 c1 i pre tl kind bytes := by
  refine ⟨mkOp g1 c (s1.nextId + pre.length) tl kind bytes, reqsBefore g1 c s1.nextId pre ++
    [mkReq g1 c1 (s1.nextId + pre.length) (.submit (mkOp g1 c (s1.nextId + pre.length) tl kind bytes))],
    ?next, ?acts, ?grp, rfl, rfl, rfl, rfl, rfl, rfl, rfl⟩
  case next =>
    rw [hexec, issue_ok s f g c _ _ hi.1 hi.2 hf, hc1, Option.map_some, List.append_assoc]
    rfl
  case acts => rw [List.map_append, reqsBefore_acts, List.map_singleton, mkReq]
  case grp =>
    intro r hr
    obtain hb | hop := List.mem_append.mp hr
    · exact reqsBefore_grp hb
    · rw [List.mem_singleton.mp hop, mkReq]

/-! The fault delivered (R185). -/

/-- The first fault is delivered where no later one has a lower class, or its class and a lower lane. -/
theorem pickFate_cons (f : Fate) (fs : List Fate)
    (h : ∀ x ∈ fs, f.cls < x.cls ∨ (f.cls = x.cls ∧ f.lane ≤ x.lane)) : pickFate (f :: fs) = some f := by
  refine List.foldlRecOn (motive := (· = some f)) fs _ rfl fun acc hacc x hx => ?_
  have hx' := h x hx
  rw [hacc]
  refine if_neg ?_
  simp only [Bool.or_eq_true, Bool.and_eq_true, decide_eq_true_eq, beq_iff_eq]
  omega

/-- The misalignment of the lowest lane is delivered, where lanes meet nothing else. -/
theorem pickFate_lanes (faults : Nat → List Fate) (addr : Nat → Nat) (pre post : List Nat) (l : Nat)
    (hsorted : (pre ++ l :: post).Pairwise (· < ·)) (hlt : ∀ k ∈ pre ++ l :: post, k < 32)
    (hpre : ∀ k ∈ pre, faults k = []) (hl : faults l = [misaligned (BitVec.ofNat 32 l) (addr l)])
    (hpost : ∀ k ∈ post, ∀ f ∈ faults k, f = misaligned (BitVec.ofNat 32 k) (addr k)) :
    pickFate (((pre ++ l :: post).map faults).flatten) = some (misaligned (BitVec.ofNat 32 l) (addr l)) := by
  have hnone : (pre.map faults).flatten = [] := by
    simpa using hpre
  rw [List.map_append, List.map_cons, List.flatten_append, List.flatten_cons, hnone, hl, List.nil_append,
    List.singleton_append]
  refine pickFate_cons _ _ fun f hf => .inr ?_
  obtain ⟨_, hx, hf⟩ := List.mem_flatten.mp hf
  obtain ⟨k, hk, rfl⟩ := List.mem_map.mp hx
  have hlk : l < k := (List.pairwise_cons.mp (List.pairwise_append.mp hsorted).2.1).1 k hk
  have hk32 : k < 32 := hlt k (by simp [hk])
  rw [hpost k hk f hf]
  refine ⟨rfl, ?_⟩
  simp only [Fate.lane, misaligned, BitVec.toNat_ofNat]
  omega

theorem Arch.lanes_sorted (a : Arch) (gang : List Nat) (p : Pred) : (a.lanes gang p).Pairwise (· < ·) :=
  List.Pairwise.filter _ List.pairwise_lt_range

/-! What the operands must be. -/

/-- The literal word of CPR names an operation, a type and from 1 to 2^20 elements, and has no other bit (R219). -/
def cprLegal (a : Arch) (lit : Word) : Prop :=
  let n := (a.readS (lit.toNat % 64)).toNat
  lit.toNat < 1024 ∧ lit.toNat / 64 % 4 ≠ 3 ∧ lit.toNat / 256 % 4 ≠ 3 ∧ 1 ≤ n ∧ n ≤ 2 ^ 20

/-- What `execCpr` refuses is what is not legal. -/
theorem cprIllegal_iff (a : Arch) (lit : Word) :
    (lit.toNat / 1024 != 0 || lit.toNat / 64 % 4 == 3 || lit.toNat / 256 % 4 == 3 ||
      (a.readS (lit.toNat % 64)).toNat == 0 || decide (2 ^ 20 < (a.readS (lit.toNat % 64)).toNat)) = true ↔
    ¬ cprLegal a lit := by
  simp only [Bool.or_eq_true, bne_iff_ne, beq_iff_eq, decide_eq_true_eq, ne_eq, Nat.div_eq_zero_iff, cprLegal]
  omega

theorem cprLegal.not_illegal {a : Arch} {lit : Word} (h : cprLegal a lit) :
    (lit.toNat / 1024 != 0 || lit.toNat / 64 % 4 == 3 || lit.toNat / 256 % 4 == 3 ||
      (a.readS (lit.toNat % 64)).toNat == 0 || decide (2 ^ 20 < (a.readS (lit.toNat % 64)).toNat)) = false := by
  rw [← Bool.not_eq_true, cprIllegal_iff]
  exact fun hnot => hnot h

/-- The faults of one lane of CPL, a misaligned source first (R185, R211). -/
def State.cplFaults (s : State) (g : Group) (gs gd : Bool) (w l src dst : Nat) : List Fate :=
  (if src % w != 0 then [misaligned (BitVec.ofNat 32 l) src]
   else if dst % w != 0 then [misaligned (BitVec.ofNat 32 l) dst] else []) ++
  (if !gs && !s.inOne g src w then [Fate.trap 4 4 (BitVec.ofNat 32 l) src]
   else if !gd && !s.inOne g dst w then [Fate.trap 4 4 (BitVec.ofNat 32 l) dst] else [])

section lane
variable {s : State} {g : Group} {gs gd : Bool} {w l src dst : Nat} (hs : gs = false → s.inOne g src w = true)
  (hd : gd = false → s.inOne g dst w = true)
include hs hd

/-- Inside allocations a lane's only fault is a misalignment. -/
theorem State.cplFaults_of_inOne : s.cplFaults g gs gd w l src dst =
    if src % w = 0 ∧ dst % w = 0 then [] else [misaligned (BitVec.ofNat 32 l) (if src % w ≠ 0 then src else dst)] := by
  have hsrc : (!gs && !s.inOne g src w) = false := by
    cases gs with
    | false => rw [hs rfl]; rfl
    | true => rfl
  have hdst : (!gd && !s.inOne g dst w) = false := by
    cases gd with
    | false => rw [hd rfl]; rfl
    | true => rfl
  simp only [State.cplFaults, hsrc, hdst, Bool.false_eq_true, if_false, List.append_nil, bne_iff_ne]
  by_cases hsw : src % w = 0
  · by_cases hdw : dst % w = 0
    · simp [hsw, hdw]
    · simp [hsw, hdw]
  · simp [hsw]

end lane

/-- The faults of a lane whose operands are in the vector registers `a` and `d`. -/
def State.cplFaultsOf (s : State) (g : Group) (a d : BitVec 7) (gs gd : Bool) (w l : Nat) : List Fate :=
  s.cplFaults g gs gd w l (g.arch.base false gs a.toNat l) (g.arch.base false gd d.toNat l)

/-! Tensor copies (R215, R217). -/

/-- CPM asks for a nonzero mask of the team's four cores. -/
theorem execCpm_eq (s : State) (o : Cpt) (m : BitVec 4) : exec (.cpm o (m.setWidth 32)) s =
    tensor o s false (fun s g => m != 0 && (s.team g).length == 4) m.toNat 0 := by
  have hlt : m.toNat < 16 := m.isLt
  have hmask : (m.setWidth 32).toNat = m.toNat := by
    rw [BitVec.toNat_setWidth]
    omega
  have hzero : (m.toNat != 0) = (m != 0) := by
    rw [Bool.eq_iff_iff, bne_iff_ne, bne_iff_ne, ne_eq, ne_eq, ← BitVec.toNat_inj]
    rfl
  have hexec : exec (.cpm o (m.setWidth 32)) s = execCpm o (m.setWidth 32) s := rfl
  rw [hexec, execCpm, hmask, Nat.mod_eq_of_lt hlt, Nat.div_eq_of_lt hlt, hzero]
  rfl

section words
variable {s : State} {g : Group} {c : Cur} (hi : s.Issues g c)
include hi

section tensor
variable {i : Instr} {o : Cpt} {st : Bool} {ok : State → Group → Bool} {mask tl : Nat}
  (hexec : exec i s = tensor o s st ok mask tl) (hclean : g.arch.badUs [o.sr.toNat, o.sd.toNat] = false) (hok : ok s g = true)
include hexec hclean hok

theorem tensor_submits (hal : (g.arch.readS o.sr.toNat).toNat % 64 = 0) :
    s.Submits s g c i [] tl (.cpt (g.arch.readS o.sr.toNat).toNat (g.arch.readS o.sd.toNat).toNat
      ((List.range 5).map fun i => g.arch.readS (o.sc.toNat + i)) ((List.range 5).map fun i => g.arch.badS (o.sc.toNat + i))
      st mask) 0 := by
  refine issue_submits hi hi.2 hexec ?_
  simp only [hclean, hok, hal]
  rfl

theorem tensor_misaligned (hal : (g.arch.readS o.sr.toNat).toNat % 64 ≠ 0) :
    exec i s = .next (s.raise s.who g (misaligned noLane (g.arch.readS o.sr.toNat).toNat)) := by
  rw [hexec]
  refine issue_error s _ g c _ hi.1 hi.2 ?_
  simp only [hclean, hok, Bool.not_true, Bool.false_eq_true, if_false, bne_iff_ne.mpr hal, if_true]

end tensor

/-! Reducing copies (R219). -/

section cpr
variable {sa sb : BitVec 6} {lit : Word}
  (hclean : g.arch.badUs (uRegs sa.toNat true ++ [sb.toNat, lit.toNat % 64]) = false)
include hclean

theorem execCpr_submits (hlegal : cprLegal g.arch lit) (hdst : g.arch.readS64 sa.toNat % 4 = 0)
    (hsrc : (g.arch.readS sb.toNat).toNat % 4 = 0) :
    let n := (g.arch.readS (lit.toNat % 64)).toNat
    s.Submits s g c (.cpr sa sb lit) [] 2 (.cpr (g.arch.readS sb.toNat).toNat (g.arch.readS64 sa.toNat) n
      (lit.toNat / 64 % 4) (lit.toNat / 256 % 4)) (4 * n) := by
  have hexec : exec (.cpr sa sb lit) s = execCpr sa sb lit s := rfl
  refine issue_submits hi hi.2 hexec ?_
  simp only [hclean, hlegal.not_illegal, hdst, hsrc]
  rfl

theorem execCpr_misaligned_dst (hlegal : cprLegal g.arch lit) (hdst : g.arch.readS64 sa.toNat % 4 ≠ 0) :
    exec (.cpr sa sb lit) s = .next (s.raise s.who g (misaligned noLane (g.arch.readS64 sa.toNat))) := by
  refine (issue_error s _ g c _ hi.1 hi.2 ?_ : execCpr sa sb lit s = _)
  simp only [hclean, hlegal.not_illegal, Bool.false_eq_true, if_false, bne_iff_ne.mpr hdst, if_true]

theorem execCpr_misaligned_src (hlegal : cprLegal g.arch lit) (hdst : g.arch.readS64 sa.toNat % 4 = 0)
    (hsrc : (g.arch.readS sb.toNat).toNat % 4 ≠ 0) :
    exec (.cpr sa sb lit) s = .next (s.raise s.who g (misaligned noLane (g.arch.readS sb.toNat).toNat)) := by
  refine (issue_error s _ g c _ hi.1 hi.2 ?_ : execCpr sa sb lit s = _)
  simp only [hclean, hlegal.not_illegal, Bool.false_eq_true, if_false, hdst, bne_self_eq_false, bne_iff_ne.mpr hsrc,
    if_true]

theorem execCpr_illegal (hillegal : ¬ cprLegal g.arch lit) :
    exec (.cpr sa sb lit) s = .next (s.raise s.who g illegal) := by
  refine (issue_error s _ g c _ hi.1 hi.2 ?_ : execCpr sa sb lit s = _)
  simp only [hclean, Bool.false_eq_true, if_false, (cprIllegal_iff g.arch lit).mpr hillegal, if_true]

end cpr

/-! Lane copies (R211). -/

section cpl
variable {p : Pred} {d a : BitVec 7} {dir sz : BitVec 2} {cl gs gd : Bool} (hgs : (dir.toNat == 0 || dir.toNat == 3) = gs)
  (hgd : (dir.toNat == 1 || dir.toNat == 3) = gd)
  (hclean : ∀ l ∈ g.arch.lanes c.gang p, ∀ r ∈ uRegs a.toNat gs ++ uRegs d.toNat gd, g.arch.badV r l = false)
include hgs hgd hclean

theorem execCpl_submits (hal : ∀ l ∈ g.arch.lanes c.gang p, s.cplFaultsOf g a d gs gd (szBytes (sz.toNat + 2)) l = []) :
    s.Submits s g c (.cpl p d a dir sz cl) [] (if cl then 2 else 0)
      (.cpl ((g.arch.lanes c.gang p).map fun l => (g.arch.base false gd d.toNat l, g.arch.base false gs a.toNat l)) dir.toNat
        (szBytes (sz.toNat + 2))) (szBytes (sz.toNat + 2) * (g.arch.lanes c.gang p).length) := by
  have hexec : exec (.cpl p d a dir sz cl) s = execCpl p d a dir sz cl s := rfl
  have hnone : pickFate ((g.arch.lanes c.gang p).map (s.cplFaultsOf g a d gs gd (szBytes (sz.toNat + 2)))).flatten = none := by
    rw [List.flatten_eq_nil_iff.mpr (by simpa using hal)]
    rfl
  refine issue_submits hi hi.2 hexec ?_
  simp only [hgs, hgd, g.arch.badLane_none _ _ hclean, poisonIn_none, List.nil_append, List.map_map]
  split
  · next f hf => exact nomatch hf.symm.trans hnone
  · rfl

theorem execCpl_fault {f : Fate}
    (hf : pickFate ((g.arch.lanes c.gang p).map (s.cplFaultsOf g a d gs gd (szBytes (sz.toNat + 2)))).flatten = some f) :
    exec (.cpl p d a dir sz cl) s = .next (s.raise s.who g f) := by
  refine (issue_error s _ g c _ hi.1 hi.2 ?_ : execCpl p d a dir sz cl s = _)
  simp only [hgs, hgd, g.arch.badLane_none _ _ hclean, poisonIn_none, List.nil_append, List.map_map]
  split
  · next f' hf' => rw [Option.some.inj (hf'.symm.trans hf)]
  · next hnone => exact nomatch hnone.symm.trans hf

end cpl

/-! LNCH (R292). -/

section lnch
variable {sa sb : BitVec 6} (hclean : g.arch.badUs (uRegs sa.toNat true ++ [sb.toNat]) = false)
include hclean

theorem execLnch_submits (hal : g.arch.readS64 sa.toNat % 256 = 0) :
    s.Submits s g c (.lnch sa sb) [.fence 5 1] 2 (.lnch (g.arch.readS64 sa.toNat) (g.arch.readS sb.toNat).toNat) 256 := by
  have hexec : exec (.lnch sa sb) s = execLnch sa sb s := rfl
  refine issue_submits hi hi.2 hexec ?_
  simp only [hclean, hal]
  rfl

theorem execLnch_misaligned (hal : g.arch.readS64 sa.toNat % 256 ≠ 0) :
    exec (.lnch sa sb) s = .next (s.raise s.who g (misaligned noLane (g.arch.readS64 sa.toNat))) := by
  refine (issue_error s _ g c _ hi.1 hi.2 ?_ : execLnch sa sb s = _)
  simp only [hclean, Bool.false_eq_true, if_false, bne_iff_ne.mpr hal, if_true]

end lnch

end words

/-- Settles O41: each word by its operands, and CPL by its lanes in ascending order. -/
theorem copyWords : Obligations.CopyWords := by
  unfold Obligations.CopyWords
  intro s g c hi
  refine ⟨fun p d a dir sz cl => ?cpl, fun o m => ?tensor, fun sa sb lit => ?cpr, fun sa sb => ?lnch⟩
  case cpl =>
    intro w gs gd lanes src dst
    have hgs : (dir.toNat == 0 || dir.toNat == 3) = decide (dir = 0 ∨ dir = 3) := by revert dir; decide
    have hgd : (dir.toNat == 1 || dir.toNat == 3) = decide (dir = 1 ∨ dir = 3) := by revert dir; decide
    have hfaults (l : Nat) (hin : (¬gs → s.inOne g (src l) w = true) ∧ (¬gd → s.inOne g (dst l) w = true)) :=
      State.cplFaults_of_inOne (s := s) (g := g) (gs := decide gs) (gd := decide gd) (w := w) (l := l)
        (fun h => hin.1 (of_decide_eq_false h)) (fun h => hin.2 (of_decide_eq_false h))
    refine ⟨fun hclean hal => ?ok, fun pre l post hl hpre hclean hin hbad => ?bad⟩
    case ok =>
      refine execCpl_submits hi hgs hgd hclean fun l hl => ?_
      obtain ⟨hsrc, hdst, hin⟩ := hal l hl
      exact (hfaults l hin).trans (if_pos ⟨hsrc, hdst⟩)
    case bad =>
      refine execCpl_fault hi hgs hgd hclean ?_
      have hone (k : Nat) (hk : k ∈ lanes) (f : Fate) (hf : f ∈ s.cplFaultsOf g a d (decide gs) (decide gd) w k) :
          f = misaligned (BitVec.ofNat 32 k) (if src k % w ≠ 0 then src k else dst k) := by
        rw [State.cplFaultsOf, hfaults k (hin k hk)] at hf
        split at hf
        · exact absurd hf List.not_mem_nil
        · exact List.mem_singleton.mp hf
      have hlanes : g.arch.lanes c.gang p = pre ++ l :: post := hl
      rw [hlanes]
      refine pickFate_lanes _ (fun k => if src k % w ≠ 0 then src k else dst k) pre post l (hl ▸ Arch.lanes_sorted _ _ _)
        (hl ▸ fun k => Arch.lanes_lt _ _ _ k) (fun k hk => ?_) ?_ fun k hk => hone k (hl ▸ by simp [hk])
      · exact (hfaults k (hin k (hl ▸ by simp [hk]))).trans (if_pos (hpre k hk))
      · exact (hfaults l (hin l (hl ▸ by simp))).trans (if_neg (by omega))
  case tensor =>
    intro at_ kind hclean
    have hld : exec (.cptLd o) s = tensor o s false (fun _ _ => true) 0 (if o.cl then 2 else 0) := rfl
    have hst : exec (.cptSt o) s = tensor o s true (fun _ _ => true) 0 (if o.cl then 2 else 0) := rfl
    have hok (hteam : (s.team g).length = 4) (hm0 : m ≠ 0) : (m != 0 && (s.team g).length == 4) = true := by
      rw [bne_iff_ne.mpr hm0, hteam]
      rfl
    refine ⟨fun hal => ⟨tensor_submits hi hld hclean rfl hal, tensor_submits hi hst hclean rfl hal, fun hteam hm0 =>
      tensor_submits hi (execCpm_eq s o m) hclean (hok hteam hm0) hal⟩, fun hal i hword => ?_, fun hal hteam hm0 =>
      tensor_misaligned hi (execCpm_eq s o m) hclean (hok hteam hm0) hal⟩
    simp only [List.mem_cons, List.not_mem_nil, or_false] at hword
    obtain rfl | rfl := hword
    · exact tensor_misaligned hi hld hclean rfl hal
    · exact tensor_misaligned hi hst hclean rfl hal
  case cpr =>
    intro x n dst src legal hclean
    exact ⟨execCpr_submits hi hclean, execCpr_misaligned_dst hi hclean, execCpr_misaligned_src hi hclean,
      execCpr_illegal hi hclean⟩
  case lnch =>
    intro at_ hclean
    exact ⟨execLnch_submits hi hclean, execLnch_misaligned hi hclean⟩

end Sys2Proof.Machine
end

section
/-! PROOF. Reset (O3). -/

namespace Sys2Proof.Machine

/-- Settles O3: no table of the reset state has an entry, so each unit reads as its own reset value. -/
theorem resetState : Obligations.ResetState := by
  unfold Obligations.ResetState
  refine ⟨fun k => ?core, fun k => ?cluster, fun q => ?queue, fun p => ?pool, rfl, rfl, rfl, rfl, rfl⟩
  case core =>
    have hcore : State.reset.core k = Core.reset := rfl
    rw [hcore]
    exact ⟨rfl, rfl, rfl⟩
  case cluster =>
    have hcluster : State.reset.cluster k = Cluster.reset := rfl
    rw [hcluster]
    exact ⟨rfl, rfl, rfl, rfl, rfl, rfl⟩
  case queue =>
    have hqueue : State.reset.queue q = Queue.reset := rfl
    rw [hqueue]
    exact ⟨rfl, rfl, rfl, rfl⟩
  case pool =>
    have hpool : State.reset.pool p = Pool.reset := rfl
    rw [hpool]
    exact ⟨rfl, rfl⟩

end Sys2Proof.Machine
end

section
/-! PROOF. The scratchpad allocation words (O45). A word whose source is clean reads its block (`blockForm_ok`,
`blockForm_error`); then one lemma for each outcome of SALLOC, and for each word at an allocation, says what it leaves. -/

namespace Sys2Proof.Machine

theorem Arch.badUs_singleton (a : Arch) (n : Nat) : a.badUs [n] = a.badS n := by simp [Arch.badUs]

/-- An SRESTORE.DONE of the group that rebuilds an allocation takes effect at once, or waits (R196). -/
theorem State.settleAlloc_of_rebuilding (s : State) (k uid id : Nat) (a : Alloc) (ha : a.state = .rebuilding uid) :
    s.settleAlloc k { a with donePend := some id } = if s.writing uid id k a then { a with donePend := some id }
      else { a with state := .live, donePend := none } := by
  simp only [State.settleAlloc, ha]
  rfl

/-- A size that SALLOC takes: whole granules, 1.5 MB at most (R195). -/
def sallocSize (n : Nat) : Prop := n ≠ 0 ∧ n % 1024 = 0 ∧ n ≤ 1572864

theorem sallocSize_iff (n : Nat) : (n == 0 || n % 1024 != 0 || decide (1572864 < n)) = false ↔ sallocSize n := by
  simp [sallocSize, and_assoc]

/-- What `execSalloc` asks of the anchor rows, for rank 0 alone. -/
theorem anchorsLack_eq_false {rank : BitVec 3} {k n : Nat} (h : rank = 0 → k ≤ n) :
    (rank.toNat == 0 && decide (n < k)) = false := by
  by_cases hr : rank = 0
  · simp [hr, h hr]
  · have hn : rank.toNat ≠ 0 := fun h0 => hr (BitVec.eq_of_toNat_eq h0)
    simp [hn]

section words
variable {s : State} {g : Group} {c : Cur} {b : Block} (hi : s.Issues g c) (hb : s.blockOf g = some b)
include hi hb

theorem blockForm_ok {srcs : List Nat} (hclean : g.arch.badUs srcs = false)
    {f : State → Group → Cur → Block → Except Fate (State × Group)} {s' : State} {g' : Group}
    (hf : f s g c b = .ok (s', g')) : blockForm s srcs f = .next (s'.putGroup s.who g') :=
  issue_ok s _ g c s' g' hi.1 hi.2 (by simp only [hclean, Bool.false_eq_true, if_false, hb, hf])

theorem blockForm_error {srcs : List Nat} (hclean : g.arch.badUs srcs = false)
    {f : State → Group → Cur → Block → Except Fate (State × Group)} {e : Fate}
    (hf : f s g c b = .error e) : blockForm s srcs f = .next (s.raise s.who g e) :=
  issue_error s _ g c e hi.1 hi.2 (by simp only [hclean, Bool.false_eq_true, if_false, hb, hf])

section source
variable {sa : BitVec 6} (hclean : g.arch.badS sa.toNat = false)
include hclean

/-- A word of one source that is clean. -/
theorem blockForm_source_ok {f : State → Group → Cur → Block → Except Fate (State × Group)} {s' : State} {g' : Group}
    (hf : f s g c b = .ok (s', g')) : blockForm s [sa.toNat] f = .next (s'.putGroup s.who g') :=
  blockForm_ok hi hb ((g.arch.badUs_singleton _).trans hclean) hf

/-! SALLOC (R195). -/

section salloc
variable (rank : BitVec 3) (sd : BitVec 6) (lit : Word)

theorem execSalloc_of_bad_size (hsize : ¬ sallocSize (g.arch.readS sa.toNat).toNat) :
    exec (.salloc rank sa sd lit) s = .next (s.putGroup s.who (g.setS sd.toNat 0x80000004)) := by
  refine (blockForm_source_ok hi hb hclean ?_ : execSalloc rank sa sd lit s = _)
  rw [← sallocSize_iff, Bool.not_eq_false] at hsize
  simp only [hsize, if_true]

variable (hsize : sallocSize (g.arch.readS sa.toNat).toNat)
include hsize

theorem execSalloc_of_no_range
    (hfull : 64 ≤ b.allocs.length ∨ b.freeBase ((g.arch.readS sa.toNat).toNat / 1024) = none) :
    exec (.salloc rank sa sd lit) s = .next (s.putGroup s.who (g.setS sd.toNat 0x80000003)) := by
  have hnone : (if 64 ≤ b.allocs.length then none else b.freeBase ((g.arch.readS sa.toNat).toNat / 1024)) = none := by
    obtain h | h := hfull
    · exact if_pos h
    · rw [h, ite_self]
  refine (blockForm_source_ok hi hb hclean ?_ : execSalloc rank sa sd lit s = _)
  simp only [(sallocSize_iff _).mpr hsize, Bool.false_eq_true, if_false, hnone]

variable (hlen : b.allocs.length < 64) {base : Nat} (hbase : b.freeBase ((g.arch.readS sa.toNat).toNat / 1024) = some base)
include hlen hbase

theorem execSalloc_of_few_anchors (hrank : rank = 0)
    (hfew : freeAnchors (s.banks g.core) < (g.arch.readS sa.toNat).toNat / 1024) :
    exec (.salloc rank sa sd lit) s = .next (s.putGroup s.who (g.setS sd.toNat 0x80000002)) := by
  refine (blockForm_source_ok hi hb hclean ?_ : execSalloc rank sa sd lit s = _)
  simp only [(sallocSize_iff _).mpr hsize, Bool.false_eq_true, if_false, Nat.not_le.mpr hlen, hbase, hrank, hfew]
  rfl

variable (hanchors : rank = 0 → (g.arch.readS sa.toNat).toNat / 1024 ≤ freeAnchors (s.banks g.core))
include hanchors

theorem execSalloc_of_few_rows (hfew : freeRows (s.banks g.core) < (g.arch.readS sa.toNat).toNat / 1024) :
    exec (.salloc rank sa sd lit) s = .next (s.putGroup s.who (g.setS sd.toNat 0x80000001)) := by
  refine (blockForm_source_ok hi hb hclean ?_ : execSalloc rank sa sd lit s = _)
  simp only [(sallocSize_iff _).mpr hsize, Bool.false_eq_true, if_false, Nat.not_le.mpr hlen, hbase,
    anchorsLack_eq_false hanchors, hfew, if_true]

/-- The allocation stands until the clause that made it is undone. -/
theorem execSalloc_of_rows (hrows : (g.arch.readS sa.toNat).toNat / 1024 ≤ freeRows (s.banks g.core))
    {rows : List (Nat × Nat)}
    (hplace : placeRows ((g.arch.readS sa.toNat).toNat / 1024) rank.toNat (s.banks g.core) = some rows) :
    exec (.salloc rank sa sd lit) s = .next ((({ s with nextId := s.nextId + 1 } : State).setBlock g.block
      (b.addAlloc s.nextId base ((g.arch.readS sa.toNat).toNat / 1024) rank.toNat (target c.hdr lit.toNat 32) rows none
        (some (g.uid, s.nextId)))).putGroup s.who
      { (g.setS sd.toNat base) with cur := some (c.takesBack s.nextId [.alloc g.block s.nextId]) }) := by
  have hcur : ((g.setS sd.toNat base).modCur fun c => c.takesBack s.nextId [.alloc g.block s.nextId]) =
      { (g.setS sd.toNat base) with cur := some (c.takesBack s.nextId [.alloc g.block s.nextId]) } := by
    rw [Group.modCur, Group.setS, hi.2]
    rfl
  refine (blockForm_source_ok hi hb hclean ?_ : execSalloc rank sa sd lit s = _)
  simp only [(sallocSize_iff _).mpr hsize, Bool.false_eq_true, if_false, Nat.not_le.mpr hlen, hbase,
    anchorsLack_eq_false hanchors, Nat.not_lt.mpr hrows, hplace, hcur]

end salloc

/-! The words that name an allocation (R196, R197). -/

theorem execSquery_eq (sd : BitVec 6) : exec (.squery sa sd) s = .next (s.putGroup s.who
    (g.setS sd.toNat (queryWord (b.allocAt (g.arch.readS sa.toNat).toNat) g.uid))) :=
  (blockForm_source_ok hi hb hclean rfl : execSquery sa sd s = _)

section absent
variable (hnone : b.allocAt (g.arch.readS sa.toNat).toNat = none)
include hnone

theorem execSfree_of_none :
    exec (.sfree sa) s = .next (s.raise s.who g (.trap 4 4 noLane (g.arch.readS sa.toNat).toNat)) :=
  (blockForm_error hi hb ((g.arch.badUs_singleton _).trans hclean) (by simp only [hnone]) : execSfree sa s = _)

theorem execSrestore_of_none (sd : BitVec 6) :
    exec (.srestore sa sd) s = .next (s.putGroup s.who (g.setS sd.toNat 4)) :=
  (blockForm_source_ok hi hb hclean (by simp only [hnone]) : execSrestore sa sd s = _)

theorem execSrestoreDone_of_none (sd : BitVec 6) :
    exec (.srestoreDone sa sd) s = .next (s.putGroup s.who (g.setS sd.toNat 4)) :=
  (blockForm_source_ok hi hb hclean (by simp only [hnone]) : execSrestoreDone sa sd s = _)

theorem execSrank_of_none (rank : BitVec 3) (sd : BitVec 6) :
    exec (.srank rank sa sd) s = .next (s.putGroup s.who (g.setS sd.toNat 4)) :=
  (blockForm_source_ok hi hb hclean (by simp only [hnone]) : execSrank rank sa sd s = _)

end absent

section present
variable {a : Alloc} (ha : b.allocAt (g.arch.readS sa.toNat).toNat = some a)
include ha

theorem execSfree_of_some : exec (.sfree sa) s = .next ((({ s with nextId := s.nextId + 1 } : State).putGroup s.who
    { g with cur := some (c.hold (mkReq g c s.nextId (.sfree a.aid))) })) :=
  (blockForm_source_ok hi hb hclean (by simp only [ha]) : execSfree sa s = _)

theorem execSrestore_of_live (sd : BitVec 6) (hst : a.state = .live) :
    exec (.srestore sa sd) s = .next (s.putGroup s.who (g.setS sd.toNat 2)) :=
  (blockForm_source_ok hi hb hclean (by simp only [ha, hst]) : execSrestore sa sd s = _)

theorem execSrestore_of_rebuilding (sd : BitVec 6) {o : Nat} (hst : a.state = .rebuilding o) :
    exec (.srestore sa sd) s = .next (s.putGroup s.who (g.setS sd.toNat (if o = g.uid then 2 else 1))) :=
  (blockForm_source_ok hi hb hclean (by simp only [ha, hst, beq_iff_eq]) : execSrestore sa sd s = _)

theorem execSrestore_of_no_rows (sd : BitVec 6) (hst : a.state = .lost)
    (hplace : placeRows a.granules a.rank (s.banks g.core) = none) :
    exec (.srestore sa sd) s = .next (s.putGroup s.who (g.setS sd.toNat 3)) :=
  (blockForm_source_ok hi hb hclean (by simp only [ha, hst, hplace]) : execSrestore sa sd s = _)

theorem execSrestore_of_rows (sd : BitVec 6) (hst : a.state = .lost) {rows : List (Nat × Nat)}
    (hplace : placeRows a.granules a.rank (s.banks g.core) = some rows) :
    exec (.srestore sa sd) s = .next ((({ s with nextId := s.nextId + 1 } : State).setBlock g.block
      (b.setAlloc { a with state := .rebuilding g.uid, rows := rows, donePend := none,
                           zeroed := some (g.uid, s.nextId) })).putGroup s.who
      { g.setS sd.toNat 0 with cur := some ((c.hold { mkReq g c s.nextId (.szero (1024 * a.granules)) with
          va := a.base }).takesBack s.nextId [.restore g.block s.nextId]) }) :=
  (blockForm_source_ok hi hb hclean (by simp only [ha, hst, hplace]) : execSrestore sa sd s = _)

/-- A second DONE while the first waits. -/
theorem execSrestoreDone_again (sd : BitVec 6) (hst : a.state = .rebuilding g.uid) (hpend : a.donePend ≠ none) :
    exec (.srestoreDone sa sd) s = .next (s.putGroup s.who (g.setS sd.toNat 0)) := by
  refine (blockForm_source_ok hi hb hclean ?_ : execSrestoreDone sa sd s = _)
  simp only [ha, hst, beq_self_eq_true, Option.isSome_iff_ne_none.mpr hpend, Bool.and_self, if_true]

theorem execSrestoreDone_first (sd : BitVec 6) (hst : a.state = .rebuilding g.uid) (hpend : a.donePend = none) :
    exec (.srestoreDone sa sd) s = .next ((({ s with nextId := s.nextId + 1 } : State).setBlock g.block
      (b.setAlloc (if s.writing g.uid s.nextId g.block a then { a with donePend := some s.nextId }
        else { a with state := .live, donePend := none }))).putGroup s.who
      { g.setS sd.toNat 0 with cur := some (c.takesBack s.nextId [.done g.block a.aid g.uid]) }) := by
  refine (blockForm_source_ok hi hb hclean ?_ : execSrestoreDone sa sd s = _)
  rw [← s.settleAlloc_of_rebuilding g.block g.uid s.nextId a hst]
  simp only [ha, hst, beq_self_eq_true, hpend, Option.isSome_none, Bool.and_false, Bool.false_eq_true, if_false, if_true]
  rfl

theorem execSrestoreDone_of_not_rebuilding (sd : BitVec 6) (hst : a.state ≠ .rebuilding g.uid) :
    exec (.srestoreDone sa sd) s = .next (s.putGroup s.who (g.setS sd.toNat 5)) := by
  refine (blockForm_source_ok hi hb hclean ?_ : execSrestoreDone sa sd s = _)
  simp only [ha, beq_false_of_ne hst, Bool.false_and, Bool.false_eq_true, if_false]

theorem execSrank_of_dark_row (sd : BitVec 6) (hdark : ∃ r ∈ a.rows, 4 ≤ r.1) :
    exec (.srank 0 sa sd) s = .next (s.putGroup s.who (g.setS sd.toNat 1)) := by
  have hany : (a.rows.any fun r => decide (4 ≤ r.1)) = true := by simpa using hdark
  refine (blockForm_source_ok hi hb hclean ?_ : execSrank 0 sa sd s = _)
  simp only [ha, hany, beq_self_eq_true, Bool.and_self, if_true]

theorem execSrank_held (rank : BitVec 3) (sd : BitVec 6) (hlit : rank = 0 → ∀ r ∈ a.rows, r.1 < 4) :
    exec (.srank rank sa sd) s = .next (({ s with nextId := s.nextId + 1 } : State).putGroup s.who
      (({ g with cur := some (c.hold (mkReq g c s.nextId (.srank a.aid rank.toNat))) } : Group).setS sd.toNat 0)) := by
  have hcan : (rank == 0 && a.rows.any fun r => decide (4 ≤ r.1)) = false := by simpa using hlit
  refine (blockForm_source_ok hi hb hclean ?_ : execSrank rank sa sd s = _)
  simp only [ha, hcan, Bool.false_eq_true, if_false]

end present

end source

theorem execSqueryCnt_eq (sd : BitVec 6) :
    exec (.squeryCnt sd) s = .next (s.putGroup s.who (g.setS sd.toNat b.lostCount.toNat)) :=
  (blockForm_ok hi hb rfl rfl : execSqueryCnt sd s = _)

end words

/-! LHRET (R199). -/

theorem execLhret_of_record {s : State} {g : Group} {c : Cur} (hi : s.Issues g c) (hrec : g.arch.lhret ≠ []) :
    exec .lhret s = .next (s.putGroup s.who { g with cur := some { c with commit := true, lhret := true } }) := by
  refine (issue_ok s _ g c _ _ hi.1 hi.2 ?_ : execLhret s = _)
  simp only [List.isEmpty_eq_false_iff.mpr hrec, Bool.false_eq_true, if_false, Group.modCur, hi.2, Option.map_some]

theorem execLhret_of_no_record {s : State} {g : Group} {c : Cur} (hi : s.Issues g c) (hrec : g.arch.lhret = []) :
    exec .lhret s = .next (s.raise s.who g illegal) := by
  refine (issue_error s _ g c _ hi.1 hi.2 ?_ : execLhret s = _)
  simp only [hrec, List.isEmpty_nil, if_true]

/-- Settles O45: each word by what stands at the offset it names. -/
theorem allocationWords : Obligations.AllocationWords := by
  unfold Obligations.AllocationWords
  intro s g c b hi hb writes holds
  refine ⟨fun rank sa sd lit hclean => ?salloc, fun sa sd hclean => ⟨execSquery_eq hi hb hclean sd, fun hnone => ?none,
    fun a ha => ?some⟩, execSqueryCnt_eq hi hb, execLhret_of_record hi, execLhret_of_no_record hi⟩
  case salloc =>
    exact ⟨execSalloc_of_bad_size hi hb hclean rank sd lit, execSalloc_of_no_range hi hb hclean rank sd lit,
      fun hsize hlen base hbase => ⟨execSalloc_of_few_anchors hi hb hclean rank sd lit hsize hlen hbase,
        execSalloc_of_few_rows hi hb hclean rank sd lit hsize hlen hbase, fun hanchors hrows rows hplace =>
        execSalloc_of_rows hi hb hclean rank sd lit hsize hlen hbase hanchors hrows hplace⟩⟩
  case none =>
    exact ⟨execSfree_of_none hi hb hclean hnone, execSrestore_of_none hi hb hclean hnone sd,
      execSrestoreDone_of_none hi hb hclean hnone sd, fun rank => execSrank_of_none hi hb hclean hnone rank sd⟩
  case some =>
    refine ⟨⟨_, rfl, rfl, execSfree_of_some hi hb hclean ha⟩, execSrestore_of_live hi hb hclean ha sd,
      fun o hst => execSrestore_of_rebuilding hi hb hclean ha sd hst, execSrestore_of_no_rows hi hb hclean ha sd,
      fun hst rows hplace => ⟨_, rfl, rfl, rfl, rfl, execSrestore_of_rows hi hb hclean ha sd hst hplace⟩,
      execSrestoreDone_again hi hb hclean ha sd, execSrestoreDone_first hi hb hclean ha sd,
      execSrestoreDone_of_not_rebuilding hi hb hclean ha sd, fun rank => ⟨?_, fun hlit =>
        ⟨_, rfl, rfl, execSrank_held hi hb hclean ha rank sd hlit⟩⟩⟩
    rintro rfl hdark
    exact execSrank_of_dark_row hi hb hclean ha sd hdark

end Sys2Proof.Machine
end

section
/-! PROOF. Banks, temperature and power (O59). Losing an allocation empties the rows of every allocation at its base
(`Block.mem_loseAlloc`), so no row of a darkened bank is left. The throttle steps change every cluster in the same way
(`State.eachCluster_changes`), and the third lever takes the first core of a turn that can give, or the last that can
get (`find?_contains_map_range`, `find?_contains_reverse_map_range`). -/

namespace Sys2Proof.Machine

/-! Cores and clusters after an update. -/

@[simp] theorem State.core_setCore (s : State) (k : Nat) (x : Core) : (s.setCore k x).core k = x :=
  Store.get_set_same s.cores k x Core.reset

/-! The target of lit banks (R191, R201). -/

theorem State.setTarget_of_free (s : State) (core t : Nat) (h : (s.core core).hold = false) :
    s.setTarget core t = s.setCore core { s.core core with target := clampTarget t } := by
  simp only [State.setTarget, h, Bool.not_false, if_true]

section held
variable (s : State) (core t : Nat) (h : (s.core core).hold = true)
include h

theorem State.setTarget_of_held_running (hthrot : (s.cluster (clusterOf core)).throt = false)
    (hcool : (s.cluster (clusterOf core)).cool = false) : s.setTarget core t = s := by
  simp only [State.setTarget, h, hthrot, hcool, Bool.not_true, Bool.or_self, Bool.false_eq_true, if_false]

/-- Where privileged code holds T, it goes down only. -/
theorem State.setTarget_of_held_slowed
    (hslow : (s.cluster (clusterOf core)).throt = true ∨ (s.cluster (clusterOf core)).cool = true) :
    s.setTarget core t = s.setCore core { s.core core with target := min (s.core core).target (clampTarget t) } := by
  simp only [State.setTarget, h, Bool.or_eq_true, hslow, Bool.not_true, Bool.false_eq_true, if_false, if_true]

end held

theorem execLitTargetChange_of_lt (s : State) (core t : Nat) (h : core < Config.cores) :
    execLitTargetChange core t s = .next (s.setTarget core t) := if_pos h

/-! Darkening (R188, R191). -/

/-- An allocation after a loss has no rows, or is another one as it was. -/
theorem Block.mem_loseAlloc {b : Block} {base : Nat} {y : Alloc} (hy : y ∈ (b.loseAlloc base).allocs) :
    y.rows = [] ∨ y ∈ b.allocs ∧ y.base ≠ base := by
  unfold Block.loseAlloc at hy
  split at hy
  · obtain ⟨x, hx, rfl⟩ := List.mem_map.mp hy
    split
    · exact .inl rfl
    · next hne => exact .inr ⟨hx, fun h => hne (beq_iff_eq.mpr h)⟩
  · next hnone => exact .inr ⟨hy, fun h => List.find?_eq_none.mp hnone y hy (beq_iff_eq.mpr h)⟩

/-- One allocation lost to a dark bank, as `Block.darken` does it. -/
def Block.loseToBank (b : Block) (a : Alloc) : Block :=
  let b1 := { b.loseAlloc a.base with lostCount := b.lostCount + 1 }
  match a.spill with | some h => b1.spillLost h a.base | none => b1

theorem Block.loseToBank_allocs (b : Block) (a : Alloc) : (b.loseToBank a).allocs = (b.loseAlloc a.base).allocs := by
  unfold Block.loseToBank
  split <;> rfl

theorem Block.darken_eq (b : Block) (bank : Nat) : b.darken bank =
    (b.allocs.filter fun a => a.rows.any fun r => r.1 == bank).foldl Block.loseToBank b := rfl

theorem Block.mem_foldl_loseToBank {y : Alloc} (l : List Alloc) : ∀ {b : Block}, y ∈ (l.foldl Block.loseToBank b).allocs →
    y.rows = [] ∨ y ∈ b.allocs ∧ ∀ a ∈ l, y.base ≠ a.base := by
  induction l with
  | nil => exact fun hy => .inr ⟨hy, fun _ h => absurd h List.not_mem_nil⟩
  | cons a l ih =>
    intro b hy
    obtain hrows | ⟨hmem, hl⟩ := ih hy
    · exact .inl hrows
    · rw [Block.loseToBank_allocs] at hmem
      obtain hrows | ⟨hb, hne⟩ := Block.mem_loseAlloc hmem
      · exact .inl hrows
      · exact .inr ⟨hb, List.forall_mem_cons.mpr ⟨hne, hl⟩⟩

/-- No allocation keeps a row in the dark bank. -/
theorem Block.darken_no_row {b : Block} {bank : Nat} {y : Alloc} (hy : y ∈ (b.darken bank).allocs) :
    ∀ r ∈ y.rows, r.1 ≠ bank := by
  intro r hr hbank
  obtain hrows | ⟨hmem, hne⟩ := Block.mem_foldl_loseToBank _ (b.darken_eq bank ▸ hy)
  · exact List.ne_nil_of_mem hr hrows
  · exact hne y (List.mem_filter.mpr ⟨hmem, List.any_eq_true.mpr ⟨r, hr, beq_iff_eq.mpr hbank⟩⟩) rfl

theorem State.darkest_of_some {s : State} {core : Nat} {b : Bank} (h : s.darkest core = some b) :
    4 ≤ b.idx ∧ b ∈ s.banks core ∧
    ∀ y ∈ s.banks core, 4 ≤ y.idx → b.rank.elim 0 (· + 1) ≤ y.rank.elim 0 (· + 1) := by
  have hkey (x : Bank) : (match x.rank with | none => 0 | some k => k + 1) = x.rank.elim 0 (· + 1) := by
    cases x.rank <;> rfl
  have hmem := List.mem_of_getLast? h
  simp only [List.mem_filter, List.all_eq_true, decide_eq_true_eq] at hmem
  obtain ⟨⟨hbank, hidx⟩, hleast⟩ := hmem
  exact ⟨hidx, hbank, fun y hy hy4 =>
    Nat.le_trans (Nat.le_of_eq (hkey b).symm) (Nat.le_trans (hleast y ⟨hy, hy4⟩) (Nat.le_of_eq (hkey y)))⟩

/-- The blocks of a core with a bank dark; those of other cores stay. -/
def State.darkBlocks (s : State) (core bank : Nat) : Store Block :=
  s.blocks.map fun x => (x.1, if x.2.core == core then x.2.darken bank else x.2)

theorem State.darkBlocks_no_row {s : State} {core bank : Nat} {x : Nat × Block} (hx : x ∈ s.darkBlocks core bank)
    (hcore : x.2.core = core) : ∀ a ∈ x.2.allocs, ∀ r ∈ a.rows, r.1 ≠ bank := by
  obtain ⟨y, -, rfl⟩ := List.mem_map.mp hx
  intro a ha
  split at ha
  · exact Block.darken_no_row ha
  · next hother =>
    refine absurd ?_ hother
    rwa [if_neg hother, ← beq_iff_eq] at hcore

theorem execBankDarken_of_few (s : State) (core : Nat) (h : (s.core core).lit.length ≤ (s.core core).target) :
    execBankDarken core s = .next s := if_pos h

theorem execBankDarken_of_darkest (s : State) (core : Nat) (h : (s.core core).target < (s.core core).lit.length) {b : Bank}
    (hb : s.darkest core = some b) :
    execBankDarken core s = .next (({ s with blocks := s.darkBlocks core b.idx } : State).setCore core
      { s.core core with lit := (s.core core).lit.filter (· != b.idx) }) := by
  simp only [execBankDarken, Nat.not_le.mpr h, if_false, hb]
  rfl

/-! Relighting (R191). -/

theorem execBankRelight_of_enough (s : State) (core : Nat) (h : (s.core core).target ≤ (s.core core).lit.length) :
    execBankRelight core s = .next s := if_pos h

/-- The lowest dark bank is lit. -/
theorem execBankRelight_of_lowest (s : State) (core i : Nat) (h : (s.core core).lit.length < (s.core core).target)
    (hi : i < 48) (hdark : i ∉ (s.core core).lit) (hlow : ∀ j < i, j ∈ (s.core core).lit) :
    execBankRelight core s = .next (s.setCore core { s.core core with lit := NSet.insert (s.core core).lit i }) := by
  have hfind : ((List.range 48).find? fun i => !(s.core core).lit.contains i) = some i := by
    rw [List.find?_range_eq_some]
    exact ⟨by simpa using hdark, List.mem_range.mpr hi, fun j hj => by simpa using hlow j hj⟩
  simp only [execBankRelight, Nat.not_le.mpr h, if_false, hfind]

/-! Every cluster changed in one way (R353). -/

/-- `t` is `s` with the clusters of a set changed by `f`: the others, the time, the memory and the groups stay. -/
structure State.ChangesClusters (s t : State) (p : Nat → Prop) (f : Cluster → Cluster) : Prop where
  inside : ∀ j, p j → t.cluster j = f (s.cluster j)
  outside : ∀ j, ¬p j → t.cluster j = s.cluster j
  now : t.now = s.now
  mem : t.mem = s.mem
  groups : t.groups = s.groups

theorem State.setCluster_changes (s : State) (k : Nat) (f : Cluster → Cluster) :
    s.ChangesClusters (s.setCluster k (f (s.cluster k))) (· = k) f :=
  ⟨fun _ hj => hj ▸ s.cluster_setCluster k _, fun j hj => s.cluster_setCluster_other k j _ hj, rfl, rfl, rfl⟩

section each
variable {f : Nat → Cluster → Cluster} {step : State → Nat → State}
  (hstep : ∀ s k, State.ChangesClusters s (step s k) (· = k) (f s.now))
include hstep

theorem State.foldl_changes (l : List Nat) : ∀ s : State, l.Nodup →
    s.ChangesClusters (l.foldl step s) (· ∈ l) (f s.now) := by
  induction l with
  | nil => exact fun s _ => ⟨fun j hj => absurd hj List.not_mem_nil, fun _ _ => rfl, rfl, rfl, rfl⟩
  | cons k l ih =>
    intro s hl
    obtain ⟨hk, hl⟩ := List.nodup_cons.mp hl
    obtain ⟨hsame, hother, hnow, hmem, hgroups⟩ := hstep s k
    obtain ⟨hin, hout, hnow', hmem', hgroups'⟩ := ih (step s k) hl
    refine ⟨fun j hj => ?_, fun j hj => ?_, hnow'.trans hnow, hmem'.trans hmem, hgroups'.trans hgroups⟩
    · obtain rfl | hj := List.mem_cons.mp hj
      · exact (hout j hk).trans (hsame j rfl)
      · rw [List.foldl_cons, hin j hj, hnow, hother j fun h => hk (h ▸ hj)]
    · obtain ⟨hne, hj⟩ := not_or.mp (mt List.mem_cons.mpr hj)
      exact (hout j hj).trans (hother j hne)

theorem State.eachCluster_changes (s : State) : s.ChangesClusters (s.eachCluster step) (· < Config.clusters) (f s.now) := by
  simpa only [State.eachCluster, List.mem_range] using
    State.foldl_changes hstep (List.range Config.clusters) s List.nodup_range

end each

/-! Sprints (R352). -/

theorem State.endSprint_of_sprint (s : State) (cl : Nat) (h : (s.cluster cl).sprint = true) :
    s.endSprint cl = s.setCluster cl { (s.cluster cl) with sprint := false, cool := true, since := s.now } := if_pos h
theorem State.endSprint_of_no_sprint (s : State) (cl : Nat) (h : (s.cluster cl).sprint = false) : s.endSprint cl = s :=
  if_neg (by simp [h])

theorem execSprintEnd_of_over (s : State) (cl : Nat) (h : (s.cluster cl).sprint = true)
    (hover : (s.cluster cl).since + 40000000 ≤ s.now) : execSprintEnd cl s =
    .next (s.setCluster cl { (s.cluster cl) with sprint := false, cool := true, since := s.now }) := by
  rw [← s.endSprint_of_sprint cl h]
  exact if_pos (by simp [h, hover])

theorem execSprintEnd_of_not_over (s : State) (cl : Nat)
    (h : (s.cluster cl).sprint = false ∨ s.now < (s.cluster cl).since + 40000000) : execSprintEnd cl s = .next s := by
  refine if_neg ?_
  rw [Bool.and_eq_true, decide_eq_true_eq, sprintCycles]
  obtain h | h := h
  · simp [h]
  · omega

theorem execCoolDownEnd_of_over (s : State) (cl : Nat) (h : (s.cluster cl).cool = true)
    (hover : (s.cluster cl).since + 160000000 ≤ s.now) :
    execCoolDownEnd cl s = .next (s.setCluster cl { (s.cluster cl) with cool := false }) := if_pos (by simp [h, hover])

theorem execCoolDownEnd_of_not_over (s : State) (cl : Nat)
    (h : (s.cluster cl).cool = false ∨ s.now < (s.cluster cl).since + 160000000) : execCoolDownEnd cl s = .next s := by
  refine if_neg ?_
  rw [Bool.and_eq_true, decide_eq_true_eq, coolCycles]
  obtain h | h := h
  · simp [h]
  · omega

/-! Throttling (R353). -/

theorem State.dwelt_iff (s : State) : s.dwelt = true ↔
    ∀ i < Config.clusters, ∀ t0, (s.cluster i).thrSince = some t0 → t0 + 2000000 ≤ s.now := by
  simp only [State.dwelt, List.all_eq_true, List.mem_range]
  refine forall₂_congr fun i _ => ?_
  cases (s.cluster i).thrSince with
  | none => simp
  | some t => simp [dwellCycles]

/-- A cluster when its throttling begins at cycle `now`: a sprint ends and cools down. -/
def Cluster.throttled (hot : Bool) (now : Nat) (c : Cluster) : Cluster :=
  { c with sprint := false, cool := c.sprint || c.cool, since := if c.sprint then now else c.since, throt := true,
           hot := hot, thrSince := some now }

/-- A cluster when its throttling ends. -/
def Cluster.released (now : Nat) (c : Cluster) : Cluster := { c with throt := false, hot := false, thrSince := some now }

theorem State.throttle_changes (hot : Bool) (s : State) (k : Nat) :
    s.ChangesClusters (s.throttle hot k) (· = k) (Cluster.throttled hot s.now) := by
  cases h : (s.cluster k).sprint with
  | false =>
    have heq : s.throttle hot k = s.setCluster k (Cluster.throttled hot s.now (s.cluster k)) := by
      simp only [State.throttle, s.endSprint_of_no_sprint k h, Cluster.throttled, h, Bool.false_or, Bool.false_eq_true,
        if_false]
    exact heq ▸ s.setCluster_changes k (Cluster.throttled hot s.now)
  | true =>
    rw [State.throttle, s.endSprint_of_sprint k h]
    refine ⟨fun j hj => ?_, fun j hj => ?_, rfl, rfl, rfl⟩
    · simp [hj, Cluster.throttled, h]
    · rw [State.cluster_setCluster_other _ k j _ hj, s.cluster_setCluster_other k j _ hj]

/-- The state with a sensor sample taken. -/
def State.sampled (s : State) (cl : Nat) (temp : BitVec 8) : State :=
  ({ s with draws := s.draws + 1 } : State).setCluster cl
    { (s.cluster cl) with temp := temp, under := temp.toNat + 2 ≤ (s.cluster cl).thresh.toNat }

/-- The sample is at THRESH, or a supply droop comes with it, and throttling may begin. -/
def State.alarms (s : State) (cl : Nat) (temp : BitVec 8) : Bool :=
  (decide ((s.cluster cl).thresh ≤ temp) || Config.anyNat s.draws % 2 == 1) && !(s.cluster cl).throt && s.dwelt

theorem execThermalAlarm_eq (s : State) (cl : Nat) (temp : BitVec 8) (hcl : cl < Config.clusters) :
    execThermalAlarm cl temp s = .next (if s.alarms cl temp then
      (s.sampled cl temp).eachCluster fun t i => t.throttle (decide ((s.cluster cl).thresh ≤ temp)) i
      else s.sampled cl temp) := by
  have hquiet : (!(decide ((s.cluster cl).thresh ≤ temp) || Config.anyNat s.draws % 2 == 1) || (s.cluster cl).throt ||
      !s.dwelt) = !s.alarms cl temp := by simp [State.alarms]
  simp only [execThermalAlarm, Nat.not_le.mpr hcl, if_false, hquiet]
  cases s.alarms cl temp <;> rfl

/-- Nothing is throttled by a sample while a throttle state stands. -/
theorem State.alarms_eq_false {s : State} {cl : Nat} {temp : BitVec 8}
    (h : (s.cluster cl).throt = true ∨ s.dwelt = false) : s.alarms cl temp = false := by
  obtain h | h := h <;> simp [State.alarms, h]

theorem State.alarms_of_hot {s : State} {cl : Nat} {temp : BitVec 8} (hot : (s.cluster cl).thresh ≤ temp)
    (hthrot : (s.cluster cl).throt = false) (hdwelt : s.dwelt = true) : s.alarms cl temp = true := by
  simp [State.alarms, hot, hthrot, hdwelt]

theorem State.sprint_sampled (s : State) (cl : Nat) (temp : BitVec 8) (i : Nat) :
    ((s.sampled cl temp).cluster i).sprint = (s.cluster i).sprint := by
  refine State.cluster_setCluster_field Cluster.sprint ({ s with draws := s.draws + 1 } : State) cl _ ?_ i
  rfl

theorem State.temp_sampled (s : State) (cl : Nat) (temp : BitVec 8) : ((s.sampled cl temp).cluster cl).temp = temp := by
  rw [State.sampled, State.cluster_setCluster]

/-- A sample is taken; at THRESH it throttles every cluster and ends every sprint. -/
theorem execThermalAlarm_spec (s : State) (cl : Nat) (temp : BitVec 8) (hcl : cl < Config.clusters) :
    ∃ t, execThermalAlarm cl temp s = .next t ∧ (t.cluster cl).temp = temp ∧
      ((s.cluster cl).throt = true ∨ s.dwelt = false → t = s.sampled cl temp) ∧
      ((s.cluster cl).thresh ≤ temp → (s.cluster cl).throt = false → s.dwelt = true → ∀ i < Config.clusters,
        t.cluster i = Cluster.throttled true s.now ((s.sampled cl temp).cluster i)) := by
  refine ⟨_, execThermalAlarm_eq s cl temp hcl, ?temp, fun h => if_neg (by simp [State.alarms_eq_false h]), ?hot⟩
  case temp =>
    split
    · rw [(State.eachCluster_changes (State.throttle_changes _) _).inside cl hcl, Cluster.throttled, s.temp_sampled cl temp]
    · exact s.temp_sampled cl temp
  case hot =>
    intro hot hthrot hdwelt i hi
    rw [if_pos (State.alarms_of_hot hot hthrot hdwelt), decide_eq_true hot]
    exact (State.eachCluster_changes (State.throttle_changes true) (s.sampled cl temp)).inside i hi

theorem execThrottleRelease_of_standing (s : State)
    (h : (¬ ∀ i < Config.clusters, (s.cluster i).under = true) ∨ s.dwelt = false) : execThrottleRelease s = .next s := by
  refine if_pos ?_
  obtain h | h := h
  · have hcool : ((List.range Config.clusters).all fun i => (s.cluster i).under) = false := by
      rw [← Bool.not_eq_true, List.all_eq_true]
      simpa only [List.mem_range] using h
    simp [hcool]
  · simp [h]

theorem execThrottleRelease_of_cool (s : State) (hcool : ∀ i < Config.clusters, (s.cluster i).under = true)
    (hdwelt : s.dwelt = true) (hon : ∃ i < Config.clusters, (s.cluster i).throt = true) :
    execThrottleRelease s = .next (s.eachCluster fun t i => t.setCluster i (Cluster.released t.now (t.cluster i))) := by
  have hall : ((List.range Config.clusters).all fun i => (s.cluster i).under) = true := by
    simpa only [List.all_eq_true, List.mem_range] using hcool
  have hany : ((List.range Config.clusters).any fun i => (s.cluster i).throt) = true := by
    simpa only [List.any_eq_true, List.mem_range] using hon
  exact if_neg (by simp only [hall, hany, hdwelt]; decide)

/-! Turns (R352). -/

section turn
variable (f : Nat → Nat) (ks : List Nat) {n i : Nat} (hi : i < n) (hin : f i ∈ ks)
include hi hin

/-- The first of a turn's cores that is among `ks`. -/
theorem find?_contains_map_range (hlow : ∀ j < i, f j ∉ ks) :
    ((List.range n).map f).find? ks.contains = some (f i) := by
  have hfind : (List.range n).find? (ks.contains ∘ f) = some i :=
    List.find?_range_eq_some.mpr ⟨by simpa using hin, List.mem_range.mpr hi, fun j hj => by simpa using hlow j hj⟩
  rw [List.find?_map, hfind, Option.map_some]

/-- The last of a turn's cores that is among `ks`. -/
theorem find?_contains_reverse_map_range (hhigh : ∀ j < n, i < j → f j ∉ ks) :
    ((List.range n).map f).reverse.find? ks.contains = some (f i) := by
  rw [List.find?_eq_some_iff_getElem]
  refine ⟨by simpa using hin, n - 1 - i, by simp; omega, ?_, fun j hj => ?_⟩
  · have hback : n - 1 - (n - 1 - i) = i := by omega
    simp [hback]
  · simpa using hhigh (n - 1 - j) (by omega) (by omega)

end turn

theorem find?_contains_nil {ks : List Nat} (h : ks = []) (l : List Nat) : l.find? ks.contains = none := by simp [h]

/-- The core of cluster `cl` whose turn has the number `n`, from the highest number down. -/
def coreOfTurn (cl n : Nat) : Nat :=
  Config.coresPerCluster * cl + (Config.coresPerCluster - 1 - n % Config.coresPerCluster)

theorem turnOrder_eq (cl n : Nat) :
    turnOrder cl n = (List.range Config.coresPerCluster).map fun i => coreOfTurn cl (n + i) := rfl

theorem coreOfTurn_lt (cl n : Nat) (h : cl < Config.clusters) : coreOfTurn cl n < Config.cores := by
  simp only [coreOfTurn, Config.clusters, Config.cores, Config.coresPerCluster] at h ⊢
  omega

/-- The turn after a core's. -/
theorem nextTurn_of_coreOfTurn (cl n : Nat) : Config.coresPerCluster - coreOfTurn cl n % Config.coresPerCluster =
    n % Config.coresPerCluster + 1 := by
  simp only [coreOfTurn, Config.coresPerCluster]
  omega

/-- A core's own turn. -/
theorem turn_of_coreOfTurn (cl n : Nat) : Config.coresPerCluster - 1 - coreOfTurn cl n % Config.coresPerCluster =
    n % Config.coresPerCluster := by
  simp only [coreOfTurn, Config.coresPerCluster]
  omega

/-! The levers (R352). -/

section lever
variable (s : State) (cl : Nat) (hcl : cl < Config.clusters)
include hcl

theorem tighten_of_sprint (h : (s.cluster cl).sprint = true) : execPowerBudgetAdjust cl true s =
    .next (s.setCluster cl { (s.cluster cl) with sprint := false, cool := true, since := s.now }) := by
  simp only [execPowerBudgetAdjust, Nat.not_le.mpr hcl, if_false, if_true, h, s.endSprint_of_sprint cl h]

section noSprint
variable (hsprint : (s.cluster cl).sprint = false)
include hsprint

theorem tighten_of_none (h : (s.cluster cl).passreq = 0) :
    execPowerBudgetAdjust cl true s = .next (s.setCluster cl { (s.cluster cl) with passreq := 1 }) := by
  simp only [execPowerBudgetAdjust, Nat.not_le.mpr hcl, if_false, if_true, hsprint, h, Bool.false_eq_true, beq_self_eq_true]

variable (h : (s.cluster cl).passreq ≠ 0)
include h

theorem tighten_of_none_lowerable (hnone : s.lowerable cl = []) :
    execPowerBudgetAdjust cl true s = .next (s.setCluster cl { (s.cluster cl) with passreq := 2 }) := by
  simp only [execPowerBudgetAdjust, Nat.not_le.mpr hcl, if_false, if_true, hsprint, beq_false_of_ne h, Bool.false_eq_true,
    find?_contains_nil hnone]

/-- The first core of the turn whose T can fall gives a bank. -/
theorem tighten_of_turn {i : Nat} (hi : i < Config.coresPerCluster)
    (hturn : coreOfTurn cl ((s.cluster cl).lever + i) ∈ s.lowerable cl)
    (hlow : ∀ j < i, coreOfTurn cl ((s.cluster cl).lever + j) ∉ s.lowerable cl) :
    let k := coreOfTurn cl ((s.cluster cl).lever + i)
    execPowerBudgetAdjust cl true s = .next ((s.setCluster cl { (s.cluster cl) with
      lever := ((s.cluster cl).lever + i) % Config.coresPerCluster + 1 }).setTarget k ((s.core k).target - 1)) := by
  intro k
  have hfind : (turnOrder cl (s.cluster cl).lever).find? (s.lowerable cl).contains = some k :=
    find?_contains_map_range _ _ hi hturn hlow
  simp only [execPowerBudgetAdjust, Nat.not_le.mpr hcl, if_false, if_true, hsprint, beq_false_of_ne h, Bool.false_eq_true,
    hfind, k, nextTurn_of_coreOfTurn, execLitTargetChange_of_lt _ _ _ (coreOfTurn_lt cl _ hcl)]

end noSprint

theorem relax_of_pass (h : 2 ≤ (s.cluster cl).passreq) :
    execPowerBudgetAdjust cl false s = .next (s.setCluster cl { (s.cluster cl) with passreq := 1 }) := by
  simp only [execPowerBudgetAdjust, Nat.not_le.mpr hcl, if_false, Bool.false_eq_true, h, if_true]

/-- The last core of the turn whose T can rise gets a bank back. -/
theorem relax_of_turn (h : (s.cluster cl).passreq < 2) {i : Nat} (hi : i < Config.coresPerCluster)
    (hturn : coreOfTurn cl ((s.cluster cl).lever + i) ∈ s.raisable cl)
    (hhigh : ∀ j < Config.coresPerCluster, i < j → coreOfTurn cl ((s.cluster cl).lever + j) ∉ s.raisable cl) :
    let k := coreOfTurn cl ((s.cluster cl).lever + i)
    execPowerBudgetAdjust cl false s = .next ((s.setCluster cl { (s.cluster cl) with
      lever := ((s.cluster cl).lever + i) % Config.coresPerCluster }).setTarget k ((s.core k).target + 1)) := by
  intro k
  have hfind : (turnOrder cl (s.cluster cl).lever).reverse.find? (s.raisable cl).contains = some k :=
    find?_contains_reverse_map_range _ _ hi hturn hhigh
  simp only [execPowerBudgetAdjust, Nat.not_le.mpr hcl, if_false, Bool.false_eq_true, Nat.not_le.mpr h,
    hfind, k, turn_of_coreOfTurn, execLitTargetChange_of_lt _ _ _ (coreOfTurn_lt cl _ hcl)]

section noneRaisable
variable (hnone : s.raisable cl = [])
include hnone

theorem relax_of_none_raisable (h : (s.cluster cl).passreq = 1) :
    execPowerBudgetAdjust cl false s = .next (s.setCluster cl { (s.cluster cl) with passreq := 0 }) := by
  simp only [execPowerBudgetAdjust, Nat.not_le.mpr hcl, if_false, Bool.false_eq_true, h, find?_contains_nil hnone]
  rfl

/-- With nothing left to release a cluster may sprint. -/
theorem relax_to_sprint (h : (s.cluster cl).passreq = 0) (hsprint : (s.cluster cl).sprint = false)
    (hcool : (s.cluster cl).cool = false) (hthrot : (s.cluster cl).throt = false)
    (hcoll : ((s.cluster cl).det && s.collective cl) = false) :
    execPowerBudgetAdjust cl false s = .next (s.setCluster cl { (s.cluster cl) with sprint := true, since := s.now }) := by
  simp only [execPowerBudgetAdjust, Nat.not_le.mpr hcl, if_false, Bool.false_eq_true, h, find?_contains_nil hnone, hsprint,
    hcool, hthrot, hcoll]
  rfl

end noneRaisable

end lever

/-- Settles O59: banks core by core, the throttle state over all clusters, and the levers of one cluster in their order. -/
theorem bankAndPowerSteps : Obligations.BankAndPowerSteps := by
  unfold Obligations.BankAndPowerSteps
  refine fun s => ⟨fun core => ?banks, ?thermal, fun cl hcl => ?power⟩
  case banks =>
    intro c cl
    refine ⟨fun t hcore => ?target, execBankDarken_of_few s core, fun b hfew hb => ?darken,
      execBankRelight_of_enough s core, execBankRelight_of_lowest s core⟩
    case target =>
      intro x
      have hexec : exec (.litTargetChange core t) s = _ := execLitTargetChange_of_lt s core t hcore
      rw [hexec]
      exact ⟨fun h => congrArg _ (s.setTarget_of_free core t h),
        fun h hthrot hcool => congrArg _ (s.setTarget_of_held_running core t h hthrot hcool),
        fun h hslow => congrArg _ (s.setTarget_of_held_slowed core t h hslow)⟩
    case darken =>
      obtain ⟨hidx, hbank, hleast⟩ := State.darkest_of_some hb
      exact ⟨_, execBankDarken_of_darkest s core hfew hb, hidx, hbank, hleast, by rw [State.core_setCore], rfl, rfl,
        fun x hx => State.darkBlocks_no_row hx⟩
  case thermal =>
    intro dwelt
    have hdwelt : s.dwelt = true ↔ dwelt := s.dwelt_iff
    have hnot : s.dwelt = false ↔ ¬dwelt := by rw [← hdwelt, Bool.not_eq_true]
    refine ⟨fun cl temp hcl => ?alarm, fun hno => ?stands, fun hcool hd hon => ?release⟩
    case alarm =>
      obtain ⟨t, ht, htemp, hquiet, hhot⟩ := execThermalAlarm_spec s cl temp hcl
      refine ⟨t, ht, htemp, fun h => hquiet (h.imp_right hnot.mpr), fun hot hthrot hd i hi => ?_⟩
      rw [hhot hot hthrot (hdwelt.mpr hd) i hi, ← s.sprint_sampled cl temp i]
      exact ⟨rfl, rfl, rfl, rfl, fun hsprint => by simp [Cluster.throttled, hsprint]⟩
    case stands => exact execThrottleRelease_of_standing s (hno.imp_right hnot.mpr)
    case release =>
      obtain ⟨hin, -, -, hmem, hgroups⟩ :=
        State.eachCluster_changes (fun s k => s.setCluster_changes k (Cluster.released s.now)) s
      refine ⟨_, execThrottleRelease_of_cool s hcool (hdwelt.mpr hd) hon, hmem, hgroups, fun i hi => ?_⟩
      rw [hin i hi]
      exact ⟨rfl, rfl, rfl⟩
  case power =>
    intro c set stop n turn down up
    exact ⟨tighten_of_sprint s cl hcl, tighten_of_none s cl hcl, fun hsprint h =>
      ⟨tighten_of_none_lowerable s cl hcl hsprint h, fun i => tighten_of_turn s cl hcl hsprint h⟩,
      relax_of_pass s cl hcl, fun h i => relax_of_turn s cl hcl h, relax_of_none_raisable s cl hcl,
      relax_to_sprint s cl hcl, execSprintEnd_of_over s cl, execCoolDownEnd_of_over s cl, execSprintEnd_of_not_over s cl,
      execCoolDownEnd_of_not_over s cl⟩

end Sys2Proof.Machine
end
